-- ==== Sys2Proof/Word.lean ====
section
/-! DEFINITION. The word types of ASE and the index types of its register groups (00_scope.md R6, R10). -/

namespace Sys2Proof

/-- A 32-bit register or memory word. -/
abbrev Word := BitVec 32

/-- One byte of system memory. -/
abbrev Byte := BitVec 8

/-- An instance index (the 4-bit field `IDX`, 30_encoding.md R101) or a codec number (`N_CODEC ≤ 16`, R6). -/
abbrev Idx := Fin 16

/-- A microphone channel number (`N_MIC ≤ 12`, 00_scope.md R6, R9). -/
abbrev Mic := Fin 12

end Sys2Proof
end

