-- ==== Sys2Proof/Syntax.lean ====
section
/-! DEFINITION. The commands of ASE, one constructor per row of spec/opcode_table.json (30_encoding.md R101 to
R107), and the names the commands and the agents share: directions, queues, completions. -/

namespace Sys2Proof

/-- The direction of an instance: `out` is Audio-Out (`DIR = 0`), `inp` is Audio-In (`DIR = 1`) (R101). -/
inductive Dir where
  | out
  | inp
  deriving DecidableEq, Repr, Inhabited

/-- The transfer queues (10_state.md R31): `qo i` of `OUT[i]`, `qi j` of the `SERIAL` instance `IN[j]`, `qm m` of
microphone channel `m`. -/
inductive QueueId where
  | qo (i : Idx)
  | qi (j : Idx)
  | qm (m : Mic)
  deriving DecidableEq, Repr, Inhabited

/-- The three completion sources of a queue (60_exceptions.md R278). -/
inductive Completion where
  | ht
  | tc
  | err
  deriving DecidableEq, Repr, Inhabited

/-- The commands. Every field of the word that a command reads is a field here; the parts of an immediate that
must be zero are kept (`mbz`), because a non-zero one is no reserved encoding but a `WrongParam` of the command
(R104, R105). The operands `ARG0`, `ARG1` are registers of the state, not fields of the word (R110). -/
inductive Instr where
  /-- INIT (R131): `vol = IMM[6:0]`, `mbz = IMM[7]`, `bits = IMM[13:8]`, `ch = IMM[15:14]` (R104). -/
  | init (d : Dir) (i : Idx) (ch : BitVec 2) (bits : BitVec 6) (mbz : BitVec 1) (vol : BitVec 7)
  /-- DEINIT (R132). -/
  | deinit (d : Dir) (i : Idx)
  /-- PLAY (R133), `DIR = 0` only. -/
  | play (i : Idx)
  /-- RECORD (R134, R135), `DIR = 1` only. -/
  | record (i : Idx)
  /-- RECORDM (R136), `DIR = 1` only. -/
  | recordm (i : Idx)
  /-- PAUSE (R137). -/
  | pause (d : Dir) (i : Idx)
  /-- RESUME (R138). -/
  | resume (d : Dir) (i : Idx)
  /-- STOP (R139). -/
  | stop (d : Dir) (i : Idx)
  /-- MUTE (R171). -/
  | mute (d : Dir) (i : Idx)
  /-- UNMUTE (R172). -/
  | unmute (d : Dir) (i : Idx)
  /-- ISMUTE (R173). -/
  | ismute (d : Dir) (i : Idx)
  /-- SETVOL (R169): `vol = IMM[6:0]`, `mbz = IMM[15:7]`. -/
  | setvol (d : Dir) (i : Idx) (mbz : BitVec 9) (vol : BitVec 7)
  /-- GETVOL (R170). -/
  | getvol (d : Dir) (i : Idx)
  /-- SETDEV (R161). -/
  | setdev (d : Dir) (i : Idx)
  /-- GETDEV (R162). -/
  | getdev (d : Dir) (i : Idx)
  /-- SETRATE (R163). -/
  | setrate (d : Dir) (i : Idx)
  /-- GETRATE (R164). -/
  | getrate (d : Dir) (i : Idx)
  /-- SETBITS (R165): `bits = IMM[5:0]`, `mbz = IMM[15:6]`. -/
  | setbits (d : Dir) (i : Idx) (mbz : BitVec 10) (bits : BitVec 6)
  /-- GETBITS (R166). -/
  | getbits (d : Dir) (i : Idx)
  /-- SETCH (R167): `ch = IMM[1:0]`, `mbz = IMM[15:2]`. -/
  | setch (d : Dir) (i : Idx) (mbz : BitVec 14) (ch : BitVec 2)
  /-- GETCH (R168). -/
  | getch (d : Dir) (i : Idx)
  /-- GETSTATE (R174). -/
  | getstate (d : Dir) (i : Idx)
  /-- REGCB (R175): `mask = IMM[2:0]`, `mbz = IMM[15:3]`. -/
  | regcb (d : Dir) (i : Idx) (mbz : BitVec 13) (mask : BitVec 3)
  deriving DecidableEq, Repr

end Sys2Proof
end

