-- ==== Sys2Proof/WellFormed.lean ====
section
/-! DEFINITION. The operand checks that need neither the configuration nor the state (30_encoding.md R104, R105,
R114). A command that fails one of them decodes, and ends with `WrongParam`. -/

namespace Sys2Proof

/-- `bits ∈ BITS_SET` (00_scope.md R6). -/
def bitsLegal (bits : BitVec 6) : Bool :=
  bits == 16 || bits == 24 || bits == 32

/-- `ch ∈ CHAN_SET` (00_scope.md R6). -/
def chansLegal (ch : BitVec 2) : Bool :=
  ch == 1 || ch == 2

/-- `vol ≤ VOL_MAX` (00_scope.md R6). -/
def volLegal (vol : BitVec 7) : Bool :=
  vol.toNat ≤ 100

/-- The operand ranges of R104, R105 and R114 that the word alone decides. -/
def Instr.wellFormed : Instr → Bool
  | .init _ _ ch bits mbz vol => mbz == 0 && volLegal vol && bitsLegal bits && chansLegal ch
  | .setvol _ _ mbz vol => mbz == 0 && volLegal vol
  | .setbits _ _ mbz bits => mbz == 0 && bitsLegal bits
  | .setch _ _ mbz ch => mbz == 0 && chansLegal ch
  | .regcb _ _ mbz _ => mbz == 0
  | .deinit _ _ => true
  | .play _ => true
  | .record _ => true
  | .recordm _ => true
  | .pause _ _ => true
  | .resume _ _ => true
  | .stop _ _ => true
  | .mute _ _ => true
  | .unmute _ _ => true
  | .ismute _ _ => true
  | .getvol _ _ => true
  | .setdev _ _ => true
  | .getdev _ _ => true
  | .setrate _ _ => true
  | .getrate _ _ => true
  | .getbits _ _ => true
  | .getch _ _ => true
  | .getstate _ _ => true

end Sys2Proof
end

