-- ==== Sys2Proof/Decode.lean ====
section
/-! DEFINITION. The decoder of command words (30_encoding.md R101 to R109), total on all words and rejecting by
name; the encoder, written from the same tables (R101, R111); the opcode table of R107 as rows. -/

namespace Sys2Proof

/-- Why a word is a reserved encoding (R108). -/
inductive Reserved where
  /-- Bits 22:20 are not zero. -/
  | zField
  /-- `OPC` is `0x00` or in `0x18 .. 0xFF`. -/
  | unassignedOpcode
  /-- PLAY with `DIR = 1`, or RECORD, RECORDM with `DIR = 0`. -/
  | wrongDirection
  /-- A format N, A or B word with `IMM ≠ 0`. -/
  | immediateNotZero
  deriving DecidableEq, Repr

/-- `DIR`, bit 23 (R101). -/
def dirOf (b : BitVec 1) : Dir :=
  if b = 0 then .out else .inp

def dirBit : Dir → BitVec 1
  | .out => 0
  | .inp => 1

/-- `IDX`, bits 19:16 (R101). -/
def idxOf (v : BitVec 4) : Idx :=
  ⟨v.toNat, v.isLt⟩

def idxBits (i : Idx) : BitVec 4 :=
  BitVec.ofNat 4 i.val

/-- The test of R109 on the immediate of formats N, A and B. -/
def noImm (imm : BitVec 16) (i : Instr) : Except Reserved Instr :=
  if imm = 0 then .ok i else .error .immediateNotZero

/-- A command that exists for one direction only (R103). -/
def onlyDir (want d : Dir) (r : Except Reserved Instr) : Except Reserved Instr :=
  if d = want then r else .error .wrongDirection

/-- The rows of R107, by opcode. -/
def decodeOpcode (opc : Nat) (d : Dir) (i : Idx) (imm : BitVec 16) : Except Reserved Instr :=
  match opc with
  | 0x01 => .ok (.init d i (imm.extractLsb' 14 2) (imm.extractLsb' 8 6) (imm.extractLsb' 7 1) (imm.extractLsb' 0 7))
  | 0x02 => noImm imm (.deinit d i)
  | 0x03 => onlyDir .out d (noImm imm (.play i))
  | 0x04 => onlyDir .inp d (noImm imm (.record i))
  | 0x05 => onlyDir .inp d (noImm imm (.recordm i))
  | 0x06 => noImm imm (.pause d i)
  | 0x07 => noImm imm (.resume d i)
  | 0x08 => noImm imm (.stop d i)
  | 0x09 => noImm imm (.mute d i)
  | 0x0A => noImm imm (.unmute d i)
  | 0x0B => noImm imm (.ismute d i)
  | 0x0C => .ok (.setvol d i (imm.extractLsb' 7 9) (imm.extractLsb' 0 7))
  | 0x0D => noImm imm (.getvol d i)
  | 0x0E => noImm imm (.setdev d i)
  | 0x0F => noImm imm (.getdev d i)
  | 0x10 => noImm imm (.setrate d i)
  | 0x11 => noImm imm (.getrate d i)
  | 0x12 => .ok (.setbits d i (imm.extractLsb' 6 10) (imm.extractLsb' 0 6))
  | 0x13 => noImm imm (.getbits d i)
  | 0x14 => .ok (.setch d i (imm.extractLsb' 2 14) (imm.extractLsb' 0 2))
  | 0x15 => noImm imm (.getch d i)
  | 0x16 => noImm imm (.getstate d i)
  | 0x17 => .ok (.regcb d i (imm.extractLsb' 3 13) (imm.extractLsb' 0 3))
  | _ => .error .unassignedOpcode

/-- The decode procedure of R109. -/
def decode (w : Word) : Except Reserved Instr :=
  if w.extractLsb' 20 3 ≠ 0 then .error .zField
  else decodeOpcode (w.extractLsb' 24 8).toNat (dirOf (w.extractLsb' 23 1)) (idxOf (w.extractLsb' 16 4))
    (w.extractLsb' 0 16)

/-- The instruction the decoder reads from a table word of `nbits` bits; every bit above `nbits` is 0. A command
is one 32-bit register write (R100, R101), so no byte order is involved. -/
def decodeTableWord (nbits w : Nat) : Option Instr :=
  (decode (BitVec.ofNat 32 (w % 2 ^ nbits))).toOption

/-- `OPC<<24 | DIR<<23 | IDX<<16 | IMM` (R111). -/
def pack (opc : BitVec 8) (d : Dir) (i : Idx) (imm : BitVec 16) : Word :=
  opc ++ (dirBit d ++ ((0 : BitVec 3) ++ (idxBits i ++ imm)))

/-- The command word of an instruction (R101, R104, R105, R107). -/
def encode : Instr → Word
  | .init d i ch bits mbz vol => pack 0x01 d i (ch ++ (bits ++ (mbz ++ vol)))
  | .deinit d i => pack 0x02 d i 0
  | .play i => pack 0x03 .out i 0
  | .record i => pack 0x04 .inp i 0
  | .recordm i => pack 0x05 .inp i 0
  | .pause d i => pack 0x06 d i 0
  | .resume d i => pack 0x07 d i 0
  | .stop d i => pack 0x08 d i 0
  | .mute d i => pack 0x09 d i 0
  | .unmute d i => pack 0x0A d i 0
  | .ismute d i => pack 0x0B d i 0
  | .setvol d i mbz vol => pack 0x0C d i (mbz ++ vol)
  | .getvol d i => pack 0x0D d i 0
  | .setdev d i => pack 0x0E d i 0
  | .getdev d i => pack 0x0F d i 0
  | .setrate d i => pack 0x10 d i 0
  | .getrate d i => pack 0x11 d i 0
  | .setbits d i mbz bits => pack 0x12 d i (mbz ++ bits)
  | .getbits d i => pack 0x13 d i 0
  | .setch d i mbz ch => pack 0x14 d i (mbz ++ ch)
  | .getch d i => pack 0x15 d i 0
  | .getstate d i => pack 0x16 d i 0
  | .regcb d i mbz mask => pack 0x17 d i (mbz ++ mask)

/-- A row of the opcode map of R107: a word `w` selects it when `w & mask = pattern`. -/
structure OpcodeRow where
  pattern : Word
  mask : Word
  deriving DecidableEq, Repr

def OpcodeRow.selects (r : OpcodeRow) (w : Word) : Bool :=
  w &&& r.mask == r.pattern

/-- The 23 rows of R107, in the table's order. -/
def opcodeTable : List OpcodeRow :=
  [⟨0x01000000, 0xFF700000⟩, ⟨0x02000000, 0xFF70FFFF⟩, ⟨0x03000000, 0xFFF0FFFF⟩, ⟨0x04800000, 0xFFF0FFFF⟩,
   ⟨0x05800000, 0xFFF0FFFF⟩, ⟨0x06000000, 0xFF70FFFF⟩, ⟨0x07000000, 0xFF70FFFF⟩, ⟨0x08000000, 0xFF70FFFF⟩,
   ⟨0x09000000, 0xFF70FFFF⟩, ⟨0x0A000000, 0xFF70FFFF⟩, ⟨0x0B000000, 0xFF70FFFF⟩, ⟨0x0C000000, 0xFF700000⟩,
   ⟨0x0D000000, 0xFF70FFFF⟩, ⟨0x0E000000, 0xFF70FFFF⟩, ⟨0x0F000000, 0xFF70FFFF⟩, ⟨0x10000000, 0xFF70FFFF⟩,
   ⟨0x11000000, 0xFF70FFFF⟩, ⟨0x12000000, 0xFF700000⟩, ⟨0x13000000, 0xFF70FFFF⟩, ⟨0x14000000, 0xFF700000⟩,
   ⟨0x15000000, 0xFF70FFFF⟩, ⟨0x16000000, 0xFF70FFFF⟩, ⟨0x17000000, 0xFF700000⟩]

end Sys2Proof
end

