-- ==== Sys2Proof/Config.lean ====
section
/-! DEFINITION. What an implementation fixes (the parameters and the platform configuration of 00_scope.md R6 to
R9, as plain data the state carries, log 1) and the free values (opaque constants: the environment's choices of
R13 and R39, log 2, log 3, and the unspecified contents of the memories, 93 U11, log 4). -/

namespace Sys2Proof.Config

/-- `qkind(q)` (`list` = `LIST`) and `prio(q)` of a queue (R7). -/
structure QueueCfg where
  list : Bool
  prio : BitVec 2
  deriving DecidableEq, Repr, Inhabited

/-- What R7 says of one instance: its codec, `RATE_SET(d,i)`, the selectors `dev_ok` accepts, the pairs
`combo_ok` accepts, and its serial queue (not used on the `SD` instance). -/
structure InstCfg where
  codec : Option Idx
  rates : List Word
  devices : List Word
  combos : List (BitVec 6 × BitVec 2)
  queue : QueueCfg
  deriving DecidableEq, Repr, Inhabited

/-- A range of system memory the DMA can reach (`mem_ok`, R7). -/
structure Region where
  base : Nat
  size : Nat
  deriving DecidableEq, Repr, Inhabited

/-- The model's arguments (R6, R7). `N_OUT`, `N_IN`, `N_CODEC`, `N_MIC` are the lengths of `outs`, `ins`,
`codecIds`, `mics`; `sd` is `J_SD`. -/
structure Params where
  outs : List InstCfg
  ins : List InstCfg
  codecIds : List Word
  mics : List QueueCfg
  sd : Option Idx
  cap : Nat
  shift : Nat
  memory : List Region
  deriving DecidableEq, Repr, Inhabited

def Params.nOut (p : Params) : Nat := p.outs.length
def Params.nIn (p : Params) : Nat := p.ins.length
def Params.nCodec (p : Params) : Nat := p.codecIds.length
def Params.nMic (p : Params) : Nat := p.mics.length

/-- Regions in rising order that neither overlap nor touch, inside the 32-bit space, so that a range is reachable
exactly when one region holds it. -/
def regionsOk (from_ : Nat) : List Region → Bool
  | [] => true
  | r :: rest => decide (from_ ≤ r.base) && decide (0 < r.size) && decide (r.base + r.size ≤ 2 ^ 32)
      && regionsOk (r.base + r.size + 1) rest

/-- The part of R6, R7 and R9 that concerns one instance's configuration. -/
def InstCfg.wf (nCodec : Nat) (c : InstCfg) : Bool :=
  (match c.codec with
    | none => true
    | some k => decide (k.val < nCodec))
  && c.rates.all (fun r => decide (8000 ≤ r.toNat) && decide (r.toNat ≤ 192000))

/-- The constraints checked when a machine is constructed (R6, R7, R9): by `State.resetWith`. -/
def Params.wf (p : Params) : Bool :=
  decide (1 ≤ p.nOut) && decide (p.nOut ≤ 16) && decide (1 ≤ p.nIn) && decide (p.nIn ≤ 16)
  && decide (p.nCodec ≤ 16) && decide (p.nMic ≤ 12)
  && decide (2 ≤ p.cap) && decide (p.cap ≤ 65534) && decide (p.cap % 2 = 0) && decide (p.shift ≤ 31)
  && p.outs.all (InstCfg.wf p.nCodec) && p.ins.all (InstCfg.wf p.nCodec)
  && (match p.sd with
      | none => true
      | some j => decide (0 < p.nMic) && (match p.ins[j.val]? with
          | some c => c.codec.isNone
          | none => false))
  && regionsOk 0 p.memory

/-- The default `RATE_SET` (R6). -/
def defaultRates : List Word :=
  [8000, 11025, 16000, 22050, 32000, 44100, 48000, 96000, 192000]

/-- Every pair of `BITS_SET × CHAN_SET` (R8). -/
def allCombos : List (BitVec 6 × BitVec 2) :=
  [(16, 1), (16, 2), (24, 1), (24, 2), (32, 1), (32, 2)]

def defaultQueue : QueueCfg := ⟨false, 2⟩

/-- The default platform configuration of R8, with the default parameters of R6. -/
def Params.standard : Params where
  outs := [⟨some 0, defaultRates, [1, 2, 3], allCombos, defaultQueue⟩]
  ins := [⟨some 0, defaultRates, [1], allCombos, defaultQueue⟩,
          ⟨none, defaultRates, [0x10, 0x20, 0x30], [(16, 1), (16, 2)], defaultQueue⟩]
  codecIds := [0x8994]
  mics := [defaultQueue, defaultQueue]
  sd := some 1
  cap := 2048
  shift := 8
  memory := [⟨0, 2 ^ 32⟩]

/-- The environment's answer to one collaborator call (R13): `fail`, or `ok` with the value that `ReadId` returns
(other calls do not look at it). -/
inductive Answer where
  | ok (value : Word)
  | fail
  deriving DecidableEq, Repr, Inhabited

/-- One step of one agent (R3, R39), with the inputs of that step. -/
inductive Event where
  /-- The host writes `v` to the register window at `off`, `size` bytes wide (10_state.md R40). -/
  | regWrite (size : Nat) (off : Word) (v : Word)
  /-- The host reads the register window. -/
  | regRead (size : Nat) (off : Word)
  /-- The host writes bytes of system memory, in one access (20_memory.md R72, R76). -/
  | memWrite (addr : Word) (bytes : List Byte)
  /-- The host reads `n` bytes of system memory, in one access. -/
  | memRead (addr : Word) (n : Nat)
  /-- The DMA agent of `q` moves one element; `v` is the draw a receiving queue stores (42 R208). -/
  | dma (q : QueueId) (v : Word)
  /-- The service agent delivers completion `x` of `q` (42 R212). -/
  | service (q : QueueId) (x : Completion)
  /-- The environment injects a transfer error into `q` (42 R213). -/
  | error (q : QueueId)
  deriving DecidableEq, Repr, Inhabited

/-- FREE VALUE (R3, R39, 93 U16): the agent step that comes next when `State.schedule` says nothing, by the number
of free values drawn so far. Log 2. -/
opaque freeEvent : Nat → Event

/-- FREE VALUE (R13, 93 U14): the environment's answer when `State.answers` says nothing. Log 3. -/
opaque freeAnswer : Nat → Answer

/-- FREE VALUE (10_state.md R45, 93 U11): the byte at an address of system memory that nothing has written. Log 4. -/
opaque powerOnByte : Nat → Byte

/-- FREE VALUE (10_state.md R35, R45, 93 U11): sample `k` of ChannelBuffer `m` before any DMA step wrote it. Log 4. -/
opaque powerOnSample : Mic → Nat → Word

/-- FREE VALUE (42 R213, 93 U6): element number `n` of `TX`, handed to a link by a queue that has had a transfer error
in the session. Log 10. -/
opaque freeElement : Nat → Word

end Sys2Proof.Config
end

