-- ==== Sys2Proof/Machine/State.lean ====
section
/-! DEFINITION. The state of ASE (10_state.md R20 to R47) as plain data, the reasons a step can stop, and the state
after reset (R45). The fields `cfg`, `schedule`, `answers`, `draws`, `readData` are the model's own. -/

namespace Sys2Proof.Machine

/-- The lifecycle state `STATE` (10_state.md R21). -/
inductive Life where
  | reset
  | active
  | stop
  | pause
  deriving DecidableEq, Repr, Inhabited

/-- The run state `ST` of a queue (10_state.md R33; code 3 is never held). -/
inductive RunState where
  | idle
  | running
  | paused
  deriving DecidableEq, Repr, Inhabited

/-- The kinds of command status (60_exceptions.md R270). -/
inductive Status where
  | ok
  | noInit
  | wrongParam
  | busy
  | periphFailure
  | componentFailure
  | unknownComponent
  | busFailure
  | clockFailure
  | featureNotSupported
  deriving DecidableEq, Repr, Inhabited

/-- The kinds of notification (00_scope.md R15). -/
inductive Notice where
  | half
  | full
  | error
  deriving DecidableEq, Repr, Inhabited

/-- A half of a ChannelBuffer (10_state.md R35): `first` is bank 0, `second` is bank 1. -/
inductive Half where
  | first
  | second
  deriving DecidableEq, Repr, Inhabited

/-- The direction field of a descriptor (10_state.md R32). -/
inductive Flow where
  | m2p
  | p2m
  deriving DecidableEq, Repr, Inhabited

/-- The `mode` argument of `Codec.Stop`: always the software power-down (60_exceptions.md R290). -/
inductive StopMode where
  | swPd
  deriving DecidableEq, Repr, Inhabited

/-- The tuple handed to `Codec.Init` (40_stream_lifecycle.md R144). -/
structure CodecCfg where
  outDev : Word
  inDev : Word
  rate : Word
  bits : BitVec 6
  vol : BitVec 7
  deriving DecidableEq, Repr, Inhabited

/-- A collaborator call as `CALLS` records it (00_scope.md R13, 60_exceptions.md R290 to R293). -/
inductive Call where
  | busInit (c : Idx)
  | codecReset (c : Idx)
  | busDeInit (c : Idx)
  | clockConfig (d : Dir) (i : Idx) (rate : Word)
  | codecReadId (c : Idx)
  | codecInit (c : Idx) (cfg : CodecCfg)
  | codecDeInit (c : Idx)
  | codecPlay (c : Idx)
  | codecPause (c : Idx)
  | codecResume (c : Idx)
  | codecStop (c : Idx) (mode : StopMode)
  | codecSetVolume (c : Idx) (chsel : BitVec 1) (vol : BitVec 7)
  | codecSetMute (c : Idx) (on : Bool)
  | linkConfigure (q : QueueId) (flow : Flow) (width : Nat)
  | linkEnable (q : QueueId)
  | linkPause (q : QueueId)
  | linkResume (q : QueueId)
  | linkDisable (q : QueueId)
  deriving DecidableEq, Repr, Inhabited

/-- A notification delivered to the application, as `EVLOG` records it (00_scope.md R15). -/
structure LogEntry where
  dir : Dir
  idx : Idx
  kind : Notice
  chan : Mic
  deriving DecidableEq, Repr, Inhabited

/-- The attribute registers of one stream instance (10_state.md R20 to R28). -/
structure Inst where
  life : Life
  device : Word
  rate : Word
  bits : BitVec 6
  chans : BitVec 2
  volume : BitVec 7
  mute : Bool
  cbreg : Bool
  cben : BitVec 3
  deriving DecidableEq, Repr, Inhabited

/-- Every attribute at its reset value, which is also the default DEINIT restores (10_state.md R45, R46). -/
def Inst.reset : Inst :=
  ⟨.reset, 0, 0, 0, 0, 0, false, false, 0⟩

/-- The descriptor, control fields and transfer registers of one queue (10_state.md R32 to R34). -/
structure Queue where
  td : Word
  st : RunState
  ie : Bool
  pendHt : Bool
  pendTc : Bool
  pendErr : Bool
  ovr : Bool
  errs : Bool
  built : Bool
  base : Word
  count : BitVec 16
  pos : BitVec 16
  deriving DecidableEq, Repr, Inhabited

def Queue.reset : Queue :=
  ⟨0, .idle, false, false, false, false, false, false, false, 0, 0, 0⟩

/-- The registers of the reassembler (10_state.md R36). -/
structure Reassembler where
  en : BitVec 12
  ch2 : Bool
  mbuf : Bool
  rdy0 : BitVec 12
  rdy1 : BitVec 12
  cur : BitVec 16
  tgt : Word
  size : BitVec 16
  ovr : Bool
  deriving DecidableEq, Repr, Inhabited

def Reassembler.reset : Reassembler :=
  ⟨0, false, false, 0, 0, 0, 0, 0, false⟩

/-- System memory: the bytes that have been written, addresses strictly rising (`Memory.wf`). An unlisted address
holds no value of the model's choosing; reading it gives the free value `Config.powerOnByte` (log 4). -/
abbrev Memory := List Host.Cell

/-- Channel memory: the samples that have been written, by the key `65536·m + k` of `CB[m][k]`, keys strictly
rising. An unlisted sample reads as the free value `Config.powerOnSample` (log 4). -/
abbrev ChannelMemory := List (Nat × Word)

/-- The state of ASE and of what surrounds it. -/
structure State where
  /-- MODEL: the configuration, fixed for the machine (00_scope.md R6, R7; log 1). -/
  cfg : Config.Params
  /-- `INST[OUT][i]` and `INST[IN][i]` (R20). -/
  outs : Vector Inst 16
  ins : Vector Inst 16
  /-- `CODEC_PWR[c]` (R30). -/
  power : Vector Bool 16
  /-- `Q[q]` and `TD[q]` of `QO(i)`, `QI(j)`, `QM(m)` (R31 to R34). -/
  qo : Vector Queue 16
  qi : Vector Queue 16
  qm : Vector Queue 12
  /-- The ChannelBuffers (R35). -/
  cb : ChannelMemory
  /-- The reassembler (R36). -/
  sr : Reassembler
  /-- The command port (R37). -/
  cmd : Word
  arg0 : Word
  arg1 : Word
  status : Word
  result : Word
  /-- The outputs (R38). -/
  evlog : List LogEntry
  calls : List Call
  tx : List (QueueId × Word)
  /-- System memory (20_memory.md R70). -/
  mem : Memory
  /-- MODEL: the agent steps that come next (R3, R39; log 2). -/
  schedule : List Config.Event
  /-- MODEL: the answers to the next collaborator calls (R13, R39; log 3). -/
  answers : List Config.Answer
  /-- MODEL: how many free events and free answers have been drawn (log 2). -/
  draws : Nat
  /-- MODEL: the value the host's last read returned, unsigned, little-endian (log 8). -/
  readData : Nat
  deriving DecidableEq, Repr

/-- Why the machine stops with a fault (log 9). No command raises one. From reset, under a well-formed
configuration, only `addressOutOfRange` can be reached: by a host access past the last address, and by the DMA of a
queue whose descriptor a failed SETBITS left wider than the cached width (40_stream_lifecycle.md R141) on a buffer
that ends at the last address. -/
inductive Fault where
  /-- An access past address `2^32 - 1`, which the spec says does not exist (20_memory.md R70, R74). Raised by a
  host memory access, the DMA step and the merge. Safe: the machine stops where the spec gives no access. -/
  | addressOutOfRange
  /-- A DMA step under a descriptor whose `WIDTH` is 0 or 3, which no rule writes (10_state.md R32). Raised by the
  DMA step. Safe. -/
  | badDescriptor
  /-- A merge whose enabled set has no channel for a slot, so that `bit_index` has no value (43 R241, R244).
  Raised by the service step. Safe. -/
  | enabledSetTooSmall
  deriving DecidableEq, Repr

/-- Why a step has no meaning. -/
inductive Refusal where
  /-- An instruction that exec does not model yet, by its mnemonic. Raised by exec's refused arms only. Safe. -/
  | notModelled (mnemonic : String)
  /-- The schedule names a DMA, service or error step that is not enabled (42 R207, R212, R213): there is no such
  transition. Raised by the step of that agent. Safe (log 6). -/
  | notEnabled
  /-- A register window access that is not a 4-byte access at a multiple of 4, which 20_memory.md R74 says a model
  refuses (93 U12). Raised by the host's register accesses. Safe (log 7). -/
  | narrowAccess
  deriving DecidableEq, Repr

/-- Every register 0, every flag clear, the traces empty and nothing written in memory, under a given configuration
(10_state.md R45, 70 R310). -/
def State.zeroed (p : Config.Params) : State where
  cfg := p
  outs := Vector.replicate 16 Inst.reset
  ins := Vector.replicate 16 Inst.reset
  power := Vector.replicate 16 false
  qo := Vector.replicate 16 Queue.reset
  qi := Vector.replicate 16 Queue.reset
  qm := Vector.replicate 12 Queue.reset
  cb := []
  sr := Reassembler.reset
  cmd := 0
  arg0 := 0
  arg1 := 0
  status := 0
  result := 0
  evlog := []
  calls := []
  tx := []
  mem := []
  schedule := []
  answers := []
  draws := 0
  readData := 0

/-- The construction of the machine (00_scope.md R9): the constraints on the parameters are checked, and a machine in
its reset state exists only when they hold. -/
def State.resetWith (p : Config.Params) : Option State :=
  if p.wf then some (State.zeroed p) else none

/-- The machine right after reset, in the default configuration of R6 and R8 (log 1): what the construction gives for
it (`resetWith_standard`). -/
def State.reset : State :=
  State.zeroed Config.Params.standard

end Sys2Proof.Machine
end

