-- ==== Sys2Proof/Machine/Ops.lean ====
section
/-! DEFINITION. The named operations over the state: the two memories, the register groups, collaborator calls
(00_scope.md R13), the end of a command and its failure (R14, 60_exceptions.md R270, R277), notifications (R15). -/

namespace Sys2Proof.Machine

/-! ### Keyed lists in rising order -/

/-- The value at a key, if the list has one. -/
def lookupKey {α : Type} (k : Nat) : List (Nat × α) → Option α
  | [] => none
  | e :: rest => if e.1 = k then some e.2 else lookupKey k rest

/-- The list with the value at a key replaced or added, in rising order of the keys. -/
def insertKey {α : Type} (k : Nat) (v : α) : List (Nat × α) → List (Nat × α)
  | [] => [(k, v)]
  | e :: rest =>
    if k < e.1 then (k, v) :: e :: rest
    else if k = e.1 then (k, v) :: rest
    else e :: insertKey k v rest

/-- Keys strictly rise, and each lies in `lo ≤ key < hi`. -/
def keysRise {α : Type} (lo hi : Nat) : List (Nat × α) → Bool
  | [] => true
  | e :: rest => decide (lo ≤ e.1) && decide (e.1 < hi) && keysRise (e.1 + 1) hi rest

/-! ### System memory (20_memory.md R70, R73) -/

/-- The canonical form: addresses strictly rise inside the 32-bit space. An unlisted address has no value, so no
entry can equal what an unlisted address reads as. -/
def Memory.wf (m : Memory) : Bool :=
  keysRise 0 (2 ^ 32) m

/-- The byte at address `a`: what was written there, else the free value of R45 and 93 U11 (log 4). -/
def byteAt (m : Memory) (a : Nat) : Byte :=
  (lookupKey a m).getD (Config.powerOnByte a)

def writeByte (m : Memory) (a : Nat) (v : Byte) : Memory :=
  insertKey a v m

def readBytes (m : Memory) (a : Nat) : Nat → List Byte
  | 0 => []
  | n + 1 => byteAt m a :: readBytes m (a + 1) n

def writeBytes (m : Memory) (a : Nat) : List Byte → Memory
  | [] => m
  | b :: bs => writeBytes (writeByte m a b) (a + 1) bs

/-- Little-endian bytes of the `8n` low bits of a number (R73). -/
def leBytes : Nat → Nat → List Byte
  | 0, _ => []
  | n + 1, v => BitVec.ofNat 8 v :: leBytes n (v / 256)

/-- The number whose little-endian bytes are given (R73). -/
def ofLeBytes : List Byte → Nat
  | [] => 0
  | b :: bs => b.toNat + 256 * ofLeBytes bs

/-- `MemRead(addr, n)` (00_scope.md R12). -/
def memRead (m : Memory) (a n : Nat) : Nat :=
  ofLeBytes (readBytes m a n)

/-- `MemWrite(addr, n, v)` (R12). -/
def memWrite (m : Memory) (a n v : Nat) : Memory :=
  writeBytes m a (leBytes n v)

/-! ### Channel memory (10_state.md R35) -/

/-- The key of `CB[m][k]`; `k < CAP ≤ 65534`. -/
def sampleKey (m : Mic) (k : Nat) : Nat :=
  65536 * m.val + k

def ChannelMemory.wf (b : ChannelMemory) : Bool :=
  keysRise 0 (65536 * 12) b

/-- `CB[m][k]`: what a DMA step stored there, else the free value of R35 and 93 U11 (log 4). -/
def sampleAt (b : ChannelMemory) (m : Mic) (k : Nat) : Word :=
  (lookupKey (sampleKey m k) b).getD (Config.powerOnSample m k)

def writeSample (b : ChannelMemory) (m : Mic) (k : Nat) (v : Word) : ChannelMemory :=
  insertKey (sampleKey m k) v b

/-! ### Register groups -/

/-- `INST[d][i]` (10_state.md R20). -/
def State.inst (s : State) (d : Dir) (i : Idx) : Inst :=
  match d with
  | .out => s.outs[i]
  | .inp => s.ins[i]

def State.setInst (s : State) (d : Dir) (i : Idx) (v : Inst) : State :=
  match d with
  | .out => { s with outs := s.outs.set i v }
  | .inp => { s with ins := s.ins.set i v }

/-- `S.STATE <- l`. -/
def State.setLife (s : State) (d : Dir) (i : Idx) (l : Life) : State :=
  s.setInst d i { s.inst d i with life := l }

/-- `Q[q]` with its descriptor (10_state.md R31). -/
def State.queue (s : State) (q : QueueId) : Queue :=
  match q with
  | .qo i => s.qo[i]
  | .qi j => s.qi[j]
  | .qm m => s.qm[m]

def State.setQueue (s : State) (q : QueueId) (v : Queue) : State :=
  match q with
  | .qo i => { s with qo := s.qo.set i v }
  | .qi j => { s with qi := s.qi.set j v }
  | .qm m => { s with qm := s.qm.set m v }

/-- `TD[q] <- 0` (R32). -/
def State.clearTd (s : State) (q : QueueId) : State :=
  s.setQueue q { s.queue q with td := 0 }

def State.setPower (s : State) (c : Idx) (on : Bool) : State :=
  { s with power := s.power.set c on }

/-! ### Collaborator calls (00_scope.md R13) -/

def answerOk : Config.Answer → Bool
  | .ok _ => true
  | .fail => false

/-- The environment's next answer: the one the state lists next, else a free one (93 U14, log 3). -/
def State.nextAnswer (s : State) : Config.Answer :=
  match s.answers with
  | a :: _ => a
  | [] => Config.freeAnswer s.draws

/-- The state once that answer is used up. -/
def State.dropAnswer (s : State) : State :=
  match s.answers with
  | _ :: rest => { s with answers := rest }
  | [] => { s with draws := s.draws + 1 }

/-- The state after a call: its record is in `CALLS`, its answer used up. -/
def State.logCall (s : State) (c : Call) : State :=
  { s.dropAnswer with calls := s.calls ++ [c] }

/-- `call X.Op(args) -> r`: the answer and the state after it. A failing call is recorded like a succeeding one
(60_exceptions.md R293). -/
def call (c : Call) (s : State) : Config.Answer × State :=
  (s.nextAnswer, s.logCall c)

/-! ### The end of a command (00_scope.md R14) -/

/-- What the steps of a command come to: `done s`, or `raised e s`, where `s` keeps the writes made before the
failure `e`. -/
inductive Res where
  | done (s : State)
  | raised (e : Status) (s : State)
  deriving DecidableEq, Repr

/-- The next lines of a command run only if no line before them raised. -/
def Res.andThen (r : Res) (f : State → Res) : Res :=
  match r with
  | .done s => f s
  | .raised e s => .raised e s

/-- The numbers of 60_exceptions.md R270. -/
def Status.code : Status → Word
  | .ok => 0
  | .noInit => 0xFFFFFFFF
  | .wrongParam => 0xFFFFFFFE
  | .busy => 0xFFFFFFFD
  | .periphFailure => 0xFFFFFFFC
  | .componentFailure => 0xFFFFFFFB
  | .unknownComponent => 0xFFFFFFF9
  | .busFailure => 0xFFFFFFF8
  | .clockFailure => 0xFFFFFFF7
  | .featureNotSupported => 0xFFFFFFF5

/-- The one way a command ends, in success or failure: `STATUS` is written and nothing else (R270, R277). This is
what the spec has in the place of taking an exception (00_scope.md R16); there is nothing to return from. -/
def finishWith (e : Status) (s : State) : Host.Outcome State Fault Refusal :=
  .next { s with status := e.code }

/-- A command that reaches its end executes `STATUS <- 0`; one that raised writes its code (R14). -/
def Res.finish (r : Res) : Host.Outcome State Fault Refusal :=
  match r with
  | .done s => finishWith .ok s
  | .raised e s => finishWith e s

/-- The first of the checks that fails, in the order written (40_stream_lifecycle.md R130). Each entry says when
the check fails and with what kind. -/
def firstFailure : List (Bool × Status) → Option Status
  | [] => none
  | c :: rest => if c.1 then some c.2 else firstFailure rest

/-- A command: the checks, which write nothing, then the steps. -/
def command (checks : List (Bool × Status)) (body : State → Res) (s : State) : Host.Outcome State Fault Refusal :=
  match firstFailure checks with
  | some e => finishWith e s
  | none => (body s).finish

/-- `call ... -> r ; if r = fail: raise e`. -/
def callOr (c : Call) (e : Status) (s : State) : Res :=
  if answerOk (call c s).1 then .done (call c s).2 else .raised e (call c s).2

/-- `primitive ; on fail: raise e`. -/
def okOr (r : Bool × State) (e : Status) : Res :=
  if r.1 then .done r.2 else .raised e r.2

/-- `note e` (R14): the first failure noted is kept. -/
def note (noted : Option Status) (ok : Bool) (e : Status) : Option Status :=
  match noted with
  | some first => some first
  | none => if ok then none else some e

/-! ### Notifications (00_scope.md R15) -/

/-- The bit of `CBEN` that enables a kind of notification (10_state.md R28). -/
def Notice.bit : Notice → Nat
  | .half => 0
  | .full => 1
  | .error => 2

/-- `notify(d, i, kind, chan)`: logged if enabled, dropped otherwise. -/
def notify (d : Dir) (i : Idx) (kind : Notice) (chan : Mic) (s : State) : State :=
  if (s.inst d i).cben.getLsbD kind.bit then { s with evlog := s.evlog ++ [⟨d, i, kind, chan⟩] } else s

end Sys2Proof.Machine
end

