-- ==== Sys2Proof/Machine/Flags.lean ====
section
/-! DEFINITION. The flags of ASE (10_state.md R42) and the codes of its states: the pending completions of a queue
and how one is raised (42_transfer_engine.md R210), the ready banks of the reassembler (10_state.md R36), the fields
of a descriptor (R32), the lifecycle and run state codes (R21, R33). There are no arithmetic flags. -/

namespace Sys2Proof.Machine

/-- The codes of R21. -/
def Life.code : Life → BitVec 2
  | .reset => 0
  | .active => 1
  | .stop => 2
  | .pause => 3

/-- The codes of R33. -/
def RunState.code : RunState → BitVec 2
  | .idle => 0
  | .running => 1
  | .paused => 2

/-! ### Pending completions -/

def Queue.pending (q : Queue) : Completion → Bool
  | .ht => q.pendHt
  | .tc => q.pendTc
  | .err => q.pendErr

def Queue.setPending (q : Queue) (x : Completion) (v : Bool) : Queue :=
  match x with
  | .ht => { q with pendHt := v }
  | .tc => { q with pendTc := v }
  | .err => { q with pendErr := v }

/-- `raise_completion(q, X)` for `X` in `HT`, `TC`: `OVR` records that one was still undelivered (R210). -/
def Queue.raise (q : Queue) (x : Completion) : Queue :=
  Queue.setPending { q with ovr := q.ovr || q.pendHt || q.pendTc } x true

/-- `PEND_HT`, `PEND_TC`, `PEND_ERR` cleared, as `TE.Start` and `TE.Stop` do. -/
def Queue.clearPending (q : Queue) : Queue :=
  { q with pendHt := false, pendTc := false, pendErr := false }

/-! ### Descriptor fields (10_state.md R32) -/

def tdValid (td : Word) : Bool := td.getLsbD 0
def tdIsP2m (td : Word) : Bool := td.getLsbD 1
def tdWidth (td : Word) : Nat := (td.extractLsb' 2 2).toNat
def tdSinc (td : Word) : Bool := td.getLsbD 4
def tdDinc (td : Word) : Bool := td.getLsbD 5
def tdCirc (td : Word) : Bool := td.getLsbD 6

/-- A descriptor word from its fields, bits 31:10 zero. -/
def tdWord (valid p2m : Bool) (widthField : BitVec 2) (sinc dinc circ : Bool) (prio : BitVec 2) (list : Bool) :
    Word :=
  (0 : BitVec 22) ++ (BitVec.ofBool list ++ (prio ++ (BitVec.ofBool circ ++ (BitVec.ofBool dinc
    ++ (BitVec.ofBool sinc ++ (widthField ++ (BitVec.ofBool p2m ++ BitVec.ofBool valid)))))))

/-! ### Ready banks (10_state.md R36) -/

def Half.other : Half → Half
  | .first => .second
  | .second => .first

def Reassembler.rdy (r : Reassembler) : Half → BitVec 12
  | .first => r.rdy0
  | .second => r.rdy1

def Reassembler.setRdy (r : Reassembler) (h : Half) (v : BitVec 12) : Reassembler :=
  match h with
  | .first => { r with rdy0 := v }
  | .second => { r with rdy1 := v }

end Sys2Proof.Machine
end

