-- ==== Sys2Proof/Machine/Operands.lean ====
section
/-! DEFINITION. The operands of the commands: instance validity, the platform predicates of 00_scope.md R7, the
microphone masks of R11 and 10_state.md R22, element widths (20_memory.md R75), buffer checks (R74, R79). -/

namespace Sys2Proof.Machine

/-! ### The platform configuration (00_scope.md R7) -/

def instCfg (p : Config.Params) (d : Dir) (i : Idx) : Option Config.InstCfg :=
  match d with
  | .out => p.outs[i.val]?
  | .inp => p.ins[i.val]?

/-- `valid(d,i)` (30_encoding.md R103). -/
def valid (p : Config.Params) (d : Dir) (i : Idx) : Bool :=
  (instCfg p d i).isSome

/-- `kind(d,i) = SD`. -/
def isSd (p : Config.Params) (d : Dir) (i : Idx) : Bool :=
  d == .inp && p.sd == some i

/-- `codec(d,i)`; an `SD` instance has none. -/
def codecOf (p : Config.Params) (d : Dir) (i : Idx) : Option Idx :=
  if isSd p d i then none else (instCfg p d i).bind (·.codec)

/-- `CODEC_ID(c)`. -/
def codecId (p : Config.Params) (c : Idx) : Word :=
  p.codecIds.getD c.val 0

/-- `dev_ok(d,i,dev)`. -/
def devOk (p : Config.Params) (d : Dir) (i : Idx) (dev : Word) : Bool :=
  match instCfg p d i with
  | some c => c.devices.contains dev
  | none => false

/-- `rate ∈ RATE_SET(d,i)`. -/
def rateOk (p : Config.Params) (d : Dir) (i : Idx) (rate : Word) : Bool :=
  match instCfg p d i with
  | some c => c.rates.contains rate
  | none => false

/-- `combo_ok(d,i,bits,ch)`, which implies legal `bits` and `ch`, and `bits = 16` on an `SD` instance. -/
def comboOk (p : Config.Params) (d : Dir) (i : Idx) (bits : BitVec 6) (ch : BitVec 2) : Bool :=
  match instCfg p d i with
  | some c => c.combos.contains (bits, ch) && bitsLegal bits && chansLegal ch && (!isSd p d i || bits == 16)
  | none => false

/-- `mem_ok(addr,len)`. -/
def memOk (p : Config.Params) (addr len : Nat) : Bool :=
  p.memory.any fun r => decide (r.base ≤ addr) && decide (addr + len ≤ r.base + r.size)

/-! ### Queues of an instance (10_state.md R31) -/

/-- The one queue of a `SERIAL` instance. -/
def serialQueue (d : Dir) (i : Idx) : QueueId :=
  match d with
  | .out => .qo i
  | .inp => .qi i

/-- The microphone channels `m < N_MIC`, ascending. -/
def allMics (p : Config.Params) : List Mic :=
  (List.finRange 12).filter fun m => decide (m.val < p.nMic)

/-- `queues(d,i)`. -/
def queuesOf (p : Config.Params) (d : Dir) (i : Idx) : List QueueId :=
  if isSd p d i then (allMics p).map .qm else [serialQueue d i]

/-- The queue belongs to the queue set of R31. -/
def queueExists (p : Config.Params) : QueueId → Bool
  | .qo i => valid p .out i
  | .qi j => valid p .inp j && !isSd p .inp j
  | .qm m => decide (m.val < p.nMic) && p.sd.isSome

/-- `owner(q)`; `none` for a microphone queue when no instance is `SD`. -/
def owner (p : Config.Params) : QueueId → Option (Dir × Idx)
  | .qo i => some (.out, i)
  | .qi j => some (.inp, j)
  | .qm _ => p.sd.map fun j => (.inp, j)

/-- `qkind(q)` and `prio(q)` (00_scope.md R7). -/
def queueCfg (p : Config.Params) : QueueId → Config.QueueCfg
  | .qo i => ((instCfg p .out i).map (·.queue)).getD default
  | .qi j => ((instCfg p .inp j).map (·.queue)).getD default
  | .qm m => p.mics.getD m.val default

/-! ### Microphone masks (00_scope.md R11, 10_state.md R22) -/

/-- The numbers of the set bits, ascending. -/
def bitList (v : BitVec 12) : List Mic :=
  (List.finRange 12).filter fun m => v.getLsbD m.val

def micBit (m : Mic) : BitVec 12 :=
  (1 : BitVec 12) <<< m.val

def maskOf (ms : List Mic) : BitVec 12 :=
  ms.foldr (fun m v => micBit m ||| v) 0

def popcount (v : BitVec 12) : Nat :=
  (bitList v).length

/-- `lowbits(v, k)`: the `k` lowest-numbered set bits. -/
def lowbits (v : BitVec 12) (k : Nat) : BitVec 12 :=
  maskOf ((bitList v).take k)

/-- `bit_index(v, n)`: the number of the `n`-th lowest set bit, from 0. -/
def bitIndex (v : BitVec 12) (n : Nat) : Option Mic :=
  (bitList v)[n]?

/-- `mics(dev) = dev[4+N_MIC-1 : 4]`. -/
def mics (p : Config.Params) (dev : Word) : BitVec 12 :=
  dev.extractLsb' 4 12 &&& BitVec.ofNat 12 (2 ^ p.nMic - 1)

/-- On an `SD` instance, fewer microphones selected than channels (R131, R161, R167). -/
def tooFewMics (p : Config.Params) (d : Dir) (i : Idx) (dev : Word) (ch : BitVec 2) : Bool :=
  isSd p d i && decide (popcount (mics p dev) < ch.toNat)

/-! ### Widths and buffers (20_memory.md R74, R75, R79; 30_encoding.md R106) -/

/-- `W(bits)` in bytes. -/
def width (bits : BitVec 6) : Nat :=
  if bits = 16 then 2 else 4

/-- The operand checks of a buffer of `len` bytes at `buf`, of elements of `w` bytes: `true` is `WrongParam`. -/
def badBuffer (p : Config.Params) (w : Nat) (buf len : Word) : Bool :=
  buf == 0 || decide (len.toNat % w ≠ 0) || decide (len.toNat / w = 0) || decide (65535 < len.toNat / w)
  || decide (buf.toNat % w ≠ 0) || decide (2 ^ 32 < buf.toNat + len.toNat) || !memOk p buf.toNat len.toNat

/-- The checks of RECORDM on its table and length (R136). -/
def badTable (p : Config.Params) (tbl len : Word) : Bool :=
  tbl == 0 || decide (tbl.toNat % 4 ≠ 0) || decide (2 ^ 32 < tbl.toNat + 4 * p.nMic)
  || !memOk p tbl.toNat (4 * p.nMic)
  || decide (len.toNat % 4 ≠ 0) || decide (len.toNat / 4 = 0) || decide (65535 < len.toNat / 4)

/-- The table entry of microphone `m`: `MemRead(tbl + 4*m, 4)` (R136). -/
def tableEntry (mem : Memory) (tbl : Word) (m : Mic) : Word :=
  BitVec.ofNat 32 (memRead mem (tbl.toNat + 4 * m.val) 4)

/-- The checks of RECORDM on one table entry (R136). -/
def badEntry (p : Config.Params) (len b : Word) : Bool :=
  b == 0 || decide (b.toNat % 4 ≠ 0) || decide (2 ^ 32 < b.toNat + len.toNat) || !memOk p b.toNat len.toNat

/-! ### Coupled instances (00_scope.md R7, 40_stream_lifecycle.md R142, R144) -/

/-- Every instance the configuration has, OUT first, in ascending index. -/
def allInstances (p : Config.Params) : List (Dir × Idx) :=
  ((List.finRange 16).map (fun i => (Dir.out, i)) ++ (List.finRange 16).map (fun i => (Dir.inp, i))).filter
    fun x => valid p x.1 x.2

/-- `sibs(d,i)` (R142). -/
def sibs (p : Config.Params) (d : Dir) (i : Idx) : List (Dir × Idx) :=
  (allInstances p).filter fun x =>
    decide (x ≠ (d, i)) && (codecOf p d i).isSome && codecOf p x.1 x.2 == codecOf p d i

/-- `xinst_ok(d,i,rate,bits)` (R142). -/
def xinstOk (s : State) (d : Dir) (i : Idx) (rate : Word) (bits : BitVec 6) : Bool :=
  (sibs s.cfg d i).all fun x =>
    (s.inst x.1 x.2).life == .reset || ((s.inst x.1 x.2).rate == rate && (s.inst x.1 x.2).bits == bits)

/-- Every coupled instance is `RESET` (R132, R143). -/
def sibsReset (s : State) (d : Dir) (i : Idx) : Bool :=
  (sibs s.cfg d i).all fun x => (s.inst x.1 x.2).life == .reset

/-- The `DEVICE` of the lowest-numbered coupled instance of direction `d'` that is not `RESET`, else 0 (R144). -/
def coupledDevice (s : State) (d : Dir) (i : Idx) (d' : Dir) : Word :=
  match (sibs s.cfg d i).find? fun x => x.1 == d' && (s.inst x.1 x.2).life != .reset with
  | some x => (s.inst x.1 x.2).device
  | none => 0

/-- `cfg(d,i; dev,rate,bits,vol)` (R144). -/
def codecCfg (s : State) (d : Dir) (i : Idx) (dev rate : Word) (bits : BitVec 6) (vol : BitVec 7) : CodecCfg :=
  match d with
  | .out => ⟨dev, coupledDevice s d i .inp, rate, bits, vol⟩
  | .inp => ⟨coupledDevice s d i .out, dev, rate, bits, vol⟩

/-- `chsel(d)` (R169). -/
def chsel : Dir → BitVec 1
  | .out => 0
  | .inp => 1

end Sys2Proof.Machine
end

