-- ==== Sys2Proof/Machine/Reassembler.lean ====
section
/-! DEFINITION. The Sample Reassembler (43_sample_reassembler.md): the channel event, the trigger rule, and the merge
with its four steps: scale, saturate, interleave, advance and notify. -/

namespace Sys2Proof.Machine

/-- `asr(n, k)`: floor of `n / 2^k` (00_scope.md R11). -/
def asr (n : Int) (k : Nat) : Int :=
  n / 2 ^ k

/-- `sat16(n)` (R11): clamp, not wrap. -/
def sat16 (n : Int) : Int :=
  if 32767 < n then 32767 else if n < -32768 then -32768 else n

/-- `u16(n)` (R11). -/
def u16 (n : Int) : BitVec 16 :=
  BitVec.ofInt 16 n

/-- The slot value of a raw sample: steps 1 and 2 of the merge (R245, R246). -/
def slotOf (shift : Nat) (raw : Word) : BitVec 16 :=
  u16 (sat16 (asr raw.toInt shift))

/-- The index of sample `k` of a half (R244). -/
def halfIndex (cap : Nat) (h : Half) (k : Nat) : Nat :=
  match h with
  | .first => k
  | .second => cap / 2 + k

/-- One frame: the left and the right slot, and the cursor (R244, R246). -/
def mergeFrame (h : Half) (c0 c1 : Mic) (k : Nat) (s : State) : State :=
  let at_ := s.sr.tgt.toNat + 2 * s.sr.cur.toNat
  let left := slotOf s.cfg.shift (sampleAt s.cb c0 (halfIndex s.cfg.cap h k))
  let right := slotOf s.cfg.shift (sampleAt s.cb c1 (halfIndex s.cfg.cap h k))
  { s with
    mem := memWrite (memWrite s.mem at_ 2 left.toNat) (at_ + 2) 2 right.toNat
    sr := { s.sr with cur := s.sr.cur + 2 } }

/-- `n` frames from sample `k` on, ascending. -/
def mergeFrames (h : Half) (c0 c1 : Mic) : Nat → Nat → State → State
  | 0, _, s => s
  | n + 1, k, s => mergeFrames h c0 c1 n (k + 1) (mergeFrame h c0 c1 k s)

/-- The left and right channels of the session (R241). -/
def frameChannels (r : Reassembler) : Option (Mic × Mic) :=
  match bitIndex r.en 0, bitIndex r.en (if r.ch2 then 1 else 0) with
  | some c0, some c1 => some (c0, c1)
  | _, _ => none

/-- The fault bit of R250 (b), set when the other bank holds a flag of an enabled channel. -/
def noteSkew (h : Half) (s : State) : State :=
  { s with sr := { s.sr with ovr := s.sr.ovr || (s.sr.rdy h.other &&& s.sr.en) != 0 } }

/-- The end of a merge (R244, R247, R248): the bank is cleared, the cursor tested, the notifications made. -/
def mergeEnd (j : Idx) (h : Half) (s : State) : State :=
  let s1 : State := { s with sr := s.sr.setRdy h (s.sr.rdy h &&& ~~~s.sr.en) }
  let s2 := if s1.sr.cur.toNat = s1.sr.size.toNat / 2 then notify .inp j .half 0 s1 else s1
  if s2.sr.cur = s2.sr.size then
    let s3 := notify .inp j .full 0 s2
    { s3 with sr := { s3.sr with cur := 0, rdy0 := 0, rdy1 := 0 } }
  else s2

/-- `merge(h)` (R244). -/
def merge (j : Idx) (h : Half) (s : State) : Host.Outcome State Fault Refusal :=
  match frameChannels s.sr with
  | none => .fault .enabledSetTooSmall
  | some (c0, c1) =>
    if 2 ^ 32 < s.sr.tgt.toNat + 2 * (s.sr.cur.toNat + 2 * (s.cfg.cap / 2)) then .fault .addressOutOfRange
    else .next (mergeEnd j h (mergeFrames h c0 c1 (s.cfg.cap / 2) 0 (noteSkew h s)))

/-- The channel's ready flag is set, and the fault bit of R250 (a) when it was set already (R242). -/
def markReady (m : Mic) (h : Half) (s : State) : State :=
  let r := s.sr.setRdy h (s.sr.rdy h ||| micBit m)
  { s with sr := { r with ovr := r.ovr || (s.sr.rdy h).getLsbD m.val } }

/-- `SR_channel_event(m, h)` of the `SD` instance `IN[j]` (R242): the merge runs in the event that completes the
bank (R243). -/
def channelEvent (j : Idx) (m : Mic) (h : Half) (s : State) : Host.Outcome State Fault Refusal :=
  let s1 := markReady m h s
  if (s1.sr.rdy h &&& s1.sr.en) = s1.sr.en then merge j h s1 else .next s1

end Sys2Proof.Machine
end

