-- ==== Sys2Proof/Machine/Engine.lean ====
section
/-! DEFINITION. The Transfer Engine (42_transfer_engine.md): the five primitives, and the DMA, service and error
steps. A primitive answers whether it succeeded and the state after it. -/

namespace Sys2Proof.Machine

/-! ### The primitives -/

/-- The descriptor `TE.Configure` builds (R201). -/
def descriptor (p : Config.Params) (q : QueueId) (flow : Flow) (w : Nat) : Word :=
  tdWord true (flow == .p2m) (BitVec.ofNat 2 (w / 2)) (flow == .m2p) (flow == .p2m) true
    (queueCfg p q).prio (queueCfg p q).list

/-- **TE.Configure** (R201). Its `require Q.ST = IDLE` is the callers' duty and is not tested (log 9). -/
def teConfigure (q : QueueId) (flow : Flow) (w : Nat) (s : State) : Bool × State :=
  let s1 := s.logCall (.linkConfigure q flow w)
  if answerOk s.nextAnswer then
    (true, s1.setQueue q { s1.queue q with
      td := descriptor s.cfg q flow w
      built := (s1.queue q).built || (queueCfg s.cfg q).list })
  else (false, s1)

/-- The queue `TE.Start` arms (R202). -/
def Queue.started (q : Queue) (base : Word) (count : Nat) : Queue :=
  { q.clearPending with
    base := base, count := BitVec.ofNat 16 count, pos := 0, errs := false, ie := true, st := .running }

/-- **TE.Start** (R202). -/
def teStart (q : QueueId) (base : Word) (count : Nat) (s : State) : Bool × State :=
  if count = 0 ∨ 65535 < count then (false, s)
  else if tdValid (s.queue q).td = false ∨ (s.queue q).st ≠ .idle then (false, s)
  else
    let s1 := s.logCall (.linkEnable q)
    if answerOk s.nextAnswer then (true, s1.setQueue q ((s1.queue q).started base count)) else (false, s1)

/-- **TE.Pause** (R203). -/
def tePause (q : QueueId) (s : State) : Bool × State :=
  match (s.queue q).st with
  | .idle => (false, s)
  | .paused => (true, s)
  | .running =>
    let s1 := s.logCall (.linkPause q)
    if answerOk s.nextAnswer then (true, s1.setQueue q { s1.queue q with st := .paused }) else (false, s1)

/-- **TE.Resume** (R204). -/
def teResume (q : QueueId) (s : State) : Bool × State :=
  match (s.queue q).st with
  | .idle => (false, s)
  | .running => (true, s)
  | .paused =>
    let s1 := s.logCall (.linkResume q)
    if answerOk s.nextAnswer then (true, s1.setQueue q { s1.queue q with st := .running }) else (false, s1)

/-- The queue `TE.Stop` leaves (R205). -/
def Queue.stopped (q : Queue) : Queue :=
  { q.clearPending with ie := false, st := .idle }

/-- **TE.Stop** (R205): the internal effects are complete even when the link call fails. -/
def teStop (q : QueueId) (s : State) : Bool × State :=
  let s1 := s.setQueue q (s.queue q).stopped
  if (s.queue q).st = .idle then (true, s1) else (answerOk s1.nextAnswer, s1.logCall (.linkDisable q))

/-! ### The primitives over a list of queues, in the order of the list -/

/-- The primitive on each queue; the first failure ends the loop, the queues before it keep what was done. -/
def untilFail (op : QueueId → State → Bool × State) : List QueueId → State → Bool × State
  | [], s => (true, s)
  | q :: qs, s =>
    match op q s with
    | (true, s1) => untilFail op qs s1
    | (false, s1) => (false, s1)

/-- The primitive on each queue, whatever the others answer: whether all succeeded. -/
def onEach (op : QueueId → State → Bool × State) : List QueueId → State → Bool × State
  | [], s => (true, s)
  | q :: qs, s =>
    let r := op q s
    let rest := onEach op qs r.2
    (r.1 && rest.1, rest.2)

/-- Configure each; the first failure ends the loop, the earlier ones stay rebuilt (41_stream_config.md R163). -/
def configureAll (flow : Flow) (w : Nat) (qs : List QueueId) (s : State) : Bool × State :=
  untilFail (fun q => teConfigure q flow w) qs s

/-- Pause each; the first failure ends the loop (40_stream_lifecycle.md R137). -/
def pauseAll (qs : List QueueId) (s : State) : Bool × State :=
  untilFail tePause qs s

/-- Resume each; the first failure ends the loop (R138). -/
def resumeAll (qs : List QueueId) (s : State) : Bool × State :=
  untilFail teResume qs s

/-- Stop each, whatever the others answer: whether all succeeded (R139). -/
def stopAll (qs : List QueueId) (s : State) : Bool × State :=
  onEach teStop qs s

/-- Stop one queue and discard its descriptor (R132). -/
def stopAndDiscard (q : QueueId) (s : State) : Bool × State :=
  ((teStop q s).1, (teStop q s).2.clearTd q)

/-- Stop each and discard its descriptor (R132). -/
def stopAndDiscardAll (qs : List QueueId) (s : State) : Bool × State :=
  onEach stopAndDiscard qs s

/-- Start each queue with its base; a failure stops those already `started` (R135, R136). -/
def startAll (count : Nat) (started : List QueueId) : List (QueueId × Word) → State → Bool × State
  | [], s => (true, s)
  | (q, base) :: rest, s =>
    match teStart q base count s with
    | (true, s1) => startAll count (started ++ [q]) rest s1
    | (false, s1) => (false, (stopAll started s1).2)

/-! ### The DMA element step (R207 to R211) -/

/-- `ea(q)` (R209): the memory side increments when its increment bit is set. -/
def elementAddr (q : Queue) (w : Nat) : Nat :=
  if (if tdIsP2m q.td then tdDinc q.td else tdSinc q.td) then q.base.toNat + q.pos.toNat * w else q.base.toNat

/-- The position after an element and the completion it raises (R208, R210, R211). -/
def Queue.advance (q : Queue) : Queue :=
  if q.pos.toNat + 1 = q.count.toNat then
    let q1 := Queue.raise { q with pos := 0 } .tc
    if tdCirc q.td then q1 else { q1 with st := .idle }
  else
    let q1 := { q with pos := q.pos + 1 }
    if q.pos.toNat + 1 = q.count.toNat / 2 then q1.raise .ht else q1

/-- The element a sending queue hands to its link (R208): the one at `a`; after an error step in the session, when the
data is unspecified (R213, 93 U6), a free value of the same width (log 10). -/
def sentElement (q : QueueId) (w a : Nat) (s : State) : Word :=
  if (s.queue q).errs then BitVec.ofNat 32 ((Config.freeElement s.tx.length).toNat % 256 ^ w)
  else BitVec.ofNat 32 (memRead s.mem a w)

/-- The move of the element itself, before the position advances (R208). -/
def moveElement (q : QueueId) (v : Word) (s : State) : Host.Outcome State Fault Refusal :=
  let w := 2 * tdWidth (s.queue q).td
  let a := elementAddr (s.queue q) w
  if w ≠ 2 ∧ w ≠ 4 then .fault .badDescriptor
  else
    match tdIsP2m (s.queue q).td, q, s.sr.mbuf with
    | true, .qm m, false => .next { s with cb := writeSample s.cb m (s.queue q).pos.toNat v }
    | true, _, _ =>
      if 2 ^ 32 < a + w then .fault .addressOutOfRange
      else .next { s with mem := memWrite s.mem a w v.toNat }
    | false, _, _ =>
      if 2 ^ 32 < a + w then .fault .addressOutOfRange
      else .next { s with tx := s.tx ++ [(q, sentElement q w a s)] }

/-- `DMA_step(q)` with the draw `v` (R208), enabled exactly when the queue is `RUNNING` (R207). -/
def dmaStep (q : QueueId) (v : Word) (s : State) : Host.Outcome State Fault Refusal :=
  if queueExists s.cfg q && (s.queue q).st == .running then
    match moveElement q v s with
    | .next s1 => .next (s1.setQueue q (s1.queue q).advance)
    | .fault f => .fault f
    | .refused r => .refused r
  else .refused .notEnabled

/-! ### The service step and the error step (R212, R213) -/

/-- `chan(q)` (R212). -/
def chanOf : QueueId → Mic
  | .qo _ => 0
  | .qi _ => 0
  | .qm m => m

/-- What the delivery of a completion does once its pending bit is cleared: the routing of 60_exceptions.md R280. -/
def deliver (d : Dir) (i : Idx) (q : QueueId) (x : Completion) (s : State) : Host.Outcome State Fault Refusal :=
  match x, q, s.sr.mbuf with
  | .err, _, _ => .next (notify d i .error (chanOf q) s)
  | .ht, .qm m, false => channelEvent i m .first s
  | .tc, .qm m, false => channelEvent i m .second s
  | .ht, _, _ => .next (notify d i .half (chanOf q) s)
  | .tc, _, _ => .next (notify d i .full (chanOf q) s)

/-- The service step of completion `x` of queue `q` (R212): completion entry and return (60_exceptions.md R283,
R284). It is enabled when the queue's interrupts are, and that completion is pending. -/
def serviceStep (q : QueueId) (x : Completion) (s : State) : Host.Outcome State Fault Refusal :=
  match owner s.cfg q with
  | none => .refused .notEnabled
  | some (d, i) =>
    if queueExists s.cfg q && (s.queue q).ie && (s.queue q).pending x then
      deliver d i q x (s.setQueue q ((s.queue q).setPending x false))
    else .refused .notEnabled

/-- The error step of queue `q` (R213), enabled when the queue is `RUNNING`. -/
def errorStep (q : QueueId) (s : State) : Host.Outcome State Fault Refusal :=
  if queueExists s.cfg q && (s.queue q).st == .running then
    .next (s.setQueue q { s.queue q with errs := true, pendErr := true })
  else .refused .notEnabled

end Sys2Proof.Machine
end

