-- ==== Sys2Proof/Machine/Lifecycle.lean ====
section
/-! DEFINITION. The lifecycle commands (40_stream_lifecycle.md): INIT, DEINIT, PLAY, RECORD, RECORDM, PAUSE,
RESUME, STOP. Each meaning is its checks in the order of R130, then its steps in the order written. -/

namespace Sys2Proof.Machine

/-! ### Shared steps -/

/-- The direction a queue of the instance moves its elements: `dirof(d)` (R131). -/
def flowOf : Dir → Flow
  | .out => .m2p
  | .inp => .p2m

/-- A call on the instance's codec, if it has one: `if codec(d,i) = c: call ... ; if r = fail: raise e`. -/
def codecOr (d : Dir) (i : Idx) (mk : Idx → Call) (e : Status) (s : State) : Res :=
  match codecOf s.cfg d i with
  | none => .done s
  | some c => callOr (mk c) e s

/-- The same with the failure noted instead of raised: whether it succeeded. -/
def codecTry (d : Dir) (i : Idx) (mk : Idx → Call) (s : State) : Bool × State :=
  match codecOf s.cfg d i with
  | none => (true, s)
  | some c => (answerOk (call (mk c) s).1, (call (mk c) s).2)

/-- `power_up(c)` (R143); the answer of `CodecReset` is ignored. -/
def powerUp (c : Idx) (s : State) : Res :=
  (callOr (.busInit c) .busFailure s).andThen fun s1 =>
    let s2 := s1.logCall (.codecReset c)
    match s2.nextAnswer with
    | .fail => .raised .componentFailure (s2.logCall (.codecReadId c))
    | .ok id =>
      if id = codecId s.cfg c then .done ((s2.logCall (.codecReadId c)).setPower c true)
      else .raised .unknownComponent (s2.logCall (.codecReadId c))

/-- `if codec(d,i) = c and CODEC_PWR[c] = 0: power_up(c)` (R131). -/
def powerUpIfOff (d : Dir) (i : Idx) (s : State) : Res :=
  match codecOf s.cfg d i with
  | none => .done s
  | some c => if s.power[c] then .done s else powerUp c s

/-- `power_down(c)` (R143), with the failures noted after those noted before. -/
def powerDown (c : Idx) (noted : Option Status) (s : State) : Option Status × State :=
  let s1 := s.logCall (.codecDeInit c)
  let s2 := s1.logCall (.busDeInit c)
  (note (note noted (answerOk s.nextAnswer) .componentFailure) (answerOk s1.nextAnswer) .busFailure,
    s2.setPower c false)

/-- The queues a (re)configuration rebuilds: the serial queue, or the microphones of the selector, ascending (R131,
41_stream_config.md R163). -/
def configuredQueues (p : Config.Params) (d : Dir) (i : Idx) (dev : Word) : List QueueId :=
  if isSd p d i then (bitList (mics p dev)).map .qm else [serialQueue d i]

/-- The element width of those queues: `W(bits)`, or 4 bytes for a microphone (20_memory.md R75). -/
def elementWidth (p : Config.Params) (d : Dir) (i : Idx) (bits : BitVec 6) : Nat :=
  if isSd p d i then 4 else width bits

/-- `reconfigure(d,i,dev,bits)` (41_stream_config.md R163), also the configure step of INIT and SETDEV. -/
def reconfigure (d : Dir) (i : Idx) (dev : Word) (bits : BitVec 6) (s : State) : Bool × State :=
  configureAll (flowOf d) (elementWidth s.cfg d i bits) (configuredQueues s.cfg d i dev) s

/-- The end of a command whose failures were noted (00_scope.md R14). -/
def Res.ofNoted (noted : Option Status) (s : State) : Res :=
  match noted with
  | none => .done s
  | some e => .raised e s

/-! ### INIT -/

/-- The instance INIT creates (R131); `CBREG` and `CBEN` stay. -/
def Inst.created (v : Inst) (dev rate : Word) (bits : BitVec 6) (ch : BitVec 2) (vol : BitVec 7) : Inst :=
  { v with device := dev, rate := rate, bits := bits, chans := ch, volume := vol, mute := false, life := .stop }

/-- The steps of INIT after its checks (R131). -/
def initBody (d : Dir) (i : Idx) (dev rate : Word) (bits : BitVec 6) (ch : BitVec 2) (vol : BitVec 7) (s : State) :
    Res :=
  (powerUpIfOff d i s).andThen fun s =>
  (callOr (.clockConfig d i rate) .clockFailure s).andThen fun s =>
  (okOr (reconfigure d i dev bits s) .periphFailure).andThen fun s =>
  (codecOr d i (fun c => .codecInit c (codecCfg s d i dev rate bits vol)) .componentFailure s).andThen fun s =>
  .done (s.setInst d i ((s.inst d i).created dev rate bits ch vol))

/-- The operand ranges of INIT (R131): `true` is `WrongParam`. -/
def badInit (p : Config.Params) (d : Dir) (i : Idx) (dev rate : Word) (ch : BitVec 2) (bits : BitVec 6)
    (mbz : BitVec 1) (vol : BitVec 7) : Bool :=
  mbz != 0 || !volLegal vol || !bitsLegal bits || !chansLegal ch || !devOk p d i dev || !rateOk p d i rate
  || !comboOk p d i bits ch

/-- INIT (R131), with `dev = ARG0` and `rate = ARG1`. -/
def execInit (d : Dir) (i : Idx) (ch : BitVec 2) (bits : BitVec 6) (mbz : BitVec 1) (vol : BitVec 7) (s : State) :
    Host.Outcome State Fault Refusal :=
  command
    [(!valid s.cfg d i, .wrongParam),
     (badInit s.cfg d i s.arg0 s.arg1 ch bits mbz vol, .wrongParam),
     (tooFewMics s.cfg d i s.arg0 ch, .wrongParam),
     ((s.inst d i).life != .reset, .busy),
     (!xinstOk s d i s.arg1 bits, .featureNotSupported)]
    (initBody d i s.arg0 s.arg1 bits ch vol) s

/-! ### DEINIT -/

/-- The power-down of DEINIT, if the instance was the last of its codec (R132). -/
def powerDownIfLast (d : Dir) (i : Idx) (noted : Option Status) (s : State) : Option Status × State :=
  match codecOf s.cfg d i with
  | none => (noted, s)
  | some c => if s.power[c] && sibsReset s d i then powerDown c noted s else (noted, s)

/-- The steps of DEINIT on an instance that is not `RESET` (R132). -/
def deinitBody (d : Dir) (i : Idx) (s : State) : Res :=
  let r := stopAndDiscardAll (queuesOf s.cfg d i) s
  let s1 := r.2.setInst d i Inst.reset
  let e := powerDownIfLast d i (note none r.1 .periphFailure) s1
  Res.ofNoted e.1 e.2

/-- DEINIT (R132): legal in every state; nothing changes in `RESET`. -/
def execDeinit (d : Dir) (i : Idx) (s : State) : Host.Outcome State Fault Refusal :=
  command [(!valid s.cfg d i, .wrongParam)]
    (fun s => if (s.inst d i).life = .reset then .done s else deinitBody d i s) s

/-! ### PLAY and RECORD -/

/-- The steps of PLAY, and of RECORD on a `SERIAL` instance (R133, R134): the queue starts before the codec plays,
and is stopped again when the codec refuses. -/
def startSerial (d : Dir) (i : Idx) (buf : Word) (count : Nat) (s : State) : Res :=
  (okOr (teStart (serialQueue d i) buf count s) .periphFailure).andThen fun s =>
  match codecOf s.cfg d i with
  | none => .done (s.setLife d i .active)
  | some c =>
    let s1 := s.logCall (.codecPlay c)
    if answerOk s.nextAnswer then .done (s1.setLife d i .active)
    else .raised .componentFailure (teStop (serialQueue d i) s1).2

/-- The registers RECORD sets up for a merge-mode session (R135, 43_sample_reassembler.md R241). -/
def Reassembler.mergeSession (r : Reassembler) (en : BitVec 12) (ch2 : Bool) (tgt : Word) (size : Nat) : Reassembler :=
  { r with en := en, ch2 := ch2, mbuf := false, tgt := tgt, size := BitVec.ofNat 16 size, rdy0 := 0, rdy1 := 0,
           cur := 0 }

/-- The registers RECORDM sets up (R136). -/
def Reassembler.multiSession (r : Reassembler) (en : BitVec 12) : Reassembler :=
  { r with en := en, mbuf := true, ch2 := false, rdy0 := 0, rdy1 := 0, cur := 0 }

/-- The enabled set of a merge-mode session (R135). -/
def mergeSet (s : State) (j : Idx) : BitVec 12 :=
  lowbits (mics s.cfg (s.inst .inp j).device) (s.inst .inp j).chans.toNat

/-- The steps of RECORD on the `SD` instance (R135). -/
def startMerge (j : Idx) (buf : Word) (count : Nat) (s : State) : Res :=
  (okOr (startAll s.cfg.cap [] ((bitList (mergeSet s j)).map fun m => (.qm m, 0)) s) .periphFailure).andThen
    fun s1 =>
  .done ({ s1 with sr := s1.sr.mergeSession (mergeSet s j) ((s.inst .inp j).chans == 2) buf count }.setLife
    .inp j .active)

/-- The steps of RECORDM (R136). -/
def startMulti (j : Idx) (tbl len : Word) (s : State) : Res :=
  let ms := mics s.cfg (s.inst .inp j).device
  (okOr (startAll (len.toNat / 4) [] ((bitList ms).map fun m => (.qm m, tableEntry s.mem tbl m)) s)
    .periphFailure).andThen fun s1 =>
  .done ({ s1 with sr := s1.sr.multiSession ms }.setLife .inp j .active)

/-- PLAY (R133), with `buf = ARG0` and `len = ARG1`. -/
def execPlay (i : Idx) (s : State) : Host.Outcome State Fault Refusal :=
  let w := width (s.inst .out i).bits
  command
    [(!valid s.cfg .out i, .wrongParam),
     (badBuffer s.cfg w s.arg0 s.arg1, .wrongParam),
     ((s.inst .out i).life != .stop, .busy)]
    (startSerial .out i s.arg0 (s.arg1.toNat / w)) s

/-- RECORD on a `SERIAL` instance (R134). -/
def recordSerial (i : Idx) (s : State) : Host.Outcome State Fault Refusal :=
  let w := width (s.inst .inp i).bits
  command
    [(!valid s.cfg .inp i, .wrongParam),
     (badBuffer s.cfg w s.arg0 s.arg1, .wrongParam),
     ((s.inst .inp i).life != .stop, .busy)]
    (startSerial .inp i s.arg0 (s.arg1.toNat / w)) s

/-- RECORD on the `SD` instance (R135). -/
def recordMerge (j : Idx) (s : State) : Host.Outcome State Fault Refusal :=
  command
    [(!valid s.cfg .inp j, .wrongParam),
     (badBuffer s.cfg 2 s.arg0 s.arg1 || decide (s.arg1.toNat / 2 % (2 * s.cfg.cap) ≠ 0), .wrongParam),
     ((s.inst .inp j).life != .stop, .busy)]
    (startMerge j s.arg0 (s.arg1.toNat / 2)) s

/-- RECORD (R134, R135): one encoding, two paths by the kind of the instance. -/
def execRecord (i : Idx) (s : State) : Host.Outcome State Fault Refusal :=
  if isSd s.cfg .inp i then recordMerge i s else recordSerial i s

/-- RECORDM (R136), with `tbl = ARG0` and `len = ARG1`. Table entries of microphones not selected are not read. -/
def execRecordm (i : Idx) (s : State) : Host.Outcome State Fault Refusal :=
  command
    [(!valid s.cfg .inp i || !isSd s.cfg .inp i, .wrongParam),
     (badTable s.cfg s.arg0 s.arg1, .wrongParam),
     ((bitList (mics s.cfg (s.inst .inp i).device)).any
        (fun m => badEntry s.cfg s.arg1 (tableEntry s.mem s.arg0 m)), .wrongParam),
     ((s.inst .inp i).life != .stop, .busy)]
    (startMulti i s.arg0 s.arg1) s

/-! ### PAUSE, RESUME, STOP -/

/-- `runq(d,i)` (R137). -/
def runQueues (s : State) (d : Dir) (i : Idx) : List QueueId :=
  if isSd s.cfg d i then (bitList s.sr.en).map .qm else [serialQueue d i]

/-- PAUSE (R137): queue, then codec (90_conflicts.md C1). -/
def execPause (d : Dir) (i : Idx) (s : State) : Host.Outcome State Fault Refusal :=
  command [(!valid s.cfg d i, .wrongParam), ((s.inst d i).life != .active, .busy)]
    (fun s =>
      (okOr (pauseAll (runQueues s d i) s) .periphFailure).andThen fun s =>
      (codecOr d i .codecPause .componentFailure s).andThen fun s =>
      .done (s.setLife d i .pause)) s

/-- RESUME (R138): codec, then queue. -/
def execResume (d : Dir) (i : Idx) (s : State) : Host.Outcome State Fault Refusal :=
  command [(!valid s.cfg d i, .wrongParam), ((s.inst d i).life != .pause, .busy)]
    (fun s =>
      (codecOr d i .codecResume .componentFailure s).andThen fun s =>
      (okOr (resumeAll (runQueues s d i) s) .periphFailure).andThen fun s =>
      .done (s.setLife d i .active)) s

/-- The steps of STOP (R139): both are always performed, and the state moves only when neither failed. -/
def stopBody (d : Dir) (i : Idx) (s : State) : Res :=
  let r := stopAll (queuesOf s.cfg d i) s
  let e := codecTry d i (fun c => .codecStop c .swPd) r.2
  (Res.ofNoted (note (note none r.1 .periphFailure) e.1 .componentFailure) e.2).andThen fun s =>
  .done (s.setLife d i .stop)

/-- STOP (R139). -/
def execStop (d : Dir) (i : Idx) (s : State) : Host.Outcome State Fault Refusal :=
  command
    [(!valid s.cfg d i, .wrongParam),
     ((s.inst d i).life != .active && (s.inst d i).life != .pause, .busy)]
    (stopBody d i) s

end Sys2Proof.Machine
end

