-- ==== Sys2Proof/Machine/Settings.lean ====
section
/-! DEFINITION. The configuration commands (41_stream_config.md): the setters of device, rate, width, channels,
volume and mute, the getters, GETSTATE and REGCB. -/

namespace Sys2Proof.Machine

/-! ### Shared shapes -/

/-- The shape of the six getters (R176): `Busy` in `RESET`, else `RESULT <- zext_32(field)`; no call, no other
change. -/
def getter (d : Dir) (i : Idx) (field : Inst → Word) (s : State) : Host.Outcome State Fault Refusal :=
  command [(!valid s.cfg d i, .wrongParam), ((s.inst d i).life == .reset, .busy)]
    (fun s => .done { s with result := field (s.inst d i) }) s

/-- The codec re-initialisation of a setter; its failure is `NoInit` (R160). -/
def reinit (d : Dir) (i : Idx) (dev rate : Word) (bits : BitVec 6) (s : State) : Res :=
  codecOr d i (fun c => .codecInit c (codecCfg s d i dev rate bits (s.inst d i).volume)) .noInit s

/-- The checks and the call of SETVOL, MUTE and UNMUTE (R169, R171, R172), then the cached field. -/
def forwardToCodec (d : Dir) (i : Idx) (badOperand : Bool) (mk : Idx → Call) (set : Inst → Inst) (s : State) :
    Host.Outcome State Fault Refusal :=
  command
    [(!valid s.cfg d i || badOperand, .wrongParam),
     ((s.inst d i).life == .reset, .busy),
     ((codecOf s.cfg d i).isNone, .featureNotSupported)]
    (fun s => (codecOr d i mk .componentFailure s).andThen fun s => .done (s.setInst d i (set (s.inst d i)))) s

/-! ### Device -/

/-- The descriptors of the microphones a new selector drops (R161). -/
def dropMics (p : Config.Params) (dev : Word) (s : State) : State :=
  ((allMics p).filter fun m => !(mics p dev).getLsbD m.val).foldl (fun s m => s.clearTd (.qm m)) s

/-- The steps of SETDEV (R161). -/
def setdevBody (d : Dir) (i : Idx) (dev : Word) (s : State) : Res :=
  (okOr (reconfigure d i dev (s.inst d i).bits s) .periphFailure).andThen fun s =>
  (reinit d i dev (s.inst d i).rate (s.inst d i).bits s).andThen fun s =>
  let s1 := if isSd s.cfg d i then dropMics s.cfg dev s else s
  .done (s1.setInst d i { s1.inst d i with device := dev })

/-- SETDEV (R161), with `dev = ARG0`. -/
def execSetdev (d : Dir) (i : Idx) (s : State) : Host.Outcome State Fault Refusal :=
  command
    [(!valid s.cfg d i || !devOk s.cfg d i s.arg0, .wrongParam),
     (tooFewMics s.cfg d i s.arg0 (s.inst d i).chans, .wrongParam),
     ((s.inst d i).life != .stop, .busy)]
    (setdevBody d i s.arg0) s

/-- GETDEV (R162). -/
def execGetdev (d : Dir) (i : Idx) (s : State) : Host.Outcome State Fault Refusal :=
  getter d i (·.device) s

/-! ### Sample rate -/

/-- The steps of SETRATE (R163). -/
def setrateBody (d : Dir) (i : Idx) (rate : Word) (s : State) : Res :=
  (callOr (.clockConfig d i rate) .clockFailure s).andThen fun s =>
  (okOr (reconfigure d i (s.inst d i).device (s.inst d i).bits s) .periphFailure).andThen fun s =>
  (reinit d i (s.inst d i).device rate (s.inst d i).bits s).andThen fun s =>
  .done (s.setInst d i { s.inst d i with rate := rate })

/-- SETRATE (R163), with `rate = ARG0`. -/
def execSetrate (d : Dir) (i : Idx) (s : State) : Host.Outcome State Fault Refusal :=
  command
    [(!valid s.cfg d i || !rateOk s.cfg d i s.arg0, .wrongParam),
     ((s.inst d i).life != .stop, .busy),
     (!xinstOk s d i s.arg0 (s.inst d i).bits, .featureNotSupported)]
    (setrateBody d i s.arg0) s

/-- GETRATE (R164). -/
def execGetrate (d : Dir) (i : Idx) (s : State) : Host.Outcome State Fault Refusal :=
  getter d i (·.rate) s

/-! ### Bits per sample -/

/-- `S.CHANS'` (R165). -/
def chansOr1 (ch : BitVec 2) : BitVec 2 :=
  if chansLegal ch then ch else 1

/-- The steps of SETBITS (R165). -/
def setbitsBody (d : Dir) (i : Idx) (bits : BitVec 6) (s : State) : Res :=
  (okOr (reconfigure d i (s.inst d i).device bits s) .periphFailure).andThen fun s =>
  (reinit d i (s.inst d i).device (s.inst d i).rate bits s).andThen fun s =>
  .done (s.setInst d i { s.inst d i with bits := bits })

/-- SETBITS (R165). -/
def execSetbits (d : Dir) (i : Idx) (mbz : BitVec 10) (bits : BitVec 6) (s : State) :
    Host.Outcome State Fault Refusal :=
  command
    [(!valid s.cfg d i || mbz != 0 || !comboOk s.cfg d i bits (chansOr1 (s.inst d i).chans), .wrongParam),
     ((s.inst d i).life != .stop, .busy),
     (!xinstOk s d i (s.inst d i).rate bits, .featureNotSupported)]
    (setbitsBody d i bits) s

/-- GETBITS (R166). -/
def execGetbits (d : Dir) (i : Idx) (s : State) : Host.Outcome State Fault Refusal :=
  getter d i (·.bits.setWidth 32) s

/-! ### Channel count -/

/-- `S.BITS'` (R167). -/
def bitsOr16 (bits : BitVec 6) : BitVec 6 :=
  if bitsLegal bits then bits else 16

/-- The steps of SETCH (R167): no codec call. -/
def setchBody (d : Dir) (i : Idx) (ch : BitVec 2) (s : State) : Res :=
  (okOr (reconfigure d i (s.inst d i).device (s.inst d i).bits s) .periphFailure).andThen fun s =>
  .done (s.setInst d i { s.inst d i with chans := ch })

/-- SETCH (R167). -/
def execSetch (d : Dir) (i : Idx) (mbz : BitVec 14) (ch : BitVec 2) (s : State) :
    Host.Outcome State Fault Refusal :=
  command
    [(!valid s.cfg d i || mbz != 0 || !chansLegal ch || !comboOk s.cfg d i (bitsOr16 (s.inst d i).bits) ch,
        .wrongParam),
     ((s.inst d i).life != .reset && tooFewMics s.cfg d i (s.inst d i).device ch, .wrongParam),
     ((s.inst d i).life != .stop, .busy)]
    (setchBody d i ch) s

/-- GETCH (R168). -/
def execGetch (d : Dir) (i : Idx) (s : State) : Host.Outcome State Fault Refusal :=
  getter d i (·.chans.setWidth 32) s

/-! ### Volume and mute -/

/-- SETVOL (R169). -/
def execSetvol (d : Dir) (i : Idx) (mbz : BitVec 9) (vol : BitVec 7) (s : State) :
    Host.Outcome State Fault Refusal :=
  forwardToCodec d i (mbz != 0 || !volLegal vol) (fun c => .codecSetVolume c (chsel d) vol)
    (fun v => { v with volume := vol }) s

/-- GETVOL (R170). -/
def execGetvol (d : Dir) (i : Idx) (s : State) : Host.Outcome State Fault Refusal :=
  getter d i (·.volume.setWidth 32) s

/-- MUTE (R171). -/
def execMute (d : Dir) (i : Idx) (s : State) : Host.Outcome State Fault Refusal :=
  forwardToCodec d i false (fun c => .codecSetMute c true) (fun v => { v with mute := true }) s

/-- UNMUTE (R172). -/
def execUnmute (d : Dir) (i : Idx) (s : State) : Host.Outcome State Fault Refusal :=
  forwardToCodec d i false (fun c => .codecSetMute c false) (fun v => { v with mute := false }) s

/-- ISMUTE (R173). -/
def execIsmute (d : Dir) (i : Idx) (s : State) : Host.Outcome State Fault Refusal :=
  getter d i (fun v => (BitVec.ofBool v.mute).setWidth 32) s

/-! ### State and callbacks -/

/-- GETSTATE (R174): legal in every state. -/
def execGetstate (d : Dir) (i : Idx) (s : State) : Host.Outcome State Fault Refusal :=
  command [(!valid s.cfg d i, .wrongParam)]
    (fun s => .done { s with result := (s.inst d i).life.code.setWidth 32 }) s

/-- REGCB (R175): legal in every state. -/
def execRegcb (d : Dir) (i : Idx) (mbz : BitVec 13) (mask : BitVec 3) (s : State) :
    Host.Outcome State Fault Refusal :=
  command [(!valid s.cfg d i || mbz != 0, .wrongParam)]
    (fun s => .done (s.setInst d i { s.inst d i with cben := mask, cbreg := true })) s

end Sys2Proof.Machine
end

