-- ==== Sys2Proof/Machine/Dispatch.lean ====
section
/-! DEFINITION. The meaning of each command, one arm per constructor of Instr. -/

namespace Sys2Proof.Machine

def exec (i : Instr) (s : State) : Host.Outcome State Fault Refusal :=
  match i with
  | .init d n ch bits mbz vol => Sys2Proof.Machine.execInit d n ch bits mbz vol s
  | .deinit d n => Sys2Proof.Machine.execDeinit d n s
  | .play n => Sys2Proof.Machine.execPlay n s
  | .record n => Sys2Proof.Machine.execRecord n s
  | .recordm n => Sys2Proof.Machine.execRecordm n s
  | .pause d n => Sys2Proof.Machine.execPause d n s
  | .resume d n => Sys2Proof.Machine.execResume d n s
  | .stop d n => Sys2Proof.Machine.execStop d n s
  | .mute d n => Sys2Proof.Machine.execMute d n s
  | .unmute d n => Sys2Proof.Machine.execUnmute d n s
  | .ismute d n => Sys2Proof.Machine.execIsmute d n s
  | .setvol d n mbz vol => Sys2Proof.Machine.execSetvol d n mbz vol s
  | .getvol d n => Sys2Proof.Machine.execGetvol d n s
  | .setdev d n => Sys2Proof.Machine.execSetdev d n s
  | .getdev d n => Sys2Proof.Machine.execGetdev d n s
  | .setrate d n => Sys2Proof.Machine.execSetrate d n s
  | .getrate d n => Sys2Proof.Machine.execGetrate d n s
  | .setbits d n mbz bits => Sys2Proof.Machine.execSetbits d n mbz bits s
  | .getbits d n => Sys2Proof.Machine.execGetbits d n s
  | .setch d n mbz ch => Sys2Proof.Machine.execSetch d n mbz ch s
  | .getch d n => Sys2Proof.Machine.execGetch d n s
  | .getstate d n => Sys2Proof.Machine.execGetstate d n s
  | .regcb d n mbz mask => Sys2Proof.Machine.execRegcb d n mbz mask s

end Sys2Proof.Machine
end

