-- ==== Sys2Proof/Machine/Window.lean ====
section
/-! DEFINITION. What the host reads in the register window (10_state.md R40). A read has no side effect. -/

namespace Sys2Proof.Machine

/-- A field `v` placed with its lowest bit at bit `at_`. -/
def place {n : Nat} (v : BitVec n) (at_ : Nat) : Word :=
  v.setWidth 32 <<< at_

def placeBool (b : Bool) (at_ : Nat) : Word :=
  place (BitVec.ofBool b) at_

def param0 (p : Config.Params) : Word :=
  place (BitVec.ofNat 8 p.nOut) 0 ||| place (BitVec.ofNat 8 p.nIn) 8 ||| place (BitVec.ofNat 8 p.nMic) 16
    ||| place (BitVec.ofNat 8 p.nCodec) 24

def param1 (p : Config.Params) : Word :=
  place (BitVec.ofNat 16 p.cap) 0 ||| place (BitVec.ofNat 5 p.shift) 16
    ||| place (match p.sd with
        | some j => BitVec.ofNat 5 j.val
        | none => (0x1F : BitVec 5)) 24

def codecPwrWord (s : State) : Word :=
  (List.finRange 16).foldr (fun c v => placeBool (s.power[c]) c.val ||| v) 0

/-- `IFMT` of the instance group. -/
def ifmt (v : Inst) : Word :=
  place v.bits 0 ||| place v.chans 8 ||| place v.volume 16 ||| placeBool v.mute 24 ||| placeBool v.cbreg 25
    ||| place v.cben 26

/-- The four words of an instance group. -/
def instWord (v : Inst) (k : Nat) : Word :=
  match k with
  | 0 => place v.life.code 0
  | 1 => v.device
  | 2 => v.rate
  | 3 => ifmt v
  | _ => 0

/-- `QCTL` of the queue group. -/
def qctl (q : Queue) : Word :=
  place q.st.code 0 ||| placeBool q.ie 4 ||| placeBool q.pendHt 8 ||| placeBool q.pendTc 9 ||| placeBool q.pendErr 10
    ||| placeBool q.ovr 16 ||| placeBool q.errs 17 ||| placeBool q.built 24

/-- The five words of a queue group. -/
def queueWord (q : Queue) (k : Nat) : Word :=
  match k with
  | 0 => q.td
  | 1 => qctl q
  | 2 => q.base
  | 3 => place q.count 0
  | 4 => place q.pos 0
  | _ => 0

/-- The queue whose number `qn` is `n` (10_state.md R31). -/
def queueOfNumber (n : Nat) : Option QueueId :=
  if h : n < 16 then some (.qo ⟨n, h⟩)
  else if h : n - 16 < 16 then some (.qi ⟨n - 16, h⟩)
  else if h : n - 32 < 12 then some (.qm ⟨n - 32, h⟩)
  else none

def srctl (r : Reassembler) : Word :=
  place r.en 0 ||| placeBool r.ch2 16 ||| placeBool r.mbuf 17 ||| placeBool r.ovr 24

def srrdy (r : Reassembler) : Word :=
  place r.rdy0 0 ||| place r.rdy1 16

/-- Word `k` of the group of instance `n`; 0 when the instance does not exist. -/
def instGroup (s : State) (d : Dir) (n k : Nat) : Word :=
  if h : n < 16 then
    if valid s.cfg d ⟨n, h⟩ then instWord (s.inst d ⟨n, h⟩) k else 0
  else 0

/-- Word `k` of the group of queue number `n`; 0 when the queue does not exist. -/
def queueGroup (s : State) (n k : Nat) : Word :=
  match queueOfNumber n with
  | some q => if queueExists s.cfg q then queueWord (s.queue q) k else 0
  | none => 0

/-- The single registers of the window; `CMD` and unmapped offsets read 0. -/
def singleWord (s : State) (off : Nat) : Word :=
  match off with
  | 0x004 => s.arg0
  | 0x008 => s.arg1
  | 0x00C => s.status
  | 0x010 => s.result
  | 0x014 => param0 s.cfg
  | 0x018 => param1 s.cfg
  | 0x01C => codecPwrWord s
  | 0xA00 => srctl s.sr
  | 0xA04 => srrdy s.sr
  | 0xA08 => place s.sr.cur 0
  | 0xA0C => s.sr.tgt
  | 0xA10 => place s.sr.size 0
  | _ => 0

/-- The word an aligned 32-bit read at byte offset `off` returns (R40). -/
def readReg (s : State) (off : Nat) : Word :=
  if 0x100 ≤ off ∧ off < 0x200 then instGroup s .out ((off - 0x100) / 0x10) (off % 0x10 / 4)
  else if 0x200 ≤ off ∧ off < 0x300 then instGroup s .inp ((off - 0x200) / 0x10) (off % 0x10 / 4)
  else if 0x400 ≤ off ∧ off < 0xA00 then queueGroup s ((off - 0x400) / 0x20) (off % 0x20 / 4)
  else singleWord s off

end Sys2Proof.Machine
end

