-- ==== Sys2Proof/Machine/Agents.lean ====
section
/-! DEFINITION. One step of one agent (00_scope.md R3): the host's accesses to the register window and to system
memory, and the DMA, service and error steps of a queue. Each is atomic (20_memory.md R76). -/

namespace Sys2Proof.Machine

/-- A write of `CMD`: the whole command (30_encoding.md R100); a reserved encoding only writes `STATUS` (R108). -/
def commandWrite (w : Word) (s : State) : Host.Outcome State Fault Refusal :=
  match decode w with
  | .ok i => exec i { s with cmd := w }
  | .error _ => finishWith .wrongParam { s with cmd := w }

/-- A 32-bit register access must be 4 bytes wide at a multiple of 4 (20_memory.md R74). -/
def wordAccess (size : Nat) (off : Word) : Bool :=
  size == 4 && off.toNat % 4 == 0

/-- The host writes the register window: the port registers; anything else is ignored (10_state.md R40). -/
def hostRegWrite (size : Nat) (off v : Word) (s : State) : Host.Outcome State Fault Refusal :=
  if wordAccess size off then
    match off.toNat with
    | 0x000 => commandWrite v s
    | 0x004 => .next { s with arg0 := v }
    | 0x008 => .next { s with arg1 := v }
    | _ => .next s
  else .refused .narrowAccess

/-- The host reads the register window (R40). -/
def hostRegRead (size : Nat) (off : Word) (s : State) : Host.Outcome State Fault Refusal :=
  if wordAccess size off then .next { s with readData := (readReg s off.toNat).toNat } else .refused .narrowAccess

/-- The host writes system memory (20_memory.md R72). -/
def hostMemWrite (a : Word) (bytes : List Byte) (s : State) : Host.Outcome State Fault Refusal :=
  if 2 ^ 32 < a.toNat + bytes.length then .fault .addressOutOfRange
  else .next { s with mem := writeBytes s.mem a.toNat bytes }

/-- The host reads system memory (R72). -/
def hostMemRead (a : Word) (n : Nat) (s : State) : Host.Outcome State Fault Refusal :=
  if 2 ^ 32 < a.toNat + n then .fault .addressOutOfRange
  else .next { s with readData := memRead s.mem a.toNat n }

/-- The step an event names. -/
def runEvent (e : Config.Event) (s : State) : Host.Outcome State Fault Refusal :=
  match e with
  | .regWrite size off v => hostRegWrite size off v s
  | .regRead size off => hostRegRead size off s
  | .memWrite a bytes => hostMemWrite a bytes s
  | .memRead a n => hostMemRead a n s
  | .dma q v => dmaStep q v s
  | .service q x => serviceStep q x s
  | .error q => errorStep q s

/-- The agent step that comes next: the one the schedule names, else a free one (R3, R39, 93 U16, log 2). -/
def State.nextEvent (s : State) : Config.Event :=
  match s.schedule with
  | e :: _ => e
  | [] => Config.freeEvent s.draws

/-- The state once that choice is used up. -/
def State.dropEvent (s : State) : State :=
  match s.schedule with
  | _ :: rest => { s with schedule := rest }
  | [] => { s with draws := s.draws + 1 }

end Sys2Proof.Machine
end

