-- ==== Sys2Proof/Machine/Step.lean ====
section
/-! DEFINITION. One step of the machine: the agent step that comes next (00_scope.md R3), and how a command word is
placed as that step. ASE fetches nothing (10_state.md R29): the host writes each command word to `CMD` (log 2). -/

namespace Sys2Proof.Machine

/-- One atomic step of one agent. -/
def step (s : State) : Host.Outcome State Fault Refusal :=
  runEvent s.nextEvent s.dropEvent

/-- The state in which the very next step is the host's write of this word to `CMD`. -/
def State.withFetchWord (s : State) (nbits w : Nat) : State :=
  { s with schedule := .regWrite 4 0 (BitVec.ofNat 32 (w % 2 ^ nbits)) :: s.schedule }

end Sys2Proof.Machine
end

