-- ==== Sys2Proof/Safety.lean ====
section
/-! DEFINITION. The terms the claims are stated in: the instance a command addresses, what no command touches, runs
of granted answers, the sticky fault bits (60_exceptions.md R287), and the invariants (10_state.md R43, R44; 42 R214;
43 R247). -/

namespace Sys2Proof

/-- The instance a command addresses (30_encoding.md R101). -/
def Instr.target : Instr → Dir × Idx
  | .init d i _ _ _ _ => (d, i)
  | .deinit d i => (d, i)
  | .play i => (.out, i)
  | .record i => (.inp, i)
  | .recordm i => (.inp, i)
  | .pause d i => (d, i)
  | .resume d i => (d, i)
  | .stop d i => (d, i)
  | .mute d i => (d, i)
  | .unmute d i => (d, i)
  | .ismute d i => (d, i)
  | .setvol d i _ _ => (d, i)
  | .getvol d i => (d, i)
  | .setdev d i => (d, i)
  | .getdev d i => (d, i)
  | .setrate d i => (d, i)
  | .getrate d i => (d, i)
  | .setbits d i _ _ => (d, i)
  | .getbits d i => (d, i)
  | .setch d i _ _ => (d, i)
  | .getch d i => (d, i)
  | .getstate d i => (d, i)
  | .regcb d i _ _ => (d, i)

/-- The commands that return a value in `RESULT` (10_state.md R37). -/
def Instr.isGetter : Instr → Bool
  | .ismute _ _ => true
  | .getvol _ _ => true
  | .getdev _ _ => true
  | .getrate _ _ => true
  | .getbits _ _ => true
  | .getch _ _ => true
  | .getstate _ _ => true
  | _ => false

namespace Machine

/-! ### What a command leaves alone -/

/-- The parts of the state no command writes (10_state.md R47, 20_memory.md R72): the port's operands, the
notifications and transmitted elements, the memories, and the model's own fields but the answers. -/
structure KeepsSurroundings (s t : State) : Prop where
  cfg : t.cfg = s.cfg
  cmd : t.cmd = s.cmd
  arg0 : t.arg0 = s.arg0
  arg1 : t.arg1 = s.arg1
  evlog : t.evlog = s.evlog
  tx : t.tx = s.tx
  bytes : ∀ a, byteAt t.mem a = byteAt s.mem a
  samples : ∀ m k, sampleAt t.cb m k = sampleAt s.cb m k
  mem : t.mem = s.mem
  cb : t.cb = s.cb
  schedule : t.schedule = s.schedule
  readData : t.readData = s.readData

/-- No instance but `(d,i)` differs. -/
def SameOtherInsts (d : Dir) (i : Idx) (s t : State) : Prop :=
  ∀ d' i', (d', i') ≠ (d, i) → t.inst d' i' = s.inst d' i'

/-- No queue outside the list differs. -/
def SameOtherQueues (qs : List QueueId) (s t : State) : Prop :=
  ∀ q, q ∉ qs → t.queue q = s.queue q

/-! ### Collaborators -/

/-- The environment answers `ok` to the next `n` calls. -/
def Granted (n : Nat) (s : State) : Prop :=
  n ≤ s.answers.length ∧ ∀ a ∈ s.answers.take n, answerOk a = true

/-- The environment answers `ok` to the next `k` calls and `fail` to the one after them: step `k` of a command whose
steps are calls fails. -/
def FailsAt (k : Nat) (s : State) : Prop :=
  Granted k s ∧ s.answers[k]? = some .fail

/-- What a command that ended with `code` at a failed step leaves (40_stream_lifecycle.md R141, 60_exceptions.md R277):
the code, the calls made up to the failed one, and every instance, the reassembler, `RESULT` and the surroundings as
they were. What it leaves of the queues and of `CODEC_PWR` is said beside it. -/
structure FailedAfter (code : Word) (calls : List Call) (s t : State) : Prop where
  status : t.status = code
  outs : t.outs = s.outs
  ins : t.ins = s.ins
  calls : t.calls = s.calls ++ calls
  sr : t.sr = s.sr
  result : t.result = s.result
  surroundings : KeepsSurroundings s t

/-- The call a command makes on the instance's codec, if it has one. -/
def codecCalls (p : Config.Params) (d : Dir) (i : Idx) (mk : Idx → Call) : List Call :=
  match codecOf p d i with
  | none => []
  | some c => [mk c]

/-- The calls of `power_up`, made when the instance has a codec that is off (40_stream_lifecycle.md R143). -/
def powerUpCalls (s : State) (d : Dir) (i : Idx) : List Call :=
  match codecOf s.cfg d i with
  | none => []
  | some c => if s.power[c] then [] else [.busInit c, .codecReset c, .codecReadId c]

/-- The probe of `power_up`, if there is one, returns the identity the codec must have. -/
def ProbeMatches (s : State) (d : Dir) (i : Idx) : Prop :=
  ∀ c, codecOf s.cfg d i = some c → s.power[c] = false → s.answers[2]? = some (.ok (codecId s.cfg c))

/-- DEINIT of the instance powers its codec down (R132). -/
def lastOfCodec (s : State) (d : Dir) (i : Idx) : Bool :=
  match codecOf s.cfg d i with
  | none => false
  | some c => s.power[c] && sibsReset s d i

/-- The queues of a list that are not idle, in order: those whose link `TE.Stop` disables. -/
def armed (s : State) (qs : List QueueId) : List QueueId :=
  qs.filter fun q => (s.queue q).st != .idle

/-- The queues of a list in a run state, in order: the running ones are those `TE.Pause` makes a call for, the paused
ones those `TE.Resume` makes one for (42_transfer_engine.md R206). -/
def inRunState (r : RunState) (s : State) (qs : List QueueId) : List QueueId :=
  qs.filter fun q => (s.queue q).st == r

/-- The queue as `TE.Start` arms it (R202), and as `TE.Stop` leaves that queue when the command undoes the start. -/
def armedAt (v : Queue) (base : Word) (count : Nat) : Queue :=
  { v with base := base, count := BitVec.ofNat 16 count, pos := 0, st := .running, ie := true, pendHt := false,
           pendTc := false, pendErr := false, errs := false }

def disarmedAt (v : Queue) (base : Word) (count : Nat) : Queue :=
  { armedAt v base count with st := .idle, ie := false }

/-- The queue as `TE.Configure` leaves it (R201): its descriptor for the width, and `BUILT` of a `LIST` queue. -/
def rebuiltFor (s : State) (d : Dir) (n : Idx) (bits : BitVec 6) (q : QueueId) : Queue :=
  { s.queue q with
    td := descriptor s.cfg q (flowOf d) (elementWidth s.cfg d n bits)
    built := (s.queue q).built || (queueCfg s.cfg q).list }

/-! ### Operands out of range (60_exceptions.md R272) -/

/-- A buffer of `len` bytes at `buf`, of elements of `w` bytes, that PLAY and RECORD refuse: null, of no whole number of
elements, of none or more than 65535 of them, misaligned, wrapping or unreachable (20_memory.md R74, R79). -/
def BadBuffer (p : Config.Params) (w : Nat) (buf len : Word) : Prop :=
  buf = 0 ∨ len.toNat % w ≠ 0 ∨ len.toNat / w = 0 ∨ 65535 < len.toNat / w ∨ buf.toNat % w ≠ 0 ∨
  2 ^ 32 < buf.toNat + len.toNat ∨ memOk p buf.toNat len.toNat = false

/-- Fewer microphones of an `SD` instance selected than channels asked for. -/
def TooFewMics (p : Config.Params) (d : Dir) (i : Idx) (dev : Word) (ch : BitVec 2) : Prop :=
  isSd p d i = true ∧ popcount (mics p dev) < ch.toNat

/-- A table or length RECORDM refuses, or an entry of a selected microphone that it refuses
(40_stream_lifecycle.md R136). -/
def BadTable (s : State) (ms : BitVec 12) (tbl len : Word) : Prop :=
  tbl = 0 ∨ tbl.toNat % 4 ≠ 0 ∨ 2 ^ 32 < tbl.toNat + 4 * s.cfg.nMic ∨ memOk s.cfg tbl.toNat (4 * s.cfg.nMic) = false ∨
  len.toNat % 4 ≠ 0 ∨ len.toNat / 4 = 0 ∨ 65535 < len.toNat / 4 ∨
  ∃ (m : Mic) (b : Word), ms.getLsbD m.val = true ∧ b = BitVec.ofNat 32 (memRead s.mem (tbl.toNat + 4 * m.val) 4) ∧
    (b = 0 ∨ b.toNat % 4 ≠ 0 ∨ 2 ^ 32 < b.toNat + len.toNat ∨ memOk s.cfg b.toNat len.toNat = false)

/-! ### The register window (10_state.md R40), each word written out from bit 31 down -/

/-- The four words of an instance group. -/
def shownInst (v : Inst) : List Word :=
  [0#30 ++ (match v.life with
      | .reset => 0#2
      | .active => 1#2
      | .stop => 2#2
      | .pause => 3#2),
   v.device, v.rate,
   0#3 ++ (v.cben ++ (BitVec.ofBool v.cbreg ++ (BitVec.ofBool v.mute ++ (0#1 ++ (v.volume ++ (0#6 ++ (v.chans
     ++ (0#2 ++ v.bits))))))))]

/-- The eight words of a queue group, the last three unmapped. -/
def shownQueue (v : Queue) : List Word :=
  [v.td,
   0#7 ++ (BitVec.ofBool v.built ++ (0#6 ++ (BitVec.ofBool v.errs ++ (BitVec.ofBool v.ovr ++ (0#5
     ++ (BitVec.ofBool v.pendErr ++ (BitVec.ofBool v.pendTc ++ (BitVec.ofBool v.pendHt ++ (0#3 ++ (BitVec.ofBool v.ie
     ++ (0#2 ++ (match v.st with
      | .idle => 0#2
      | .running => 1#2
      | .paused => 2#2)))))))))))),
   v.base, 0#16 ++ v.count, 0#16 ++ v.pos, 0, 0, 0]

/-- The number of a queue in the window (R31). -/
def windowNumber : QueueId → Nat
  | .qo i => i.val
  | .qi j => 16 + j.val
  | .qm m => 32 + m.val

/-! ### Safe runs -/

/-- No sticky fault bit is set: the runs the guarantees of the spec speak of (60_exceptions.md R287). -/
def NoFaultBit (s : State) : Prop :=
  s.sr.ovr = false ∧ ∀ q, (s.queue q).ovr = false

/-! ### Invariants -/

/-- Both memories are in their canonical form. -/
def MemoryForm (s : State) : Prop :=
  s.mem.wf = true ∧ ChannelMemory.wf s.cb = true

/-- A descriptor as `TE.Configure` writes it for queue `q` (42_transfer_engine.md R201, 10_state.md R32). -/
structure DescriptorFor (q : QueueId) (td : Word) : Prop where
  valid : tdValid td = true
  circ : tdCirc td = true
  width : tdWidth td = 1 ∨ tdWidth td = 2
  micWidth : ∀ m, q = .qm m → tdWidth td = 2
  direction : tdIsP2m td = true ↔ ∀ i, q ≠ .qo i
  sinc : tdSinc td = !tdIsP2m td
  dinc : tdDinc td = tdIsP2m td
  high : td.extractLsb' 10 22 = 0

/-- What holds of every queue: R44 (b), and what a queue that is armed needs. -/
structure QueueInv (q : QueueId) (v : Queue) : Prop where
  td : v.td = 0 ∨ DescriptorFor q v.td
  enabled : v.ie = true ↔ v.st ≠ .idle
  pending : v.pendHt = true ∨ v.pendTc = true ∨ v.pendErr = true → v.ie = true
  built : v.st ≠ .idle → tdValid v.td = true
  position : v.st ≠ .idle → v.pos.toNat < v.count.toNat

/-- R44 (a) and (b). -/
structure EngineInv (s : State) : Prop where
  queues : ∀ q, QueueInv q (s.queue q)
  idle : ∀ d i, valid s.cfg d i = true → (s.inst d i).life = .reset ∨ (s.inst d i).life = .stop →
    ∀ q ∈ queuesOf s.cfg d i, (s.queue q).st = .idle

/-- R44 (f) for one instance, with the population of the selector (R131). -/
structure LegalInst (p : Config.Params) (d : Dir) (i : Idx) (v : Inst) : Prop where
  device : devOk p d i v.device = true
  mics : tooFewMics p d i v.device v.chans = false
  rate : rateOk p d i v.rate = true
  combo : comboOk p d i v.bits v.chans = true
  volume : v.volume.toNat ≤ 100

/-- R44 (c) to (f), of the instances that exist. -/
structure ConfigInv (s : State) : Prop where
  legal : ∀ d i, valid s.cfg d i = true → (s.inst d i).life ≠ .reset → LegalInst s.cfg d i (s.inst d i)
  powered : ∀ d i c, valid s.cfg d i = true → (s.inst d i).life ≠ .reset → codecOf s.cfg d i = some c →
    s.power[c] = true
  coupled : ∀ d i, valid s.cfg d i = true → (s.inst d i).life ≠ .reset → ∀ x ∈ sibs s.cfg d i,
    (s.inst x.1 x.2).life ≠ .reset →
    (s.inst x.1 x.2).rate = (s.inst d i).rate ∧ (s.inst x.1 x.2).bits = (s.inst d i).bits
  built : ∀ d i, valid s.cfg d i = true → (s.inst d i).life ≠ .reset →
    ∀ q ∈ configuredQueues s.cfg d i (s.inst d i).device, tdValid (s.queue q).td = true

/-- R214 for one queue: while `OVR = 0` at most one of `HT`, `TC` is pending, a pending `HT` belongs to a position in
the second half and a pending `TC` to one in the first. -/
def CompletionOrder (v : Queue) : Prop :=
  v.st ≠ .idle → v.pos.toNat < v.count.toNat ∧
    (v.ovr = false →
      ¬(v.pendHt = true ∧ v.pendTc = true) ∧
      (v.pendHt = true → 2 ≤ v.count.toNat ∧ v.count.toNat / 2 ≤ v.pos.toNat) ∧
      (v.pendTc = true → 2 ≤ v.count.toNat → v.pos.toNat < v.count.toNat / 2))

/-- R44 (g) and 43 R247: in merge mode, once a session has been set up, the target is a whole number of pairs of
chunks and the cursor stands at a chunk boundary inside it. -/
def CursorInv (s : State) : Prop :=
  s.sr.mbuf = false → s.sr.size = 0 ∨
    (s.sr.size.toNat % (2 * s.cfg.cap) = 0 ∧ s.sr.cur.toNat % s.cfg.cap = 0 ∧ s.sr.cur.toNat < s.sr.size.toNat)

end Machine

end Sys2Proof
end

