-- ==== Sys2Proof/Certificates/Slice0/Obligations.lean ====
section
/-! DEFINITION. The statements for the provers, in the order of OBLIGATIONS.json. -/

open Sys2Proof Sys2Proof.Machine

/-! ### Encoding (30_encoding.md) -/

/-- Decode and encode agree on every command, with every operand at every value the encoding admits. -/
def Obligations.DecodeEncodeRoundTrip : Prop :=
  ∀ i : Instr, decode (encode i) = .ok i

/-- Every word has at most one encoding: no bit of a word that decodes is dropped. -/
def Obligations.EncodeDecodeRoundTrip : Prop :=
  ∀ (w : Word) (i : Instr), decode w = .ok i → encode i = w

/-- R107, R108, R109: the decoder accepts exactly the words that select a row of the opcode map, and no word selects
two rows. -/
def Obligations.DecodeAcceptsExactlyTheTable : Prop :=
  ∀ w : Word, ((∃ i, decode w = .ok i) ↔ ∃ r ∈ opcodeTable, r.selects w = true) ∧
    ∀ r₁ ∈ opcodeTable, ∀ r₂ ∈ opcodeTable, r₁.selects w = true → r₂.selects w = true → r₁ = r₂

/-- Words written out in 95_test_vectors.md section 2.1 decode to their commands, and reserved words of the same
section do not decode. -/
def Obligations.WrittenWordsDecode : Prop :=
  decode 0x01009032 = .ok (.init .out 0 2 16 0 50) ∧ decode 0x02810000 = .ok (.deinit .inp 1) ∧
  decode 0x04810000 = .ok (.record 1) ∧ decode 0x0C800064 = .ok (.setvol .inp 0 0 100) ∧
  decode 0x12810018 = .ok (.setbits .inp 1 0 24) ∧ decode 0x17810003 = .ok (.regcb .inp 1 0 3) ∧
  decode 0x03800000 = .error .wrongDirection ∧ decode 0x16100000 = .error .zField ∧
  decode 0x02000001 = .error .immediateNotZero ∧ decode 0x18000000 = .error .unassignedOpcode

/-! ### The command port and the window (10_state.md R37, R40; 30_encoding.md R100, R108) -/

/-- R100: when the next agent step is the host's 32-bit write of `w` to `CMD` and `w` decodes to a command, the step
is that command. Around it stand only the model's own: the write uses up its entry of the schedule (log 2) and leaves
`w` in `CMD` (log 12). -/
def Obligations.StepRunsTheDecodedCommand : Prop :=
  ∀ (s : State) (rest : List Config.Event) (w : Word) (i : Instr),
    s.schedule = .regWrite 4 0 w :: rest → decode w = .ok i →
    step s = exec i { s with schedule := rest, cmd := w }

/-- R108: a word that selects no row of the opcode map sets `STATUS` to `WrongParam` and changes nothing else; that
`CMD` holds the word, and that the write uses up its entry of the schedule, is the model's choice (log 12, log 2). -/
def Obligations.ReservedWordOnlyWritesStatus : Prop :=
  ∀ (s : State) (rest : List Config.Event) (w : Word),
    s.schedule = .regWrite 4 0 w :: rest → (∀ r ∈ opcodeTable, r.selects w = false) →
    step s = .next { s with schedule := rest, cmd := w, status := 0xFFFFFFFE }

/-- R40, R74: an aligned 32-bit write reaches `ARG0` and `ARG1`, is ignored at every other offset but `CMD`, and any
other width or alignment is refused (log 7); a read changes nothing but the value the host receives, which the model
keeps in a field of its own (log 8). -/
def Obligations.WindowAccesses : Prop :=
  ∀ (s : State) (v off : Word) (size : Nat),
    runEvent (.regWrite 4 4 v) s = .next { s with arg0 := v } ∧
    runEvent (.regWrite 4 8 v) s = .next { s with arg1 := v } ∧
    (off.toNat % 4 = 0 → off ≠ 0 → off ≠ 4 → off ≠ 8 → runEvent (.regWrite 4 off v) s = .next s) ∧
    (off.toNat % 4 = 0 → runEvent (.regRead 4 off) s = .next { s with readData := (readReg s off.toNat).toNat }) ∧
    (size ≠ 4 ∨ off.toNat % 4 ≠ 0 →
      runEvent (.regWrite size off v) s = .refused .narrowAccess ∧
      runEvent (.regRead size off) s = .refused .narrowAccess)

/-- R40, R31: every word of the register window, bit by bit: the port, the parameters, the codec power bits, the groups
of the instances and queues that exist (0 for those that do not), the reassembler, and 0 at every unmapped offset. -/
def Obligations.WindowContents : Prop :=
  ∀ s : State,
    (readReg s 0x000 = 0 ∧ readReg s 0x004 = s.arg0 ∧ readReg s 0x008 = s.arg1 ∧ readReg s 0x00C = s.status ∧
      readReg s 0x010 = s.result) ∧
    readReg s 0x014 = BitVec.ofNat 8 s.cfg.codecIds.length ++ (BitVec.ofNat 8 s.cfg.mics.length
      ++ (BitVec.ofNat 8 s.cfg.ins.length ++ BitVec.ofNat 8 s.cfg.outs.length)) ∧
    readReg s 0x018 = 0#3 ++ (BitVec.ofNat 5 (match s.cfg.sd with
        | some j => j.val
        | none => 0x1F) ++ (0#3 ++ (BitVec.ofNat 5 s.cfg.shift ++ BitVec.ofNat 16 s.cfg.cap))) ∧
    (∀ c : Idx, (readReg s 0x01C).getLsbD c.val = s.power[c]) ∧ (readReg s 0x01C).toNat < 2 ^ 16 ∧
    (∀ (i : Idx) (k : Nat), k < 4 →
      readReg s (0x100 + 0x10 * i.val + 4 * k)
        = (if valid s.cfg .out i then (shownInst (s.inst .out i)).getD k 0 else 0) ∧
      readReg s (0x200 + 0x10 * i.val + 4 * k)
        = if valid s.cfg .inp i then (shownInst (s.inst .inp i)).getD k 0 else 0) ∧
    (∀ (q : QueueId) (k : Nat), k < 8 →
      readReg s (0x400 + 0x20 * windowNumber q + 4 * k)
        = if queueExists s.cfg q then (shownQueue (s.queue q)).getD k 0 else 0) ∧
    (readReg s 0xA00 = 0#7 ++ (BitVec.ofBool s.sr.ovr ++ (0#6 ++ (BitVec.ofBool s.sr.mbuf
        ++ (BitVec.ofBool s.sr.ch2 ++ (0#4 ++ s.sr.en))))) ∧
      readReg s 0xA04 = 0#4 ++ (s.sr.rdy1 ++ (0#4 ++ s.sr.rdy0)) ∧ readReg s 0xA08 = 0#16 ++ s.sr.cur ∧
      readReg s 0xA0C = s.sr.tgt ∧ readReg s 0xA10 = 0#16 ++ s.sr.size) ∧
    ∀ off : Nat, (0x020 ≤ off ∧ off < 0x100) ∨ (0x300 ≤ off ∧ off < 0x400) ∨ (0x980 ≤ off ∧ off < 0xA00) ∨ 0xA14 ≤ off →
      readReg s off = 0

/-- R73: system memory is little-endian, a read gives back what was written, and a write touches only its bytes. -/
def Obligations.MemoryIsLittleEndian : Prop :=
  ∀ (m : Memory) (a n v : Nat),
    memRead (memWrite m a n v) a n = v % 256 ^ n ∧
    (∀ k, k < n → byteAt (memWrite m a n v) (a + k) = BitVec.ofNat 8 (v / 256 ^ k)) ∧
    (∀ b, b < a ∨ a + n ≤ b → byteAt (memWrite m a n v) b = byteAt m b)

/-! ### What holds of every command -/

/-- R270, R273: every command ends in a next state; none faults, none is refused. -/
def Obligations.EveryCommandCompletes : Prop :=
  ∀ (i : Instr) (s : State), ∃ t, exec i s = .next t

/-- R270: no other value than the ten of the table is ever written to `STATUS`. -/
def Obligations.StatusIsAlwaysATableCode : Prop :=
  ∀ (i : Instr) (s t : State), exec i s = .next t →
    t.status = 0 ∨ t.status = 0xFFFFFFFF ∨ t.status = 0xFFFFFFFE ∨ t.status = 0xFFFFFFFD ∨ t.status = 0xFFFFFFFC ∨
    t.status = 0xFFFFFFFB ∨ t.status = 0xFFFFFFF9 ∨ t.status = 0xFFFFFFF8 ∨ t.status = 0xFFFFFFF7 ∨
    t.status = 0xFFFFFFF5

/-- R272, R130: every operand fault is `WrongParam`, whatever the lifecycle state, and nothing but `STATUS` is written:
an instance that does not exist, an immediate outside its range, a device, rate or combination the instance does not
support, too few microphones, a bad buffer, a merge-mode length that is no multiple of `4·CAP` bytes, RECORDM on an
instance that is not `SD`, a bad table or table entry. -/
def Obligations.BadInstanceOrImmediateIsWrongParam : Prop :=
  ∀ (s t : State) (d : Dir) (n : Idx), t = { s with status := 0xFFFFFFFE } →
    (∀ i : Instr, valid s.cfg i.target.1 i.target.2 = false ∨ i.wellFormed = false → exec i s = .next t) ∧
    (∀ ch bits mbz vol, devOk s.cfg d n s.arg0 = false ∨ rateOk s.cfg d n s.arg1 = false ∨
        comboOk s.cfg d n bits ch = false ∨ TooFewMics s.cfg d n s.arg0 ch →
      exec (.init d n ch bits mbz vol) s = .next t) ∧
    (devOk s.cfg d n s.arg0 = false ∨ TooFewMics s.cfg d n s.arg0 (s.inst d n).chans →
      exec (.setdev d n) s = .next t) ∧
    (rateOk s.cfg d n s.arg0 = false → exec (.setrate d n) s = .next t) ∧
    (∀ mbz bits, comboOk s.cfg d n bits
        (if (s.inst d n).chans = 1 ∨ (s.inst d n).chans = 2 then (s.inst d n).chans else 1) = false →
      exec (.setbits d n mbz bits) s = .next t) ∧
    (∀ mbz ch, comboOk s.cfg d n
          (if (s.inst d n).bits = 16 ∨ (s.inst d n).bits = 24 ∨ (s.inst d n).bits = 32 then (s.inst d n).bits else 16) ch
            = false ∨
        ((s.inst d n).life ≠ .reset ∧ TooFewMics s.cfg d n (s.inst d n).device ch) →
      exec (.setch d n mbz ch) s = .next t) ∧
    (BadBuffer s.cfg (if (s.inst .out n).bits = 16 then 2 else 4) s.arg0 s.arg1 → exec (.play n) s = .next t) ∧
    (isSd s.cfg .inp n = false → BadBuffer s.cfg (if (s.inst .inp n).bits = 16 then 2 else 4) s.arg0 s.arg1 →
      exec (.record n) s = .next t) ∧
    (isSd s.cfg .inp n = true → BadBuffer s.cfg 2 s.arg0 s.arg1 ∨ s.arg1.toNat / 2 % (2 * s.cfg.cap) ≠ 0 →
      exec (.record n) s = .next t) ∧
    (isSd s.cfg .inp n = false ∨ BadTable s (mics s.cfg (s.inst .inp n).device) s.arg0 s.arg1 →
      exec (.recordm n) s = .next t)

/-- R272, R273, R274: a command that ends with `WrongParam`, `Busy` or `FeatureNotSupported` has written nothing but
`STATUS`. -/
def Obligations.CheckFailureWritesOnlyStatus : Prop :=
  ∀ (i : Instr) (s t : State), exec i s = .next t →
    t.status = 0xFFFFFFFE ∨ t.status = 0xFFFFFFFD ∨ t.status = 0xFFFFFFF5 → t = { s with status := t.status }

/-- R141, R277: a failed command other than DEINIT leaves every instance register and `RESULT` as they were. -/
def Obligations.FailedCommandKeepsInstances : Prop :=
  ∀ (i : Instr) (s t : State), exec i s = .next t → t.status ≠ 0 → (∀ d n, i ≠ .deinit d n) →
    t.outs = s.outs ∧ t.ins = s.ins ∧ t.result = s.result

/-- R47, R72, R113: no command writes system memory, a ChannelBuffer, a notification, a transmitted element or an
operand register. -/
def Obligations.CommandsKeepSurroundings : Prop :=
  ∀ (i : Instr) (s t : State), exec i s = .next t → KeepsSurroundings s t

/-- R47, R294: a command writes the registers of no other instance and of no queue of another instance. -/
def Obligations.CommandsStayInTheirInstance : Prop :=
  ∀ (i : Instr) (s t : State), exec i s = .next t →
    SameOtherInsts i.target.1 i.target.2 s t ∧
    ∀ d n, (d, n) ≠ i.target → ∀ q ∈ queuesOf s.cfg d n, t.queue q = s.queue q

/-- R37, R47: only INIT and DEINIT write `CODEC_PWR`, and only that of the instance's codec, INIT only to 1 and DEINIT
only to 0; only RECORD and RECORDM write the reassembler; only the getters write `RESULT`. -/
def Obligations.RegisterWriters : Prop :=
  ∀ (i : Instr) (s t : State), exec i s = .next t →
    (∀ c : Idx, t.power[c] ≠ s.power[c] → codecOf s.cfg i.target.1 i.target.2 = some c ∧
      ((∃ d n ch bits mbz vol, i = .init d n ch bits mbz vol ∧ t.power[c] = true) ∨
        ∃ d n, i = .deinit d n ∧ t.power[c] = false)) ∧
    (t.sr ≠ s.sr → ∃ n, i = .record n ∨ i = .recordm n) ∧
    (t.result ≠ s.result → i.isGetter = true)

/-! ### Configuration commands (41_stream_config.md) -/

/-- R176: the six getters. -/
def Obligations.GettersReturnTheCache : Prop :=
  ∀ (s : State) (d : Dir) (n : Idx) (i : Instr) (v : Word),
    (i, v) ∈ [(Instr.getdev d n, (s.inst d n).device), (.getrate d n, (s.inst d n).rate),
      (.getbits d n, (s.inst d n).bits.setWidth 32), (.getch d n, (s.inst d n).chans.setWidth 32),
      (.getvol d n, (s.inst d n).volume.setWidth 32),
      (.ismute d n, if (s.inst d n).mute then 1 else 0)] →
    (valid s.cfg d n = false → exec i s = .next { s with status := 0xFFFFFFFE }) ∧
    (valid s.cfg d n = true → (s.inst d n).life = .reset → exec i s = .next { s with status := 0xFFFFFFFD }) ∧
    (valid s.cfg d n = true → (s.inst d n).life ≠ .reset → exec i s = .next { s with result := v, status := 0 })

/-- R174: GETSTATE returns the state code, in every state. -/
def Obligations.GetstateReturnsTheCode : Prop :=
  ∀ (s : State) (d : Dir) (n : Idx),
    (valid s.cfg d n = false → exec (.getstate d n) s = .next { s with status := 0xFFFFFFFE }) ∧
    (valid s.cfg d n = true → exec (.getstate d n) s = .next { s with
      result := match (s.inst d n).life with
        | .reset => 0
        | .active => 1
        | .stop => 2
        | .pause => 3
      status := 0 })

/-- R175: REGCB writes the mask and the registered flag, in every state. -/
def Obligations.RegcbWritesTheMask : Prop :=
  ∀ (s : State) (d : Dir) (n : Idx) (mask : BitVec 3), valid s.cfg d n = true →
    exec (.regcb d n 0 mask) s = .next
      { s.setInst d n { s.inst d n with cben := mask, cbreg := true } with status := 0 }

/-- R169: SETVOL. -/
def Obligations.SetvolForwardsToTheCodec : Prop :=
  ∀ (s : State) (d : Dir) (n : Idx) (vol : BitVec 7), valid s.cfg d n = true → vol.toNat ≤ 100 →
    ((s.inst d n).life = .reset → exec (.setvol d n 0 vol) s = .next { s with status := 0xFFFFFFFD }) ∧
    ((s.inst d n).life ≠ .reset → codecOf s.cfg d n = none →
      exec (.setvol d n 0 vol) s = .next { s with status := 0xFFFFFFF5 }) ∧
    ∀ c, (s.inst d n).life ≠ .reset → codecOf s.cfg d n = some c →
      (answerOk s.nextAnswer = false →
        exec (.setvol d n 0 vol) s = .next
          { s.logCall (.codecSetVolume c (if d = .out then 0 else 1) vol) with status := 0xFFFFFFFB }) ∧
      (answerOk s.nextAnswer = true →
        exec (.setvol d n 0 vol) s = .next
          { (s.logCall (.codecSetVolume c (if d = .out then 0 else 1) vol)).setInst d n
              { s.inst d n with volume := vol } with status := 0 })

/-- R171, R172: MUTE and UNMUTE. -/
def Obligations.MuteAndUnmuteForwardToTheCodec : Prop :=
  ∀ (s : State) (d : Dir) (n : Idx) (i : Instr) (on : Bool),
    (i, on) ∈ [(Instr.mute d n, true), (Instr.unmute d n, false)] →
    (valid s.cfg d n = false → exec i s = .next { s with status := 0xFFFFFFFE }) ∧
    (valid s.cfg d n = true → (s.inst d n).life = .reset → exec i s = .next { s with status := 0xFFFFFFFD }) ∧
    (valid s.cfg d n = true → (s.inst d n).life ≠ .reset → codecOf s.cfg d n = none →
      exec i s = .next { s with status := 0xFFFFFFF5 }) ∧
    ∀ c, valid s.cfg d n = true → (s.inst d n).life ≠ .reset → codecOf s.cfg d n = some c →
      (answerOk s.nextAnswer = false →
        exec i s = .next { s.logCall (.codecSetMute c on) with status := 0xFFFFFFFB }) ∧
      (answerOk s.nextAnswer = true →
        exec i s = .next
          { (s.logCall (.codecSetMute c on)).setInst d n { s.inst d n with mute := on } with status := 0 })

/-- R161, R160, R276: SETDEV of a stopped instance, on an `SD` and on a `SERIAL` instance. When call number `k` fails,
the queues before it stay rebuilt and nothing else changed: `PeriphFailure` from a link, `NoInit` from the codec. -/
def Obligations.SetdevRebuildsAndSelects : Prop :=
  ∀ (s : State) (d : Dir) (n : Idx) (qs : List QueueId) (calls : List Call), valid s.cfg d n = true →
    devOk s.cfg d n s.arg0 = true → tooFewMics s.cfg d n s.arg0 (s.inst d n).chans = false →
    (s.inst d n).life = .stop → qs = configuredQueues s.cfg d n s.arg0 →
    calls = qs.map (fun q => .linkConfigure q (flowOf d) (elementWidth s.cfg d n (s.inst d n).bits))
      ++ codecCalls s.cfg d n (fun c => .codecInit c
          (codecCfg s d n s.arg0 (s.inst d n).rate (s.inst d n).bits (s.inst d n).volume)) →
    (Granted calls.length s → ∃ t, exec (.setdev d n) s = .next t ∧ t.status = 0 ∧
      t.inst d n = { s.inst d n with device := s.arg0 } ∧ SameOtherInsts d n s t ∧
      (∀ q ∈ qs, t.queue q = rebuiltFor s d n (s.inst d n).bits q) ∧
      (∀ q, q ∉ qs → q ∈ queuesOf s.cfg d n → t.queue q = { s.queue q with td := 0 }) ∧
      SameOtherQueues (queuesOf s.cfg d n) s t ∧ t.calls = s.calls ++ calls ∧
      t.power = s.power ∧ t.sr = s.sr ∧ t.result = s.result ∧ KeepsSurroundings s t) ∧
    ∀ k, k < calls.length → FailsAt k s → ∃ t, exec (.setdev d n) s = .next t ∧
      FailedAfter (if k < qs.length then 0xFFFFFFFC else 0xFFFFFFFF) (calls.take (k + 1)) s t ∧ t.power = s.power ∧
      (∀ q ∈ qs.take k, t.queue q = rebuiltFor s d n (s.inst d n).bits q) ∧ SameOtherQueues (qs.take k) s t

/-- R163, R160, R276: SETRATE of a stopped instance. When call number `k` fails, the queues configured before it stay
rebuilt and nothing else changed: `ClockFailure` from the platform, `PeriphFailure` from a link, `NoInit` from the
codec. -/
def Obligations.SetrateSetsTheRate : Prop :=
  ∀ (s : State) (d : Dir) (n : Idx) (qs : List QueueId) (calls : List Call), valid s.cfg d n = true →
    rateOk s.cfg d n s.arg0 = true → (s.inst d n).life = .stop → xinstOk s d n s.arg0 (s.inst d n).bits = true →
    qs = configuredQueues s.cfg d n (s.inst d n).device →
    calls = [.clockConfig d n s.arg0]
      ++ qs.map (fun q => .linkConfigure q (flowOf d) (elementWidth s.cfg d n (s.inst d n).bits))
      ++ codecCalls s.cfg d n (fun c => .codecInit c
          (codecCfg s d n (s.inst d n).device s.arg0 (s.inst d n).bits (s.inst d n).volume)) →
    (Granted calls.length s → ∃ t, exec (.setrate d n) s = .next t ∧ t.status = 0 ∧
      t.inst d n = { s.inst d n with rate := s.arg0 } ∧ SameOtherInsts d n s t ∧
      (∀ q ∈ qs, t.queue q = rebuiltFor s d n (s.inst d n).bits q) ∧ SameOtherQueues qs s t ∧
      t.calls = s.calls ++ calls ∧
      t.power = s.power ∧ t.sr = s.sr ∧ t.result = s.result ∧ KeepsSurroundings s t) ∧
    ∀ k, k < calls.length → FailsAt k s → ∃ t, exec (.setrate d n) s = .next t ∧
      FailedAfter (if k = 0 then 0xFFFFFFF7 else if k ≤ qs.length then 0xFFFFFFFC else 0xFFFFFFFF) (calls.take (k + 1))
        s t ∧ t.power = s.power ∧
      (∀ q ∈ qs.take (k - 1), t.queue q = rebuiltFor s d n (s.inst d n).bits q) ∧ SameOtherQueues (qs.take (k - 1)) s t

/-- R165, R160, R276: SETBITS of a stopped instance. When call number `k` fails, the queues before it stay rebuilt at
the new width and nothing else changed: `PeriphFailure` from a link, `NoInit` from the codec. -/
def Obligations.SetbitsSetsTheWidth : Prop :=
  ∀ (s : State) (d : Dir) (n : Idx) (bits : BitVec 6) (qs : List QueueId) (calls : List Call),
    valid s.cfg d n = true → comboOk s.cfg d n bits (chansOr1 (s.inst d n).chans) = true →
    (s.inst d n).life = .stop → xinstOk s d n (s.inst d n).rate bits = true →
    qs = configuredQueues s.cfg d n (s.inst d n).device →
    calls = qs.map (fun q => .linkConfigure q (flowOf d) (elementWidth s.cfg d n bits))
      ++ codecCalls s.cfg d n (fun c => .codecInit c
          (codecCfg s d n (s.inst d n).device (s.inst d n).rate bits (s.inst d n).volume)) →
    (Granted calls.length s → ∃ t, exec (.setbits d n 0 bits) s = .next t ∧ t.status = 0 ∧
      t.inst d n = { s.inst d n with bits := bits } ∧ SameOtherInsts d n s t ∧
      (∀ q ∈ qs, t.queue q = rebuiltFor s d n bits q) ∧ SameOtherQueues qs s t ∧ t.calls = s.calls ++ calls ∧
      t.power = s.power ∧ t.sr = s.sr ∧ t.result = s.result ∧ KeepsSurroundings s t) ∧
    ∀ k, k < calls.length → FailsAt k s → ∃ t, exec (.setbits d n 0 bits) s = .next t ∧
      FailedAfter (if k < qs.length then 0xFFFFFFFC else 0xFFFFFFFF) (calls.take (k + 1)) s t ∧ t.power = s.power ∧
      (∀ q ∈ qs.take k, t.queue q = rebuiltFor s d n bits q) ∧ SameOtherQueues (qs.take k) s t

/-- R167, R160, R276: SETCH of a stopped instance, without a codec call. When call number `k` fails, the queues before it
stay rebuilt and nothing else changed: `PeriphFailure`. -/
def Obligations.SetchSetsTheChannels : Prop :=
  ∀ (s : State) (d : Dir) (n : Idx) (ch : BitVec 2) (qs : List QueueId) (calls : List Call), valid s.cfg d n = true →
    comboOk s.cfg d n (bitsOr16 (s.inst d n).bits) ch = true →
    tooFewMics s.cfg d n (s.inst d n).device ch = false → (s.inst d n).life = .stop →
    qs = configuredQueues s.cfg d n (s.inst d n).device →
    calls = qs.map (fun q => .linkConfigure q (flowOf d) (elementWidth s.cfg d n (s.inst d n).bits)) →
    (Granted calls.length s → ∃ t, exec (.setch d n 0 ch) s = .next t ∧ t.status = 0 ∧
      t.inst d n = { s.inst d n with chans := ch } ∧ SameOtherInsts d n s t ∧
      (∀ q ∈ qs, t.queue q = rebuiltFor s d n (s.inst d n).bits q) ∧ SameOtherQueues qs s t ∧
      t.calls = s.calls ++ calls ∧
      t.power = s.power ∧ t.sr = s.sr ∧ t.result = s.result ∧ KeepsSurroundings s t) ∧
    ∀ k, k < calls.length → FailsAt k s → ∃ t, exec (.setch d n 0 ch) s = .next t ∧
      FailedAfter 0xFFFFFFFC (calls.take (k + 1)) s t ∧ t.power = s.power ∧
      (∀ q ∈ qs.take k, t.queue q = rebuiltFor s d n (s.inst d n).bits q) ∧ SameOtherQueues (qs.take k) s t

/-- R160: the four reconfiguration commands are `Busy` with a good operand in any state but `STOP`. -/
def Obligations.ReconfigurationNeedsStop : Prop :=
  ∀ (s : State) (d : Dir) (n : Idx) (bits : BitVec 6) (ch : BitVec 2), valid s.cfg d n = true →
    (s.inst d n).life ≠ .stop →
    (devOk s.cfg d n s.arg0 = true → tooFewMics s.cfg d n s.arg0 (s.inst d n).chans = false →
      exec (.setdev d n) s = .next { s with status := 0xFFFFFFFD }) ∧
    (rateOk s.cfg d n s.arg0 = true → exec (.setrate d n) s = .next { s with status := 0xFFFFFFFD }) ∧
    (comboOk s.cfg d n bits (chansOr1 (s.inst d n).chans) = true →
      exec (.setbits d n 0 bits) s = .next { s with status := 0xFFFFFFFD }) ∧
    (comboOk s.cfg d n (bitsOr16 (s.inst d n).bits) ch = true →
      ((s.inst d n).life ≠ .reset → tooFewMics s.cfg d n (s.inst d n).device ch = false) →
      exec (.setch d n 0 ch) s = .next { s with status := 0xFFFFFFFD })

/-- R142, R163, R165, R274: INIT, SETRATE and SETBITS that would give two coupled instances that are not `RESET`
different rates or widths are `FeatureNotSupported`, and write nothing but `STATUS`. -/
def Obligations.SharedClockIsRefused : Prop :=
  ∀ (s : State) (d : Dir) (n : Idx) (x : Dir × Idx) (bits : BitVec 6) (ch : BitVec 2) (vol : BitVec 7),
    valid s.cfg d n = true → x ∈ sibs s.cfg d n → (s.inst x.1 x.2).life ≠ .reset →
    ((s.inst d n).life = .stop → rateOk s.cfg d n s.arg0 = true → (s.inst x.1 x.2).rate ≠ s.arg0 →
      exec (.setrate d n) s = .next { s with status := 0xFFFFFFF5 }) ∧
    ((s.inst d n).life = .stop → comboOk s.cfg d n bits (chansOr1 (s.inst d n).chans) = true →
      (s.inst x.1 x.2).bits ≠ bits → exec (.setbits d n 0 bits) s = .next { s with status := 0xFFFFFFF5 }) ∧
    ((s.inst d n).life = .reset → vol.toNat ≤ 100 → devOk s.cfg d n s.arg0 = true →
      rateOk s.cfg d n s.arg1 = true → comboOk s.cfg d n bits ch = true →
      tooFewMics s.cfg d n s.arg0 ch = false →
      (s.inst x.1 x.2).rate ≠ s.arg1 ∨ (s.inst x.1 x.2).bits ≠ bits →
      exec (.init d n ch bits 0 vol) s = .next { s with status := 0xFFFFFFF5 })

/-! ### Lifecycle commands (40_stream_lifecycle.md) -/

/-- R131, R143, R145, R276: INIT of an instance with or without a codec, whether the codec was on or off. When call
number `k` after the `p` calls of the power-up fails, the codec stays on, the queues configured before it stay rebuilt
and nothing else changed: `ClockFailure` from the platform, `PeriphFailure` from a link, `ComponentFailure` from the
codec. -/
def Obligations.InitCreatesTheInstance : Prop :=
  ∀ (s : State) (d : Dir) (n : Idx) (ch : BitVec 2) (bits : BitVec 6) (vol : BitVec 7) (p : Nat) (qs : List QueueId)
    (calls : List Call),
    valid s.cfg d n = true → vol.toNat ≤ 100 → devOk s.cfg d n s.arg0 = true → rateOk s.cfg d n s.arg1 = true →
    comboOk s.cfg d n bits ch = true → tooFewMics s.cfg d n s.arg0 ch = false → (s.inst d n).life = .reset →
    xinstOk s d n s.arg1 bits = true → ProbeMatches s d n → p = (powerUpCalls s d n).length →
    qs = configuredQueues s.cfg d n s.arg0 →
    calls = powerUpCalls s d n ++ [.clockConfig d n s.arg1]
      ++ qs.map (fun q => .linkConfigure q (flowOf d) (elementWidth s.cfg d n bits))
      ++ codecCalls s.cfg d n (fun c => .codecInit c (codecCfg s d n s.arg0 s.arg1 bits vol)) →
    (Granted calls.length s → ∃ t, exec (.init d n ch bits 0 vol) s = .next t ∧ t.status = 0 ∧
      t.inst d n = { life := .stop, device := s.arg0, rate := s.arg1, bits := bits, chans := ch, volume := vol,
                     mute := false, cbreg := (s.inst d n).cbreg, cben := (s.inst d n).cben } ∧
      SameOtherInsts d n s t ∧
      (∀ c : Idx, codecOf s.cfg d n = some c → t.power[c] = true) ∧
      (∀ c : Idx, codecOf s.cfg d n ≠ some c → t.power[c] = s.power[c]) ∧
      (∀ q ∈ qs, t.queue q = rebuiltFor s d n bits q) ∧ SameOtherQueues qs s t ∧
      t.calls = s.calls ++ calls ∧ t.sr = s.sr ∧ t.result = s.result ∧ KeepsSurroundings s t) ∧
    ∀ k, p + k < calls.length → FailsAt (p + k) s → ∃ t, exec (.init d n ch bits 0 vol) s = .next t ∧
      FailedAfter (if k = 0 then 0xFFFFFFF7 else if k ≤ qs.length then 0xFFFFFFFC else 0xFFFFFFFB)
        (calls.take (p + k + 1)) s t ∧
      (∀ c : Idx, codecOf s.cfg d n = some c → t.power[c] = true) ∧
      (∀ c : Idx, codecOf s.cfg d n ≠ some c → t.power[c] = s.power[c]) ∧
      (∀ q ∈ qs.take (k - 1), t.queue q = rebuiltFor s d n bits q) ∧ SameOtherQueues (qs.take (k - 1)) s t

/-- R143, R275, R276: how `power_up` fails. INIT with good operands on an instance whose codec is off ends with
`BusFailure`, `ComponentFailure` or `UnknownComponent` as the bus or the probe answers, the codec stays off and the
instance `RESET`. The answer of the codec reset makes no difference to any INIT. -/
def Obligations.PowerUpProbesTheCodec : Prop :=
  ∀ (s : State) (d : Dir) (n c : Idx) (ch : BitVec 2) (bits : BitVec 6) (vol : BitVec 7)
    (a₁ a₂ a₃ : Config.Answer) (rest : List Config.Answer),
    valid s.cfg d n = true → vol.toNat ≤ 100 → devOk s.cfg d n s.arg0 = true → rateOk s.cfg d n s.arg1 = true →
    comboOk s.cfg d n bits ch = true → tooFewMics s.cfg d n s.arg0 ch = false → (s.inst d n).life = .reset →
    xinstOk s d n s.arg1 bits = true → codecOf s.cfg d n = some c → s.power[c] = false →
    s.answers = a₁ :: a₂ :: a₃ :: rest →
    (a₁ = .fail → exec (.init d n ch bits 0 vol) s = .next
      { s with calls := s.calls ++ [.busInit c], answers := a₂ :: a₃ :: rest, status := 0xFFFFFFF8 }) ∧
    (answerOk a₁ = true → a₃ = .fail → exec (.init d n ch bits 0 vol) s = .next
      { s with calls := s.calls ++ [.busInit c, .codecReset c, .codecReadId c], answers := rest,
               status := 0xFFFFFFFB }) ∧
    (∀ id, answerOk a₁ = true → a₃ = .ok id → id ≠ codecId s.cfg c → exec (.init d n ch bits 0 vol) s = .next
      { s with calls := s.calls ++ [.busInit c, .codecReset c, .codecReadId c], answers := rest,
               status := 0xFFFFFFF9 }) ∧
    (∀ a, answerOk a₁ = true → exec (.init d n ch bits 0 vol) s
      = exec (.init d n ch bits 0 vol) { s with answers := a₁ :: a :: a₃ :: rest })

/-- R132, R143, R277: DEINIT of an instance that is not `RESET` always ends with the instance at its defaults and its
queues stopped and discarded, whatever the collaborators answer, and powers the codec down exactly when every coupled
instance is `RESET`; in `RESET` it succeeds and does nothing. `STATUS` is the first failure noted: `PeriphFailure` if one
of the `m` links fails, else `ComponentFailure`, else `BusFailure`. -/
def Obligations.DeinitAlwaysResets : Prop :=
  ∀ (s : State) (d : Dir) (n : Idx) (m : Nat), valid s.cfg d n = true →
    m = (armed s (queuesOf s.cfg d n)).length →
    ((s.inst d n).life = .reset → exec (.deinit d n) s = .next { s with status := 0 }) ∧
    ((s.inst d n).life ≠ .reset → ∃ t, exec (.deinit d n) s = .next t ∧
      t.inst d n = Inst.reset ∧ SameOtherInsts d n s t ∧
      (∀ q ∈ queuesOf s.cfg d n, t.queue q = { s.queue q with
        td := 0, st := .idle, ie := false, pendHt := false, pendTc := false, pendErr := false }) ∧
      SameOtherQueues (queuesOf s.cfg d n) s t ∧
      (∀ c : Idx, codecOf s.cfg d n = some c → t.power[c] = (s.power[c] && !sibsReset s d n)) ∧
      (∀ c : Idx, codecOf s.cfg d n ≠ some c → t.power[c] = s.power[c]) ∧
      t.calls = s.calls ++ (armed s (queuesOf s.cfg d n)).map .linkDisable
        ++ (if lastOfCodec s d n then codecCalls s.cfg d n .codecDeInit ++ codecCalls s.cfg d n .busDeInit else []) ∧
      t.sr = s.sr ∧ t.result = s.result ∧ KeepsSurroundings s t ∧
      (m ≤ s.answers.length → ¬Granted m s → t.status = 0xFFFFFFFC) ∧
      (lastOfCodec s d n = false → Granted m s → t.status = 0) ∧
      (lastOfCodec s d n = true → FailsAt m s → t.status = 0xFFFFFFFB) ∧
      (lastOfCodec s d n = true → FailsAt (m + 1) s → t.status = 0xFFFFFFF8) ∧
      (lastOfCodec s d n = true → Granted (m + 2) s → t.status = 0))

/-- R133, R141, R145: PLAY starts the queue, then the codec. When the link refuses nothing has changed and the status is
`PeriphFailure`; when the codec refuses the queue is stopped again, whatever the link answers to that, and the status is
`ComponentFailure`. -/
def Obligations.PlayStartsQueueThenCodec : Prop :=
  ∀ (s : State) (n : Idx) (count : Nat), valid s.cfg .out n = true →
    badBuffer s.cfg (width (s.inst .out n).bits) s.arg0 s.arg1 = false → (s.inst .out n).life = .stop →
    tdValid (s.queue (.qo n)).td = true → (s.queue (.qo n)).st = .idle →
    count = s.arg1.toNat / (if (s.inst .out n).bits = 16 then 2 else 4) →
    (Granted (1 + (codecOf s.cfg .out n).toList.length) s →
      ∃ t, exec (.play n) s = .next t ∧ t.status = 0 ∧ t.inst .out n = { s.inst .out n with life := .active } ∧
        SameOtherInsts .out n s t ∧ t.queue (.qo n) = armedAt (s.queue (.qo n)) s.arg0 count ∧
        SameOtherQueues [.qo n] s t ∧
        t.calls = s.calls ++ [.linkEnable (.qo n)] ++ codecCalls s.cfg .out n .codecPlay ∧
        t.power = s.power ∧ t.sr = s.sr ∧ t.result = s.result ∧ KeepsSurroundings s t) ∧
    (FailsAt 0 s → ∃ t, exec (.play n) s = .next t ∧ FailedAfter 0xFFFFFFFC [.linkEnable (.qo n)] s t ∧
      t.power = s.power ∧ SameOtherQueues [] s t) ∧
    (∀ c, codecOf s.cfg .out n = some c → FailsAt 1 s → ∃ t, exec (.play n) s = .next t ∧
      FailedAfter 0xFFFFFFFB [.linkEnable (.qo n), .codecPlay c, .linkDisable (.qo n)] s t ∧ t.power = s.power ∧
      t.queue (.qo n) = disarmedAt (s.queue (.qo n)) s.arg0 count ∧ SameOtherQueues [.qo n] s t)

/-- R134, R141, R145: RECORD on a `SERIAL` instance is PLAY's sequence on the receiving queue, with PLAY's failures. -/
def Obligations.RecordSerialStartsQueueThenCodec : Prop :=
  ∀ (s : State) (n : Idx) (count : Nat), valid s.cfg .inp n = true → isSd s.cfg .inp n = false →
    badBuffer s.cfg (width (s.inst .inp n).bits) s.arg0 s.arg1 = false → (s.inst .inp n).life = .stop →
    tdValid (s.queue (.qi n)).td = true → (s.queue (.qi n)).st = .idle →
    count = s.arg1.toNat / (if (s.inst .inp n).bits = 16 then 2 else 4) →
    (Granted (1 + (codecOf s.cfg .inp n).toList.length) s →
      ∃ t, exec (.record n) s = .next t ∧ t.status = 0 ∧ t.inst .inp n = { s.inst .inp n with life := .active } ∧
        SameOtherInsts .inp n s t ∧ t.queue (.qi n) = armedAt (s.queue (.qi n)) s.arg0 count ∧
        SameOtherQueues [.qi n] s t ∧
        t.calls = s.calls ++ [.linkEnable (.qi n)] ++ codecCalls s.cfg .inp n .codecPlay ∧
        t.power = s.power ∧ t.sr = s.sr ∧ t.result = s.result ∧ KeepsSurroundings s t) ∧
    (FailsAt 0 s → ∃ t, exec (.record n) s = .next t ∧ FailedAfter 0xFFFFFFFC [.linkEnable (.qi n)] s t ∧
      t.power = s.power ∧ SameOtherQueues [] s t) ∧
    (∀ c, codecOf s.cfg .inp n = some c → FailsAt 1 s → ∃ t, exec (.record n) s = .next t ∧
      FailedAfter 0xFFFFFFFB [.linkEnable (.qi n), .codecPlay c, .linkDisable (.qi n)] s t ∧ t.power = s.power ∧
      t.queue (.qi n) = disarmedAt (s.queue (.qi n)) s.arg0 count ∧ SameOtherQueues [.qi n] s t)

/-- R135, R241, R141: RECORD on the `SD` instance starts the enabled microphones and sets the reassembler up. When start
number `k` fails, those before it are stopped again, whatever their links answer, nothing else changed, and the status is
`PeriphFailure`. -/
def Obligations.RecordMergeSetsUpTheSession : Prop :=
  ∀ (s : State) (n : Idx) (en : BitVec 12) (ms : List Mic), valid s.cfg .inp n = true → isSd s.cfg .inp n = true →
    1 ≤ s.cfg.cap → s.cfg.cap ≤ 65535 →
    badBuffer s.cfg 2 s.arg0 s.arg1 = false → s.arg1.toNat / 2 % (2 * s.cfg.cap) = 0 →
    (s.inst .inp n).life = .stop →
    en = lowbits (mics s.cfg (s.inst .inp n).device) (s.inst .inp n).chans.toNat → ms = bitList en →
    (∀ m ∈ ms, tdValid (s.queue (.qm m)).td = true ∧ (s.queue (.qm m)).st = .idle) →
    (Granted ms.length s →
      ∃ t, exec (.record n) s = .next t ∧ t.status = 0 ∧ t.inst .inp n = { s.inst .inp n with life := .active } ∧
        SameOtherInsts .inp n s t ∧
        (∀ m ∈ ms, t.queue (.qm m) = armedAt (s.queue (.qm m)) 0 s.cfg.cap) ∧ SameOtherQueues (ms.map .qm) s t ∧
        t.sr = { en := en, ch2 := decide ((s.inst .inp n).chans = 2), mbuf := false, rdy0 := 0, rdy1 := 0, cur := 0,
                 tgt := s.arg0, size := BitVec.ofNat 16 (s.arg1.toNat / 2), ovr := s.sr.ovr } ∧
        t.calls = s.calls ++ ms.map (fun m => .linkEnable (.qm m)) ∧
        t.power = s.power ∧ t.result = s.result ∧ KeepsSurroundings s t) ∧
    ∀ k, k < ms.length → FailsAt k s → ∃ t, exec (.record n) s = .next t ∧
      FailedAfter 0xFFFFFFFC ((ms.take (k + 1)).map (fun m => .linkEnable (.qm m))
        ++ (ms.take k).map (fun m => .linkDisable (.qm m))) s t ∧ t.power = s.power ∧
      (∀ m ∈ ms.take k, t.queue (.qm m) = disarmedAt (s.queue (.qm m)) 0 s.cfg.cap) ∧
      SameOtherQueues ((ms.take k).map .qm) s t

/-- R136, R249, R141: RECORDM starts every selected microphone at its table entry and sets multi-buffer mode. When start
number `k` fails, those before it are stopped again, whatever their links answer, nothing else changed, and the status is
`PeriphFailure`. -/
def Obligations.RecordmStartsEverySelectedMic : Prop :=
  ∀ (s : State) (n : Idx) (sel : BitVec 12) (ms : List Mic) (entry : Mic → Word), valid s.cfg .inp n = true →
    isSd s.cfg .inp n = true → badTable s.cfg s.arg0 s.arg1 = false → sel = mics s.cfg (s.inst .inp n).device →
    ms = bitList sel → (∀ m, entry m = BitVec.ofNat 32 (memRead s.mem (s.arg0.toNat + 4 * m.val) 4)) →
    (∀ m ∈ ms, badEntry s.cfg s.arg1 (entry m) = false) → (s.inst .inp n).life = .stop →
    (∀ m ∈ ms, tdValid (s.queue (.qm m)).td = true ∧ (s.queue (.qm m)).st = .idle) →
    (Granted ms.length s →
      ∃ t, exec (.recordm n) s = .next t ∧ t.status = 0 ∧ t.inst .inp n = { s.inst .inp n with life := .active } ∧
        SameOtherInsts .inp n s t ∧
        (∀ m ∈ ms, t.queue (.qm m) = armedAt (s.queue (.qm m)) (entry m) (s.arg1.toNat / 4)) ∧
        SameOtherQueues (ms.map .qm) s t ∧
        t.sr = { s.sr with en := sel, ch2 := false, mbuf := true, rdy0 := 0, rdy1 := 0, cur := 0 } ∧
        t.calls = s.calls ++ ms.map (fun m => .linkEnable (.qm m)) ∧
        t.power = s.power ∧ t.result = s.result ∧ KeepsSurroundings s t) ∧
    ∀ k, k < ms.length → FailsAt k s → ∃ t, exec (.recordm n) s = .next t ∧
      FailedAfter 0xFFFFFFFC ((ms.take (k + 1)).map (fun m => .linkEnable (.qm m))
        ++ (ms.take k).map (fun m => .linkDisable (.qm m))) s t ∧ t.power = s.power ∧
      (∀ m ∈ ms.take k, t.queue (.qm m) = disarmedAt (s.queue (.qm m)) (entry m) (s.arg1.toNat / 4)) ∧
      SameOtherQueues ((ms.take k).map .qm) s t

/-- R137, R141, R275, R276: PAUSE holds the running queues, then the codec; a queue a failed PAUSE left paused takes no
call. When call number `k` fails, the running queues before it stay paused and nothing else changed: `PeriphFailure` from
a link, `ComponentFailure` from the codec. -/
def Obligations.PauseHoldsQueuesThenCodec : Prop :=
  ∀ (s : State) (d : Dir) (n : Idx) (qs : List QueueId) (calls : List Call), valid s.cfg d n = true →
    (s.inst d n).life = .active → (∀ q ∈ runQueues s d n, (s.queue q).st ≠ .idle) →
    qs = inRunState .running s (runQueues s d n) →
    calls = qs.map .linkPause ++ codecCalls s.cfg d n .codecPause →
    (Granted calls.length s → ∃ t, exec (.pause d n) s = .next t ∧ t.status = 0 ∧
      t.inst d n = { s.inst d n with life := .pause } ∧ SameOtherInsts d n s t ∧
      (∀ q ∈ runQueues s d n, t.queue q = { s.queue q with st := .paused }) ∧ SameOtherQueues qs s t ∧
      t.calls = s.calls ++ calls ∧
      t.power = s.power ∧ t.sr = s.sr ∧ t.result = s.result ∧ KeepsSurroundings s t) ∧
    ∀ k, k < calls.length → FailsAt k s → ∃ t, exec (.pause d n) s = .next t ∧
      FailedAfter (if k < qs.length then 0xFFFFFFFC else 0xFFFFFFFB) (calls.take (k + 1)) s t ∧ t.power = s.power ∧
      (∀ q ∈ qs.take k, t.queue q = { s.queue q with st := .paused }) ∧ SameOtherQueues (qs.take k) s t

/-- R138, R141, R275, R276: RESUME resumes the codec, then the paused queues; a queue a failed RESUME left running takes
no call. When call number `k` fails, with `c` calls on the codec before those on the links, the paused queues before it
stay running and nothing else changed: `ComponentFailure` from the codec, `PeriphFailure` from a link. -/
def Obligations.ResumeStartsCodecThenQueues : Prop :=
  ∀ (s : State) (d : Dir) (n : Idx) (c : Nat) (qs : List QueueId) (calls : List Call), valid s.cfg d n = true →
    (s.inst d n).life = .pause → (∀ q ∈ runQueues s d n, (s.queue q).st ≠ .idle) →
    qs = inRunState .paused s (runQueues s d n) → c = (codecOf s.cfg d n).toList.length →
    calls = codecCalls s.cfg d n .codecResume ++ qs.map .linkResume →
    (Granted calls.length s → ∃ t, exec (.resume d n) s = .next t ∧ t.status = 0 ∧
      t.inst d n = { s.inst d n with life := .active } ∧ SameOtherInsts d n s t ∧
      (∀ q ∈ runQueues s d n, t.queue q = { s.queue q with st := .running }) ∧ SameOtherQueues qs s t ∧
      t.calls = s.calls ++ calls ∧
      t.power = s.power ∧ t.sr = s.sr ∧ t.result = s.result ∧ KeepsSurroundings s t) ∧
    ∀ k, k < calls.length → FailsAt k s → ∃ t, exec (.resume d n) s = .next t ∧
      FailedAfter (if k < c then 0xFFFFFFFB else 0xFFFFFFFC) (calls.take (k + 1)) s t ∧ t.power = s.power ∧
      (∀ q ∈ qs.take (k - c), t.queue q = { s.queue q with st := .running }) ∧ SameOtherQueues (qs.take (k - c)) s t

/-- R139, R84, R141, R277: STOP of an active or paused instance leaves every queue of it idle, with its interrupts
disabled and nothing pending, whatever the collaborators answer, so that no service or DMA step of them is enabled (that
a schedule naming such a step is refused is the model's choice, log 6); it makes the calls in order; and it moves to
`STOP` exactly when all of them are granted. `STATUS` is the first failure noted: `PeriphFailure` if one of the `m` links
fails, else `ComponentFailure`. -/
def Obligations.StopSilencesTheInstance : Prop :=
  ∀ (s : State) (d : Dir) (n : Idx) (m : Nat), valid s.cfg d n = true →
    (s.inst d n).life = .active ∨ (s.inst d n).life = .pause → m = (armed s (queuesOf s.cfg d n)).length →
    ∃ t, exec (.stop d n) s = .next t ∧
      (∀ q ∈ queuesOf s.cfg d n, t.queue q = { s.queue q with
        st := .idle, ie := false, pendHt := false, pendTc := false, pendErr := false }) ∧
      SameOtherQueues (queuesOf s.cfg d n) s t ∧ SameOtherInsts d n s t ∧
      (∀ q ∈ queuesOf s.cfg d n, ∀ x v,
        serviceStep q x t = .refused .notEnabled ∧ dmaStep q v t = .refused .notEnabled) ∧
      t.calls = s.calls ++ (armed s (queuesOf s.cfg d n)).map .linkDisable
        ++ codecCalls s.cfg d n (fun c => .codecStop c .swPd) ∧
      t.power = s.power ∧ t.sr = s.sr ∧ t.result = s.result ∧ KeepsSurroundings s t ∧
      (t.status ≠ 0 → t.inst d n = s.inst d n) ∧
      (m ≤ s.answers.length → ¬Granted m s → t.status = 0xFFFFFFFC) ∧
      (∀ c, codecOf s.cfg d n = some c → FailsAt m s → t.status = 0xFFFFFFFB) ∧
      (Granted (m + (codecOf s.cfg d n).toList.length) s →
        t.status = 0 ∧ t.inst d n = { s.inst d n with life := .stop })

/-- R140: the `Busy` cells of the lifecycle table, with good operands. -/
def Obligations.LifecycleBusyCells : Prop :=
  ∀ (s : State) (d : Dir) (n : Idx), valid s.cfg d n = true →
    ((s.inst d n).life ≠ .active → exec (.pause d n) s = .next { s with status := 0xFFFFFFFD }) ∧
    ((s.inst d n).life ≠ .pause → exec (.resume d n) s = .next { s with status := 0xFFFFFFFD }) ∧
    ((s.inst d n).life = .reset ∨ (s.inst d n).life = .stop →
      exec (.stop d n) s = .next { s with status := 0xFFFFFFFD }) ∧
    (d = .out → (s.inst d n).life ≠ .stop → badBuffer s.cfg (width (s.inst d n).bits) s.arg0 s.arg1 = false →
      exec (.play n) s = .next { s with status := 0xFFFFFFFD }) ∧
    (d = .inp → isSd s.cfg d n = false → (s.inst d n).life ≠ .stop →
      badBuffer s.cfg (width (s.inst d n).bits) s.arg0 s.arg1 = false →
      exec (.record n) s = .next { s with status := 0xFFFFFFFD }) ∧
    (d = .inp → isSd s.cfg d n = true → (s.inst d n).life ≠ .stop → badBuffer s.cfg 2 s.arg0 s.arg1 = false →
      s.arg1.toNat / 2 % (2 * s.cfg.cap) = 0 → exec (.record n) s = .next { s with status := 0xFFFFFFFD }) ∧
    (d = .inp → isSd s.cfg d n = true → (s.inst d n).life ≠ .stop → badTable s.cfg s.arg0 s.arg1 = false →
      (∀ m ∈ bitList (mics s.cfg (s.inst d n).device), badEntry s.cfg s.arg1 (tableEntry s.mem s.arg0 m) = false) →
      exec (.recordm n) s = .next { s with status := 0xFFFFFFFD }) ∧
    (∀ ch bits vol, (s.inst d n).life ≠ .reset → vol.toNat ≤ 100 → devOk s.cfg d n s.arg0 = true →
      rateOk s.cfg d n s.arg1 = true → comboOk s.cfg d n bits ch = true → tooFewMics s.cfg d n s.arg0 ch = false →
      exec (.init d n ch bits 0 vol) s = .next { s with status := 0xFFFFFFFD })

/-! ### The Transfer Engine (42_transfer_engine.md) -/

/-- R201: the descriptor words of the four kinds of queue, and what `TE.Configure` writes. -/
def Obligations.ConfigureBuildsTheDescriptor : Prop :=
  ∀ (s : State) (q : QueueId) (flow : Flow) (w : Nat),
    (answerOk s.nextAnswer = false → teConfigure q flow w s = (false, s.logCall (.linkConfigure q flow w))) ∧
    (answerOk s.nextAnswer = true → w = 2 ∨ w = 4 →
      ∃ t, teConfigure q flow w s = (true, t) ∧
        t = (s.logCall (.linkConfigure q flow w)).setQueue q { s.queue q with
          td := (t.queue q).td, built := (s.queue q).built || (queueCfg s.cfg q).list } ∧
        tdValid (t.queue q).td = true ∧ tdIsP2m (t.queue q).td = decide (flow = .p2m) ∧
        tdWidth (t.queue q).td = w / 2 ∧ tdSinc (t.queue q).td = decide (flow = .m2p) ∧
        tdDinc (t.queue q).td = decide (flow = .p2m) ∧ tdCirc (t.queue q).td = true ∧
        (t.queue q).td.extractLsb' 7 2 = (queueCfg s.cfg q).prio ∧
        (t.queue q).td.getLsbD 9 = (queueCfg s.cfg q).list ∧ (t.queue q).td.extractLsb' 10 22 = 0)

/-- R200, R202 to R206: what `TE.Start`, `TE.Pause`, `TE.Resume` and `TE.Stop` do from each run state, and the link call
each makes. -/
def Obligations.PrimitivesFollowTheRunStates : Prop :=
  ∀ (s : State) (q : QueueId) (base : Word) (count : Nat),
    (count = 0 ∨ 65535 < count ∨ tdValid (s.queue q).td = false ∨ (s.queue q).st ≠ .idle →
      teStart q base count s = (false, s)) ∧
    (1 ≤ count → count ≤ 65535 → tdValid (s.queue q).td = true → (s.queue q).st = .idle →
      teStart q base count s = if answerOk s.nextAnswer then
          (true, (s.logCall (.linkEnable q)).setQueue q { s.queue q with
            base := base, count := BitVec.ofNat 16 count, pos := 0, st := .running, ie := true,
            pendHt := false, pendTc := false, pendErr := false, errs := false })
        else (false, s.logCall (.linkEnable q))) ∧
    ((s.queue q).st = .idle → tePause q s = (false, s) ∧ teResume q s = (false, s)) ∧
    ((s.queue q).st = .paused → tePause q s = (true, s) ∧
      teResume q s = if answerOk s.nextAnswer then
          (true, (s.logCall (.linkResume q)).setQueue q { s.queue q with st := .running })
        else (false, s.logCall (.linkResume q))) ∧
    ((s.queue q).st = .running → teResume q s = (true, s) ∧
      tePause q s = if answerOk s.nextAnswer then
          (true, (s.logCall (.linkPause q)).setQueue q { s.queue q with st := .paused })
        else (false, s.logCall (.linkPause q))) ∧
    ((teStop q s).2.queue q = { s.queue q with
        st := .idle, ie := false, pendHt := false, pendTc := false, pendErr := false } ∧
      (teStop q s).1 = ((s.queue q).st == .idle || answerOk s.nextAnswer) ∧
      (teStop q s).2.calls = if (s.queue q).st = .idle then s.calls else s.calls ++ [.linkDisable q])

/-- R207, R212, R213: which steps of a queue are enabled; that a schedule naming another is refused is the model's
choice (log 6). -/
def Obligations.EnabledSteps : Prop :=
  ∀ (s : State) (q : QueueId) (v : Word) (x : Completion),
    (dmaStep q v s = .refused .notEnabled ↔ ¬(queueExists s.cfg q = true ∧ (s.queue q).st = .running)) ∧
    (errorStep q s = .refused .notEnabled ↔ ¬(queueExists s.cfg q = true ∧ (s.queue q).st = .running)) ∧
    (serviceStep q x s = .refused .notEnabled ↔
      ¬(queueExists s.cfg q = true ∧ (s.queue q).ie = true ∧ (s.queue q).pending x = true))

/-- R208, R209: the element a queue with a system-memory buffer moves. A sending queue hands the element at its
effective address to the link (after an error in the session some value, 93 U6) and writes no memory; a receiving
queue stores the draw there, little-endian, and no other byte changes. The position advances either way and no other
queue changes. -/
def Obligations.DmaMovesOneElement : Prop :=
  ∀ (s : State) (q : QueueId) (v : Word) (w a : Nat), queueExists s.cfg q = true → (s.queue q).st = .running →
    DescriptorFor q (s.queue q).td → w = 2 * tdWidth (s.queue q).td →
    a = (s.queue q).base.toNat + (s.queue q).pos.toNat * w → a + w ≤ 2 ^ 32 →
    (tdIsP2m (s.queue q).td = false → ∃ x,
      dmaStep q v s = .next ({ s with tx := s.tx ++ [(q, x)] }.setQueue q (s.queue q).advance) ∧
      ((s.queue q).errs = false → x = BitVec.ofNat 32 (memRead s.mem a w))) ∧
    (tdIsP2m (s.queue q).td = true → (∀ m, q = .qm m → s.sr.mbuf = true) →
      ∃ t, dmaStep q v s = .next t ∧ memRead t.mem a w = v.toNat % 256 ^ w ∧
        (∀ b, b < a ∨ a + w ≤ b → byteAt t.mem b = byteAt s.mem b) ∧
        t = { s with mem := t.mem }.setQueue q (s.queue q).advance)

/-- R208, R35: in merge mode a microphone's DMA step stores the draw in its ChannelBuffer and nowhere else. -/
def Obligations.DmaFillsTheChannelBuffer : Prop :=
  ∀ (s : State) (m : Mic) (v : Word), queueExists s.cfg (.qm m) = true → (s.queue (.qm m)).st = .running →
    DescriptorFor (.qm m) (s.queue (.qm m)).td → s.sr.mbuf = false →
    ∃ t, dmaStep (.qm m) v s = .next t ∧ sampleAt t.cb m (s.queue (.qm m)).pos.toNat = v ∧
      (∀ m' k, k < 65536 → (m', k) ≠ (m, (s.queue (.qm m)).pos.toNat) → sampleAt t.cb m' k = sampleAt s.cb m' k) ∧
      (∀ a, byteAt t.mem a = byteAt s.mem a) ∧
      t = { s with cb := t.cb }.setQueue (.qm m) (s.queue (.qm m)).advance

/-- R208, R210: where the position goes and which completion is raised, and that `OVR` records one raised over an
undelivered one. -/
def Obligations.CompletionPoints : Prop :=
  ∀ q : Queue, tdCirc q.td = true → q.pos.toNat < q.count.toNat →
    (q.pos.toNat + 1 = q.count.toNat →
      q.advance = { q with pos := 0, pendTc := true, ovr := q.ovr || q.pendHt || q.pendTc }) ∧
    (q.pos.toNat + 1 ≠ q.count.toNat → q.pos.toNat + 1 = q.count.toNat / 2 →
      q.advance = { q with pos := q.pos + 1, pendHt := true, ovr := q.ovr || q.pendHt || q.pendTc }) ∧
    (q.pos.toNat + 1 ≠ q.count.toNat → q.pos.toNat + 1 ≠ q.count.toNat / 2 →
      q.advance = { q with pos := q.pos + 1 })

/-- R212, R213, R15, R242, R249, R280: the error step, and the service step. Delivering a completion of a serial queue,
an error, or a completion of a microphone in multi-buffer mode clears the pending bit, logs the notification if enabled,
and changes nothing else. Delivering a completion of a microphone in merge mode clears the pending bit and is that
channel's event for the half. -/
def Obligations.ServiceDeliversTheNotification : Prop :=
  ∀ (s : State) (q : QueueId) (d : Dir) (i : Idx), queueExists s.cfg q = true → owner s.cfg q = some (d, i) →
    ((s.queue q).st = .running →
      errorStep q s = .next (s.setQueue q { s.queue q with errs := true, pendErr := true })) ∧
    (∀ (x : Completion) (kind : Notice) (bit : Nat) (pending : Bool) (v : Queue) (chan : Mic),
      (x, kind, bit, pending, v) ∈
        [(Completion.ht, Notice.half, 0, (s.queue q).pendHt, { s.queue q with pendHt := false }),
         (.tc, .full, 1, (s.queue q).pendTc, { s.queue q with pendTc := false }),
         (.err, .error, 2, (s.queue q).pendErr, { s.queue q with pendErr := false })] →
      (s.queue q).ie = true → pending = true → (∀ m, q = .qm m → x = .err ∨ s.sr.mbuf = true) →
      (chan = match q with
        | .qm m => m
        | _ => 0) →
      serviceStep q x s = .next { s.setQueue q v with
        evlog := if (s.inst d i).cben.getLsbD bit then s.evlog ++ [⟨d, i, kind, chan⟩] else s.evlog }) ∧
    ∀ m, q = .qm m → s.sr.mbuf = false → (s.queue q).ie = true →
      ((s.queue q).pendHt = true →
        serviceStep q .ht s = channelEvent i m .first (s.setQueue q { s.queue q with pendHt := false })) ∧
      ((s.queue q).pendTc = true →
        serviceStep q .tc s = channelEvent i m .second (s.setQueue q { s.queue q with pendTc := false }))

/-! ### The Sample Reassembler (43_sample_reassembler.md) -/

/-- R245, R246: a slot is the floor of the raw sample over a power of two, clamped to 16 bits. -/
def Obligations.SlotIsScaledAndClamped : Prop :=
  ∀ (shift : Nat) (raw : Word),
    (slotOf shift raw).toInt = max (-32768) (min 32767 (raw.toInt / 2 ^ shift))

/-- R242, R243, R250 (a): a channel event sets the channel's flag in the bank of the half, and `SR.OVR` when the flag was
set already. If that does not complete the bank nothing else changes: no merge, no notification, no byte written. The
event that completes the bank is a merge of that half from exactly that state. -/
def Obligations.MergeWaitsForTheLastChannel : Prop :=
  ∀ (s : State) (j : Idx) (m : Mic) (r : Reassembler),
    (r = { s.sr with rdy0 := s.sr.rdy0 ||| (1#12 <<< m.val), ovr := s.sr.ovr || s.sr.rdy0.getLsbD m.val } →
      channelEvent j m .first s
        = if r.rdy0 &&& s.sr.en = s.sr.en then merge j .first { s with sr := r } else .next { s with sr := r }) ∧
    (r = { s.sr with rdy1 := s.sr.rdy1 ||| (1#12 <<< m.val), ovr := s.sr.ovr || s.sr.rdy1.getLsbD m.val } →
      channelEvent j m .second s
        = if r.rdy1 &&& s.sr.en = s.sr.en then merge j .second { s with sr := r } else .next { s with sr := r })

/-- R244 to R247: a merge of half `h` writes `CAP/2` frames from the cursor on, each the left and the right slot of
its sample, and no other byte of memory. -/
def Obligations.MergeWritesTheFrames : Prop :=
  ∀ (s t : State) (j : Idx) (h : Half) (c0 c1 : Mic), frameChannels s.sr = some (c0, c1) →
    s.sr.cur.toNat + 2 * (s.cfg.cap / 2) ≤ 65535 → merge j h s = .next t →
    (∀ k, k < s.cfg.cap / 2 →
      memRead t.mem (s.sr.tgt.toNat + 2 * s.sr.cur.toNat + 4 * k) 2
        = (slotOf s.cfg.shift (sampleAt s.cb c0 (halfIndex s.cfg.cap h k))).toNat ∧
      memRead t.mem (s.sr.tgt.toNat + 2 * s.sr.cur.toNat + 4 * k + 2) 2
        = (slotOf s.cfg.shift (sampleAt s.cb c1 (halfIndex s.cfg.cap h k))).toNat) ∧
    (∀ a, a < s.sr.tgt.toNat + 2 * s.sr.cur.toNat ∨
        s.sr.tgt.toNat + 2 * s.sr.cur.toNat + 4 * (s.cfg.cap / 2) ≤ a → byteAt t.mem a = byteAt s.mem a)

/-- R244, R247, R248, R250: what a merge does beside writing frames: the cursor, the notifications at the half and the
end of the target, the ready banks and the skew fault bit. -/
def Obligations.MergeAdvancesAndNotifies : Prop :=
  ∀ (s : State) (j : Idx) (h : Half) (c0 c1 : Mic) (cur : Nat), s.cfg.wf = true →
    frameChannels s.sr = some (c0, c1) → cur = s.sr.cur.toNat + s.cfg.cap → cur ≤ s.sr.size.toNat →
    s.sr.tgt.toNat + 2 * s.sr.size.toNat ≤ 2 ^ 32 →
    ∃ t, merge j h s = .next t ∧
      t.sr.cur.toNat = (if cur = s.sr.size.toNat then 0 else cur) ∧
      t.sr.rdy h = (if cur = s.sr.size.toNat then 0 else s.sr.rdy h &&& ~~~s.sr.en) ∧
      t.sr.rdy h.other = (if cur = s.sr.size.toNat then 0 else s.sr.rdy h.other) ∧
      t.sr.ovr = (s.sr.ovr || decide (s.sr.rdy h.other &&& s.sr.en ≠ 0)) ∧
      t.evlog = s.evlog
        ++ (if cur = s.sr.size.toNat / 2 ∧ (s.inst .inp j).cben.getLsbD 0 = true
            then [⟨.inp, j, .half, 0⟩] else [])
        ++ (if cur = s.sr.size.toNat ∧ (s.inst .inp j).cben.getLsbD 1 = true
            then [⟨.inp, j, .full, 0⟩] else []) ∧
      t = { s with mem := t.mem, sr := t.sr, evlog := t.evlog } ∧
      t.sr = { s.sr with cur := t.sr.cur, rdy0 := t.sr.rdy0, rdy1 := t.sr.rdy1, ovr := t.sr.ovr }

/-! ### Whole-machine rules and invariants -/

/-- R9, R45, R310: a machine is constructed exactly under parameters that meet the constraints, those of R9 among them;
what it holds after reset, under any such configuration. That `State.reset` has the default configuration of R6 and R8 is
the model's choice (log 1). -/
def Obligations.ResetLeavesZero : Prop :=
  State.resetWith Config.Params.standard = some State.reset ∧
  ∀ p : Config.Params, (State.resetWith p = none ↔ p.wf = false) ∧
    (p.cap % 2 ≠ 0 ∨ p.cap < 2 ∨ 65534 < p.cap ∨ 12 < p.mics.length ∨
        (∃ j c, p.sd = some j ∧ p.ins[j.val]? = some c ∧ c.codec.isSome = true) →
      State.resetWith p = none) ∧
    ∀ s, State.resetWith p = some s → s.cfg = p ∧
      (∀ d i, s.inst d i = ⟨.reset, 0, 0, 0, 0, 0, false, false, 0⟩) ∧ (∀ c : Idx, s.power[c] = false) ∧
      (∀ q, s.queue q = ⟨0, .idle, false, false, false, false, false, false, false, 0, 0, 0⟩) ∧
      s.sr = ⟨0, false, false, 0, 0, 0, 0, 0, false⟩ ∧ s.cmd = 0 ∧ s.arg0 = 0 ∧ s.arg1 = 0 ∧ s.status = 0 ∧
      s.result = 0 ∧ s.evlog = [] ∧ s.calls = [] ∧ s.tx = []

/-- The invariants below hold after reset of every machine that can be constructed, and its configuration meets the
constraints of R6, R7 and R9. -/
def Obligations.ResetMeetsTheInvariants : Prop :=
  ∀ (p : Config.Params) (s : State), State.resetWith p = some s →
    s.cfg.wf = true ∧ MemoryForm s ∧ EngineInv s ∧ ConfigInv s ∧ CursorInv s ∧ (∀ q, CompletionOrder (s.queue q)) ∧
    NoFaultBit s

/-- Every step of every agent keeps both memories in their canonical form, the model's own (log 4). -/
def Obligations.StepKeepsMemoryForm : Prop :=
  ∀ s t : State, MemoryForm s → step s = .next t → MemoryForm t

/-- R44 (a), (b): every step of every agent keeps the queues of a `RESET` or `STOP` instance idle, `IE = 1` exactly
when a queue is not idle, a pending flag only with `IE = 1`, and the descriptors as the engine writes them. -/
def Obligations.StepKeepsTheEngineInvariant : Prop :=
  ∀ s t : State, EngineInv s → step s = .next t → EngineInv t

/-- R43 (2), R44 (c) to (f): every step of every agent keeps the configuration of the instances that are not `RESET`
legal, their codec powered, coupled instances at one rate and width, and their descriptors valid. -/
def Obligations.StepKeepsTheConfigurationInvariant : Prop :=
  ∀ s t : State, ConfigInv s → step s = .next t → ConfigInv t

/-- R214, R83: every step keeps the alternation of the completions of every queue. -/
def Obligations.StepKeepsCompletionOrder : Prop :=
  ∀ s t : State, (∀ q, CompletionOrder (s.queue q)) → step s = .next t → ∀ q, CompletionOrder (t.queue q)

/-- R44 (g), R247: every step keeps the cursor at a chunk boundary inside the target. -/
def Obligations.StepKeepsTheCursorInside : Prop :=
  ∀ s t : State, s.cfg.wf = true → CursorInv s → step s = .next t → CursorInv t

/-- R33, R42, R287, R310: no step of any agent clears `Q.OVR`, `Q.BUILT` or `SR.OVR`; only reset does. -/
def Obligations.FaultBitsAreSticky : Prop :=
  ∀ s t : State, step s = .next t →
    (s.sr.ovr = true → t.sr.ovr = true) ∧
    ∀ q, ((s.queue q).ovr = true → (t.queue q).ovr = true) ∧ ((s.queue q).built = true → (t.queue q).built = true)

/-- R38: the three traces are append-only, and the configuration never changes. -/
def Obligations.TracesOnlyGrow : Prop :=
  ∀ s t : State, step s = .next t →
    s.evlog <+: t.evlog ∧ s.calls <+: t.calls ∧ s.tx <+: t.tx ∧ t.cfg = s.cfg

/-- R47, R140, R286: an agent step that is not a write of `CMD` changes no instance register, no codec power, no
`STATUS`, no `RESULT`, and makes no collaborator call. -/
def Obligations.OnlyCommandsWriteInstances : Prop :=
  ∀ (e : Config.Event) (s t : State), (∀ v, e ≠ .regWrite 4 0 v) → runEvent e s = .next t →
    t.outs = s.outs ∧ t.ins = s.ins ∧ t.power = s.power ∧ t.status = s.status ∧ t.result = s.result ∧
    t.calls = s.calls
end

