-- ==== Sys2Proof/Laws/State.lean ====
section
/-! SUPPORT. What each named update of the state leaves in each field: one lemma per field per update, and the
read-after-write lemmas of the register groups. No later proof unfolds a record update. -/

namespace Sys2Proof.Machine

/-! ### `setInst` -/

@[simp] theorem setInst_cfg (s : State) (d : Dir) (i : Idx) (v : Inst) : (s.setInst d i v).cfg = s.cfg := by cases d <;> rfl
@[simp] theorem setInst_power (s : State) (d : Dir) (i : Idx) (v : Inst) : (s.setInst d i v).power = s.power := by cases d <;> rfl
@[simp] theorem setInst_qo (s : State) (d : Dir) (i : Idx) (v : Inst) : (s.setInst d i v).qo = s.qo := by cases d <;> rfl
@[simp] theorem setInst_qi (s : State) (d : Dir) (i : Idx) (v : Inst) : (s.setInst d i v).qi = s.qi := by cases d <;> rfl
@[simp] theorem setInst_qm (s : State) (d : Dir) (i : Idx) (v : Inst) : (s.setInst d i v).qm = s.qm := by cases d <;> rfl
@[simp] theorem setInst_cb (s : State) (d : Dir) (i : Idx) (v : Inst) : (s.setInst d i v).cb = s.cb := by cases d <;> rfl
@[simp] theorem setInst_sr (s : State) (d : Dir) (i : Idx) (v : Inst) : (s.setInst d i v).sr = s.sr := by cases d <;> rfl
@[simp] theorem setInst_cmd (s : State) (d : Dir) (i : Idx) (v : Inst) : (s.setInst d i v).cmd = s.cmd := by cases d <;> rfl
@[simp] theorem setInst_arg0 (s : State) (d : Dir) (i : Idx) (v : Inst) : (s.setInst d i v).arg0 = s.arg0 := by cases d <;> rfl
@[simp] theorem setInst_arg1 (s : State) (d : Dir) (i : Idx) (v : Inst) : (s.setInst d i v).arg1 = s.arg1 := by cases d <;> rfl
@[simp] theorem setInst_status (s : State) (d : Dir) (i : Idx) (v : Inst) : (s.setInst d i v).status = s.status := by cases d <;> rfl
@[simp] theorem setInst_result (s : State) (d : Dir) (i : Idx) (v : Inst) : (s.setInst d i v).result = s.result := by cases d <;> rfl
@[simp] theorem setInst_evlog (s : State) (d : Dir) (i : Idx) (v : Inst) : (s.setInst d i v).evlog = s.evlog := by cases d <;> rfl
@[simp] theorem setInst_calls (s : State) (d : Dir) (i : Idx) (v : Inst) : (s.setInst d i v).calls = s.calls := by cases d <;> rfl
@[simp] theorem setInst_tx (s : State) (d : Dir) (i : Idx) (v : Inst) : (s.setInst d i v).tx = s.tx := by cases d <;> rfl
@[simp] theorem setInst_mem (s : State) (d : Dir) (i : Idx) (v : Inst) : (s.setInst d i v).mem = s.mem := by cases d <;> rfl
@[simp] theorem setInst_schedule (s : State) (d : Dir) (i : Idx) (v : Inst) : (s.setInst d i v).schedule = s.schedule := by cases d <;> rfl
@[simp] theorem setInst_answers (s : State) (d : Dir) (i : Idx) (v : Inst) : (s.setInst d i v).answers = s.answers := by cases d <;> rfl
@[simp] theorem setInst_draws (s : State) (d : Dir) (i : Idx) (v : Inst) : (s.setInst d i v).draws = s.draws := by cases d <;> rfl
@[simp] theorem setInst_readData (s : State) (d : Dir) (i : Idx) (v : Inst) : (s.setInst d i v).readData = s.readData := by cases d <;> rfl

/-! ### `setLife` -/

@[simp] theorem setLife_cfg (s : State) (d : Dir) (i : Idx) (l : Life) : (s.setLife d i l).cfg = s.cfg := setInst_cfg s d i _
@[simp] theorem setLife_power (s : State) (d : Dir) (i : Idx) (l : Life) : (s.setLife d i l).power = s.power := setInst_power s d i _
@[simp] theorem setLife_qo (s : State) (d : Dir) (i : Idx) (l : Life) : (s.setLife d i l).qo = s.qo := setInst_qo s d i _
@[simp] theorem setLife_qi (s : State) (d : Dir) (i : Idx) (l : Life) : (s.setLife d i l).qi = s.qi := setInst_qi s d i _
@[simp] theorem setLife_qm (s : State) (d : Dir) (i : Idx) (l : Life) : (s.setLife d i l).qm = s.qm := setInst_qm s d i _
@[simp] theorem setLife_cb (s : State) (d : Dir) (i : Idx) (l : Life) : (s.setLife d i l).cb = s.cb := setInst_cb s d i _
@[simp] theorem setLife_sr (s : State) (d : Dir) (i : Idx) (l : Life) : (s.setLife d i l).sr = s.sr := setInst_sr s d i _
@[simp] theorem setLife_cmd (s : State) (d : Dir) (i : Idx) (l : Life) : (s.setLife d i l).cmd = s.cmd := setInst_cmd s d i _
@[simp] theorem setLife_arg0 (s : State) (d : Dir) (i : Idx) (l : Life) : (s.setLife d i l).arg0 = s.arg0 := setInst_arg0 s d i _
@[simp] theorem setLife_arg1 (s : State) (d : Dir) (i : Idx) (l : Life) : (s.setLife d i l).arg1 = s.arg1 := setInst_arg1 s d i _
@[simp] theorem setLife_status (s : State) (d : Dir) (i : Idx) (l : Life) : (s.setLife d i l).status = s.status := setInst_status s d i _
@[simp] theorem setLife_result (s : State) (d : Dir) (i : Idx) (l : Life) : (s.setLife d i l).result = s.result := setInst_result s d i _
@[simp] theorem setLife_evlog (s : State) (d : Dir) (i : Idx) (l : Life) : (s.setLife d i l).evlog = s.evlog := setInst_evlog s d i _
@[simp] theorem setLife_calls (s : State) (d : Dir) (i : Idx) (l : Life) : (s.setLife d i l).calls = s.calls := setInst_calls s d i _
@[simp] theorem setLife_tx (s : State) (d : Dir) (i : Idx) (l : Life) : (s.setLife d i l).tx = s.tx := setInst_tx s d i _
@[simp] theorem setLife_mem (s : State) (d : Dir) (i : Idx) (l : Life) : (s.setLife d i l).mem = s.mem := setInst_mem s d i _
@[simp] theorem setLife_schedule (s : State) (d : Dir) (i : Idx) (l : Life) : (s.setLife d i l).schedule = s.schedule := setInst_schedule s d i _
@[simp] theorem setLife_answers (s : State) (d : Dir) (i : Idx) (l : Life) : (s.setLife d i l).answers = s.answers := setInst_answers s d i _
@[simp] theorem setLife_draws (s : State) (d : Dir) (i : Idx) (l : Life) : (s.setLife d i l).draws = s.draws := setInst_draws s d i _
@[simp] theorem setLife_readData (s : State) (d : Dir) (i : Idx) (l : Life) : (s.setLife d i l).readData = s.readData := setInst_readData s d i _

/-! ### `setQueue` -/

@[simp] theorem setQueue_cfg (s : State) (q : QueueId) (v : Queue) : (s.setQueue q v).cfg = s.cfg := by cases q <;> rfl
@[simp] theorem setQueue_outs (s : State) (q : QueueId) (v : Queue) : (s.setQueue q v).outs = s.outs := by cases q <;> rfl
@[simp] theorem setQueue_ins (s : State) (q : QueueId) (v : Queue) : (s.setQueue q v).ins = s.ins := by cases q <;> rfl
@[simp] theorem setQueue_power (s : State) (q : QueueId) (v : Queue) : (s.setQueue q v).power = s.power := by cases q <;> rfl
@[simp] theorem setQueue_cb (s : State) (q : QueueId) (v : Queue) : (s.setQueue q v).cb = s.cb := by cases q <;> rfl
@[simp] theorem setQueue_sr (s : State) (q : QueueId) (v : Queue) : (s.setQueue q v).sr = s.sr := by cases q <;> rfl
@[simp] theorem setQueue_cmd (s : State) (q : QueueId) (v : Queue) : (s.setQueue q v).cmd = s.cmd := by cases q <;> rfl
@[simp] theorem setQueue_arg0 (s : State) (q : QueueId) (v : Queue) : (s.setQueue q v).arg0 = s.arg0 := by cases q <;> rfl
@[simp] theorem setQueue_arg1 (s : State) (q : QueueId) (v : Queue) : (s.setQueue q v).arg1 = s.arg1 := by cases q <;> rfl
@[simp] theorem setQueue_status (s : State) (q : QueueId) (v : Queue) : (s.setQueue q v).status = s.status := by cases q <;> rfl
@[simp] theorem setQueue_result (s : State) (q : QueueId) (v : Queue) : (s.setQueue q v).result = s.result := by cases q <;> rfl
@[simp] theorem setQueue_evlog (s : State) (q : QueueId) (v : Queue) : (s.setQueue q v).evlog = s.evlog := by cases q <;> rfl
@[simp] theorem setQueue_calls (s : State) (q : QueueId) (v : Queue) : (s.setQueue q v).calls = s.calls := by cases q <;> rfl
@[simp] theorem setQueue_tx (s : State) (q : QueueId) (v : Queue) : (s.setQueue q v).tx = s.tx := by cases q <;> rfl
@[simp] theorem setQueue_mem (s : State) (q : QueueId) (v : Queue) : (s.setQueue q v).mem = s.mem := by cases q <;> rfl
@[simp] theorem setQueue_schedule (s : State) (q : QueueId) (v : Queue) : (s.setQueue q v).schedule = s.schedule := by cases q <;> rfl
@[simp] theorem setQueue_answers (s : State) (q : QueueId) (v : Queue) : (s.setQueue q v).answers = s.answers := by cases q <;> rfl
@[simp] theorem setQueue_draws (s : State) (q : QueueId) (v : Queue) : (s.setQueue q v).draws = s.draws := by cases q <;> rfl
@[simp] theorem setQueue_readData (s : State) (q : QueueId) (v : Queue) : (s.setQueue q v).readData = s.readData := by cases q <;> rfl

/-! ### `clearTd` -/

@[simp] theorem clearTd_cfg (s : State) (q : QueueId) : (s.clearTd q).cfg = s.cfg := setQueue_cfg s q _
@[simp] theorem clearTd_outs (s : State) (q : QueueId) : (s.clearTd q).outs = s.outs := setQueue_outs s q _
@[simp] theorem clearTd_ins (s : State) (q : QueueId) : (s.clearTd q).ins = s.ins := setQueue_ins s q _
@[simp] theorem clearTd_power (s : State) (q : QueueId) : (s.clearTd q).power = s.power := setQueue_power s q _
@[simp] theorem clearTd_cb (s : State) (q : QueueId) : (s.clearTd q).cb = s.cb := setQueue_cb s q _
@[simp] theorem clearTd_sr (s : State) (q : QueueId) : (s.clearTd q).sr = s.sr := setQueue_sr s q _
@[simp] theorem clearTd_cmd (s : State) (q : QueueId) : (s.clearTd q).cmd = s.cmd := setQueue_cmd s q _
@[simp] theorem clearTd_arg0 (s : State) (q : QueueId) : (s.clearTd q).arg0 = s.arg0 := setQueue_arg0 s q _
@[simp] theorem clearTd_arg1 (s : State) (q : QueueId) : (s.clearTd q).arg1 = s.arg1 := setQueue_arg1 s q _
@[simp] theorem clearTd_status (s : State) (q : QueueId) : (s.clearTd q).status = s.status := setQueue_status s q _
@[simp] theorem clearTd_result (s : State) (q : QueueId) : (s.clearTd q).result = s.result := setQueue_result s q _
@[simp] theorem clearTd_evlog (s : State) (q : QueueId) : (s.clearTd q).evlog = s.evlog := setQueue_evlog s q _
@[simp] theorem clearTd_calls (s : State) (q : QueueId) : (s.clearTd q).calls = s.calls := setQueue_calls s q _
@[simp] theorem clearTd_tx (s : State) (q : QueueId) : (s.clearTd q).tx = s.tx := setQueue_tx s q _
@[simp] theorem clearTd_mem (s : State) (q : QueueId) : (s.clearTd q).mem = s.mem := setQueue_mem s q _
@[simp] theorem clearTd_schedule (s : State) (q : QueueId) : (s.clearTd q).schedule = s.schedule := setQueue_schedule s q _
@[simp] theorem clearTd_answers (s : State) (q : QueueId) : (s.clearTd q).answers = s.answers := setQueue_answers s q _
@[simp] theorem clearTd_draws (s : State) (q : QueueId) : (s.clearTd q).draws = s.draws := setQueue_draws s q _
@[simp] theorem clearTd_readData (s : State) (q : QueueId) : (s.clearTd q).readData = s.readData := setQueue_readData s q _

/-! ### `setPower` -/

@[simp] theorem setPower_cfg (s : State) (c : Idx) (b : Bool) : (s.setPower c b).cfg = s.cfg := rfl
@[simp] theorem setPower_outs (s : State) (c : Idx) (b : Bool) : (s.setPower c b).outs = s.outs := rfl
@[simp] theorem setPower_ins (s : State) (c : Idx) (b : Bool) : (s.setPower c b).ins = s.ins := rfl
@[simp] theorem setPower_qo (s : State) (c : Idx) (b : Bool) : (s.setPower c b).qo = s.qo := rfl
@[simp] theorem setPower_qi (s : State) (c : Idx) (b : Bool) : (s.setPower c b).qi = s.qi := rfl
@[simp] theorem setPower_qm (s : State) (c : Idx) (b : Bool) : (s.setPower c b).qm = s.qm := rfl
@[simp] theorem setPower_cb (s : State) (c : Idx) (b : Bool) : (s.setPower c b).cb = s.cb := rfl
@[simp] theorem setPower_sr (s : State) (c : Idx) (b : Bool) : (s.setPower c b).sr = s.sr := rfl
@[simp] theorem setPower_cmd (s : State) (c : Idx) (b : Bool) : (s.setPower c b).cmd = s.cmd := rfl
@[simp] theorem setPower_arg0 (s : State) (c : Idx) (b : Bool) : (s.setPower c b).arg0 = s.arg0 := rfl
@[simp] theorem setPower_arg1 (s : State) (c : Idx) (b : Bool) : (s.setPower c b).arg1 = s.arg1 := rfl
@[simp] theorem setPower_status (s : State) (c : Idx) (b : Bool) : (s.setPower c b).status = s.status := rfl
@[simp] theorem setPower_result (s : State) (c : Idx) (b : Bool) : (s.setPower c b).result = s.result := rfl
@[simp] theorem setPower_evlog (s : State) (c : Idx) (b : Bool) : (s.setPower c b).evlog = s.evlog := rfl
@[simp] theorem setPower_calls (s : State) (c : Idx) (b : Bool) : (s.setPower c b).calls = s.calls := rfl
@[simp] theorem setPower_tx (s : State) (c : Idx) (b : Bool) : (s.setPower c b).tx = s.tx := rfl
@[simp] theorem setPower_mem (s : State) (c : Idx) (b : Bool) : (s.setPower c b).mem = s.mem := rfl
@[simp] theorem setPower_schedule (s : State) (c : Idx) (b : Bool) : (s.setPower c b).schedule = s.schedule := rfl
@[simp] theorem setPower_answers (s : State) (c : Idx) (b : Bool) : (s.setPower c b).answers = s.answers := rfl
@[simp] theorem setPower_draws (s : State) (c : Idx) (b : Bool) : (s.setPower c b).draws = s.draws := rfl
@[simp] theorem setPower_readData (s : State) (c : Idx) (b : Bool) : (s.setPower c b).readData = s.readData := rfl

/-! ### `dropAnswer` -/

@[simp] theorem dropAnswer_cfg (s : State)  : (s.dropAnswer).cfg = s.cfg := by unfold State.dropAnswer; split <;> rfl
@[simp] theorem dropAnswer_outs (s : State)  : (s.dropAnswer).outs = s.outs := by unfold State.dropAnswer; split <;> rfl
@[simp] theorem dropAnswer_ins (s : State)  : (s.dropAnswer).ins = s.ins := by unfold State.dropAnswer; split <;> rfl
@[simp] theorem dropAnswer_power (s : State)  : (s.dropAnswer).power = s.power := by unfold State.dropAnswer; split <;> rfl
@[simp] theorem dropAnswer_qo (s : State)  : (s.dropAnswer).qo = s.qo := by unfold State.dropAnswer; split <;> rfl
@[simp] theorem dropAnswer_qi (s : State)  : (s.dropAnswer).qi = s.qi := by unfold State.dropAnswer; split <;> rfl
@[simp] theorem dropAnswer_qm (s : State)  : (s.dropAnswer).qm = s.qm := by unfold State.dropAnswer; split <;> rfl
@[simp] theorem dropAnswer_cb (s : State)  : (s.dropAnswer).cb = s.cb := by unfold State.dropAnswer; split <;> rfl
@[simp] theorem dropAnswer_sr (s : State)  : (s.dropAnswer).sr = s.sr := by unfold State.dropAnswer; split <;> rfl
@[simp] theorem dropAnswer_cmd (s : State)  : (s.dropAnswer).cmd = s.cmd := by unfold State.dropAnswer; split <;> rfl
@[simp] theorem dropAnswer_arg0 (s : State)  : (s.dropAnswer).arg0 = s.arg0 := by unfold State.dropAnswer; split <;> rfl
@[simp] theorem dropAnswer_arg1 (s : State)  : (s.dropAnswer).arg1 = s.arg1 := by unfold State.dropAnswer; split <;> rfl
@[simp] theorem dropAnswer_status (s : State)  : (s.dropAnswer).status = s.status := by unfold State.dropAnswer; split <;> rfl
@[simp] theorem dropAnswer_result (s : State)  : (s.dropAnswer).result = s.result := by unfold State.dropAnswer; split <;> rfl
@[simp] theorem dropAnswer_evlog (s : State)  : (s.dropAnswer).evlog = s.evlog := by unfold State.dropAnswer; split <;> rfl
@[simp] theorem dropAnswer_calls (s : State)  : (s.dropAnswer).calls = s.calls := by unfold State.dropAnswer; split <;> rfl
@[simp] theorem dropAnswer_tx (s : State)  : (s.dropAnswer).tx = s.tx := by unfold State.dropAnswer; split <;> rfl
@[simp] theorem dropAnswer_mem (s : State)  : (s.dropAnswer).mem = s.mem := by unfold State.dropAnswer; split <;> rfl
@[simp] theorem dropAnswer_schedule (s : State)  : (s.dropAnswer).schedule = s.schedule := by unfold State.dropAnswer; split <;> rfl
@[simp] theorem dropAnswer_readData (s : State)  : (s.dropAnswer).readData = s.readData := by unfold State.dropAnswer; split <;> rfl

/-! ### `logCall` -/

@[simp] theorem logCall_cfg (s : State) (c : Call) : (s.logCall c).cfg = s.cfg := dropAnswer_cfg s
@[simp] theorem logCall_outs (s : State) (c : Call) : (s.logCall c).outs = s.outs := dropAnswer_outs s
@[simp] theorem logCall_ins (s : State) (c : Call) : (s.logCall c).ins = s.ins := dropAnswer_ins s
@[simp] theorem logCall_power (s : State) (c : Call) : (s.logCall c).power = s.power := dropAnswer_power s
@[simp] theorem logCall_qo (s : State) (c : Call) : (s.logCall c).qo = s.qo := dropAnswer_qo s
@[simp] theorem logCall_qi (s : State) (c : Call) : (s.logCall c).qi = s.qi := dropAnswer_qi s
@[simp] theorem logCall_qm (s : State) (c : Call) : (s.logCall c).qm = s.qm := dropAnswer_qm s
@[simp] theorem logCall_cb (s : State) (c : Call) : (s.logCall c).cb = s.cb := dropAnswer_cb s
@[simp] theorem logCall_sr (s : State) (c : Call) : (s.logCall c).sr = s.sr := dropAnswer_sr s
@[simp] theorem logCall_cmd (s : State) (c : Call) : (s.logCall c).cmd = s.cmd := dropAnswer_cmd s
@[simp] theorem logCall_arg0 (s : State) (c : Call) : (s.logCall c).arg0 = s.arg0 := dropAnswer_arg0 s
@[simp] theorem logCall_arg1 (s : State) (c : Call) : (s.logCall c).arg1 = s.arg1 := dropAnswer_arg1 s
@[simp] theorem logCall_status (s : State) (c : Call) : (s.logCall c).status = s.status := dropAnswer_status s
@[simp] theorem logCall_result (s : State) (c : Call) : (s.logCall c).result = s.result := dropAnswer_result s
@[simp] theorem logCall_evlog (s : State) (c : Call) : (s.logCall c).evlog = s.evlog := dropAnswer_evlog s
@[simp] theorem logCall_tx (s : State) (c : Call) : (s.logCall c).tx = s.tx := dropAnswer_tx s
@[simp] theorem logCall_mem (s : State) (c : Call) : (s.logCall c).mem = s.mem := dropAnswer_mem s
@[simp] theorem logCall_schedule (s : State) (c : Call) : (s.logCall c).schedule = s.schedule := dropAnswer_schedule s
@[simp] theorem logCall_readData (s : State) (c : Call) : (s.logCall c).readData = s.readData := dropAnswer_readData s

/-! ### `dropEvent` -/

@[simp] theorem dropEvent_cfg (s : State)  : (s.dropEvent).cfg = s.cfg := by unfold State.dropEvent; split <;> rfl
@[simp] theorem dropEvent_outs (s : State)  : (s.dropEvent).outs = s.outs := by unfold State.dropEvent; split <;> rfl
@[simp] theorem dropEvent_ins (s : State)  : (s.dropEvent).ins = s.ins := by unfold State.dropEvent; split <;> rfl
@[simp] theorem dropEvent_power (s : State)  : (s.dropEvent).power = s.power := by unfold State.dropEvent; split <;> rfl
@[simp] theorem dropEvent_qo (s : State)  : (s.dropEvent).qo = s.qo := by unfold State.dropEvent; split <;> rfl
@[simp] theorem dropEvent_qi (s : State)  : (s.dropEvent).qi = s.qi := by unfold State.dropEvent; split <;> rfl
@[simp] theorem dropEvent_qm (s : State)  : (s.dropEvent).qm = s.qm := by unfold State.dropEvent; split <;> rfl
@[simp] theorem dropEvent_cb (s : State)  : (s.dropEvent).cb = s.cb := by unfold State.dropEvent; split <;> rfl
@[simp] theorem dropEvent_sr (s : State)  : (s.dropEvent).sr = s.sr := by unfold State.dropEvent; split <;> rfl
@[simp] theorem dropEvent_cmd (s : State)  : (s.dropEvent).cmd = s.cmd := by unfold State.dropEvent; split <;> rfl
@[simp] theorem dropEvent_arg0 (s : State)  : (s.dropEvent).arg0 = s.arg0 := by unfold State.dropEvent; split <;> rfl
@[simp] theorem dropEvent_arg1 (s : State)  : (s.dropEvent).arg1 = s.arg1 := by unfold State.dropEvent; split <;> rfl
@[simp] theorem dropEvent_status (s : State)  : (s.dropEvent).status = s.status := by unfold State.dropEvent; split <;> rfl
@[simp] theorem dropEvent_result (s : State)  : (s.dropEvent).result = s.result := by unfold State.dropEvent; split <;> rfl
@[simp] theorem dropEvent_evlog (s : State)  : (s.dropEvent).evlog = s.evlog := by unfold State.dropEvent; split <;> rfl
@[simp] theorem dropEvent_calls (s : State)  : (s.dropEvent).calls = s.calls := by unfold State.dropEvent; split <;> rfl
@[simp] theorem dropEvent_tx (s : State)  : (s.dropEvent).tx = s.tx := by unfold State.dropEvent; split <;> rfl
@[simp] theorem dropEvent_mem (s : State)  : (s.dropEvent).mem = s.mem := by unfold State.dropEvent; split <;> rfl
@[simp] theorem dropEvent_answers (s : State)  : (s.dropEvent).answers = s.answers := by unfold State.dropEvent; split <;> rfl
@[simp] theorem dropEvent_readData (s : State)  : (s.dropEvent).readData = s.readData := by unfold State.dropEvent; split <;> rfl

/-! ### `notify` -/

@[simp] theorem notify_cfg (s : State) (d : Dir) (i : Idx) (k : Notice) (m : Mic) : (notify d i k m s).cfg = s.cfg := by unfold notify; split <;> rfl
@[simp] theorem notify_outs (s : State) (d : Dir) (i : Idx) (k : Notice) (m : Mic) : (notify d i k m s).outs = s.outs := by unfold notify; split <;> rfl
@[simp] theorem notify_ins (s : State) (d : Dir) (i : Idx) (k : Notice) (m : Mic) : (notify d i k m s).ins = s.ins := by unfold notify; split <;> rfl
@[simp] theorem notify_power (s : State) (d : Dir) (i : Idx) (k : Notice) (m : Mic) : (notify d i k m s).power = s.power := by unfold notify; split <;> rfl
@[simp] theorem notify_qo (s : State) (d : Dir) (i : Idx) (k : Notice) (m : Mic) : (notify d i k m s).qo = s.qo := by unfold notify; split <;> rfl
@[simp] theorem notify_qi (s : State) (d : Dir) (i : Idx) (k : Notice) (m : Mic) : (notify d i k m s).qi = s.qi := by unfold notify; split <;> rfl
@[simp] theorem notify_qm (s : State) (d : Dir) (i : Idx) (k : Notice) (m : Mic) : (notify d i k m s).qm = s.qm := by unfold notify; split <;> rfl
@[simp] theorem notify_cb (s : State) (d : Dir) (i : Idx) (k : Notice) (m : Mic) : (notify d i k m s).cb = s.cb := by unfold notify; split <;> rfl
@[simp] theorem notify_sr (s : State) (d : Dir) (i : Idx) (k : Notice) (m : Mic) : (notify d i k m s).sr = s.sr := by unfold notify; split <;> rfl
@[simp] theorem notify_cmd (s : State) (d : Dir) (i : Idx) (k : Notice) (m : Mic) : (notify d i k m s).cmd = s.cmd := by unfold notify; split <;> rfl
@[simp] theorem notify_arg0 (s : State) (d : Dir) (i : Idx) (k : Notice) (m : Mic) : (notify d i k m s).arg0 = s.arg0 := by unfold notify; split <;> rfl
@[simp] theorem notify_arg1 (s : State) (d : Dir) (i : Idx) (k : Notice) (m : Mic) : (notify d i k m s).arg1 = s.arg1 := by unfold notify; split <;> rfl
@[simp] theorem notify_status (s : State) (d : Dir) (i : Idx) (k : Notice) (m : Mic) : (notify d i k m s).status = s.status := by unfold notify; split <;> rfl
@[simp] theorem notify_result (s : State) (d : Dir) (i : Idx) (k : Notice) (m : Mic) : (notify d i k m s).result = s.result := by unfold notify; split <;> rfl
@[simp] theorem notify_calls (s : State) (d : Dir) (i : Idx) (k : Notice) (m : Mic) : (notify d i k m s).calls = s.calls := by unfold notify; split <;> rfl
@[simp] theorem notify_tx (s : State) (d : Dir) (i : Idx) (k : Notice) (m : Mic) : (notify d i k m s).tx = s.tx := by unfold notify; split <;> rfl
@[simp] theorem notify_mem (s : State) (d : Dir) (i : Idx) (k : Notice) (m : Mic) : (notify d i k m s).mem = s.mem := by unfold notify; split <;> rfl
@[simp] theorem notify_schedule (s : State) (d : Dir) (i : Idx) (k : Notice) (m : Mic) : (notify d i k m s).schedule = s.schedule := by unfold notify; split <;> rfl
@[simp] theorem notify_answers (s : State) (d : Dir) (i : Idx) (k : Notice) (m : Mic) : (notify d i k m s).answers = s.answers := by unfold notify; split <;> rfl
@[simp] theorem notify_draws (s : State) (d : Dir) (i : Idx) (k : Notice) (m : Mic) : (notify d i k m s).draws = s.draws := by unfold notify; split <;> rfl
@[simp] theorem notify_readData (s : State) (d : Dir) (i : Idx) (k : Notice) (m : Mic) : (notify d i k m s).readData = s.readData := by unfold notify; split <;> rfl

/-! ### `noteSkew` -/

@[simp] theorem noteSkew_cfg (s : State) (h : Half) : (noteSkew h s).cfg = s.cfg := rfl
@[simp] theorem noteSkew_outs (s : State) (h : Half) : (noteSkew h s).outs = s.outs := rfl
@[simp] theorem noteSkew_ins (s : State) (h : Half) : (noteSkew h s).ins = s.ins := rfl
@[simp] theorem noteSkew_power (s : State) (h : Half) : (noteSkew h s).power = s.power := rfl
@[simp] theorem noteSkew_qo (s : State) (h : Half) : (noteSkew h s).qo = s.qo := rfl
@[simp] theorem noteSkew_qi (s : State) (h : Half) : (noteSkew h s).qi = s.qi := rfl
@[simp] theorem noteSkew_qm (s : State) (h : Half) : (noteSkew h s).qm = s.qm := rfl
@[simp] theorem noteSkew_cb (s : State) (h : Half) : (noteSkew h s).cb = s.cb := rfl
@[simp] theorem noteSkew_cmd (s : State) (h : Half) : (noteSkew h s).cmd = s.cmd := rfl
@[simp] theorem noteSkew_arg0 (s : State) (h : Half) : (noteSkew h s).arg0 = s.arg0 := rfl
@[simp] theorem noteSkew_arg1 (s : State) (h : Half) : (noteSkew h s).arg1 = s.arg1 := rfl
@[simp] theorem noteSkew_status (s : State) (h : Half) : (noteSkew h s).status = s.status := rfl
@[simp] theorem noteSkew_result (s : State) (h : Half) : (noteSkew h s).result = s.result := rfl
@[simp] theorem noteSkew_evlog (s : State) (h : Half) : (noteSkew h s).evlog = s.evlog := rfl
@[simp] theorem noteSkew_calls (s : State) (h : Half) : (noteSkew h s).calls = s.calls := rfl
@[simp] theorem noteSkew_tx (s : State) (h : Half) : (noteSkew h s).tx = s.tx := rfl
@[simp] theorem noteSkew_mem (s : State) (h : Half) : (noteSkew h s).mem = s.mem := rfl
@[simp] theorem noteSkew_schedule (s : State) (h : Half) : (noteSkew h s).schedule = s.schedule := rfl
@[simp] theorem noteSkew_answers (s : State) (h : Half) : (noteSkew h s).answers = s.answers := rfl
@[simp] theorem noteSkew_draws (s : State) (h : Half) : (noteSkew h s).draws = s.draws := rfl
@[simp] theorem noteSkew_readData (s : State) (h : Half) : (noteSkew h s).readData = s.readData := rfl

/-! ### `markReady` -/

@[simp] theorem markReady_cfg (s : State) (m : Mic) (h : Half) : (markReady m h s).cfg = s.cfg := rfl
@[simp] theorem markReady_outs (s : State) (m : Mic) (h : Half) : (markReady m h s).outs = s.outs := rfl
@[simp] theorem markReady_ins (s : State) (m : Mic) (h : Half) : (markReady m h s).ins = s.ins := rfl
@[simp] theorem markReady_power (s : State) (m : Mic) (h : Half) : (markReady m h s).power = s.power := rfl
@[simp] theorem markReady_qo (s : State) (m : Mic) (h : Half) : (markReady m h s).qo = s.qo := rfl
@[simp] theorem markReady_qi (s : State) (m : Mic) (h : Half) : (markReady m h s).qi = s.qi := rfl
@[simp] theorem markReady_qm (s : State) (m : Mic) (h : Half) : (markReady m h s).qm = s.qm := rfl
@[simp] theorem markReady_cb (s : State) (m : Mic) (h : Half) : (markReady m h s).cb = s.cb := rfl
@[simp] theorem markReady_cmd (s : State) (m : Mic) (h : Half) : (markReady m h s).cmd = s.cmd := rfl
@[simp] theorem markReady_arg0 (s : State) (m : Mic) (h : Half) : (markReady m h s).arg0 = s.arg0 := rfl
@[simp] theorem markReady_arg1 (s : State) (m : Mic) (h : Half) : (markReady m h s).arg1 = s.arg1 := rfl
@[simp] theorem markReady_status (s : State) (m : Mic) (h : Half) : (markReady m h s).status = s.status := rfl
@[simp] theorem markReady_result (s : State) (m : Mic) (h : Half) : (markReady m h s).result = s.result := rfl
@[simp] theorem markReady_evlog (s : State) (m : Mic) (h : Half) : (markReady m h s).evlog = s.evlog := rfl
@[simp] theorem markReady_calls (s : State) (m : Mic) (h : Half) : (markReady m h s).calls = s.calls := rfl
@[simp] theorem markReady_tx (s : State) (m : Mic) (h : Half) : (markReady m h s).tx = s.tx := rfl
@[simp] theorem markReady_mem (s : State) (m : Mic) (h : Half) : (markReady m h s).mem = s.mem := rfl
@[simp] theorem markReady_schedule (s : State) (m : Mic) (h : Half) : (markReady m h s).schedule = s.schedule := rfl
@[simp] theorem markReady_answers (s : State) (m : Mic) (h : Half) : (markReady m h s).answers = s.answers := rfl
@[simp] theorem markReady_draws (s : State) (m : Mic) (h : Half) : (markReady m h s).draws = s.draws := rfl
@[simp] theorem markReady_readData (s : State) (m : Mic) (h : Half) : (markReady m h s).readData = s.readData := rfl

/-! ### What an update writes -/

@[simp] theorem logCall_calls (s : State) (c : Call) : (s.logCall c).calls = s.calls ++ [c] := rfl
@[simp] theorem logCall_answers_cons (s : State) (c : Call) (a : Config.Answer) (rest : List Config.Answer)
    (h : s.answers = a :: rest) : (s.logCall c).answers = rest := by
  simp [State.logCall, State.dropAnswer, h]
theorem logCall_answers (s : State) (c : Call) : (s.logCall c).answers = s.answers.tail := by
  unfold State.logCall State.dropAnswer
  split <;> simp_all
theorem nextAnswer_cons (s : State) (a : Config.Answer) (rest : List Config.Answer) (h : s.answers = a :: rest) :
    s.nextAnswer = a := by
  simp [State.nextAnswer, h]
theorem nextEvent_cons (s : State) (e : Config.Event) (rest : List Config.Event) (h : s.schedule = e :: rest) :
    s.nextEvent = e := by
  simp [State.nextEvent, h]
theorem dropEvent_cons (s : State) (e : Config.Event) (rest : List Config.Event) (h : s.schedule = e :: rest) :
    s.dropEvent = { s with schedule := rest } := by
  simp [State.dropEvent, h]

/-! ### Instances -/

@[simp] theorem inst_setInst_same (s : State) (d : Dir) (i : Idx) (v : Inst) : (s.setInst d i v).inst d i = v := by
  cases d <;> simp [State.inst, State.setInst]

theorem inst_setInst_ne (s : State) {d d' : Dir} {i i' : Idx} (v : Inst) (h : (d', i') ≠ (d, i)) :
    (s.setInst d i v).inst d' i' = s.inst d' i' := by
  have hv : d' = d → (i.val ≠ i'.val) := fun e1 e2 => h (by rw [e1, Fin.ext e2])
  cases d <;> cases d' <;> simp_all [State.inst, State.setInst]

theorem inst_setInst (s : State) (d d' : Dir) (i i' : Idx) (v : Inst) :
    (s.setInst d i v).inst d' i' = if (d', i') = (d, i) then v else s.inst d' i' := by
  split
  next h => obtain ⟨rfl, rfl⟩ := Prod.mk.inj h; simp
  next h => exact inst_setInst_ne s v h

/-- An instance is read from the two instance banks only. -/
theorem inst_congr {s t : State} (ho : t.outs = s.outs) (hi : t.ins = s.ins) (d : Dir) (i : Idx) :
    t.inst d i = s.inst d i := by
  cases d <;> simp [State.inst, ho, hi]

theorem inst_setLife (s : State) (d d' : Dir) (i i' : Idx) (l : Life) :
    (s.setLife d i l).inst d' i' = if (d', i') = (d, i) then { s.inst d i with life := l } else s.inst d' i' :=
  inst_setInst s d d' i i' _

@[simp] theorem inst_setQueue (s : State) (q : QueueId) (v : Queue) (d : Dir) (i : Idx) :
    (s.setQueue q v).inst d i = s.inst d i := inst_congr (by simp) (by simp) d i
@[simp] theorem inst_clearTd (s : State) (q : QueueId) (d : Dir) (i : Idx) : (s.clearTd q).inst d i = s.inst d i :=
  inst_congr (by simp) (by simp) d i
@[simp] theorem inst_setPower (s : State) (c : Idx) (b : Bool) (d : Dir) (i : Idx) :
    (s.setPower c b).inst d i = s.inst d i := inst_congr (by simp) (by simp) d i
@[simp] theorem inst_logCall (s : State) (c : Call) (d : Dir) (i : Idx) : (s.logCall c).inst d i = s.inst d i :=
  inst_congr (by simp) (by simp) d i
@[simp] theorem inst_dropEvent (s : State) (d : Dir) (i : Idx) : s.dropEvent.inst d i = s.inst d i :=
  inst_congr (by simp) (by simp) d i
@[simp] theorem inst_notify (s : State) (d' : Dir) (i' : Idx) (k : Notice) (m : Mic) (d : Dir) (i : Idx) :
    (notify d' i' k m s).inst d i = s.inst d i := inst_congr (by simp) (by simp) d i

/-! ### Queues -/

@[simp] theorem queue_setQueue_same (s : State) (q : QueueId) (v : Queue) : (s.setQueue q v).queue q = v := by
  cases q <;> simp [State.queue, State.setQueue]

theorem queue_setQueue_ne (s : State) {q q' : QueueId} (v : Queue) (h : q' ≠ q) :
    (s.setQueue q v).queue q' = s.queue q' := by
  cases q <;> cases q' <;> try rfl
  all_goals
    simp only [State.queue, State.setQueue]
    apply Vector.getElem_set_ne
    intro e
    exact h (by rw [Fin.ext e])

theorem queue_setQueue (s : State) (q q' : QueueId) (v : Queue) :
    (s.setQueue q v).queue q' = if q' = q then v else s.queue q' := by
  split
  next h => subst h; simp
  next h => exact queue_setQueue_ne s v h

/-- A queue is read from the three queue banks only. -/
theorem queue_congr {s t : State} (ho : t.qo = s.qo) (hi : t.qi = s.qi) (hm : t.qm = s.qm) (q : QueueId) :
    t.queue q = s.queue q := by
  cases q <;> simp [State.queue, ho, hi, hm]

@[simp] theorem queue_setInst (s : State) (d : Dir) (i : Idx) (v : Inst) (q : QueueId) :
    (s.setInst d i v).queue q = s.queue q := queue_congr (by simp) (by simp) (by simp) q
@[simp] theorem queue_setLife (s : State) (d : Dir) (i : Idx) (l : Life) (q : QueueId) :
    (s.setLife d i l).queue q = s.queue q := queue_congr (by simp) (by simp) (by simp) q
@[simp] theorem queue_setPower (s : State) (c : Idx) (b : Bool) (q : QueueId) :
    (s.setPower c b).queue q = s.queue q := queue_congr (by simp) (by simp) (by simp) q
@[simp] theorem queue_logCall (s : State) (c : Call) (q : QueueId) : (s.logCall c).queue q = s.queue q :=
  queue_congr (by simp) (by simp) (by simp) q
@[simp] theorem queue_dropEvent (s : State) (q : QueueId) : s.dropEvent.queue q = s.queue q :=
  queue_congr (by simp) (by simp) (by simp) q
@[simp] theorem queue_notify (s : State) (d : Dir) (i : Idx) (k : Notice) (m : Mic) (q : QueueId) :
    (notify d i k m s).queue q = s.queue q := queue_congr (by simp) (by simp) (by simp) q

/-! ### Construction and reset (00_scope.md R9, 10_state.md R45) -/

@[simp] theorem zeroed_inst (p : Config.Params) (d : Dir) (i : Idx) : (State.zeroed p).inst d i = Inst.reset := by
  cases d <;> simp [State.inst, State.zeroed]
@[simp] theorem zeroed_queue (p : Config.Params) (q : QueueId) : (State.zeroed p).queue q = Queue.reset := by
  cases q <;> simp [State.queue, State.zeroed]
@[simp] theorem zeroed_cfg (p : Config.Params) : (State.zeroed p).cfg = p := rfl

/-- The construction gives a machine exactly under a well-formed configuration, and it is the zeroed one. -/
theorem resetWith_eq_some {p : Config.Params} {s : State} :
    State.resetWith p = some s ↔ p.wf = true ∧ s = State.zeroed p := by
  rw [State.resetWith, Option.ite_none_right_eq_some, Option.some.injEq, eq_comm (a := s)]

theorem resetWith_eq_none {p : Config.Params} : State.resetWith p = none ↔ p.wf = false := by
  rw [State.resetWith, ite_eq_right_iff]
  simp

theorem standard_wf : Config.Params.standard.wf = true := by decide

/-- The default machine is the one the construction gives. -/
theorem resetWith_standard : State.resetWith Config.Params.standard = some State.reset :=
  resetWith_eq_some.2 ⟨standard_wf, rfl⟩

/-! ### Ready banks -/

@[simp] theorem rdy_setRdy_same (r : Reassembler) (h : Half) (v : BitVec 12) : (r.setRdy h v).rdy h = v := by
  cases h <;> rfl
@[simp] theorem rdy_setRdy_other (r : Reassembler) (h : Half) (v : BitVec 12) :
    (r.setRdy h v).rdy h.other = r.rdy h.other := by
  cases h <;> rfl
@[simp] theorem setRdy_en (r : Reassembler) (h : Half) (v : BitVec 12) : (r.setRdy h v).en = r.en := by cases h <;> rfl
@[simp] theorem setRdy_ch2 (r : Reassembler) (h : Half) (v : BitVec 12) : (r.setRdy h v).ch2 = r.ch2 := by
  cases h <;> rfl
@[simp] theorem setRdy_mbuf (r : Reassembler) (h : Half) (v : BitVec 12) : (r.setRdy h v).mbuf = r.mbuf := by
  cases h <;> rfl
@[simp] theorem setRdy_cur (r : Reassembler) (h : Half) (v : BitVec 12) : (r.setRdy h v).cur = r.cur := by
  cases h <;> rfl
@[simp] theorem setRdy_tgt (r : Reassembler) (h : Half) (v : BitVec 12) : (r.setRdy h v).tgt = r.tgt := by
  cases h <;> rfl
@[simp] theorem setRdy_size (r : Reassembler) (h : Half) (v : BitVec 12) : (r.setRdy h v).size = r.size := by
  cases h <;> rfl
@[simp] theorem setRdy_ovr (r : Reassembler) (h : Half) (v : BitVec 12) : (r.setRdy h v).ovr = r.ovr := by
  cases h <;> rfl

end Sys2Proof.Machine
end

