-- ==== Sys2Proof/Laws/Memory.lean ====
section
/-! SUPPORT. The memories: reading after writing, and that every memory operation keeps the canonical form. -/

namespace Sys2Proof.Machine

/-! ### Keyed lists -/

theorem lookupKey_insertKey_same {α : Type} (k : Nat) (v : α) (l : List (Nat × α)) :
    lookupKey k (insertKey k v l) = some v := by
  induction l with
  | nil => simp [insertKey, lookupKey]
  | cons e rest ih =>
    unfold insertKey
    split
    · simp [lookupKey]
    · split
      · simp [lookupKey]
      next h => simp [lookupKey, ih, Ne.symm h]

theorem lookupKey_insertKey_ne {α : Type} {k k' : Nat} (v : α) (h : k' ≠ k) (l : List (Nat × α)) :
    lookupKey k' (insertKey k v l) = lookupKey k' l := by
  induction l with
  | nil => simp [insertKey, lookupKey, Ne.symm h]
  | cons e rest ih =>
    unfold insertKey
    split
    · simp [lookupKey, Ne.symm h]
    · split
      next h2 => subst h2; simp [lookupKey, Ne.symm h]
      · simp [lookupKey, ih]

theorem keysRise_mono {α : Type} {lo lo' hi : Nat} (h : lo' ≤ lo) (l : List (Nat × α))
    (w : keysRise lo hi l = true) : keysRise lo' hi l = true := by
  cases l with
  | nil => rfl
  | cons e rest =>
    simp only [keysRise, Bool.and_eq_true, decide_eq_true_eq] at w ⊢
    exact ⟨⟨Nat.le_trans h w.1.1, w.1.2⟩, w.2⟩

theorem keysRise_insertKey {α : Type} {lo hi k : Nat} (v : α) (l : List (Nat × α)) (h1 : lo ≤ k) (h2 : k < hi)
    (w : keysRise lo hi l = true) : keysRise lo hi (insertKey k v l) = true := by
  induction l generalizing lo with
  | nil => simp [insertKey, keysRise, h1, h2]
  | cons e rest ih =>
    simp only [keysRise, Bool.and_eq_true, decide_eq_true_eq] at w
    unfold insertKey
    split
    next hlt => simp [keysRise, h1, h2, w, Nat.succ_le_of_lt hlt]
    · split
      next he => subst he; simp [keysRise, h1, h2, w]
      next hge hne =>
        have : e.1 + 1 ≤ k := by omega
        simp [keysRise, w, ih this w.2]

/-! ### System memory -/

theorem byteAt_writeByte_same (m : Memory) (a : Nat) (v : Byte) : byteAt (writeByte m a v) a = v := by
  simp [byteAt, writeByte, lookupKey_insertKey_same]

theorem byteAt_writeByte_ne (m : Memory) {a b : Nat} (v : Byte) (h : b ≠ a) :
    byteAt (writeByte m a v) b = byteAt m b := by
  simp [byteAt, writeByte, lookupKey_insertKey_ne v h]

theorem byteAt_writeBytes_outside (m : Memory) (a : Nat) (bs : List Byte) (b : Nat) (h : b < a ∨ a + bs.length ≤ b) :
    byteAt (writeBytes m a bs) b = byteAt m b := by
  induction bs generalizing m a with
  | nil => rfl
  | cons v bs ih =>
    simp only [List.length_cons] at h
    rw [writeBytes, ih _ _ (by omega), byteAt_writeByte_ne _ _ (by omega)]

theorem byteAt_writeBytes_inside (m : Memory) (a : Nat) (bs : List Byte) (k : Nat) (h : k < bs.length) :
    byteAt (writeBytes m a bs) (a + k) = bs[k] := by
  induction bs generalizing m a k with
  | nil => simp at h
  | cons v bs ih =>
    cases k with
    | zero => rw [writeBytes, byteAt_writeBytes_outside _ _ _ _ (by omega), Nat.add_zero, byteAt_writeByte_same]; rfl
    | succ k =>
      have := ih (writeByte m a v) (a + 1) k (by simpa using h)
      rw [writeBytes, show a + (k + 1) = a + 1 + k by omega, this]; rfl

@[simp] theorem leBytes_length (n v : Nat) : (leBytes n v).length = n := by
  induction n generalizing v with
  | zero => rfl
  | succ n ih => simp [leBytes, ih]

theorem leBytes_getElem (n v k : Nat) (h : k < (leBytes n v).length) :
    (leBytes n v)[k] = BitVec.ofNat 8 (v / 256 ^ k) := by
  induction n generalizing v k with
  | zero => simp [leBytes] at h
  | succ n ih =>
    cases k with
    | zero => simp [leBytes]
    | succ k => simp [leBytes, ih, Nat.pow_succ, Nat.div_div_eq_div_mul, Nat.mul_comm]

theorem ofLeBytes_leBytes (n v : Nat) : ofLeBytes (leBytes n v) = v % 256 ^ n := by
  induction n generalizing v with
  | zero => simp [leBytes, ofLeBytes, Nat.mod_one]
  | succ n ih => simp [leBytes, ofLeBytes, ih, Nat.pow_succ', Nat.mod_mul]

theorem readBytes_length (m : Memory) (a n : Nat) : (readBytes m a n).length = n := by
  induction n generalizing a with
  | zero => rfl
  | succ n ih => simp [readBytes, ih]

/-- What a read returns depends on the bytes it reads and on nothing else. -/
theorem readBytes_congr {m m' : Memory} {a a' : Nat} (n : Nat)
    (h : ∀ k, k < n → byteAt m' (a' + k) = byteAt m (a + k)) : readBytes m' a' n = readBytes m a n := by
  induction n generalizing a a' with
  | zero => rfl
  | succ n ih =>
    have h0 : byteAt m' a' = byteAt m a := h 0 (by omega)
    rw [readBytes, readBytes, h0, ih fun k hk => by
      have := h (k + 1) (by omega)
      rwa [show a' + (k + 1) = a' + 1 + k by omega, show a + (k + 1) = a + 1 + k by omega] at this]

theorem readBytes_writeBytes_same (m : Memory) (a : Nat) (bs : List Byte) :
    readBytes (writeBytes m a bs) a bs.length = bs := by
  induction bs generalizing m a with
  | nil => rfl
  | cons v bs ih =>
    have h0 := byteAt_writeBytes_inside m a (v :: bs) 0 (by simp)
    simp only [Nat.add_zero, List.getElem_cons_zero] at h0
    rw [List.length_cons, readBytes, h0, writeBytes, ih]

theorem memRead_congr {m m' : Memory} {a a' : Nat} (n : Nat)
    (h : ∀ k, k < n → byteAt m' (a' + k) = byteAt m (a + k)) : memRead m' a' n = memRead m a n := by
  rw [memRead, memRead, readBytes_congr n h]

/-- A write outside the bytes read does not show. -/
theorem memRead_memWrite_outside (m : Memory) (a n v b k : Nat) (h : b + k ≤ a ∨ a + n ≤ b) :
    memRead (memWrite m a n v) b k = memRead m b k :=
  memRead_congr k fun j hj => byteAt_writeBytes_outside _ _ _ _ (by simp; omega)

/-! ### The canonical form -/

theorem writeByte_wf (m : Memory) {a : Nat} (v : Byte) (h : a < 2 ^ 32) (w : m.wf = true) :
    (writeByte m a v).wf = true :=
  keysRise_insertKey v m (Nat.zero_le a) h w

theorem writeBytes_wf (m : Memory) (a : Nat) (bs : List Byte) (h : a + bs.length ≤ 2 ^ 32) (w : m.wf = true) :
    (writeBytes m a bs).wf = true := by
  induction bs generalizing m a with
  | nil => exact w
  | cons v bs ih =>
    simp only [List.length_cons] at h
    exact ih _ _ (by omega) (writeByte_wf m v (by omega) w)

theorem memWrite_wf (m : Memory) (a n v : Nat) (h : a + n ≤ 2 ^ 32) (w : m.wf = true) : (memWrite m a n v).wf = true :=
  writeBytes_wf m a _ (by simpa using h) w

theorem sampleKey_lt (m : Mic) {k : Nat} (h : k < 65536) : sampleKey m k < 65536 * 12 := by
  have := m.isLt
  unfold sampleKey
  omega

theorem sampleKey_inj {m m' : Mic} {k k' : Nat} (hk : k < 65536) (hk' : k' < 65536)
    (h : sampleKey m k = sampleKey m' k') : m = m' ∧ k = k' := by
  unfold sampleKey at h
  exact ⟨Fin.ext (by omega), by omega⟩

theorem writeSample_wf (b : ChannelMemory) (m : Mic) {k : Nat} (v : Word) (h : k < 65536)
    (w : ChannelMemory.wf b = true) : ChannelMemory.wf (writeSample b m k v) = true :=
  keysRise_insertKey v b (Nat.zero_le _) (sampleKey_lt m h) w

theorem sampleAt_writeSample_same (b : ChannelMemory) (m : Mic) (k : Nat) (v : Word) :
    sampleAt (writeSample b m k v) m k = v := by
  simp [sampleAt, writeSample, lookupKey_insertKey_same]

theorem sampleAt_writeSample_ne (b : ChannelMemory) {m m' : Mic} {k k' : Nat} (v : Word) (hk : k < 65536)
    (hk' : k' < 65536) (h : (m', k') ≠ (m, k)) : sampleAt (writeSample b m k v) m' k' = sampleAt b m' k' := by
  have hne : sampleKey m' k' ≠ sampleKey m k := fun e => by
    obtain ⟨rfl, rfl⟩ := sampleKey_inj hk' hk e
    exact h rfl
  simp [sampleAt, writeSample, lookupKey_insertKey_ne v hne]

/-- The memories of the reset state have the form. -/
theorem zeroed_memory_wf (p : Config.Params) :
    (State.zeroed p).mem.wf = true ∧ ChannelMemory.wf (State.zeroed p).cb = true :=
  ⟨rfl, rfl⟩

theorem reset_memory_wf : State.reset.mem.wf = true ∧ ChannelMemory.wf State.reset.cb = true :=
  zeroed_memory_wf _

end Sys2Proof.Machine
end

