-- ==== Sys2Proof/Laws/Agents.lean ====
section
/-! SUPPORT. What a step of the DMA agent, the service agent and the environment can do (42_transfer_engine.md R208,
R212, R213; 43_sample_reassembler.md R242, R244). -/

namespace Sys2Proof.Machine

/-! ### Advancing a queue (42 R208, R210, R211) -/

/-- Where the position goes, and which completion is raised. -/
theorem advance_cases (q : Queue) :
    (q.pos.toNat + 1 = q.count.toNat ∧
      q.advance = { q with
        pos := 0
        pendTc := true
        ovr := q.ovr || q.pendHt || q.pendTc
        st := if tdCirc q.td then q.st else .idle }) ∨
    (q.pos.toNat + 1 ≠ q.count.toNat ∧ q.pos.toNat + 1 = q.count.toNat / 2 ∧
      q.advance = { q with pos := q.pos + 1, pendHt := true, ovr := q.ovr || q.pendHt || q.pendTc }) ∨
    (q.pos.toNat + 1 ≠ q.count.toNat ∧ q.pos.toNat + 1 ≠ q.count.toNat / 2 ∧
      q.advance = { q with pos := q.pos + 1 }) := by
  unfold Queue.advance
  split
  next h =>
    refine .inl ⟨h, ?_⟩
    cases hc : tdCirc q.td <;> simp [Queue.raise, Queue.setPending]
  next h =>
    split
    next h2 => exact .inr (.inl ⟨h, h2, rfl⟩)
    next h2 => exact .inr (.inr ⟨h, h2, rfl⟩)

/-- A position inside the buffer does not wrap at 16 bits when it advances. -/
theorem pos_succ_toNat {p c : BitVec 16} (h : p.toNat < c.toNat) : (p + 1).toNat = p.toNat + 1 := by
  have := c.isLt
  rw [BitVec.toNat_add]
  exact Nat.mod_eq_of_lt (by simp; omega)

/-! ### The DMA step -/

/-- Without an error in the session, the element sent is the one in memory. -/
theorem sentElement_eq {q : QueueId} {s : State} (h : (s.queue q).errs = false) (w a : Nat) :
    sentElement q w a s = BitVec.ofNat 32 (memRead s.mem a w) := by
  simp [sentElement, h]

/-- What moving one element changes. -/
inductive Moved (q : QueueId) (v : Word) (s : State) : State → Prop where
  | sample (m : Mic) (hq : q = .qm m) (hm : s.sr.mbuf = false) (hp : tdIsP2m (s.queue q).td = true) :
      Moved q v s { s with cb := writeSample s.cb m (s.queue q).pos.toNat v }
  | store (w a : Nat) (hw : w = 2 * tdWidth (s.queue q).td) (ha : a = elementAddr (s.queue q) w)
      (fits : a + w ≤ 2 ^ 32) (hp : tdIsP2m (s.queue q).td = true) (hm : ∀ m, q = .qm m → s.sr.mbuf = true) :
      Moved q v s { s with mem := memWrite s.mem a w v.toNat }
  | send (w a : Nat) (hw : w = 2 * tdWidth (s.queue q).td) (ha : a = elementAddr (s.queue q) w)
      (fits : a + w ≤ 2 ^ 32) (hp : tdIsP2m (s.queue q).td = false) :
      Moved q v s { s with tx := s.tx ++ [(q, sentElement q w a s)] }

theorem moveElement_moved {q : QueueId} {v : Word} {s t : State} (h : moveElement q v s = .next t) : Moved q v s t := by
  unfold moveElement at h
  simp only at h
  split at h
  · cases h
  split at h
  next hp hm => cases h; exact .sample _ rfl (by assumption) (by assumption)
  next hp hno =>
    split at h
    · cases h
    next hb =>
      cases h
      refine .store _ _ rfl rfl (by omega) hp fun m hq => ?_
      cases hm : s.sr.mbuf
      · exact (hno m hq hm).elim
      · rfl
  next hp =>
    split at h
    · cases h
    next hb => cases h; exact .send _ _ rfl rfl (by omega) hp

theorem Moved.queue {q : QueueId} {v : Word} {s t : State} (h : Moved q v s t) (q' : QueueId) :
    t.queue q' = s.queue q' := by
  cases h <;> exact queue_congr rfl rfl rfl q'

/-- A DMA step: the element moves, then the position of the queue advances. -/
theorem dmaStep_cases {q : QueueId} {v : Word} {s t : State} (h : dmaStep q v s = .next t) :
    queueExists s.cfg q = true ∧ (s.queue q).st = .running ∧
    ∃ s1, Moved q v s s1 ∧ t = s1.setQueue q (s.queue q).advance := by
  unfold dmaStep at h
  split at h
  next hen =>
    simp only [Bool.and_eq_true, beq_iff_eq] at hen
    split at h
    next s1 hm =>
      cases h
      have hmv := moveElement_moved hm
      exact ⟨hen.1, hen.2, s1, hmv, by rw [hmv.queue]⟩
    · cases h
    · cases h
  · cases h

/-! ### The merge -/

theorem ite_ne_of {α : Type} {p : Prop} [Decidable p] {a b c : α} (ha : a ≠ c) (hb : b ≠ c) :
    (if p then a else b) ≠ c := by
  split
  · exact ha
  · exact hb

/-- The memory after `n` frames from sample `k` on, written at `at_` (43 R244). -/
def framesMem (shift cap : Nat) (cb : ChannelMemory) (h : Half) (c0 c1 : Mic) :
    Nat → Nat → Nat → Memory → Memory
  | 0, _, _, m => m
  | n + 1, k, at_, m => framesMem shift cap cb h c0 c1 n (k + 1) (at_ + 4)
      (memWrite (memWrite m at_ 2 (slotOf shift (sampleAt cb c0 (halfIndex cap h k))).toNat) (at_ + 2) 2
        (slotOf shift (sampleAt cb c1 (halfIndex cap h k))).toNat)

/-- The frames of a merge change the memory and the cursor only, as long as the cursor does not wrap. -/
theorem mergeFrames_eq (h : Half) (c0 c1 : Mic) (n k : Nat) (s : State) (hc : s.sr.cur.toNat + 2 * n < 65536 + 2) :
    mergeFrames h c0 c1 n k s = { s with
      mem := framesMem s.cfg.shift s.cfg.cap s.cb h c0 c1 n k (s.sr.tgt.toNat + 2 * s.sr.cur.toNat) s.mem
      sr := { s.sr with cur := s.sr.cur + BitVec.ofNat 16 (2 * n) } } := by
  induction n generalizing k s with
  | zero => simp [mergeFrames, framesMem]
  | succ n ih =>
    cases n with
    | zero => simp [mergeFrames, mergeFrame, framesMem]
    | succ n =>
      have hcur : (s.sr.cur + 2).toNat = s.sr.cur.toNat + 2 := by
        rw [BitVec.toNat_add]; exact Nat.mod_eq_of_lt (by simp; omega)
      rw [mergeFrames, ih _ _ (by simp only [mergeFrame, hcur]; omega)]
      have e : s.sr.cur + 2 + BitVec.ofNat 16 (2 * (n + 1)) = s.sr.cur + BitVec.ofNat 16 (2 * (n + 1 + 1)) := by
        rw [BitVec.add_assoc]
        congr 1
        apply BitVec.eq_of_toNat_eq
        simp
        omega
      have e2 : s.sr.tgt.toNat + 2 * (s.sr.cur.toNat + 2) = s.sr.tgt.toNat + 2 * s.sr.cur.toNat + 4 := by omega
      simp only [mergeFrame, hcur, e, e2]
      rfl

/-- The frames change nothing but the memory and the cursor, wherever the cursor stands, and the memory keeps its
form when the frames fit below `2^32`. -/
theorem mergeFrames_frame (h : Half) (c0 c1 : Mic) (n k : Nat) (s : State) :
    ∃ m, mergeFrames h c0 c1 n k s = { s with
      mem := m
      sr := { s.sr with cur := s.sr.cur + BitVec.ofNat 16 (2 * n) } } ∧
      (s.sr.tgt.toNat + 2 * (s.sr.cur.toNat + 2 * n) ≤ 2 ^ 32 → s.mem.wf = true → m.wf = true) := by
  induction n generalizing k s with
  | zero => exact ⟨s.mem, by simp [mergeFrames], fun _ w => w⟩
  | succ n ih =>
    obtain ⟨m, hm, hw⟩ := ih (k + 1) (mergeFrame h c0 c1 k s)
    have e : s.sr.cur + 2 + BitVec.ofNat 16 (2 * n) = s.sr.cur + BitVec.ofNat 16 (2 * (n + 1)) := by
      rw [BitVec.add_assoc]
      congr 1
      apply BitVec.eq_of_toNat_eq
      simp
      omega
    refine ⟨m, ?_, fun hb w => ?_⟩
    · rw [mergeFrames, hm]
      simp only [mergeFrame, e]
    · refine hw ?_ ?_
      · have : (s.sr.cur + 2).toNat ≤ s.sr.cur.toNat + 2 := by
          rw [BitVec.toNat_add]; exact Nat.mod_le _ _
        simp only [mergeFrame]
        omega
      · exact memWrite_wf _ _ _ _ (by omega) (memWrite_wf _ _ _ _ (by omega) w)

/-- A merge: the skew bit, the frames, and the end of the merge. -/
theorem merge_cases {j : Idx} {h : Half} {s t : State} (hm : merge j h s = .next t) :
    ∃ c0 c1, frameChannels s.sr = some (c0, c1) ∧
      s.sr.tgt.toNat + 2 * (s.sr.cur.toNat + 2 * (s.cfg.cap / 2)) ≤ 2 ^ 32 ∧
      t = mergeEnd j h (mergeFrames h c0 c1 (s.cfg.cap / 2) 0 (noteSkew h s)) := by
  unfold merge at hm
  split at hm
  · cases hm
  next c0 c1 hc =>
    split at hm
    · cases hm
    next hb => cases hm; exact ⟨c0, c1, hc, by omega, rfl⟩

/-- The reassembler's registers at the end of a merge. -/
def mergeEndRegs (h : Half) (r : Reassembler) : Reassembler :=
  if r.cur = r.size then { r with cur := 0, rdy0 := 0, rdy1 := 0 } else r.setRdy h (r.rdy h &&& ~~~r.en)

/-- The notifications at the end of a merge. -/
def mergeEndLog (j : Idx) (s : State) : List LogEntry :=
  (if s.sr.cur.toNat = s.sr.size.toNat / 2 ∧ (s.inst .inp j).cben.getLsbD 0 = true then [⟨.inp, j, .half, 0⟩] else [])
  ++ (if s.sr.cur = s.sr.size ∧ (s.inst .inp j).cben.getLsbD 1 = true then [⟨.inp, j, .full, 0⟩] else [])

theorem notify_eq (d : Dir) (i : Idx) (k : Notice) (m : Mic) (s : State) :
    notify d i k m s = { s with
      evlog := s.evlog ++ (if (s.inst d i).cben.getLsbD k.bit = true then [⟨d, i, k, m⟩] else []) } := by
  unfold notify
  split <;> simp

/-- The end of a merge changes the reassembler and the trace of notifications only. -/
theorem mergeEnd_eq (j : Idx) (h : Half) (s : State) :
    mergeEnd j h s = { s with sr := mergeEndRegs h s.sr, evlog := s.evlog ++ mergeEndLog j s } := by
  have hi : ∀ r e, State.inst { s with sr := r, evlog := e } .inp j = s.inst .inp j := fun _ _ => rfl
  unfold mergeEnd mergeEndRegs mergeEndLog
  by_cases h1 : s.sr.cur.toNat = s.sr.size.toNat / 2 <;>
    simp only [setRdy_cur, setRdy_size, notify_eq, h1, hi, Notice.bit, true_and, false_and, reduceIte,
      List.nil_append] <;>
    by_cases h2 : s.sr.cur = s.sr.size <;>
    simp only [h2, true_and, false_and, reduceIte, List.append_assoc, List.append_nil] <;>
    cases h <;> rfl

/-- A channel event: the flag is set, and the merge runs if the bank is complete. -/
theorem channelEvent_cases {j : Idx} {m : Mic} {h : Half} {s t : State} (hc : channelEvent j m h s = .next t) :
    t = markReady m h s ∨ merge j h (markReady m h s) = .next t := by
  unfold channelEvent at hc
  simp only at hc
  split at hc
  · exact .inr hc
  · cases hc; exact .inl rfl

/-- A merge ends in a next state or a fault. -/
theorem merge_not_refused (j : Idx) (h : Half) (s : State) (r : Refusal) : merge j h s ≠ .refused r := by
  unfold merge
  split
  · exact nofun
  · exact ite_ne_of (by exact nofun) (by exact nofun)

/-- A channel event ends in a next state or a fault. -/
theorem channelEvent_not_refused (j : Idx) (m : Mic) (h : Half) (s : State) (r : Refusal) :
    channelEvent j m h s ≠ .refused r :=
  ite_ne_of (merge_not_refused j h _ r) (by exact nofun)

/-! ### The service step and the error step -/

/-- What the delivery of a completion can do. -/
theorem deliver_cases {d : Dir} {i : Idx} {q : QueueId} {x : Completion} {s t : State}
    (h : deliver d i q x s = .next t) :
    (∃ k, t = notify d i k (chanOf q) s) ∨
    (s.sr.mbuf = false ∧ ∃ m b, q = .qm m ∧ channelEvent i m b s = .next t) := by
  unfold deliver at h
  split at h
  · cases h; exact .inl ⟨_, rfl⟩
  next hm => exact .inr ⟨hm, _, _, rfl, h⟩
  next hm => exact .inr ⟨hm, _, _, rfl, h⟩
  · cases h; exact .inl ⟨_, rfl⟩
  · cases h; exact .inl ⟨_, rfl⟩

/-- A service step: the pending bit is cleared, then the completion is delivered to the owner. -/
theorem serviceStep_cases {q : QueueId} {x : Completion} {s t : State} (h : serviceStep q x s = .next t) :
    ∃ d i, owner s.cfg q = some (d, i) ∧ queueExists s.cfg q = true ∧ (s.queue q).ie = true ∧
      (s.queue q).pending x = true ∧ deliver d i q x (s.setQueue q ((s.queue q).setPending x false)) = .next t := by
  unfold serviceStep at h
  split at h
  · cases h
  next d i ho =>
    split at h
    next hen =>
      simp only [Bool.and_eq_true] at hen
      exact ⟨d, i, ho, hen.1.1, hen.1.2, hen.2, h⟩
    · cases h

/-- An error step. -/
theorem errorStep_cases {q : QueueId} {s t : State} (h : errorStep q s = .next t) :
    queueExists s.cfg q = true ∧ (s.queue q).st = .running ∧
      t = s.setQueue q { s.queue q with errs := true, pendErr := true } := by
  unfold errorStep at h
  split at h
  next hen =>
    simp only [Bool.and_eq_true, beq_iff_eq] at hen
    cases h
    exact ⟨hen.1, hen.2, rfl⟩
  · cases h

end Sys2Proof.Machine
end

