-- ==== Sys2Proof/Laws/Commands.lean ====
section
/-! SUPPORT. What a command can do: its checks, its steps and its end; the collaborator calls; the granted answers. -/

namespace Sys2Proof.Machine

/-! ### The end of a command -/

/-- The kind a result ends with, and its state. -/
def Res.status : Res → Status
  | .done _ => .ok
  | .raised e _ => e

def Res.state : Res → State
  | .done s => s
  | .raised _ s => s

theorem finish_eq (r : Res) : r.finish = .next { r.state with status := r.status.code } := by
  cases r <;> rfl

theorem code_eq_zero (e : Status) : e.code = 0 ↔ e = .ok := by
  cases e <;> decide

theorem code_inj {e e' : Status} : e.code = e'.code ↔ e = e' := by
  cases e <;> cases e' <;> decide

/-- A command either fails a check and writes `STATUS` only, or passes all of them and runs its steps. -/
theorem command_cases (checks : List (Bool × Status)) (body : State → Res) (s : State) :
    (∃ e, firstFailure checks = some e ∧ command checks body s = .next { s with status := e.code }) ∨
    (firstFailure checks = none ∧
      command checks body s = .next { (body s).state with status := (body s).status.code }) := by
  unfold command
  cases h : firstFailure checks with
  | none => exact .inr ⟨rfl, finish_eq _⟩
  | some e => exact .inl ⟨e, rfl, rfl⟩

theorem command_fails {checks : List (Bool × Status)} {e : Status} (h : firstFailure checks = some e)
    (body : State → Res) (s : State) : command checks body s = .next { s with status := e.code } := by
  simp [command, h, finishWith]

theorem command_runs {checks : List (Bool × Status)} (h : firstFailure checks = none) (body : State → Res)
    (s : State) : command checks body s = .next { (body s).state with status := (body s).status.code } := by
  simp [command, h, finish_eq]

@[simp] theorem firstFailure_nil : firstFailure [] = none := rfl

theorem firstFailure_cons (c : Bool × Status) (rest : List (Bool × Status)) :
    firstFailure (c :: rest) = if c.1 = true then some c.2 else firstFailure rest := rfl

/-- All checks passed. -/
theorem firstFailure_eq_none {checks : List (Bool × Status)} :
    firstFailure checks = none ↔ ∀ c ∈ checks, c.1 = false := by
  induction checks with
  | nil => simp
  | cons c rest ih =>
    rw [firstFailure_cons]
    cases h : c.1 <;> simp [ih, h]

/-- A failing check is one of the list. -/
theorem firstFailure_mem {checks : List (Bool × Status)} {e : Status} (h : firstFailure checks = some e) :
    ∃ c ∈ checks, c.1 = true ∧ c.2 = e := by
  induction checks with
  | nil => simp at h
  | cons c rest ih =>
    rw [firstFailure_cons] at h
    split at h
    next hc => exact ⟨c, by simp, hc, by simpa using h⟩
    next hc => obtain ⟨x, hx, h2⟩ := ih h; exact ⟨x, by simp [hx], h2⟩

/-! ### Sequences of steps -/

@[simp] theorem andThen_done (s : State) (f : State → Res) : (Res.done s).andThen f = f s := rfl
@[simp] theorem andThen_raised (e : Status) (s : State) (f : State → Res) :
    (Res.raised e s).andThen f = .raised e s := rfl
@[simp] theorem state_done (s : State) : (Res.done s).state = s := rfl
@[simp] theorem state_raised (e : Status) (s : State) : (Res.raised e s).state = s := rfl
@[simp] theorem status_done (s : State) : (Res.done s).status = .ok := rfl
@[simp] theorem status_raised (e : Status) (s : State) : (Res.raised e s).status = e := rfl

/-- The steps after a first one: it raised and they did not run, or it was done and they ran from its state. -/
theorem andThen_cases (r : Res) (f : State → Res) :
    (∃ s, r = .done s ∧ r.andThen f = f s) ∨ (∃ e s, r = .raised e s ∧ r.andThen f = .raised e s) := by
  cases r with
  | done s => exact .inl ⟨s, rfl, rfl⟩
  | raised e s => exact .inr ⟨e, s, rfl, rfl⟩

theorem callOr_eq (c : Call) (e : Status) (s : State) :
    callOr c e s = if answerOk s.nextAnswer = true then .done (s.logCall c) else .raised e (s.logCall c) := rfl

theorem okOr_eq (r : Bool × State) (e : Status) : okOr r e = if r.1 = true then .done r.2 else .raised e r.2 := rfl

theorem codecOr_none {s : State} {d : Dir} {i : Idx} (h : codecOf s.cfg d i = none) (mk : Idx → Call) (e : Status) :
    codecOr d i mk e s = .done s := by
  simp [codecOr, h]

theorem codecOr_some {s : State} {d : Dir} {i c : Idx} (h : codecOf s.cfg d i = some c) (mk : Idx → Call)
    (e : Status) :
    codecOr d i mk e s =
      if answerOk s.nextAnswer = true then .done (s.logCall (mk c)) else .raised e (s.logCall (mk c)) := by
  simp [codecOr, h, callOr_eq]

/-- A call on the codec, if there is one: the state after it. -/
theorem codecOr_state (d : Dir) (i : Idx) (mk : Idx → Call) (e : Status) (s : State) :
    (codecOr d i mk e s).state = s ∨ ∃ c, (codecOr d i mk e s).state = s.logCall (mk c) := by
  cases h : codecOf s.cfg d i with
  | none => exact .inl (by rw [codecOr_none h]; rfl)
  | some c =>
    refine .inr ⟨c, ?_⟩
    rw [codecOr_some h]
    split <;> rfl

/-! ### Granted answers -/

theorem granted_zero (s : State) : Granted 0 s := ⟨Nat.zero_le _, by simp⟩

theorem granted_congr {s t : State} (h : t.answers = s.answers) (n : Nat) : Granted n t ↔ Granted n s := by
  simp [Granted, h]

/-- A granted call is answered `ok`, and the calls after it stay granted. -/
theorem granted_succ {n : Nat} {s : State} (h : Granted (n + 1) s) (c : Call) :
    answerOk s.nextAnswer = true ∧ Granted n (s.logCall c) := by
  obtain ⟨hlen, hok⟩ := h
  cases ha : s.answers with
  | nil => simp [ha] at hlen
  | cons a rest =>
    rw [ha] at hlen hok
    refine ⟨?_, ?_, ?_⟩
    · rw [nextAnswer_cons s a rest ha]; exact hok a (by simp)
    · rw [logCall_answers, ha]; simpa using hlen
    · rw [logCall_answers, ha]
      intro b hb
      exact hok b (by simp_all)

theorem granted_mono {m n : Nat} {s : State} (h : Granted n s) (hm : m ≤ n) : Granted m s :=
  ⟨Nat.le_trans hm h.1, fun a ha => h.2 a ((List.take_prefix_take_left hm).subset ha)⟩

/-- The answers after `m` of them are used up: the first `m` granted, and what comes then. -/
theorem granted_add {s t : State} {m n : Nat} (h : t.answers = s.answers.drop m) :
    Granted (m + n) s ↔ Granted m s ∧ Granted n t := by
  simp only [Granted, h, List.take_add, List.length_drop, List.mem_append]
  constructor
  · rintro ⟨h1, h2⟩
    exact ⟨⟨by omega, fun a ha => h2 a (.inl ha)⟩, by omega, fun a ha => h2 a (.inr ha)⟩
  · rintro ⟨⟨h1, h2⟩, h3, h4⟩
    exact ⟨by omega, fun a ha => ha.elim (h2 a) (h4 a)⟩

theorem failsAt_add {s t : State} {m n : Nat} (h : t.answers = s.answers.drop m) :
    FailsAt (m + n) s ↔ Granted m s ∧ FailsAt n t := by
  rw [FailsAt, FailsAt, granted_add h, h, List.getElem?_drop, and_assoc]

theorem failsAt_congr {s t : State} (h : t.answers = s.answers) (n : Nat) : FailsAt n t ↔ FailsAt n s := by
  simp [FailsAt, Granted, h]

theorem logCall_drop (s : State) (c : Call) : (s.logCall c).answers = s.answers.drop 1 := by
  rw [logCall_answers, List.drop_one]

/-- The next call fails. -/
theorem failsAt_zero {s : State} (h : FailsAt 0 s) : s.nextAnswer = .fail := by
  obtain ⟨-, h⟩ := h
  cases ha : s.answers with
  | nil => simp [ha] at h
  | cons a rest => rw [nextAnswer_cons s a rest ha]; simpa [ha] using h

theorem failsAt_zero_not_ok {s : State} (h : FailsAt 0 s) : ¬answerOk s.nextAnswer = true := by
  rw [failsAt_zero h]
  simp [answerOk]

/-- The next call is granted, and the failure comes later. -/
theorem failsAt_succ {n : Nat} {s : State} (h : FailsAt (n + 1) s) (c : Call) :
    answerOk s.nextAnswer = true ∧ FailsAt n (s.logCall c) := by
  rw [Nat.add_comm] at h
  obtain ⟨h1, h2⟩ := (failsAt_add (logCall_drop s c)).1 h
  exact ⟨(granted_succ h1 c).1, h2⟩

theorem failsAt_lt {n : Nat} {s : State} (h : FailsAt n s) : n < s.answers.length := by
  obtain ⟨-, h⟩ := h
  by_contra hn
  rw [List.getElem?_eq_none (by omega)] at h
  cases h

/-- A failure before the last of `m` answers is no grant of them. -/
theorem not_granted_of_failsAt {m n : Nat} {s : State} (h : FailsAt n s) (hn : n < m) : ¬Granted m s := fun hg => by
  have := hg.2 .fail (List.mem_iff_getElem?.2 ⟨n, by rw [List.getElem?_take_of_lt hn]; exact h.2⟩)
  cases this

/-- A codec call that fails. -/
theorem codecOr_failed {s : State} {d : Dir} {i c : Idx} (hc : codecOf s.cfg d i = some c) (h : FailsAt 0 s)
    (mk : Idx → Call) (e : Status) : codecOr d i mk e s = .raised e (s.logCall (mk c)) := by
  rw [codecOr_some hc, if_neg (failsAt_zero_not_ok h)]

/-- Granted codec call: done, with its record. -/
theorem codecOr_granted {s : State} {d : Dir} {i : Idx} {n : Nat}
    (h : Granted ((codecOf s.cfg d i).toList.length + n) s) (mk : Idx → Call) (e : Status) :
    ∃ t, codecOr d i mk e s = .done t ∧ t.calls = s.calls ++ codecCalls s.cfg d i mk ∧ Granted n t ∧
      (t = s ∨ ∃ c, t = s.logCall (mk c)) := by
  cases hc : codecOf s.cfg d i with
  | none =>
    refine ⟨s, codecOr_none hc mk e, by simp [codecCalls, hc], ?_, .inl rfl⟩
    simpa [hc] using h
  | some c =>
    rw [hc] at h
    have := granted_succ (n := n) (by simpa [Nat.add_comm] using h) (mk c)
    refine ⟨s.logCall (mk c), ?_, by simp [codecCalls, hc], this.2, .inr ⟨c, rfl⟩⟩
    rw [codecOr_some hc, if_pos this.1]

end Sys2Proof.Machine
end

