-- ==== Sys2Proof/Laws/Operands.lean ====
section
/-! SUPPORT. The operands: bit lists, the queues of an instance, coupled instances, element widths, descriptors. -/

namespace Sys2Proof.Machine

/-! ### Microphone masks (00_scope.md R11) -/

theorem mem_bitList {v : BitVec 12} {m : Mic} : m ∈ bitList v ↔ v.getLsbD m.val = true := by
  simp [bitList]

theorem bitList_nodup (v : BitVec 12) : (bitList v).Nodup :=
  (List.nodup_finRange 12).filter _

theorem qm_injective : Function.Injective QueueId.qm := fun _ _ h => by cases h; rfl

theorem bitQueues_nodup (v : BitVec 12) : ((bitList v).map QueueId.qm).Nodup :=
  (bitList_nodup v).map qm_injective

theorem mics_lt {p : Config.Params} {dev : Word} {m : Mic} (h : (mics p dev).getLsbD m.val = true) : m.val < p.nMic := by
  simp only [mics, BitVec.getLsbD_and, Bool.and_eq_true, BitVec.getLsbD_ofNat, Nat.testBit_two_pow_sub_one,
    decide_eq_true_eq] at h
  exact h.2.2

theorem mem_allMics {p : Config.Params} {m : Mic} : m ∈ allMics p ↔ m.val < p.nMic := by
  simp [allMics]

/-! ### Queues of an instance (10_state.md R31) -/

theorem queuesOf_nodup (p : Config.Params) (d : Dir) (i : Idx) : (queuesOf p d i).Nodup := by
  unfold queuesOf
  split
  · exact ((List.nodup_finRange 12).filter _).map qm_injective
  · simp

theorem configuredQueues_nodup (p : Config.Params) (d : Dir) (i : Idx) (dev : Word) :
    (configuredQueues p d i dev).Nodup := by
  unfold configuredQueues
  split
  · exact bitQueues_nodup _
  · simp

theorem runQueues_nodup (s : State) (d : Dir) (i : Idx) : (runQueues s d i).Nodup := by
  unfold runQueues
  split
  · exact bitQueues_nodup _
  · simp

/-- A rebuilt queue belongs to the instance. -/
theorem configuredQueues_sub (p : Config.Params) (d : Dir) (i : Idx) (dev : Word) :
    ∀ q ∈ configuredQueues p d i dev, q ∈ queuesOf p d i := by
  intro q hq
  unfold configuredQueues at hq
  unfold queuesOf
  split at hq
  next h =>
    rw [if_pos h]
    obtain ⟨m, hm, rfl⟩ := List.mem_map.1 hq
    exact List.mem_map.2 ⟨m, mem_allMics.2 (mics_lt (mem_bitList.1 hm)), rfl⟩
  next h => rw [if_neg h]; exact hq

theorem isSd_dir {p : Config.Params} {d : Dir} {i : Idx} (h : isSd p d i = true) : d = .inp ∧ p.sd = some i := by
  simpa [isSd] using h

/-- The queues a command on an instance can reach: the microphones of the `SD` instance, or the serial queue. -/
def Reaches (p : Config.Params) (d : Dir) (i : Idx) (q : QueueId) : Prop :=
  if isSd p d i then ∃ m, q = .qm m else q = serialQueue d i

theorem reaches_of_queuesOf {p : Config.Params} {d : Dir} {i : Idx} {q : QueueId} (h : q ∈ queuesOf p d i) :
    Reaches p d i q := by
  unfold queuesOf at h
  unfold Reaches
  split at h
  next hs =>
    rw [if_pos hs]
    obtain ⟨m, -, rfl⟩ := List.mem_map.1 h
    exact ⟨m, rfl⟩
  next hs => rw [if_neg hs]; simpa using h

theorem reaches_of_configuredQueues {p : Config.Params} {d : Dir} {i : Idx} {dev : Word} {q : QueueId}
    (h : q ∈ configuredQueues p d i dev) : Reaches p d i q :=
  reaches_of_queuesOf (configuredQueues_sub p d i dev q h)

theorem reaches_of_runQueues {s : State} {d : Dir} {i : Idx} {q : QueueId} (h : q ∈ runQueues s d i) :
    Reaches s.cfg d i q := by
  unfold runQueues at h
  unfold Reaches
  split at h
  next hs =>
    rw [if_pos hs]
    obtain ⟨m, -, rfl⟩ := List.mem_map.1 h
    exact ⟨m, rfl⟩
  next hs => rw [if_neg hs]; simpa using h

/-- Two instances reach no queue in common. -/
theorem reaches_inj {p : Config.Params} {d d' : Dir} {i i' : Idx} {q : QueueId} (h : Reaches p d i q)
    (h' : Reaches p d' i' q) : (d', i') = (d, i) := by
  unfold Reaches at h h'
  split at h <;> split at h'
  next hs hs' =>
    obtain ⟨rfl, e⟩ := isSd_dir hs
    obtain ⟨rfl, e'⟩ := isSd_dir hs'
    rw [e] at e'
    cases e'
    rfl
  next hs hs' =>
    obtain ⟨m, rfl⟩ := h
    cases d' <;> cases h'
  next hs hs' =>
    obtain ⟨m, rfl⟩ := h'
    cases d <;> cases h
  next hs hs' =>
    subst h
    cases d <;> cases d' <;> cases h' <;> rfl

/-! ### Coupled instances (R142) -/

theorem mem_allInstances {p : Config.Params} {x : Dir × Idx} : x ∈ allInstances p ↔ valid p x.1 x.2 = true := by
  obtain ⟨d, i⟩ := x
  cases d <;> simp [allInstances]

theorem mem_sibs {p : Config.Params} {d : Dir} {i : Idx} {x : Dir × Idx} :
    x ∈ sibs p d i ↔ valid p x.1 x.2 = true ∧ x ≠ (d, i) ∧ (codecOf p d i).isSome = true ∧
      codecOf p x.1 x.2 = codecOf p d i := by
  simp [sibs, mem_allInstances, and_assoc]

/-- Being coupled is symmetric. -/
theorem sibs_symm {p : Config.Params} {d : Dir} {i : Idx} {x : Dir × Idx} (h : x ∈ sibs p d i)
    (hv : valid p d i = true) : (d, i) ∈ sibs p x.1 x.2 := by
  rw [mem_sibs] at h ⊢
  exact ⟨hv, fun e => h.2.1 e.symm, by rw [h.2.2.2]; exact h.2.2.1, h.2.2.2.symm⟩

theorem xinstOk_iff {s : State} {d : Dir} {i : Idx} {rate : Word} {bits : BitVec 6} :
    xinstOk s d i rate bits = true ↔
      ∀ x ∈ sibs s.cfg d i, (s.inst x.1 x.2).life ≠ .reset →
        (s.inst x.1 x.2).rate = rate ∧ (s.inst x.1 x.2).bits = bits := by
  simp only [xinstOk, List.all_eq_true, Bool.or_eq_true, Bool.and_eq_true, beq_iff_eq, ne_eq]
  exact forall₂_congr fun x _ => or_iff_not_imp_left

theorem sibsReset_iff {s : State} {d : Dir} {i : Idx} :
    sibsReset s d i = true ↔ ∀ x ∈ sibs s.cfg d i, (s.inst x.1 x.2).life = .reset := by
  simp [sibsReset]

/-- The configuration tuple reads the configuration and the instances only. -/
theorem coupledDevice_congr {s t : State} (hc : t.cfg = s.cfg) (hi : ∀ d i, t.inst d i = s.inst d i) (d : Dir) (i : Idx)
    (d' : Dir) : coupledDevice t d i d' = coupledDevice s d i d' := by
  simp [coupledDevice, hc, hi]

theorem codecCfg_congr {s t : State} (hc : t.cfg = s.cfg) (hi : ∀ d i, t.inst d i = s.inst d i) (d : Dir) (i : Idx)
    (dev rate : Word) (bits : BitVec 6) (vol : BitVec 7) :
    codecCfg t d i dev rate bits vol = codecCfg s d i dev rate bits vol := by
  cases d <;> simp [codecCfg, coupledDevice_congr hc hi]

/-! ### Widths and descriptors (20_memory.md R75, 42 R201) -/

theorem width_eq (bits : BitVec 6) : width bits = 2 ∨ width bits = 4 := by
  unfold width
  split <;> simp

theorem elementWidth_eq (p : Config.Params) (d : Dir) (i : Idx) (bits : BitVec 6) :
    elementWidth p d i bits = 2 ∨ elementWidth p d i bits = 4 := by
  unfold elementWidth
  split
  · exact .inr rfl
  · exact width_eq bits

/-- The fields of a descriptor word. -/
theorem tdWord_fields (v p2m : Bool) (w : BitVec 2) (sinc dinc circ : Bool) (prio : BitVec 2) (list : Bool) :
    let td := tdWord v p2m w sinc dinc circ prio list
    tdValid td = v ∧ tdIsP2m td = p2m ∧ tdWidth td = w.toNat ∧ tdSinc td = sinc ∧ tdDinc td = dinc ∧
    tdCirc td = circ ∧ td.extractLsb' 7 2 = prio ∧ td.getLsbD 9 = list ∧ td.extractLsb' 10 22 = 0 := by
  revert v p2m w sinc dinc circ prio list
  decide

/-- The descriptor of a queue of an instance that sends or receives as the queue does. -/
theorem descriptor_for {p : Config.Params} {q : QueueId} {flow : Flow} {w : Nat} (hw : w = 2 ∨ w = 4)
    (hm : ∀ m, q = .qm m → w = 4) (hf : flow = .p2m ↔ ∀ i, q ≠ .qo i) : DescriptorFor q (descriptor p q flow w) := by
  obtain ⟨h1, h2, h3, h4, h5, h6, -, -, h9⟩ := tdWord_fields true (flow == .p2m) (BitVec.ofNat 2 (w / 2))
    (flow == .m2p) (flow == .p2m) true (queueCfg p q).prio (queueCfg p q).list
  refine ⟨h1, h6, ?_, ?_, ?_, ?_, ?_, h9⟩
  · rw [descriptor, h3]
    rcases hw with rfl | rfl <;> simp
  · intro m e
    rw [descriptor, h3, hm m e]
    rfl
  · rw [descriptor, h2, ← hf, beq_iff_eq]
  · rw [descriptor, h4, h2]
    cases flow <;> rfl
  · rw [descriptor, h5, h2]

/-- What a reconfiguration writes is such a descriptor. -/
theorem configured_descriptor {p : Config.Params} {d : Dir} {i : Idx} {q : QueueId} (h : Reaches p d i q)
    (bits : BitVec 6) : DescriptorFor q (descriptor p q (flowOf d) (elementWidth p d i bits)) := by
  unfold Reaches at h
  refine descriptor_for (elementWidth_eq p d i bits) ?_ ?_
  · rintro m rfl
    split at h
    next hs => simp [elementWidth, hs]
    next hs => cases d <;> cases h
  · split at h
    next hs =>
      obtain ⟨m, rfl⟩ := h
      obtain ⟨rfl, -⟩ := isSd_dir hs
      simp [flowOf]
    next hs =>
      subst h
      cases d <;> simp [flowOf, serialQueue]

end Sys2Proof.Machine
end

