-- ==== Sys2Proof/Laws/Primitives.lean ====
section
/-! SUPPORT. What the Transfer Engine's primitives can do, one by one and over a list of queues
(42_transfer_engine.md R201 to R205). -/

namespace Sys2Proof.Machine

/-! ### Frames -/

/-- Only queues, the trace of calls and the environment's answers can differ. -/
structure Kept (s t : State) : Prop where
  cfg : t.cfg = s.cfg
  outs : t.outs = s.outs
  ins : t.ins = s.ins
  power : t.power = s.power
  cb : t.cb = s.cb
  sr : t.sr = s.sr
  cmd : t.cmd = s.cmd
  arg0 : t.arg0 = s.arg0
  arg1 : t.arg1 = s.arg1
  status : t.status = s.status
  result : t.result = s.result
  evlog : t.evlog = s.evlog
  tx : t.tx = s.tx
  mem : t.mem = s.mem
  schedule : t.schedule = s.schedule
  readData : t.readData = s.readData

theorem Kept.refl (s : State) : Kept s s := by constructor <;> rfl

theorem Kept.trans {s t u : State} (h : Kept s t) (k : Kept t u) : Kept s u := by
  constructor
  · rw [k.cfg, h.cfg]
  · rw [k.outs, h.outs]
  · rw [k.ins, h.ins]
  · rw [k.power, h.power]
  · rw [k.cb, h.cb]
  · rw [k.sr, h.sr]
  · rw [k.cmd, h.cmd]
  · rw [k.arg0, h.arg0]
  · rw [k.arg1, h.arg1]
  · rw [k.status, h.status]
  · rw [k.result, h.result]
  · rw [k.evlog, h.evlog]
  · rw [k.tx, h.tx]
  · rw [k.mem, h.mem]
  · rw [k.schedule, h.schedule]
  · rw [k.readData, h.readData]

theorem Kept.logCall (s : State) (c : Call) : Kept s (s.logCall c) := by constructor <;> simp

theorem Kept.setQueue (s : State) (q : QueueId) (v : Queue) : Kept s (s.setQueue q v) := by constructor <;> simp

theorem Kept.inst {s t : State} (h : Kept s t) (d : Dir) (i : Idx) : t.inst d i = s.inst d i :=
  inst_congr h.outs h.ins d i

theorem SameOtherQueues.refl (qs : List QueueId) (s : State) : SameOtherQueues qs s s := fun _ _ => rfl

theorem SameOtherQueues.trans {qs : List QueueId} {s t u : State} (h : SameOtherQueues qs s t)
    (k : SameOtherQueues qs t u) : SameOtherQueues qs s u := fun q hq => by rw [k q hq, h q hq]

theorem SameOtherQueues.mono {qs qs' : List QueueId} {s t : State} (h : SameOtherQueues qs s t)
    (sub : ∀ q ∈ qs, q ∈ qs') : SameOtherQueues qs' s t := fun q hq => h q fun h1 => hq (sub q h1)

theorem SameOtherQueues.logCall (qs : List QueueId) (s : State) (c : Call) : SameOtherQueues qs s (s.logCall c) :=
  fun q _ => by simp

theorem SameOtherQueues.setQueue {qs : List QueueId} (s : State) {q : QueueId} (h : q ∈ qs) (v : Queue) :
    SameOtherQueues qs s (s.setQueue q v) := fun _ hq' =>
  queue_setQueue_ne s v fun e => hq' (e ▸ h)

/-! ### One primitive -/

/-- TE.Configure: one call, and the descriptor when the call succeeds. -/
theorem teConfigure_eq (q : QueueId) (flow : Flow) (w : Nat) (s : State) :
    teConfigure q flow w s =
      if answerOk s.nextAnswer = true then
        (true, (s.logCall (.linkConfigure q flow w)).setQueue q { s.queue q with
          td := descriptor s.cfg q flow w
          built := (s.queue q).built || (queueCfg s.cfg q).list })
      else (false, s.logCall (.linkConfigure q flow w)) := by
  simp [teConfigure]

/-- TE.Start: refused without a call, or one call and the queue armed when it succeeds. -/
theorem teStart_cases (q : QueueId) (base : Word) (count : Nat) (s : State) :
    ((count = 0 ∨ 65535 < count ∨ tdValid (s.queue q).td = false ∨ (s.queue q).st ≠ .idle) ∧
      teStart q base count s = (false, s)) ∨
    (1 ≤ count ∧ count ≤ 65535 ∧ tdValid (s.queue q).td = true ∧ (s.queue q).st = .idle ∧
      teStart q base count s =
        if answerOk s.nextAnswer = true then
          (true, (s.logCall (.linkEnable q)).setQueue q ((s.queue q).started base count))
        else (false, s.logCall (.linkEnable q))) := by
  unfold teStart
  split
  next h => exact .inl ⟨h.elim .inl fun h => .inr (.inl h), rfl⟩
  next h =>
    split
    next h2 => exact .inl ⟨h2.elim (fun h => .inr (.inr (.inl h))) (fun h => .inr (.inr (.inr h))), rfl⟩
    next h2 =>
      simp only [not_or, Bool.not_eq_false, Decidable.not_not] at h h2
      exact .inr ⟨by omega, by omega, h2.1, h2.2, by simp⟩

/-- TE.Pause: what it does from each run state. -/
theorem tePause_cases (q : QueueId) (s : State) :
    ((s.queue q).st = .idle ∧ tePause q s = (false, s)) ∨ ((s.queue q).st = .paused ∧ tePause q s = (true, s)) ∨
    ((s.queue q).st = .running ∧ tePause q s =
      if answerOk s.nextAnswer = true then
        (true, (s.logCall (.linkPause q)).setQueue q { s.queue q with st := .paused })
      else (false, s.logCall (.linkPause q))) := by
  unfold tePause
  cases h : (s.queue q).st <;> simp

/-- TE.Resume: what it does from each run state. -/
theorem teResume_cases (q : QueueId) (s : State) :
    ((s.queue q).st = .idle ∧ teResume q s = (false, s)) ∨ ((s.queue q).st = .running ∧ teResume q s = (true, s)) ∨
    ((s.queue q).st = .paused ∧ teResume q s =
      if answerOk s.nextAnswer = true then
        (true, (s.logCall (.linkResume q)).setQueue q { s.queue q with st := .running })
      else (false, s.logCall (.linkResume q))) := by
  unfold teResume
  cases h : (s.queue q).st <;> simp

/-- TE.Stop: the queue is stopped whatever the link answers; an idle queue's link is not called. -/
theorem teStop_cases (q : QueueId) (s : State) :
    ((s.queue q).st = .idle ∧ teStop q s = (true, s.setQueue q (s.queue q).stopped)) ∨
    ((s.queue q).st ≠ .idle ∧
      teStop q s = (answerOk s.nextAnswer, (s.setQueue q (s.queue q).stopped).logCall (.linkDisable q))) := by
  unfold teStop
  split
  next h => exact .inl ⟨h, rfl⟩
  next h => exact .inr ⟨h, by simp [State.nextAnswer]⟩

/-- What one primitive can leave in its queue. -/
inductive QueueChange (p : Config.Params) (q : QueueId) : Queue → Queue → Prop where
  | same (v : Queue) : QueueChange p q v v
  | configured (v : Queue) (flow : Flow) (w : Nat) (h : DescriptorFor q (descriptor p q flow w)) :
      QueueChange p q v { v with td := descriptor p q flow w, built := v.built || (queueCfg p q).list }
  | started (v : Queue) (base : Word) (count : Nat) (h1 : 1 ≤ count) (h2 : count ≤ 65535)
      (hv : tdValid v.td = true) (hi : v.st = .idle) : QueueChange p q v (v.started base count)
  | paused (v : Queue) (h : v.st = .running) : QueueChange p q v { v with st := .paused }
  | resumed (v : Queue) (h : v.st = .paused) : QueueChange p q v { v with st := .running }
  | stopped (v : Queue) : QueueChange p q v v.stopped

/-- A primitive touches its own queue, the calls and the answers. -/
structure Primitive (q : QueueId) (s t : State) : Prop where
  kept : Kept s t
  others : SameOtherQueues [q] s t
  change : QueueChange s.cfg q (s.queue q) (t.queue q)
  calls : s.calls <+: t.calls

theorem Primitive.refl (q : QueueId) (s : State) : Primitive q s s :=
  ⟨Kept.refl s, SameOtherQueues.refl _ s, .same _, List.prefix_refl _⟩

theorem Primitive.logCall (q : QueueId) (s : State) (c : Call) : Primitive q s (s.logCall c) :=
  ⟨Kept.logCall s c, SameOtherQueues.logCall _ s c, by rw [queue_logCall]; exact .same _, by simp⟩

theorem Primitive.logSet (q : QueueId) (s : State) (c : Call) {v : Queue} (h : QueueChange s.cfg q (s.queue q) v) :
    Primitive q s ((s.logCall c).setQueue q v) :=
  ⟨(Kept.logCall s c).trans (Kept.setQueue _ q v),
    (SameOtherQueues.logCall _ s c).trans (SameOtherQueues.setQueue _ (by simp) v), by simpa using h, by simp⟩

theorem teConfigure_primitive {q : QueueId} {flow : Flow} {w : Nat} (s : State)
    (h : DescriptorFor q (descriptor s.cfg q flow w)) : Primitive q s (teConfigure q flow w s).2 := by
  rw [teConfigure_eq]
  split
  · exact .logSet q s _ (.configured _ flow w h)
  · exact .logCall q s _

theorem teConfigure_cfg (q : QueueId) (flow : Flow) (w : Nat) (s : State) :
    (teConfigure q flow w s).2.cfg = s.cfg := by
  rw [teConfigure_eq]
  split <;> simp

theorem teStart_primitive (q : QueueId) (base : Word) (count : Nat) (s : State) :
    Primitive q s (teStart q base count s).2 := by
  obtain ⟨-, h⟩ | ⟨h1, h2, hv, hi, h⟩ := teStart_cases q base count s <;> rw [h]
  · exact .refl q s
  · split
    · exact .logSet q s _ (.started _ base count h1 h2 hv hi)
    · exact .logCall q s _

theorem tePause_primitive (q : QueueId) (s : State) : Primitive q s (tePause q s).2 := by
  obtain ⟨-, h⟩ | ⟨-, h⟩ | ⟨hr, h⟩ := tePause_cases q s <;> rw [h]
  · exact .refl q s
  · exact .refl q s
  · split
    · exact .logSet q s _ (.paused _ hr)
    · exact .logCall q s _

theorem teResume_primitive (q : QueueId) (s : State) : Primitive q s (teResume q s).2 := by
  obtain ⟨-, h⟩ | ⟨-, h⟩ | ⟨hr, h⟩ := teResume_cases q s <;> rw [h]
  · exact .refl q s
  · exact .refl q s
  · split
    · exact .logSet q s _ (.resumed _ hr)
    · exact .logCall q s _

theorem teStop_queue (q : QueueId) (s : State) : (teStop q s).2.queue q = (s.queue q).stopped := by
  obtain ⟨-, h⟩ | ⟨-, h⟩ := teStop_cases q s <;> simp [h]

theorem teStop_kept (q : QueueId) (s : State) : Kept s (teStop q s).2 := by
  obtain ⟨-, h⟩ | ⟨-, h⟩ := teStop_cases q s <;> rw [h]
  · exact Kept.setQueue s q _
  · exact (Kept.setQueue s q _).trans (Kept.logCall _ _)

theorem teStop_others (q : QueueId) (s : State) : SameOtherQueues [q] s (teStop q s).2 := by
  have := SameOtherQueues.setQueue (qs := [q]) s (List.mem_singleton.2 rfl) (s.queue q).stopped
  obtain ⟨-, h⟩ | ⟨-, h⟩ := teStop_cases q s <;> rw [h]
  · exact this
  · exact this.trans (SameOtherQueues.logCall _ _ _)

theorem teStop_calls (q : QueueId) (s : State) :
    (teStop q s).2.calls = s.calls ++ (armed s [q]).map .linkDisable := by
  obtain ⟨hi, h⟩ | ⟨hi, h⟩ := teStop_cases q s <;> simp [h, armed, hi]

theorem teStop_primitive (q : QueueId) (s : State) : Primitive q s (teStop q s).2 :=
  ⟨teStop_kept q s, teStop_others q s, by rw [teStop_queue]; exact .stopped _, by rw [teStop_calls]; simp⟩

theorem stopAndDiscard_queue (q : QueueId) (s : State) :
    (stopAndDiscard q s).2.queue q = { (s.queue q).stopped with td := 0 } := by
  simp [stopAndDiscard, State.clearTd, teStop_queue]

theorem stopAndDiscard_kept (q : QueueId) (s : State) : Kept s (stopAndDiscard q s).2 :=
  (teStop_kept q s).trans (Kept.setQueue _ q _)

theorem stopAndDiscard_others (q : QueueId) (s : State) : SameOtherQueues [q] s (stopAndDiscard q s).2 :=
  (teStop_others q s).trans (SameOtherQueues.setQueue _ (by simp) _)

/-! ### A primitive over a list of queues -/

/-- What every application of the primitive keeps, the loop keeps. -/
theorem untilFail_keeps {op : QueueId → State → Bool × State} {P : State → Prop} {qs : List QueueId}
    (h : ∀ q ∈ qs, ∀ s, P s → P (op q s).2) (s : State) (hs : P s) : P (untilFail op qs s).2 := by
  induction qs generalizing s with
  | nil => exact hs
  | cons q qs ih =>
    have h1 := h q (by simp) s hs
    have h2 := fun t ht => ih (fun q hq => h q (by simp [hq])) t ht
    unfold untilFail
    split
    next s1 he => rw [he] at h1; exact h2 s1 h1
    next s1 he => rw [he] at h1; exact h1

theorem onEach_keeps {op : QueueId → State → Bool × State} {P : State → Prop} {qs : List QueueId}
    (h : ∀ q ∈ qs, ∀ s, P s → P (op q s).2) (s : State) (hs : P s) : P (onEach op qs s).2 := by
  induction qs generalizing s with
  | nil => exact hs
  | cons q qs ih => exact ih (fun q hq => h q (by simp [hq])) _ (h q (by simp) s hs)

theorem startAll_keeps {P : State → Prop} {count : Nat} {done : List QueueId} {todo : List (QueueId × Word)}
    (h1 : ∀ x ∈ todo, ∀ s, P s → P (teStart x.1 x.2 count s).2)
    (h2 : ∀ q ∈ done ++ todo.map (·.1), ∀ s, P s → P (teStop q s).2) (s : State) (hs : P s) :
    P (startAll count done todo s).2 := by
  induction todo generalizing s done with
  | nil => exact hs
  | cons x todo ih =>
    obtain ⟨q, base⟩ := x
    have hq := h1 (q, base) (by simp) s hs
    unfold startAll
    split
    next s1 he =>
      rw [he] at hq
      exact ih (fun x hx => h1 x (by simp [hx])) (fun q' hq' => h2 q' (by simpa using hq')) s1 hq
    next s1 he =>
      rw [he] at hq
      exact onEach_keeps (fun q' hq' => h2 q' (by simp [hq'])) s1 hq

/-- The first `k` calls granted: the first `k` queues of the list have got what the primitive gives them, in order, and
the loop goes on from there. -/
theorem untilFail_prefix {op : QueueId → State → Bool × State} (mk : QueueId → Call) (f : QueueId → Queue)
    {qs : List QueueId} (nodup : qs.Nodup) (s : State)
    (hop : ∀ q ∈ qs, ∀ s' : State, s'.cfg = s.cfg → s'.queue q = s.queue q → answerOk s'.nextAnswer = true →
      op q s' = (true, (s'.logCall (mk q)).setQueue q (f q)))
    {k : Nat} (hk : k ≤ qs.length) (hg : Granted k s) :
    ∃ t, untilFail op qs s = untilFail op (qs.drop k) t ∧ Kept s t ∧ (∀ q ∈ qs.take k, t.queue q = f q) ∧
      SameOtherQueues (qs.take k) s t ∧ t.calls = s.calls ++ (qs.take k).map mk ∧ t.answers = s.answers.drop k := by
  induction k generalizing qs s with
  | zero => exact ⟨s, by simp, Kept.refl s, by simp, SameOtherQueues.refl _ s, by simp, by simp⟩
  | succ k ih =>
    cases qs with
    | nil => simp at hk
    | cons q qs =>
      obtain ⟨hq, nodup⟩ := List.nodup_cons.1 nodup
      have hg1 := granted_succ hg (mk q)
      have e1 := hop q (by simp) s rfl rfl hg1.1
      obtain ⟨t, he, hk, hf, ho, hc, ha⟩ := ih nodup ((s.logCall (mk q)).setQueue q (f q))
        (fun q' hq' s' h1 h2 h3 => hop q' (by simp [hq']) s' (by simpa using h1)
          (by
            have hne : q' ≠ q := fun e => hq (e ▸ hq')
            rw [h2, queue_setQueue_ne _ _ hne, queue_logCall]) h3)
        (by simpa using hk) ((granted_congr (by simp) _).2 hg1.2)
      have hq' : q ∉ qs.take k := fun h => hq (List.mem_of_mem_take h)
      refine ⟨t, by rw [untilFail, e1]; exact he, ((Kept.logCall s _).trans (Kept.setQueue _ q _)).trans hk, ?_, ?_,
        by simp [hc], by rw [ha, setQueue_answers, logCall_answers]; simp⟩
      · intro q' h'
        rw [List.take_succ_cons] at h'
        rcases List.mem_cons.1 h' with rfl | h
        · rw [ho _ hq']; simp
        · exact hf q' h
      · intro q' h'
        simp only [List.take_succ_cons, List.mem_cons, not_or] at h'
        rw [ho q' h'.2, queue_setQueue_ne _ _ h'.1, queue_logCall]

/-- Granted calls: every queue of the list gets what the primitive gives it, in order. -/
theorem untilFail_granted {op : QueueId → State → Bool × State} (mk : QueueId → Call) (f : QueueId → Queue)
    {qs : List QueueId} (nodup : qs.Nodup) (s : State)
    (hop : ∀ q ∈ qs, ∀ s' : State, s'.cfg = s.cfg → s'.queue q = s.queue q → answerOk s'.nextAnswer = true →
      op q s' = (true, (s'.logCall (mk q)).setQueue q (f q))) (hg : Granted qs.length s) :
    ∃ t, untilFail op qs s = (true, t) ∧ Kept s t ∧ (∀ q ∈ qs, t.queue q = f q) ∧ SameOtherQueues qs s t ∧
      t.calls = s.calls ++ qs.map mk ∧ t.answers = s.answers.drop qs.length := by
  obtain ⟨t, he, h⟩ := untilFail_prefix mk f nodup s hop (Nat.le_refl _) hg
  rw [List.take_length] at h
  rw [List.drop_length] at he
  exact ⟨t, he, h⟩

/-- Call number `k` fails: the queues before it have got what the primitive gives them, and nothing else changed. -/
theorem untilFail_failsAt {op : QueueId → State → Bool × State} (mk : QueueId → Call) (f : QueueId → Queue)
    {qs : List QueueId} (nodup : qs.Nodup) (s : State)
    (hop : ∀ q ∈ qs, ∀ s' : State, s'.cfg = s.cfg → s'.queue q = s.queue q →
      op q s' = if answerOk s'.nextAnswer = true then (true, (s'.logCall (mk q)).setQueue q (f q))
        else (false, s'.logCall (mk q)))
    {k : Nat} (hk : k < qs.length) (hf : FailsAt k s) :
    ∃ t, untilFail op qs s = (false, t) ∧ Kept s t ∧ (∀ q ∈ qs.take k, t.queue q = f q) ∧
      SameOtherQueues (qs.take k) s t ∧ t.calls = s.calls ++ (qs.take (k + 1)).map mk := by
  obtain ⟨t, he, ht, hq, ho, hc, ha⟩ := untilFail_prefix (op := op) mk f nodup s
    (fun q h s' h1 h2 h3 => by rw [hop q h s' h1 h2, if_pos h3]) (Nat.le_of_lt hk) hf.1
  have hn := failsAt_zero_not_ok ((failsAt_add (n := 0) ha).1 hf).2
  have hmem : qs[k] ∉ qs.take k := fun h => by
    obtain ⟨j, hj, e⟩ := List.mem_take_iff_getElem.1 h
    have := (nodup.getElem_inj_iff).1 e
    omega
  have e := hop qs[k] (List.getElem_mem hk) t ht.cfg (ho _ hmem)
  rw [if_neg hn] at e
  refine ⟨t.logCall (mk qs[k]), ?_, ht.trans (Kept.logCall _ _), fun q h => by rw [queue_logCall, hq q h],
    ho.trans (SameOtherQueues.logCall _ _ _), ?_⟩
  · rw [he, List.drop_eq_getElem_cons hk, untilFail, e]
  · rw [logCall_calls, hc, List.append_assoc, List.take_succ_eq_append_getElem hk, List.map_append]
    rfl

/-- Queues on which the primitive succeeds and does nothing take no part in the loop. -/
theorem untilFail_filter {op : QueueId → State → Bool × State} (part : QueueId → Bool) {qs : List QueueId}
    (nodup : qs.Nodup) (s : State) (hothers : ∀ q s, SameOtherQueues [q] s (op q s).2)
    (hskip : ∀ q ∈ qs, part q = false → ∀ s' : State, s'.queue q = s.queue q → op q s' = (true, s')) :
    untilFail op qs s = untilFail op (qs.filter part) s := by
  suffices h : ∀ t : State, (∀ q ∈ qs, t.queue q = s.queue q) → untilFail op qs t = untilFail op (qs.filter part) t from
    h s fun _ _ => rfl
  induction qs with
  | nil => intro t _; rfl
  | cons q qs ih =>
    intro t ht
    obtain ⟨hq, nodup⟩ := List.nodup_cons.1 nodup
    have ih := ih nodup fun q' h' => hskip q' (by simp [h'])
    by_cases hp : part q = true
    · rw [List.filter_cons_of_pos hp, untilFail, untilFail]
      have := ih (op q t).2 fun q' h' => by
        rw [hothers q t q' (by simpa using fun e : q' = q => hq (e ▸ h')), ht q' (by simp [h'])]
      generalize op q t = r at this ⊢
      obtain ⟨b, u⟩ := r
      cases b
      · rfl
      · exact this
    · rw [List.filter_cons_of_neg hp, untilFail, hskip q (by simp) (by simpa using hp) t (ht q (by simp))]
      exact ih t fun q' h' => ht q' (by simp [h'])

/-- What each application leaves in its own queue, whatever the collaborators answer. -/
theorem onEach_spec {op : QueueId → State → Bool × State} (f : Queue → Queue)
    (hkept : ∀ q s, Kept s (op q s).2) (hothers : ∀ q s, SameOtherQueues [q] s (op q s).2)
    (hqueue : ∀ q s, (op q s).2.queue q = f (s.queue q))
    (hcalls : ∀ q s, (op q s).2.calls = s.calls ++ (armed s [q]).map .linkDisable)
    (hok : ∀ q s, (armed s [q]).length ≤ s.answers.length → ((op q s).1 = true ↔ Granted (armed s [q]).length s))
    (hans : ∀ q s, (op q s).2.answers = s.answers.drop (armed s [q]).length)
    {qs : List QueueId} (nodup : qs.Nodup) (s : State) :
    Kept s (onEach op qs s).2 ∧ (∀ q ∈ qs, (onEach op qs s).2.queue q = f (s.queue q)) ∧
    SameOtherQueues qs s (onEach op qs s).2 ∧
    (onEach op qs s).2.calls = s.calls ++ (armed s qs).map .linkDisable ∧
    ((armed s qs).length ≤ s.answers.length → ((onEach op qs s).1 = true ↔ Granted (armed s qs).length s)) ∧
    (onEach op qs s).2.answers = s.answers.drop (armed s qs).length := by
  induction qs generalizing s with
  | nil =>
    exact ⟨Kept.refl s, by simp, SameOtherQueues.refl _ s, by simp [onEach, armed],
      fun _ => ⟨fun _ => granted_zero s, fun _ => rfl⟩, by simp [armed, onEach]⟩
  | cons q qs ih =>
    obtain ⟨hq, nodup⟩ := List.nodup_cons.1 nodup
    obtain ⟨hk, hf, ho, hc, hg, ha⟩ := ih nodup (op q s).2
    have same : ∀ q' ∈ qs, (op q s).2.queue q' = s.queue q' := fun q' h =>
      hothers q s q' (by simpa using fun e : q' = q => hq (e ▸ h))
    have harmed : armed (op q s).2 qs = armed s qs :=
      List.filter_congr fun q' h => by rw [same q' h]
    have hsplit : armed s (q :: qs) = armed s [q] ++ armed s qs := by
      rw [armed, armed, armed, ← List.filter_append]; rfl
    rw [harmed] at hg ha
    refine ⟨(hkept q s).trans hk, ?_, ?_, ?_, ?_, ?_⟩
    · intro q' hq'
      rcases List.mem_cons.1 hq' with rfl | h
      · rw [onEach, ho _ hq, hqueue]
      · rw [onEach, hf q' h, same q' h]
    · intro q' hq'
      simp only [List.mem_cons, not_or] at hq'
      rw [onEach, ho q' hq'.2, hothers q s q' (by simpa using hq'.1)]
    · rw [onEach, hc, hcalls, harmed, hsplit]; simp
    · intro hlen
      rw [hsplit, List.length_append] at hlen ⊢
      rw [granted_add (hans q s), onEach, Bool.and_eq_true, hok q s (by omega),
        hg (by rw [hans, List.length_drop]; omega)]
    · rw [onEach, ha, hans, List.drop_drop, hsplit, List.length_append]

theorem teStop_ok (q : QueueId) (s : State) (h : (armed s [q]).length ≤ s.answers.length) :
    (teStop q s).1 = true ↔ Granted (armed s [q]).length s := by
  obtain ⟨hi, e⟩ | ⟨hi, e⟩ := teStop_cases q s
  · rw [e]
    simp [armed, hi, granted_zero]
  · rw [e, show armed s [q] = [q] by simp [armed, hi]] at *
    cases ha : s.answers with
    | nil => simp [ha] at h
    | cons a rest => simp [Granted, ha, nextAnswer_cons s a rest ha]

theorem teStop_answers (q : QueueId) (s : State) :
    (teStop q s).2.answers = s.answers.drop (armed s [q]).length := by
  obtain ⟨hi, e⟩ | ⟨hi, e⟩ := teStop_cases q s <;> simp [e, armed, hi, logCall_answers]

/-- Stop each queue of a list. -/
theorem stopAll_spec {qs : List QueueId} (nodup : qs.Nodup) (s : State) :
    Kept s (stopAll qs s).2 ∧ (∀ q ∈ qs, (stopAll qs s).2.queue q = (s.queue q).stopped) ∧
    SameOtherQueues qs s (stopAll qs s).2 ∧
    (stopAll qs s).2.calls = s.calls ++ (armed s qs).map .linkDisable ∧
    ((armed s qs).length ≤ s.answers.length → ((stopAll qs s).1 = true ↔ Granted (armed s qs).length s)) ∧
    (stopAll qs s).2.answers = s.answers.drop (armed s qs).length :=
  onEach_spec Queue.stopped teStop_kept teStop_others teStop_queue teStop_calls teStop_ok teStop_answers nodup s

/-- Stop each queue of a list and discard its descriptor. -/
theorem stopAndDiscardAll_spec {qs : List QueueId} (nodup : qs.Nodup) (s : State) :
    Kept s (stopAndDiscardAll qs s).2 ∧
    (∀ q ∈ qs, (stopAndDiscardAll qs s).2.queue q = { (s.queue q).stopped with td := 0 }) ∧
    SameOtherQueues qs s (stopAndDiscardAll qs s).2 ∧
    (stopAndDiscardAll qs s).2.calls = s.calls ++ (armed s qs).map .linkDisable ∧
    ((armed s qs).length ≤ s.answers.length →
      ((stopAndDiscardAll qs s).1 = true ↔ Granted (armed s qs).length s)) ∧
    (stopAndDiscardAll qs s).2.answers = s.answers.drop (armed s qs).length :=
  onEach_spec (fun v => { v.stopped with td := 0 }) stopAndDiscard_kept stopAndDiscard_others stopAndDiscard_queue
    (fun q s => by simp [stopAndDiscard, teStop_calls]) teStop_ok
    (fun q s => by rw [← teStop_answers]; simp [stopAndDiscard]) nodup s

/-- TE.Start of a queue that is ready. -/
theorem teStart_ready {q : QueueId} {base : Word} {count : Nat} {s : State} (h1 : 1 ≤ count) (h2 : count ≤ 65535)
    (hv : tdValid (s.queue q).td = true) (hi : (s.queue q).st = .idle) :
    teStart q base count s =
      if answerOk s.nextAnswer = true then
        (true, (s.logCall (.linkEnable q)).setQueue q ((s.queue q).started base count))
      else (false, s.logCall (.linkEnable q)) := by
  obtain ⟨h, -⟩ | ⟨-, -, -, -, h⟩ := teStart_cases q base count s
  · exfalso
    rcases h with h | h | h | h
    · omega
    · omega
    · rw [hv] at h; cases h
    · exact h hi
  · exact h

/-- The first `k` starts granted: the first `k` queues are armed, and the loop goes on from there. -/
theorem startAll_prefix {count : Nat} (h1 : 1 ≤ count) (h2 : count ≤ 65535) (done : List QueueId)
    {todo : List (QueueId × Word)} (nodup : (todo.map (·.1)).Nodup) (s : State)
    (hready : ∀ x ∈ todo, tdValid (s.queue x.1).td = true ∧ (s.queue x.1).st = .idle)
    {k : Nat} (hk : k ≤ todo.length) (hg : Granted k s) :
    ∃ t, startAll count done todo s = startAll count (done ++ (todo.take k).map (·.1)) (todo.drop k) t ∧ Kept s t ∧
      (∀ x ∈ todo.take k, t.queue x.1 = (s.queue x.1).started x.2 count) ∧
      SameOtherQueues ((todo.take k).map (·.1)) s t ∧
      t.calls = s.calls ++ (todo.take k).map (fun x => .linkEnable x.1) ∧ t.answers = s.answers.drop k := by
  induction k generalizing todo s done with
  | zero => exact ⟨s, by simp, Kept.refl s, by simp, SameOtherQueues.refl _ s, by simp, by simp⟩
  | succ k ih =>
    cases todo with
    | nil => simp at hk
    | cons x todo =>
      obtain ⟨q, base⟩ := x
      rw [List.map_cons] at nodup
      obtain ⟨hq, nodup⟩ := List.nodup_cons.1 nodup
      have hr := hready (q, base) (by simp)
      have hg1 := granted_succ hg (.linkEnable q)
      have e1 := teStart_ready (base := base) h1 h2 hr.1 hr.2
      rw [if_pos hg1.1] at e1
      have hne : ∀ x ∈ todo, x.1 ≠ q := fun x hx e => hq (List.mem_map.2 ⟨x, hx, e⟩)
      obtain ⟨t, he, ht, hf, ho, hc, ha⟩ := ih (done ++ [q]) nodup
        ((s.logCall (.linkEnable q)).setQueue q ((s.queue q).started base count))
        (fun x hx => by
          rw [queue_setQueue_ne _ _ (hne x hx), queue_logCall]
          exact hready x (by simp [hx]))
        (by simpa using hk) ((granted_congr (by simp) _).2 hg1.2)
      have hq' : q ∉ (todo.take k).map (·.1) := fun h => by
        obtain ⟨x, hx, e⟩ := List.mem_map.1 h
        exact hne x (List.mem_of_mem_take hx) e
      refine ⟨t, by rw [startAll, e1]; simpa using he, ((Kept.logCall s _).trans (Kept.setQueue _ q _)).trans ht, ?_, ?_,
        by simp [hc], by rw [ha, setQueue_answers, logCall_answers]; simp⟩
      · intro x hx
        rw [List.take_succ_cons] at hx
        rcases List.mem_cons.1 hx with rfl | h
        · rw [ho _ hq']; simp
        · rw [hf x h, queue_setQueue_ne _ _ (hne x (List.mem_of_mem_take h)), queue_logCall]
      · intro q' h'
        simp only [List.take_succ_cons, List.map_cons, List.mem_cons, not_or] at h'
        rw [ho q' h'.2, queue_setQueue_ne _ _ h'.1, queue_logCall]

/-- Start each queue, all calls granted. -/
theorem startAll_granted {count : Nat} (h1 : 1 ≤ count) (h2 : count ≤ 65535) (done : List QueueId)
    {todo : List (QueueId × Word)} (nodup : (todo.map (·.1)).Nodup) (s : State)
    (hready : ∀ x ∈ todo, tdValid (s.queue x.1).td = true ∧ (s.queue x.1).st = .idle)
    (hg : Granted todo.length s) :
    ∃ t, startAll count done todo s = (true, t) ∧ Kept s t ∧
      (∀ x ∈ todo, t.queue x.1 = (s.queue x.1).started x.2 count) ∧ SameOtherQueues (todo.map (·.1)) s t ∧
      t.calls = s.calls ++ todo.map (fun x => .linkEnable x.1) ∧ t.answers = s.answers.drop todo.length := by
  obtain ⟨t, he, h⟩ := startAll_prefix h1 h2 done nodup s hready (Nat.le_refl _) hg
  rw [List.take_length] at h
  rw [List.drop_length, startAll] at he
  exact ⟨t, he, h⟩

/-- Start number `k` refused: the queues before it are stopped again, and nothing else changed. -/
theorem startAll_failsAt {count : Nat} (h1 : 1 ≤ count) (h2 : count ≤ 65535)
    {todo : List (QueueId × Word)} (nodup : (todo.map (·.1)).Nodup) (s : State)
    (hready : ∀ x ∈ todo, tdValid (s.queue x.1).td = true ∧ (s.queue x.1).st = .idle)
    {k : Nat} (hk : k < todo.length) (hf : FailsAt k s) :
    ∃ t, startAll count [] todo s = (false, t) ∧ Kept s t ∧
      (∀ x ∈ todo.take k, t.queue x.1 = ((s.queue x.1).started x.2 count).stopped) ∧
      SameOtherQueues ((todo.take k).map (·.1)) s t ∧
      t.calls = s.calls ++ (todo.take (k + 1)).map (fun x => .linkEnable x.1)
        ++ (todo.take k).map (fun x => .linkDisable x.1) := by
  obtain ⟨u, he, hu, hq, ho, hc, ha⟩ := startAll_prefix h1 h2 [] nodup s hready (Nat.le_of_lt hk) hf.1
  have hn := failsAt_zero_not_ok ((failsAt_add (n := 0) ha).1 hf).2
  have hmem : todo[k].1 ∉ (todo.take k).map (·.1) := fun h => by
    rw [List.map_take] at h
    obtain ⟨j, hj, e⟩ := List.mem_take_iff_getElem.1 h
    have := (nodup.getElem_inj_iff (i := j) (j := k) (hi := by simp at hj ⊢; omega) (hj := by simpa using hk)).1
      (by simpa using e)
    omega
  have hr := hready _ (List.getElem_mem hk)
  have e := teStart_ready (q := todo[k].1) (base := todo[k].2) (s := u) h1 h2 (by rw [ho _ hmem]; exact hr.1)
    (by rw [ho _ hmem]; exact hr.2)
  rw [if_neg hn] at e
  have nd : ((todo.take k).map (·.1)).Nodup := by rw [List.map_take]; exact nodup.take
  obtain ⟨sk, sq, so, sc, -, -⟩ := stopAll_spec nd (u.logCall (.linkEnable todo[k].1))
  have harmed : armed (u.logCall (.linkEnable todo[k].1)) ((todo.take k).map (·.1)) = (todo.take k).map (·.1) := by
    refine List.filter_eq_self.2 fun q hm => ?_
    obtain ⟨x, hx, rfl⟩ := List.mem_map.1 hm
    rw [queue_logCall, hq x hx]
    rfl
  refine ⟨_, ?_, (hu.trans (Kept.logCall _ _)).trans sk, fun x hx => ?_, (ho.trans (SameOtherQueues.logCall _ _ _)).trans so,
    ?_⟩
  · rw [he, List.drop_eq_getElem_cons hk, startAll, e]
    rfl
  · rw [sq x.1 (List.mem_map.2 ⟨x, hx, rfl⟩), queue_logCall, hq x hx]
  · rw [sc, logCall_calls, hc, harmed, List.take_succ_eq_append_getElem hk, List.map_append, List.map_map]
    simp only [List.append_assoc]
    rfl

/-- Starting a list of queues fails only by leaving every queue it started, and every queue of the list that was idle,
idle. -/
theorem startAll_failed {count : Nat} {done : List QueueId} {todo : List (QueueId × Word)} {s : State}
    (h : (startAll count done todo s).1 = false) :
    ∀ q, (q ∈ done ∨ (s.queue q).st = .idle) → ((startAll count done todo s).2.queue q).st = .idle := by
  induction todo generalizing s done with
  | nil => simp [startAll] at h
  | cons x todo ih =>
    obtain ⟨q, base⟩ := x
    intro q' hq'
    unfold startAll at h ⊢
    split at h
    next s1 he =>
      refine ih h q' ?_
      by_cases e : q' = q
      · exact .inl (by simp [e])
      · rcases hq' with h1 | h1
        · exact .inl (by simp [h1])
        · have := (teStart_primitive q base count s).others q' (by simpa using e)
          rw [he] at this
          exact .inr (by rw [this, h1])
    next s1 he =>
      have keep : ∀ (qs : List QueueId) (u : State), (u.queue q').st = .idle →
          ((stopAll qs u).2.queue q').st = .idle := fun qs u hu =>
        onEach_keeps (P := fun u => (u.queue q').st = .idle) (fun q'' _ u hu => by
          by_cases e : q' = q''
          · subst e; rw [teStop_queue]; rfl
          · rw [teStop_others q'' u q' (by simpa using e), hu]) u hu
      have stops : ∀ (qs : List QueueId) (u : State), q' ∈ qs → ((stopAll qs u).2.queue q').st = .idle := by
        intro qs
        induction qs with
        | nil => simp
        | cons a qs ihq =>
          intro u hu
          rcases List.mem_cons.1 hu with rfl | hm
          · exact keep qs _ (by rw [teStop_queue]; rfl)
          · exact ihq _ hm
      rcases hq' with h1 | h1
      · exact stops done s1 h1
      · refine keep done s1 ?_
        obtain ⟨-, e⟩ | ⟨-, -, -, -, e⟩ := teStart_cases q base count s
        · rw [e] at he; cases he; exact h1
        · rw [e] at he
          split at he
          · cases he
          · cases he; simpa using h1

end Sys2Proof.Machine
end

