-- ==== Sys2Proof/Laws/Bodies.lean ====
section
/-! SUPPORT. What the steps of each command can do, beside its writes to the instance registers: `Steps` says it once
for every sequence of collaborator calls and primitives, and one lemma per command body builds on it. -/

namespace Sys2Proof.Machine

/-- Collaborator calls and primitives on queues the instance reaches, in any number and order. -/
structure Steps (d : Dir) (i : Idx) (s t : State) : Prop where
  kept : Kept s t
  others : ∀ q, ¬Reaches s.cfg d i q → t.queue q = s.queue q
  changes : ∀ q, Relation.ReflTransGen (QueueChange s.cfg q) (s.queue q) (t.queue q)
  calls : s.calls <+: t.calls

theorem Steps.refl (d : Dir) (i : Idx) (s : State) : Steps d i s s :=
  ⟨Kept.refl s, fun _ _ => rfl, fun _ => .refl, List.prefix_refl _⟩

theorem Steps.trans {d : Dir} {i : Idx} {s t u : State} (h : Steps d i s t) (k : Steps d i t u) : Steps d i s u :=
  ⟨h.kept.trans k.kept,
    fun q hq => by rw [k.others q (by rwa [h.kept.cfg]), h.others q hq],
    fun q => (h.changes q).trans (by have := k.changes q; rwa [h.kept.cfg] at this),
    h.calls.trans k.calls⟩

theorem Steps.logCall (d : Dir) (i : Idx) (s : State) (c : Call) : Steps d i s (s.logCall c) :=
  ⟨Kept.logCall s c, fun q _ => by simp, fun q => by rw [queue_logCall], by simp⟩

theorem Steps.primitive {d : Dir} {i : Idx} {q : QueueId} {s t : State} (hq : Reaches s.cfg d i q)
    (h : Primitive q s t) : Steps d i s t :=
  ⟨h.kept, fun q' hq' => h.others q' (by simpa using fun e : q' = q => hq' (e ▸ hq)),
    fun q' => by
      by_cases e : q' = q
      · subst e; exact .single h.change
      · rw [h.others q' (by simpa using e)],
    h.calls⟩

theorem Steps.inst {d : Dir} {i : Idx} {s t : State} (h : Steps d i s t) (d' : Dir) (i' : Idx) :
    t.inst d' i' = s.inst d' i' := h.kept.inst d' i'

/-! ### Loops -/

theorem untilFail_steps {op : QueueId → State → Bool × State} {d : Dir} {i : Idx} {qs : List QueueId} (s : State)
    (hop : ∀ q ∈ qs, ∀ t : State, t.cfg = s.cfg → Primitive q t (op q t).2) (h : ∀ q ∈ qs, Reaches s.cfg d i q) :
    Steps d i s (untilFail op qs s).2 :=
  untilFail_keeps (P := Steps d i s)
    (fun q hq t ht => ht.trans (.primitive (by rw [ht.kept.cfg]; exact h q hq) (hop q hq t ht.kept.cfg)))
    s (.refl d i s)

theorem onEach_steps {op : QueueId → State → Bool × State} (hop : ∀ q s, Primitive q s (op q s).2) {d : Dir} {i : Idx}
    {qs : List QueueId} (s : State) (h : ∀ q ∈ qs, Reaches s.cfg d i q) : Steps d i s (onEach op qs s).2 :=
  onEach_keeps (P := Steps d i s)
    (fun q hq t ht => ht.trans (.primitive (by rw [ht.kept.cfg]; exact h q hq) (hop q t))) s (.refl d i s)

theorem startAll_steps {d : Dir} {i : Idx} {count : Nat} {todo : List (QueueId × Word)} (s : State)
    (h : ∀ x ∈ todo, Reaches s.cfg d i x.1) : Steps d i s (startAll count [] todo s).2 :=
  startAll_keeps (P := Steps d i s)
    (fun x hx t ht => ht.trans (.primitive (by rw [ht.kept.cfg]; exact h x hx) (teStart_primitive x.1 x.2 count t)))
    (fun q hq t ht => ht.trans (.primitive (by
      obtain ⟨x, hx, rfl⟩ := List.mem_map.1 (by rw [← List.nil_append (todo.map _)]; exact hq)
      rw [ht.kept.cfg]; exact h x hx) (teStop_primitive q t))) s (.refl d i s)

theorem reconfigure_steps (d : Dir) (i : Idx) (dev : Word) (bits : BitVec 6) (s : State) :
    Steps d i s (reconfigure d i dev bits s).2 :=
  untilFail_steps s
    (fun _ hq t hc => teConfigure_primitive t (by
      rw [hc]; exact configured_descriptor (reaches_of_configuredQueues hq) bits))
    fun _ h => reaches_of_configuredQueues h

/-- Only descriptors of queues the instance reaches, and `BUILT`, differ; each descriptor is the old one or the one
`TE.Configure` writes for that width. -/
def Rebuilt (d : Dir) (i : Idx) (bits : BitVec 6) (s t : State) : Prop :=
  ∀ q, ∃ td built, t.queue q = { s.queue q with td := td, built := built } ∧
    (td = (s.queue q).td ∨ Reaches s.cfg d i q ∧ td = descriptor s.cfg q (flowOf d) (elementWidth s.cfg d i bits))

theorem Rebuilt.of_eq {d : Dir} {i : Idx} {bits : BitVec 6} {s t : State} (h : ∀ q, t.queue q = s.queue q) :
    Rebuilt d i bits s t := fun q => ⟨(s.queue q).td, (s.queue q).built, h q, .inl rfl⟩

theorem Rebuilt.congr {d : Dir} {i : Idx} {bits : BitVec 6} {s s' t t' : State} (h : Rebuilt d i bits s t)
    (hc : s'.cfg = s.cfg) (hs : ∀ q, s'.queue q = s.queue q) (ht : ∀ q, t'.queue q = t.queue q) :
    Rebuilt d i bits s' t' := fun q => by rw [ht, hs, hc]; exact h q

/-- A reconfiguration changes no queue but its descriptor and `BUILT`. -/
theorem reconfigure_rebuilt (d : Dir) (i : Idx) (dev : Word) (bits : BitVec 6) (s : State) :
    Rebuilt d i bits s (reconfigure d i dev bits s).2 :=
  (untilFail_keeps (P := fun t => t.cfg = s.cfg ∧ Rebuilt d i bits s t)
    (fun q' hq' t ht => by
      obtain ⟨hc, h⟩ := ht
      refine ⟨by rw [teConfigure_cfg, hc], fun q => ?_⟩
      obtain ⟨td, b, he, ht⟩ := h q
      simp only [teConfigure_eq]
      split
      · by_cases e : q = q'
        · subst e
          exact ⟨_, _, by rw [queue_setQueue_same, he, hc], .inr ⟨reaches_of_configuredQueues hq', rfl⟩⟩
        · exact ⟨td, b, by rw [queue_setQueue_ne _ _ e, queue_logCall, he], ht⟩
      · exact ⟨td, b, by rw [queue_logCall, he], ht⟩)
    s ⟨rfl, .of_eq fun _ => rfl⟩).2

/-- A queue already rebuilt stays so while the loop goes on. -/
theorem configureAll_td (flow : Flow) (w : Nat) (qs : List QueueId) (s : State) (q : QueueId) :
    ((configureAll flow w qs s).2.queue q).td = (s.queue q).td ∨
    ((configureAll flow w qs s).2.queue q).td = descriptor s.cfg q flow w :=
  (untilFail_keeps (P := fun t => t.cfg = s.cfg ∧
      ((t.queue q).td = (s.queue q).td ∨ (t.queue q).td = descriptor s.cfg q flow w))
    (fun q' _ t ht => by
      refine ⟨by rw [teConfigure_cfg, ht.1], ?_⟩
      simp only [teConfigure_eq]
      split
      · by_cases e : q = q'
        · subst e
          exact .inr (by rw [queue_setQueue_same, ht.1])
        · rw [queue_setQueue_ne _ _ e, queue_logCall]; exact ht.2
      · rw [queue_logCall]; exact ht.2)
    s ⟨rfl, .inl rfl⟩).2

/-- A reconfiguration that succeeds has rebuilt every queue of the list. -/
theorem configureAll_ok {flow : Flow} {w : Nat} {qs : List QueueId} {s : State}
    (h : (configureAll flow w qs s).1 = true) :
    ∀ q ∈ qs, ((configureAll flow w qs s).2.queue q).td = descriptor s.cfg q flow w := by
  induction qs generalizing s with
  | nil => simp
  | cons a qs ih =>
    intro q hq
    simp only [configureAll, untilFail, teConfigure_eq] at h ⊢
    by_cases ha : answerOk s.nextAnswer = true
    · simp only [ha, if_true] at h ⊢
      rcases List.mem_cons.1 hq with rfl | hm
      · obtain ht | ht := configureAll_td flow w qs ((s.logCall (.linkConfigure q flow w)).setQueue q
          { s.queue q with td := descriptor s.cfg q flow w, built := (s.queue q).built || (queueCfg s.cfg q).list }) q
        all_goals
          rw [configureAll] at ht
          rw [ht]
          simp
      · have := ih h q hm
        simpa [configureAll] using this
    · simp [ha] at h

theorem reconfigure_ok {d : Dir} {i : Idx} {dev : Word} {bits : BitVec 6} {s : State}
    (h : (reconfigure d i dev bits s).1 = true) :
    ∀ q ∈ configuredQueues s.cfg d i dev,
      ((reconfigure d i dev bits s).2.queue q).td = descriptor s.cfg q (flowOf d) (elementWidth s.cfg d i bits) :=
  configureAll_ok h

/-- A reconfiguration with every call granted. -/
theorem reconfigure_granted {d : Dir} {i : Idx} {dev : Word} {bits : BitVec 6} {s : State}
    (hg : Granted (configuredQueues s.cfg d i dev).length s) :
    ∃ t, reconfigure d i dev bits s = (true, t) ∧ Kept s t ∧
      (∀ q ∈ configuredQueues s.cfg d i dev, t.queue q = rebuiltFor s d i bits q) ∧
      SameOtherQueues (configuredQueues s.cfg d i dev) s t ∧
      t.calls = s.calls ++ (configuredQueues s.cfg d i dev).map
        (fun q => .linkConfigure q (flowOf d) (elementWidth s.cfg d i bits)) ∧
      t.answers = s.answers.drop (configuredQueues s.cfg d i dev).length :=
  untilFail_granted (fun q => .linkConfigure q (flowOf d) (elementWidth s.cfg d i bits)) (rebuiltFor s d i bits)
    (configuredQueues_nodup _ _ _ _) s
    (fun q _ s' hc hq ha => by rw [teConfigure_eq, if_pos ha, hc, hq, rebuiltFor]) hg

/-- A reconfiguration whose call number `k` fails. -/
theorem reconfigure_failsAt {d : Dir} {i : Idx} {dev : Word} {bits : BitVec 6} {s : State} {k : Nat}
    (hk : k < (configuredQueues s.cfg d i dev).length) (hf : FailsAt k s) :
    ∃ t, reconfigure d i dev bits s = (false, t) ∧ Kept s t ∧
      (∀ q ∈ (configuredQueues s.cfg d i dev).take k, t.queue q = rebuiltFor s d i bits q) ∧
      SameOtherQueues ((configuredQueues s.cfg d i dev).take k) s t ∧
      t.calls = s.calls ++ ((configuredQueues s.cfg d i dev).take (k + 1)).map
        (fun q => .linkConfigure q (flowOf d) (elementWidth s.cfg d i bits)) :=
  untilFail_failsAt (fun q => .linkConfigure q (flowOf d) (elementWidth s.cfg d i bits)) (rebuiltFor s d i bits)
    (configuredQueues_nodup _ _ _ _) s
    (fun q _ s' hc hq => by rw [teConfigure_eq, hc, hq, rebuiltFor]) hk hf

/-! ### Codec calls -/

theorem codecOr_steps (d : Dir) (i : Idx) (mk : Idx → Call) (e : Status) (s : State) :
    Steps d i s (codecOr d i mk e s).state := by
  obtain h | ⟨c, h⟩ := codecOr_state d i mk e s <;> rw [h]
  · exact .refl d i s
  · exact .logCall d i s _

theorem codecOr_queue (d : Dir) (i : Idx) (mk : Idx → Call) (e : Status) (s : State) (q : QueueId) :
    (codecOr d i mk e s).state.queue q = s.queue q := by
  obtain h | ⟨c, h⟩ := codecOr_state d i mk e s <;> rw [h]
  exact queue_logCall s _ q

theorem codecTry_steps (d : Dir) (i : Idx) (mk : Idx → Call) (s : State) : Steps d i s (codecTry d i mk s).2 := by
  unfold codecTry
  split
  · exact .refl d i s
  · exact .logCall d i s _

theorem codecTry_queue (d : Dir) (i : Idx) (mk : Idx → Call) (s : State) (q : QueueId) :
    (codecTry d i mk s).2.queue q = s.queue q := by
  unfold codecTry
  split
  · rfl
  · exact queue_logCall s _ q

/-! ### What a result can be -/

/-- The two ends of a sequence of steps, each with what holds of it. -/
def Res.Sat (r : Res) (D : State → Prop) (R : Status → State → Prop) : Prop :=
  match r with
  | .done s => D s
  | .raised e s => R e s

theorem andThen_sat {r : Res} {f : State → Res} {D D' : State → Prop} {R : Status → State → Prop} (h : r.Sat D R)
    (hf : ∀ s, D s → (f s).Sat D' R) : (r.andThen f).Sat D' R := by
  cases r with
  | done s => exact hf s h
  | raised e s => exact h

theorem Res.Sat.imp {r : Res} {D D' : State → Prop} {R R' : Status → State → Prop} (h : r.Sat D R)
    (hd : ∀ s, D s → D' s) (hr : ∀ e s, R e s → R' e s) : r.Sat D' R' := by
  cases r with
  | done s => exact hd s h
  | raised e s => exact hr e s h

/-- A kind that a collaborator's failure gives, never a check (60_exceptions.md R271). -/
def Status.late : Status → Bool
  | .ok => false
  | .wrongParam => false
  | .busy => false
  | .featureNotSupported => false
  | _ => true

theorem callOr_sat (c : Call) (e : Status) (s : State) :
    (callOr c e s).Sat (fun t => t = s.logCall c) (fun e' t => e' = e ∧ t = s.logCall c) := by
  rw [callOr_eq]
  split
  · rfl
  · exact ⟨rfl, rfl⟩

/-- A call on the codec, if there is one. -/
theorem codecOr_sat (d : Dir) (i : Idx) (mk : Idx → Call) (e : Status) (s : State) :
    (codecOr d i mk e s).Sat (fun t => Steps d i s t ∧ ∀ q, t.queue q = s.queue q)
      (fun e' t => e' = e ∧ Steps d i s t ∧ ∀ q, t.queue q = s.queue q) := by
  unfold codecOr
  split
  · exact ⟨.refl d i s, fun _ => rfl⟩
  · exact (callOr_sat _ e s).imp (fun t h => h ▸ ⟨.logCall d i s _, fun q => queue_logCall s _ q⟩)
      (fun e' t h => ⟨h.1, h.2 ▸ ⟨.logCall d i s _, fun q => queue_logCall s _ q⟩⟩)

theorem reconfigure_sat (d : Dir) (i : Idx) (dev : Word) (bits : BitVec 6) (s : State) :
    (okOr (reconfigure d i dev bits s) .periphFailure).Sat
      (fun t => Steps d i s t ∧ Rebuilt d i bits s t ∧ ∀ q ∈ configuredQueues s.cfg d i dev,
        (t.queue q).td = descriptor s.cfg q (flowOf d) (elementWidth s.cfg d i bits))
      (fun e t => e = .periphFailure ∧ Steps d i s t ∧ Rebuilt d i bits s t) := by
  rw [okOr_eq]
  split
  next h => exact ⟨reconfigure_steps d i dev bits s, reconfigure_rebuilt d i dev bits s, reconfigure_ok h⟩
  next h => exact ⟨rfl, reconfigure_steps d i dev bits s, reconfigure_rebuilt d i dev bits s⟩

/-! ### Power -/

theorem Steps.setPower {d : Dir} {i : Idx} {s t : State} (h : Steps d i s t) (c : Idx) (b : Bool) :
    Steps d i (s.setPower c b) (t.setPower c b) := by
  obtain ⟨⟨h1, h2, h3, h4, h5, h6, h7, h8, h9, h10, h11, h12, h13, h14, h15, h16⟩, ho, hch, hc⟩ := h
  refine ⟨?_, fun q hq => ?_, fun q => ?_, hc⟩
  · constructor <;> simp_all [State.setPower]
  · simpa using ho q (by simpa using hq)
  · simpa using hch q

/-- The codec of the instance is as it was, or was switched to `on`. -/
def Powered (d : Dir) (i : Idx) (on : Bool) (s s0 : State) : Prop :=
  s0 = s ∨ ∃ c, codecOf s.cfg d i = some c ∧ s0 = s.setPower c on

theorem Powered.cfg {d : Dir} {i : Idx} {on : Bool} {s s0 : State} (h : Powered d i on s s0) : s0.cfg = s.cfg := by
  obtain rfl | ⟨c, -, rfl⟩ := h <;> rfl

theorem Powered.queue {d : Dir} {i : Idx} {on : Bool} {s s0 : State} (h : Powered d i on s s0) (q : QueueId) :
    s0.queue q = s.queue q := by
  obtain rfl | ⟨c, -, rfl⟩ := h
  · rfl
  · exact queue_setPower s c on q

theorem Powered.inst {d : Dir} {i : Idx} {on : Bool} {s s0 : State} (h : Powered d i on s s0) (d' : Dir) (i' : Idx) :
    s0.inst d' i' = s.inst d' i' := by
  obtain rfl | ⟨c, -, rfl⟩ := h
  · rfl
  · exact inst_setPower s c on d' i'

theorem setPower_get (s : State) (c c' : Idx) (b : Bool) : (s.setPower c b).power[c'] = if c' = c then b else s.power[c'] := by
  by_cases h : c' = c
  · subst h; simp [State.setPower]
  · have : c.val ≠ c'.val := fun e => h (Fin.ext e.symm)
    simp [State.setPower, h, this]

/-- The power-up of INIT: some calls, and when it is done the codec is on. -/
theorem powerUpIfOff_sat (d : Dir) (i : Idx) (s : State) :
    (powerUpIfOff d i s).Sat
      (fun t => ∃ s0, Powered d i true s s0 ∧ Steps d i s0 t ∧ (∀ q, t.queue q = s.queue q) ∧
        ∀ c : Idx, codecOf s.cfg d i = some c → t.power[c] = true)
      (fun e t => e.late = true ∧ Steps d i s t ∧ ∀ q, t.queue q = s.queue q) := by
  unfold powerUpIfOff
  split
  next h => exact ⟨s, .inl rfl, .refl d i s, fun _ => rfl, fun c hc => by simp [h] at hc⟩
  next c h =>
    split
    next hp =>
      exact ⟨s, .inl rfl, .refl d i s, fun _ => rfl, fun c' hc' => by cases h.symm.trans hc'; exact hp⟩
    next hp =>
      have s3 := ((Steps.logCall d i s (.busInit c)).trans (.logCall d i _ (.codecReset c))).trans
        (.logCall d i _ (.codecReadId c))
      unfold powerUp
      refine andThen_sat ((callOr_sat _ _ s).imp (fun _ h => h) fun e t h => ?_) fun t ht => ?_
      · obtain ⟨rfl, rfl⟩ := h
        exact ⟨rfl, .logCall d i s _, fun q => queue_logCall s _ q⟩
      · subst ht
        simp only
        split
        · exact ⟨rfl, s3, fun q => by simp⟩
        · split
          · refine ⟨_, .inr ⟨c, h, rfl⟩, s3.setPower c true, fun q => by simp, fun c' hc' => ?_⟩
            cases h.symm.trans hc'
            rw [setPower_get, if_pos rfl]
          · exact ⟨rfl, s3, fun q => by simp⟩

/-! ### The bodies of the lifecycle commands -/

/-- INIT up to its last line, whatever came of it. -/
structure InitWork (d : Dir) (i : Idx) (bits : BitVec 6) (s t : State) : Prop where
  steps : ∃ s0, Powered d i true s s0 ∧ Steps d i s0 t
  rebuilt : Rebuilt d i bits s t

theorem initBody_sat (d : Dir) (i : Idx) (dev rate : Word) (bits : BitVec 6) (ch : BitVec 2) (vol : BitVec 7)
    (s : State) :
    (initBody d i dev rate bits ch vol s).Sat
      (fun t => ∃ u, InitWork d i bits s u ∧ (∀ c : Idx, codecOf s.cfg d i = some c → u.power[c] = true) ∧
        (∀ q ∈ configuredQueues s.cfg d i dev,
          (u.queue q).td = descriptor s.cfg q (flowOf d) (elementWidth s.cfg d i bits)) ∧
        t = u.setInst d i ((s.inst d i).created dev rate bits ch vol))
      (fun e t => e.late = true ∧ InitWork d i bits s t) := by
  unfold initBody
  refine andThen_sat ((powerUpIfOff_sat d i s).imp (fun _ h => h) fun e t h =>
    ⟨h.1, ⟨s, .inl rfl, h.2.1⟩, .of_eq h.2.2⟩) ?_
  rintro v ⟨s0, hp, st, hq, hon⟩
  have hc : v.cfg = s.cfg := by rw [st.kept.cfg, hp.cfg]
  refine andThen_sat (D := fun t => t = v.logCall (.clockConfig d i rate))
    ((callOr_sat _ _ v).imp (fun _ h => h) fun e t h => ?_) ?_
  · obtain ⟨rfl, rfl⟩ := h
    exact ⟨rfl, ⟨s0, hp, st.trans (.logCall d i v _)⟩, .of_eq fun q => by rw [queue_logCall, hq]⟩
  rintro v1 rfl
  have st1 := st.trans (.logCall d i v (.clockConfig d i rate))
  refine andThen_sat (D := fun t => Steps d i s0 t ∧ Rebuilt d i bits s t ∧ ∀ q ∈ configuredQueues s.cfg d i dev,
        (t.queue q).td = descriptor s.cfg q (flowOf d) (elementWidth s.cfg d i bits))
    ((reconfigure_sat d i dev bits _).imp (fun t h => ?_) fun e t h => ?_) ?_
  · refine ⟨st1.trans h.1, h.2.1.congr (by simp [hc]) (by simp [hq]) fun _ => rfl, ?_⟩
    simpa [hc] using h.2.2
  · obtain ⟨rfl, h1, h2⟩ := h
    exact ⟨rfl, ⟨s0, hp, st1.trans h1⟩, h2.congr (by simp [hc]) (by simp [hq]) fun _ => rfl⟩
  rintro w ⟨st2, hr, hd⟩
  refine andThen_sat (D := fun t => Steps d i w t ∧ ∀ q, t.queue q = w.queue q)
    ((codecOr_sat d i _ _ w).imp (fun _ h => h) fun e t h => ?_) ?_
  · obtain ⟨rfl, h1, h2⟩ := h
    exact ⟨rfl, ⟨s0, hp, st2.trans h1⟩, hr.congr rfl (fun _ => rfl) h2⟩
  rintro u ⟨h1, h2⟩
  refine ⟨u, ⟨⟨s0, hp, st2.trans h1⟩, hr.congr rfl (fun _ => rfl) h2⟩, fun c hcc => ?_, fun q hqq => ?_, ?_⟩
  · rw [h1.kept.power, st2.kept.power, ← st.kept.power]
    exact hon c hcc
  · rw [h2, hd q hqq]
  · rw [h1.inst, st2.inst, hp.inst]

/-- What the power-down of DEINIT comes to, from the failures noted before it. -/
structure PowerDownWork (d : Dir) (i : Idx) (noted : Option Status) (s : State) (r : Option Status × State) : Prop where
  steps : ∃ s0, Powered d i false s s0 ∧ Steps d i s0 r.2 ∧ (s0 = s ∨ sibsReset s d i = true)
  queues : ∀ q, r.2.queue q = s.queue q
  calls : r.2.calls = s.calls ++
    (if lastOfCodec s d i = true then codecCalls s.cfg d i .codecDeInit ++ codecCalls s.cfg d i .busDeInit else [])
  power : ∀ c : Idx, codecOf s.cfg d i = some c → r.2.power[c] = (s.power[c] && !sibsReset s d i)
  late : (∀ e, noted = some e → e.late = true) → ∀ e, r.1 = some e → e.late = true
  first : ∀ e, noted = some e → r.1 = some e
  granted : Granted (if lastOfCodec s d i = true then 2 else 0) s → noted = none → r.1 = none
  component : lastOfCodec s d i = true → FailsAt 0 s → noted = none → r.1 = some .componentFailure
  bus : lastOfCodec s d i = true → FailsAt 1 s → noted = none → r.1 = some .busFailure

/-- No power-down. -/
theorem PowerDownWork.idle {d : Dir} {i : Idx} {noted : Option Status} {s : State} (h : lastOfCodec s d i = false)
    (hc : ∀ c : Idx, codecOf s.cfg d i = some c → s.power[c] = (s.power[c] && !sibsReset s d i)) :
    PowerDownWork d i noted s (noted, s) :=
  ⟨⟨s, .inl rfl, .refl d i s, .inl rfl⟩, fun _ => rfl, by simp [h], hc, fun k => k, fun _ hn => hn, fun _ hn => hn,
    fun hl => by simp [h] at hl, fun hl => by simp [h] at hl⟩

theorem powerDown_work {d : Dir} {i c : Idx} (noted : Option Status) {s : State} (hc : codecOf s.cfg d i = some c)
    (hp : s.power[c] = true) (hs : sibsReset s d i = true) : PowerDownWork d i noted s (powerDown c noted s) := by
  have hlast : lastOfCodec s d i = true := by simp [lastOfCodec, hc, hp, hs]
  have st := (Steps.logCall d i s (.codecDeInit c)).trans (.logCall d i _ (.busDeInit c))
  constructor
  case steps => exact ⟨s.setPower c false, .inr ⟨c, hc, rfl⟩, st.setPower c false, .inr hs⟩
  case queues => intro q; simp [powerDown]
  case calls => simp [powerDown, hlast, codecCalls, hc]
  case power =>
    intro c' hc'
    cases hc.symm.trans hc'
    rw [powerDown, setPower_get, if_pos rfl, hs, Bool.not_true, Bool.and_false]
  case late =>
    intro hn e he
    simp only [powerDown, note] at he
    cases noted with
    | some f => simp only [Option.some.injEq] at he; exact he ▸ hn f rfl
    | none =>
      cases ha : answerOk s.nextAnswer <;> cases hb : answerOk (s.logCall (.codecDeInit c)).nextAnswer <;>
        simp [ha, hb] at he <;> subst he <;> rfl
  case first => intro e he; simp [powerDown, note, he]
  case granted =>
    intro hg hn
    rw [if_pos hlast] at hg
    have g1 := granted_succ hg (.codecDeInit c)
    have g2 := granted_succ g1.2 (.busDeInit c)
    simp [powerDown, note, hn, g1.1, g2.1]
  case component =>
    intro _ hf hn
    simp [powerDown, note, hn, failsAt_zero_not_ok hf]
  case bus =>
    intro _ hf hn
    have g1 := failsAt_succ hf (.codecDeInit c)
    simp [powerDown, note, hn, g1.1, failsAt_zero_not_ok g1.2]

/-- The power-down of DEINIT. -/
theorem powerDownIfLast_work (d : Dir) (i : Idx) (noted : Option Status) (s : State) :
    PowerDownWork d i noted s (powerDownIfLast d i noted s) := by
  cases hc : codecOf s.cfg d i with
  | none =>
    rw [show powerDownIfLast d i noted s = (noted, s) by simp [powerDownIfLast, hc]]
    exact .idle (by simp [lastOfCodec, hc]) (by simp [hc])
  | some c =>
    by_cases hl : (s.power[c] && sibsReset s d i) = true
    · rw [show powerDownIfLast d i noted s = powerDown c noted s by
        simp only [powerDownIfLast, hc]; rw [if_pos hl]]
      rw [Bool.and_eq_true] at hl
      exact powerDown_work noted hc hl.1 hl.2
    · rw [show powerDownIfLast d i noted s = (noted, s) by simp only [powerDownIfLast, hc]; rw [if_neg hl]]
      rw [Bool.not_eq_true] at hl
      refine .idle (by simpa [lastOfCodec, hc] using hl) fun c' hc' => ?_
      cases hc.symm.trans hc'
      cases h1 : s.power[c] <;> cases h2 : sibsReset s d i <;> simp_all

end Sys2Proof.Machine
end

