-- ==== Sys2Proof/Laws/Lifecycle.lean ====
section
/-! SUPPORT. What the steps of DEINIT, PLAY, RECORD, RECORDM, PAUSE, RESUME, STOP and of the setters can do
(40_stream_lifecycle.md, 41_stream_config.md). -/

namespace Sys2Proof.Machine

theorem ofNoted_sat (noted : Option Status) (s : State) :
    (Res.ofNoted noted s).Sat (fun t => noted = none ∧ t = s) (fun e t => noted = some e ∧ t = s) := by
  cases noted with
  | none => exact ⟨rfl, rfl⟩
  | some e => exact ⟨rfl, rfl⟩

/-- A failure noted is late if every kind it may be is. -/
theorem note_late {noted : Option Status} {ok : Bool} {e f : Status} (h : ∀ f, noted = some f → f.late = true)
    (he : e.late = true) (hn : note noted ok e = some f) : f.late = true := by
  cases noted with
  | some g => exact h f (by simpa [note] using hn)
  | none =>
    cases ok <;> simp [note] at hn
    exact hn ▸ he

/-! ### DEINIT -/

/-- The state DEINIT ends in, whatever was noted. -/
structure DeinitWork (d : Dir) (i : Idx) (s t : State) : Prop where
  steps : ∃ u s0, Kept s u ∧ Powered d i false (u.setInst d i Inst.reset) s0 ∧ Steps d i s0 t ∧
    (s0 = u.setInst d i Inst.reset ∨ sibsReset s d i = true)
  queues : ∀ q ∈ queuesOf s.cfg d i, t.queue q = { (s.queue q).stopped with td := 0 }
  others : SameOtherQueues (queuesOf s.cfg d i) s t
  calls : t.calls = s.calls ++ (armed s (queuesOf s.cfg d i)).map .linkDisable
    ++ (if lastOfCodec s d i then codecCalls s.cfg d i .codecDeInit ++ codecCalls s.cfg d i .busDeInit else [])
  power : ∀ c : Idx, codecOf s.cfg d i = some c → t.power[c] = (s.power[c] && !sibsReset s d i)

theorem sibsReset_congr {s t : State} {d : Dir} {i : Idx} (hc : t.cfg = s.cfg)
    (hi : ∀ x, x ≠ (d, i) → t.inst x.1 x.2 = s.inst x.1 x.2) : sibsReset t d i = sibsReset s d i := by
  rw [Bool.eq_iff_iff, sibsReset_iff, sibsReset_iff, hc]
  refine forall₂_congr fun x hx => ?_
  rw [hi x (mem_sibs.1 hx).2.1]

theorem lastOfCodec_congr {s t : State} {d : Dir} {i : Idx} (hc : t.cfg = s.cfg) (hp : t.power = s.power)
    (hi : ∀ x, x ≠ (d, i) → t.inst x.1 x.2 = s.inst x.1 x.2) : lastOfCodec t d i = lastOfCodec s d i := by
  simp [lastOfCodec, hc, hp, sibsReset_congr hc hi]

theorem deinitBody_sat (d : Dir) (i : Idx) (s : State) :
    (deinitBody d i s).Sat (fun t => DeinitWork d i s t) (fun e t => e.late = true ∧ DeinitWork d i s t) := by
  obtain ⟨hk, hq, ho, hcalls, -, -⟩ := stopAndDiscardAll_spec (queuesOf_nodup s.cfg d i) s
  have hi : ∀ x, x ≠ (d, i) → ((stopAndDiscardAll (queuesOf s.cfg d i) s).2.setInst d i Inst.reset).inst x.1 x.2
      = s.inst x.1 x.2 := fun x hx => by rw [inst_setInst_ne _ _ hx, hk.inst]
  have hcfg : ((stopAndDiscardAll (queuesOf s.cfg d i) s).2.setInst d i Inst.reset).cfg = s.cfg := by simp [hk.cfg]
  have hpow : ((stopAndDiscardAll (queuesOf s.cfg d i) s).2.setInst d i Inst.reset).power = s.power := by
    simp [hk.power]
  have w := powerDownIfLast_work d i (note none (stopAndDiscardAll (queuesOf s.cfg d i) s).1 .periphFailure)
    ((stopAndDiscardAll (queuesOf s.cfg d i) s).2.setInst d i Inst.reset)
  have work : DeinitWork d i s (powerDownIfLast d i (note none (stopAndDiscardAll (queuesOf s.cfg d i) s).1
      .periphFailure) ((stopAndDiscardAll (queuesOf s.cfg d i) s).2.setInst d i Inst.reset)).2 := by
    obtain ⟨s0, hp, hst, hs⟩ := w.steps
    constructor
    case steps => exact ⟨_, s0, hk, hp, hst, by rwa [sibsReset_congr hcfg hi] at hs⟩
    case queues => intro q h; rw [w.queues, queue_setInst, hq q h]
    case others => intro q h; rw [w.queues, queue_setInst, ho q h]
    case calls => rw [w.calls, setInst_calls, hcalls, lastOfCodec_congr hcfg hpow hi, hcfg]
    case power =>
      intro c hc
      rw [w.power c (by rw [hcfg]; exact hc), sibsReset_congr hcfg hi, hpow]
  refine (ofNoted_sat _ _).imp (fun t h => h.2 ▸ work) fun e t h =>
    ⟨w.late (fun e he => note_late (fun _ h => by cases h) rfl he) e h.1, h.2 ▸ work⟩

/-- The status of DEINIT: the first failure noted. -/
theorem deinitBody_status {d : Dir} {i : Idx} {s : State} {m : Nat} (hm : m = (armed s (queuesOf s.cfg d i)).length) :
    (m ≤ s.answers.length → ¬Granted m s → (deinitBody d i s).status = .periphFailure) ∧
    (lastOfCodec s d i = false → Granted m s → (deinitBody d i s).status = .ok) ∧
    (lastOfCodec s d i = true → FailsAt m s → (deinitBody d i s).status = .componentFailure) ∧
    (lastOfCodec s d i = true → FailsAt (m + 1) s → (deinitBody d i s).status = .busFailure) ∧
    (lastOfCodec s d i = true → Granted (m + 2) s → (deinitBody d i s).status = .ok) := by
  subst hm
  obtain ⟨hk, -, -, -, hok, ha⟩ := stopAndDiscardAll_spec (queuesOf_nodup s.cfg d i) s
  have hi : ∀ x, x ≠ (d, i) → ((stopAndDiscardAll (queuesOf s.cfg d i) s).2.setInst d i Inst.reset).inst x.1 x.2
      = s.inst x.1 x.2 := fun x hx => by rw [inst_setInst_ne _ _ hx, hk.inst]
  have hlast : lastOfCodec ((stopAndDiscardAll (queuesOf s.cfg d i) s).2.setInst d i Inst.reset) d i = lastOfCodec s d i :=
    lastOfCodec_congr (by simp [hk.cfg]) (by simp [hk.power]) hi
  have hans : ((stopAndDiscardAll (queuesOf s.cfg d i) s).2.setInst d i Inst.reset).answers
      = s.answers.drop (armed s (queuesOf s.cfg d i)).length := by rw [setInst_answers, ha]
  have w := powerDownIfLast_work d i (note none (stopAndDiscardAll (queuesOf s.cfg d i) s).1 .periphFailure)
    ((stopAndDiscardAll (queuesOf s.cfg d i) s).2.setInst d i Inst.reset)
  have none_of (hg : Granted (armed s (queuesOf s.cfg d i)).length s) :
      note none (stopAndDiscardAll (queuesOf s.cfg d i) s).1 .periphFailure = none := by
    simp [note, (hok hg.1).2 hg]
  refine ⟨fun hlen hn => ?_, fun hl hg => ?_, fun hl hf => ?_, fun hl hf => ?_, fun hl hg => ?_⟩
  · have : (stopAndDiscardAll (queuesOf s.cfg d i) s).1 = false := by simpa using fun h => hn ((hok hlen).1 h)
    simp [deinitBody, w.first .periphFailure (by simp [note, this]), Res.ofNoted]
  · simp [deinitBody, w.granted (by rw [hlast, hl]; exact granted_zero _) (none_of hg), Res.ofNoted]
  · obtain ⟨hg, hf⟩ := (failsAt_add (n := 0) hans).1 hf
    simp [deinitBody, w.component (hlast.trans hl) hf (none_of hg), Res.ofNoted]
  · obtain ⟨hg, hf⟩ := (failsAt_add hans).1 hf
    simp [deinitBody, w.bus (hlast.trans hl) hf (none_of hg), Res.ofNoted]
  · obtain ⟨hg, hg2⟩ := (granted_add hans).1 hg
    simp [deinitBody, w.granted (by rw [hlast, hl]; exact hg2) (none_of hg), Res.ofNoted]

/-! ### PLAY and RECORD -/

/-- The steps of PLAY, and of RECORD on a `SERIAL` instance: raised, with the queue idle again, or done. -/
theorem startSerial_sat (d : Dir) (i : Idx) (buf : Word) (count : Nat) (s : State)
    (hq : Reaches s.cfg d i (serialQueue d i)) :
    (startSerial d i buf count s).Sat (fun t => ∃ u, Steps d i s u ∧ t = u.setLife d i .active)
      (fun e t => e.late = true ∧ Steps d i s t ∧
        ((s.queue (serialQueue d i)).st = .idle → (t.queue (serialQueue d i)).st = .idle)) := by
  have st := Steps.primitive hq (teStart_primitive (serialQueue d i) buf count s)
  unfold startSerial
  refine andThen_sat (D := fun t => Steps d i s t) ?_ fun u hu => ?_
  · rw [okOr_eq]
    split
    · exact st
    next h =>
      refine ⟨rfl, st, fun hi => ?_⟩
      obtain ⟨-, e⟩ | ⟨-, -, -, -, e⟩ := teStart_cases (serialQueue d i) buf count s
      · rw [e]; exact hi
      · rw [e] at h ⊢
        split at h
        · simp at h
        next hn => rw [if_neg hn, queue_logCall]; exact hi
  · split
    · exact ⟨u, hu, rfl⟩
    next c hc =>
      simp only
      split
      · exact ⟨_, hu.trans (.logCall d i u _), rfl⟩
      · refine ⟨rfl, (hu.trans (.logCall d i u _)).trans (.primitive (by rwa [logCall_cfg, hu.kept.cfg])
          (teStop_primitive _ _)), fun _ => ?_⟩
        rw [teStop_queue]
        rfl

theorem serialQueue_reaches {p : Config.Params} {d : Dir} {i : Idx} (h : isSd p d i = false) :
    Reaches p d i (serialQueue d i) := by
  simp [Reaches, h]

theorem micQueue_reaches {p : Config.Params} {d : Dir} {i : Idx} (h : isSd p d i = true) (m : Mic) :
    Reaches p d i (.qm m) := by
  simp [Reaches, h]

theorem setLife_sr_update (s : State) (r : Reassembler) (d : Dir) (i : Idx) (l : Life) :
    State.setLife { s with sr := r } d i l = { s.setLife d i l with sr := r } := by
  cases d <;> rfl

/-- Starting several microphones: raised with the queues of the instance idle again, or done. -/
theorem startMics_sat {j : Idx} (count : Nat) (todo : List (Mic × Word)) (s : State) (h : isSd s.cfg .inp j = true) :
    (okOr (startAll count [] (todo.map fun x => (.qm x.1, x.2)) s) .periphFailure).Sat
      (fun t => Steps .inp j s t)
      (fun e t => e.late = true ∧ Steps .inp j s t ∧ ∀ q, (s.queue q).st = .idle → (t.queue q).st = .idle) := by
  have st := startAll_steps (d := .inp) (i := j) (count := count) (todo := todo.map fun x => (QueueId.qm x.1, x.2)) s
    fun x hx => by
      obtain ⟨y, -, rfl⟩ := List.mem_map.1 hx
      exact micQueue_reaches h y.1
  rw [okOr_eq]
  split
  · exact st
  next hf => exact ⟨rfl, st, fun q hq => startAll_failed (by simpa using hf) q (.inr hq)⟩

theorem startMerge_sat (j : Idx) (buf : Word) (count : Nat) (s : State) (h : isSd s.cfg .inp j = true) :
    (startMerge j buf count s).Sat
      (fun t => ∃ u, Steps .inp j s u ∧ t = { u.setLife .inp j .active with
        sr := s.sr.mergeSession (mergeSet s j) ((s.inst .inp j).chans == 2) buf count })
      (fun e t => e.late = true ∧ Steps .inp j s t ∧ ∀ q, (s.queue q).st = .idle → (t.queue q).st = .idle) := by
  unfold startMerge
  have hs := startMics_sat s.cfg.cap ((bitList (mergeSet s j)).map fun m => (m, (0 : Word))) s h
  rw [List.map_map] at hs
  exact andThen_sat hs fun u hu => ⟨u, hu, by rw [setLife_sr_update, hu.kept.sr]⟩

theorem startMulti_sat (j : Idx) (tbl len : Word) (s : State) (h : isSd s.cfg .inp j = true) :
    (startMulti j tbl len s).Sat
      (fun t => ∃ u, Steps .inp j s u ∧ t = { u.setLife .inp j .active with
        sr := s.sr.multiSession (mics s.cfg (s.inst .inp j).device) })
      (fun e t => e.late = true ∧ Steps .inp j s t ∧ ∀ q, (s.queue q).st = .idle → (t.queue q).st = .idle) := by
  unfold startMulti
  have hs := startMics_sat (len.toNat / 4)
    ((bitList (mics s.cfg (s.inst .inp j).device)).map fun m => (m, tableEntry s.mem tbl m)) s h
  rw [List.map_map] at hs
  exact andThen_sat hs fun u hu => ⟨u, hu, by rw [setLife_sr_update, hu.kept.sr]⟩

/-! ### PAUSE, RESUME, STOP -/

/-- A queue that was idle stays idle. -/
def StaysIdle (s t : State) : Prop :=
  ∀ q, (s.queue q).st = .idle → (t.queue q).st = .idle

theorem StaysIdle.of_eq {s t : State} (h : ∀ q, t.queue q = s.queue q) : StaysIdle s t := fun q hq => by rw [h, hq]

theorem StaysIdle.trans {s t u : State} (h : StaysIdle s t) (k : StaysIdle t u) : StaysIdle s u :=
  fun q hq => k q (h q hq)

theorem tePause_staysIdle (q : QueueId) (s : State) : StaysIdle s (tePause q s).2 := by
  intro q' hq'
  obtain ⟨-, h⟩ | ⟨-, h⟩ | ⟨hr, h⟩ := tePause_cases q s <;> rw [h]
  · exact hq'
  · exact hq'
  · split
    · rw [queue_setQueue]
      split
      next e => subst e; rw [hr] at hq'; cases hq'
      · simpa using hq'
    · simpa using hq'

theorem teResume_staysIdle (q : QueueId) (s : State) : StaysIdle s (teResume q s).2 := by
  intro q' hq'
  obtain ⟨-, h⟩ | ⟨-, h⟩ | ⟨hr, h⟩ := teResume_cases q s <;> rw [h]
  · exact hq'
  · exact hq'
  · split
    · rw [queue_setQueue]
      split
      next e => subst e; rw [hr] at hq'; cases hq'
      · simpa using hq'
    · simpa using hq'

theorem untilFail_staysIdle {op : QueueId → State → Bool × State} (hop : ∀ q s, StaysIdle s (op q s).2)
    (qs : List QueueId) (s : State) : StaysIdle s (untilFail op qs s).2 :=
  untilFail_keeps (P := StaysIdle s) (fun q _ t ht => ht.trans (hop q t)) s fun _ h => h

/-- The steps of PAUSE. -/
theorem pauseSteps_sat (d : Dir) (i : Idx) (s : State) :
    ((okOr (pauseAll (runQueues s d i) s) .periphFailure).andThen fun s =>
      (codecOr d i .codecPause .componentFailure s).andThen fun s => .done (s.setLife d i .pause)).Sat
      (fun t => ∃ u, Steps d i s u ∧ StaysIdle s u ∧ t = u.setLife d i .pause)
      (fun e t => e.late = true ∧ Steps d i s t ∧ StaysIdle s t) := by
  have st := untilFail_steps (d := d) (i := i) s (fun q _ t _ => tePause_primitive q t)
    fun q (h : q ∈ runQueues s d i) => reaches_of_runQueues h
  have si := untilFail_staysIdle tePause_staysIdle (runQueues s d i) s
  refine andThen_sat (D := fun t => Steps d i s t ∧ StaysIdle s t) ?_ fun u hu => ?_
  · rw [okOr_eq]
    split
    · exact ⟨st, si⟩
    · exact ⟨rfl, st, si⟩
  · exact andThen_sat ((codecOr_sat d i _ _ u).imp (fun _ h => h) fun e t h =>
      ⟨by rw [h.1]; rfl, hu.1.trans h.2.1, hu.2.trans (.of_eq h.2.2)⟩)
      fun v hv => ⟨v, hu.1.trans hv.1, hu.2.trans (.of_eq hv.2), rfl⟩

/-- The steps of RESUME. -/
theorem resumeSteps_sat (d : Dir) (i : Idx) (s : State) :
    ((codecOr d i .codecResume .componentFailure s).andThen fun s =>
      (okOr (resumeAll (runQueues s d i) s) .periphFailure).andThen fun s => .done (s.setLife d i .active)).Sat
      (fun t => ∃ u, Steps d i s u ∧ StaysIdle s u ∧ t = u.setLife d i .active)
      (fun e t => e.late = true ∧ Steps d i s t ∧ StaysIdle s t) := by
  refine andThen_sat ((codecOr_sat d i _ _ s).imp (fun _ h => h) fun e t h =>
    ⟨by rw [h.1]; rfl, h.2.1, .of_eq h.2.2⟩) fun u hu => ?_
  have st := untilFail_steps (d := d) (i := i) u (fun q _ t _ => teResume_primitive q t)
    fun q (h : q ∈ runQueues u d i) => reaches_of_runQueues h
  have si := untilFail_staysIdle teResume_staysIdle (runQueues u d i) u
  refine andThen_sat (D := fun t => Steps d i s t ∧ StaysIdle s t) ?_ fun v hv => ⟨v, hv.1, hv.2, rfl⟩
  rw [okOr_eq]
  split
  · exact ⟨hu.1.trans st, (StaysIdle.of_eq hu.2).trans si⟩
  · exact ⟨rfl, hu.1.trans st, (StaysIdle.of_eq hu.2).trans si⟩

/-- The state STOP comes to before its last line. -/
structure StopWork (d : Dir) (i : Idx) (s t : State) : Prop where
  steps : Steps d i s t
  queues : ∀ q ∈ queuesOf s.cfg d i, t.queue q = (s.queue q).stopped
  others : SameOtherQueues (queuesOf s.cfg d i) s t
  calls : t.calls = s.calls ++ (armed s (queuesOf s.cfg d i)).map .linkDisable
    ++ codecCalls s.cfg d i (fun c => .codecStop c .swPd)

theorem codecTry_calls (d : Dir) (i : Idx) (mk : Idx → Call) (s : State) :
    (codecTry d i mk s).2.calls = s.calls ++ codecCalls s.cfg d i mk := by
  cases h : codecOf s.cfg d i <;> simp [codecTry, codecCalls, call, h]

theorem stopBody_sat (d : Dir) (i : Idx) (s : State) :
    (stopBody d i s).Sat (fun t => ∃ u, StopWork d i s u ∧ t = u.setLife d i .stop)
      (fun e t => e.late = true ∧ StopWork d i s t) := by
  obtain ⟨hk, hq, ho, hc, -, -⟩ := stopAll_spec (queuesOf_nodup s.cfg d i) s
  have st := onEach_steps (d := d) (i := i) teStop_primitive s fun q (h : q ∈ queuesOf s.cfg d i) =>
    reaches_of_queuesOf h
  have work : StopWork d i s (codecTry d i (fun c => .codecStop c .swPd) (stopAll (queuesOf s.cfg d i) s).2).2 :=
    ⟨st.trans (codecTry_steps d i _ _), fun q h => by rw [codecTry_queue, hq q h],
      fun q h => by rw [codecTry_queue, ho q h], by rw [codecTry_calls, hc, hk.cfg]⟩
  unfold stopBody
  refine andThen_sat ((ofNoted_sat _ _).imp (fun _ h => h) fun e t h => ?_) fun u hu => ⟨u, hu.2 ▸ work, rfl⟩
  exact ⟨note_late (fun _ h => note_late (fun _ h => by cases h) rfl h) rfl h.1, h.2 ▸ work⟩

/-- The status of STOP: the first failure noted. -/
theorem stopBody_status {d : Dir} {i : Idx} {s : State} {m : Nat} (hm : m = (armed s (queuesOf s.cfg d i)).length) :
    (m ≤ s.answers.length → ¬Granted m s → (stopBody d i s).status = .periphFailure) ∧
    (∀ c, codecOf s.cfg d i = some c → FailsAt m s → (stopBody d i s).status = .componentFailure) ∧
    (Granted (m + (codecOf s.cfg d i).toList.length) s → (stopBody d i s).status = .ok) := by
  subst hm
  obtain ⟨hk, -, -, -, hok, ha⟩ := stopAll_spec (queuesOf_nodup s.cfg d i) s
  refine ⟨fun hlen hn => ?_, fun c hc hf => ?_, fun hg => ?_⟩
  · have : (stopAll (queuesOf s.cfg d i) s).1 = false := by simpa using fun h => hn ((hok hlen).1 h)
    simp [stopBody, this, note, Res.ofNoted]
  · obtain ⟨hg, hf⟩ := (failsAt_add (n := 0) ha).1 hf
    simp [stopBody, (hok hg.1).2 hg, codecTry, hk.cfg, hc, call, failsAt_zero_not_ok hf, note, Res.ofNoted]
  · obtain ⟨hg, hg2⟩ := (granted_add ha).1 hg
    have e : (codecTry d i (fun c => .codecStop c .swPd) (stopAll (queuesOf s.cfg d i) s).2).1 = true := by
      unfold codecTry
      rw [hk.cfg]
      cases hc : codecOf s.cfg d i with
      | none => rfl
      | some c =>
        rw [hc] at hg2
        exact (granted_succ (n := 0) hg2 (.codecStop c .swPd)).1
    simp [stopBody, (hok hg.1).2 hg, e, note, Res.ofNoted]

end Sys2Proof.Machine
end

