-- ==== Sys2Proof/Laws/Settings.lean ====
section
/-! SUPPORT. What the steps of the configuration commands can do (41_stream_config.md). -/

namespace Sys2Proof.Machine

/-- A getter: refused, or the field in `RESULT` and nothing else but `STATUS` (R176). -/
theorem getter_eq (d : Dir) (i : Idx) (field : Inst → Word) (s : State) :
    getter d i field s = .next (
      if valid s.cfg d i = false then { s with status := 0xFFFFFFFE }
      else if (s.inst d i).life = .reset then { s with status := 0xFFFFFFFD }
      else { s with result := field (s.inst d i), status := 0 }) := by
  unfold getter command
  cases hv : valid s.cfg d i <;> cases hl : (s.inst d i).life <;> simp [firstFailure, finishWith] <;> rfl

/-! ### Dropped microphones (R161) -/

/-- Every queue of a list of microphones loses its descriptor. -/
theorem clearTds_queue (ms : List Mic) (s : State) (q : QueueId) :
    (ms.foldl (fun s m => s.clearTd (.qm m)) s).queue q =
      if ∃ m ∈ ms, q = .qm m then { s.queue q with td := 0 } else s.queue q := by
  induction ms generalizing s with
  | nil => simp
  | cons a ms ih =>
    rw [List.foldl_cons, ih, State.clearTd, queue_setQueue]
    by_cases e : q = .qm a
    · subst e; simp
    · simp [e]

theorem clearTds_kept (ms : List Mic) (s : State) : Kept s (ms.foldl (fun s m => s.clearTd (.qm m)) s) := by
  induction ms generalizing s with
  | nil => exact .refl s
  | cons a ms ih => exact (Kept.setQueue s _ _).trans (ih _)

theorem clearTds_calls (ms : List Mic) (s : State) :
    (ms.foldl (fun s m => s.clearTd (.qm m)) s).calls = s.calls := by
  induction ms generalizing s with
  | nil => rfl
  | cons a ms ih => rw [List.foldl_cons, ih, clearTd_calls]

theorem dropMics_queue (p : Config.Params) (dev : Word) (s : State) (q : QueueId) :
    (dropMics p dev s).queue q =
      if ∃ m : Mic, m.val < p.nMic ∧ (mics p dev).getLsbD m.val = false ∧ q = .qm m then { s.queue q with td := 0 }
      else s.queue q := by
  rw [dropMics, clearTds_queue]
  simp [mem_allMics, and_assoc]

theorem dropMics_kept (p : Config.Params) (dev : Word) (s : State) : Kept s (dropMics p dev s) :=
  clearTds_kept _ s

theorem dropMics_calls (p : Config.Params) (dev : Word) (s : State) : (dropMics p dev s).calls = s.calls :=
  clearTds_calls _ s

/-! ### The setters of a stopped instance -/

/-- What a setter has done before its last line: the clock if it needs it, the rebuild, the codec. -/
structure SetterWork (d : Dir) (i : Idx) (dev : Word) (bits : BitVec 6) (s u : State) : Prop where
  steps : Steps d i s u
  rebuilt : Rebuilt d i bits s u
  tds : ∀ q ∈ configuredQueues s.cfg d i dev,
    (u.queue q).td = descriptor s.cfg q (flowOf d) (elementWidth s.cfg d i bits)

/-- The steps of SETDEV. -/
theorem setdevBody_sat (d : Dir) (i : Idx) (dev : Word) (s : State) :
    (setdevBody d i dev s).Sat
      (fun t => ∃ u, SetterWork d i dev (s.inst d i).bits s u ∧
        t = (if isSd s.cfg d i then dropMics s.cfg dev u else u).setInst d i { s.inst d i with device := dev })
      (fun e t => e.late = true ∧ Steps d i s t ∧ Rebuilt d i (s.inst d i).bits s t) := by
  unfold setdevBody
  refine andThen_sat ((reconfigure_sat d i dev _ s).imp (fun _ h => h) fun e t h => ⟨by rw [h.1]; rfl, h.2⟩)
    fun w hw => ?_
  refine andThen_sat ((codecOr_sat d i _ _ w).imp (fun _ h => h) fun e t h =>
    ⟨by rw [h.1]; rfl, hw.1.trans h.2.1, hw.2.1.congr rfl (fun _ => rfl) h.2.2⟩) fun u hu => ?_
  have st := hw.1.trans hu.1
  refine ⟨u, ⟨st, hw.2.1.congr rfl (fun _ => rfl) hu.2, fun q hq => by rw [hu.2, hw.2.2 q hq]⟩, ?_⟩
  rw [st.kept.cfg]
  split
  · rw [(dropMics_kept s.cfg dev u).inst, st.inst]
  · rw [st.inst]

theorem setrateBody_sat (d : Dir) (i : Idx) (rate : Word) (s : State) :
    (setrateBody d i rate s).Sat
      (fun t => ∃ u, SetterWork d i (s.inst d i).device (s.inst d i).bits s u ∧
        t = u.setInst d i { s.inst d i with rate := rate })
      (fun e t => e.late = true ∧ Steps d i s t ∧ Rebuilt d i (s.inst d i).bits s t) := by
  unfold setrateBody
  refine andThen_sat ((callOr_sat _ _ s).imp (fun _ h => h) fun e t h => ?_) ?_
  · obtain ⟨rfl, rfl⟩ := h
    exact ⟨rfl, .logCall d i s _, .of_eq fun q => queue_logCall s _ q⟩
  rintro v rfl
  have st1 := Steps.logCall d i s (.clockConfig d i rate)
  simp only [inst_logCall]
  refine andThen_sat ((reconfigure_sat d i _ _ _).imp (fun _ h => h) fun e t h =>
    ⟨by rw [h.1]; rfl, st1.trans h.2.1, h.2.2.congr (by simp) (fun q => by simp) fun _ => rfl⟩) fun w hw => ?_
  refine andThen_sat ((codecOr_sat d i _ _ w).imp (fun _ h => h) fun e t h =>
    ⟨by rw [h.1]; rfl, (st1.trans hw.1).trans h.2.1, hw.2.1.congr (by simp) (fun q => by simp) h.2.2⟩) fun u hu => ?_
  have st := (st1.trans hw.1).trans hu.1
  exact ⟨u, ⟨st, hw.2.1.congr (by simp) (fun q => by simp) hu.2, fun q hq => by rw [hu.2, hw.2.2 q (by simpa using hq)]; simp⟩,
    by rw [st.inst]⟩

theorem setbitsBody_sat (d : Dir) (i : Idx) (bits : BitVec 6) (s : State) :
    (setbitsBody d i bits s).Sat
      (fun t => ∃ u, SetterWork d i (s.inst d i).device bits s u ∧
        t = u.setInst d i { s.inst d i with bits := bits })
      (fun e t => e.late = true ∧ Steps d i s t ∧ Rebuilt d i bits s t) := by
  unfold setbitsBody
  refine andThen_sat ((reconfigure_sat d i _ bits s).imp (fun _ h => h) fun e t h => ⟨by rw [h.1]; rfl, h.2⟩)
    fun w hw => ?_
  refine andThen_sat ((codecOr_sat d i _ _ w).imp (fun _ h => h) fun e t h =>
    ⟨by rw [h.1]; rfl, hw.1.trans h.2.1, hw.2.1.congr rfl (fun _ => rfl) h.2.2⟩) fun u hu => ?_
  have st := hw.1.trans hu.1
  exact ⟨u, ⟨st, hw.2.1.congr rfl (fun _ => rfl) hu.2, fun q hq => by rw [hu.2, hw.2.2 q hq]⟩, by rw [st.inst]⟩

theorem setchBody_sat (d : Dir) (i : Idx) (ch : BitVec 2) (s : State) :
    (setchBody d i ch s).Sat
      (fun t => ∃ u, SetterWork d i (s.inst d i).device (s.inst d i).bits s u ∧
        t = u.setInst d i { s.inst d i with chans := ch })
      (fun e t => e.late = true ∧ Steps d i s t ∧ Rebuilt d i (s.inst d i).bits s t) := by
  unfold setchBody
  refine andThen_sat ((reconfigure_sat d i _ _ s).imp (fun _ h => h) fun e t h => ⟨by rw [h.1]; rfl, h.2⟩)
    fun u hu => ?_
  exact ⟨u, ⟨hu.1, hu.2.1, hu.2.2⟩, by rw [hu.1.inst]⟩

/-- The steps of SETVOL, MUTE and UNMUTE. -/
theorem forwardSteps_sat (d : Dir) (i : Idx) (mk : Idx → Call) (set : Inst → Inst) (s : State) :
    ((codecOr d i mk .componentFailure s).andThen fun s => .done (s.setInst d i (set (s.inst d i)))).Sat
      (fun t => ∃ u, Steps d i s u ∧ (∀ q, u.queue q = s.queue q) ∧ t = u.setInst d i (set (s.inst d i)))
      (fun e t => e.late = true ∧ Steps d i s t ∧ ∀ q, t.queue q = s.queue q) :=
  andThen_sat ((codecOr_sat d i _ _ s).imp (fun _ h => h) fun e t h => ⟨by rw [h.1]; rfl, h.2⟩)
    fun u hu => ⟨u, hu.1, hu.2, by rw [hu.1.inst]⟩

end Sys2Proof.Machine
end

