-- ==== Sys2Proof/Laws/Exec.lean ====
section
/-! SUPPORT. What executing a command can do, said once for all commands: a check fails and only `STATUS` is written, a
collaborator fails, or the command succeeds (60_exceptions.md R271 to R277). -/

namespace Sys2Proof.Machine

/-- A collaborator failed: what every command but DEINIT leaves, and what DEINIT leaves. -/
inductive Fails (s : State) : Instr → Status → State → Prop where
  | kept {i : Instr} {e : Status} {s0 u : State} (he : e.late = true) (hd : ∀ d n, i ≠ .deinit d n)
      (hp : Powered i.target.1 i.target.2 true s s0) (hi : s0 = s ∨ ∃ d n ch bits mbz vol, i = .init d n ch bits mbz vol)
      (steps : Steps i.target.1 i.target.2 s0 u) (idle : StaysIdle s u) : Fails s i e u
  | deinit {d : Dir} {n : Idx} {e : Status} {u : State} (he : e.late = true) (hv : valid s.cfg d n = true)
      (hl : (s.inst d n).life ≠ .reset) (work : DeinitWork d n s u) : Fails s (.deinit d n) e u

/-- The command succeeded: its checks, and the state before `STATUS` is written. -/
inductive Succeeds (s : State) : Instr → State → Prop where
  | init {d : Dir} {n : Idx} {ch : BitVec 2} {bits : BitVec 6} {vol : BitVec 7} {u : State}
      (hv : valid s.cfg d n = true) (hvol : vol.toNat ≤ 100) (hdev : devOk s.cfg d n s.arg0 = true)
      (hrate : rateOk s.cfg d n s.arg1 = true) (hcombo : comboOk s.cfg d n bits ch = true)
      (hmics : tooFewMics s.cfg d n s.arg0 ch = false) (hl : (s.inst d n).life = .reset)
      (hx : xinstOk s d n s.arg1 bits = true) (work : InitWork d n bits s u)
      (hon : ∀ c : Idx, codecOf s.cfg d n = some c → u.power[c] = true)
      (htd : ∀ q ∈ configuredQueues s.cfg d n s.arg0,
        (u.queue q).td = descriptor s.cfg q (flowOf d) (elementWidth s.cfg d n bits)) :
      Succeeds s (.init d n ch bits 0 vol) (u.setInst d n ((s.inst d n).created s.arg0 s.arg1 bits ch vol))
  | deinitReset {d : Dir} {n : Idx} (hl : (s.inst d n).life = .reset) : Succeeds s (.deinit d n) s
  | deinit {d : Dir} {n : Idx} {t : State} (hv : valid s.cfg d n = true) (hl : (s.inst d n).life ≠ .reset)
      (work : DeinitWork d n s t) : Succeeds s (.deinit d n) t
  | play {n : Idx} {u : State} (hl : (s.inst .out n).life = .stop) (steps : Steps .out n s u) :
      Succeeds s (.play n) (u.setLife .out n .active)
  | record {n : Idx} {u : State} (hs : isSd s.cfg .inp n = false) (hl : (s.inst .inp n).life = .stop)
      (steps : Steps .inp n s u) : Succeeds s (.record n) (u.setLife .inp n .active)
  | recordMerge {n : Idx} {u : State} (hs : isSd s.cfg .inp n = true) (hl : (s.inst .inp n).life = .stop)
      (hbuf : badBuffer s.cfg 2 s.arg0 s.arg1 = false) (hsize : s.arg1.toNat / 2 % (2 * s.cfg.cap) = 0)
      (steps : Steps .inp n s u) :
      Succeeds s (.record n) { u.setLife .inp n .active with
        sr := s.sr.mergeSession (mergeSet s n) ((s.inst .inp n).chans == 2) s.arg0 (s.arg1.toNat / 2) }
  | recordMulti {n : Idx} {u : State} (hs : isSd s.cfg .inp n = true) (hl : (s.inst .inp n).life = .stop)
      (steps : Steps .inp n s u) :
      Succeeds s (.recordm n) { u.setLife .inp n .active with
        sr := s.sr.multiSession (mics s.cfg (s.inst .inp n).device) }
  | pause {d : Dir} {n : Idx} {u : State} (hl : (s.inst d n).life = .active) (steps : Steps d n s u)
      (idle : StaysIdle s u) : Succeeds s (.pause d n) (u.setLife d n .pause)
  | resume {d : Dir} {n : Idx} {u : State} (hl : (s.inst d n).life = .pause) (steps : Steps d n s u)
      (idle : StaysIdle s u) : Succeeds s (.resume d n) (u.setLife d n .active)
  | stop {d : Dir} {n : Idx} {u : State} (hl : (s.inst d n).life = .active ∨ (s.inst d n).life = .pause)
      (work : StopWork d n s u) : Succeeds s (.stop d n) (u.setLife d n .stop)
  | getter {i : Instr} (v : Word) (hi : i.isGetter = true) : Succeeds s i { s with result := v }
  | regcb {d : Dir} {n : Idx} {mask : BitVec 3} (hv : valid s.cfg d n = true) :
      Succeeds s (.regcb d n 0 mask) (s.setInst d n { s.inst d n with cben := mask, cbreg := true })
  | setdev {d : Dir} {n : Idx} {u : State} (hv : valid s.cfg d n = true) (hdev : devOk s.cfg d n s.arg0 = true)
      (hmics : tooFewMics s.cfg d n s.arg0 (s.inst d n).chans = false) (hl : (s.inst d n).life = .stop)
      (work : SetterWork d n s.arg0 (s.inst d n).bits s u) :
      Succeeds s (.setdev d n) ((if isSd s.cfg d n then dropMics s.cfg s.arg0 u else u).setInst d n
        { s.inst d n with device := s.arg0 })
  | setrate {d : Dir} {n : Idx} {u : State} (hv : valid s.cfg d n = true) (hrate : rateOk s.cfg d n s.arg0 = true)
      (hl : (s.inst d n).life = .stop) (hx : xinstOk s d n s.arg0 (s.inst d n).bits = true)
      (work : SetterWork d n (s.inst d n).device (s.inst d n).bits s u) :
      Succeeds s (.setrate d n) (u.setInst d n { s.inst d n with rate := s.arg0 })
  | setbits {d : Dir} {n : Idx} {bits : BitVec 6} {u : State} (hv : valid s.cfg d n = true)
      (hcombo : comboOk s.cfg d n bits (chansOr1 (s.inst d n).chans) = true) (hl : (s.inst d n).life = .stop)
      (hx : xinstOk s d n (s.inst d n).rate bits = true) (work : SetterWork d n (s.inst d n).device bits s u) :
      Succeeds s (.setbits d n 0 bits) (u.setInst d n { s.inst d n with bits := bits })
  | setch {d : Dir} {n : Idx} {ch : BitVec 2} {u : State} (hv : valid s.cfg d n = true)
      (hcombo : comboOk s.cfg d n (bitsOr16 (s.inst d n).bits) ch = true)
      (hmics : tooFewMics s.cfg d n (s.inst d n).device ch = false) (hl : (s.inst d n).life = .stop)
      (work : SetterWork d n (s.inst d n).device (s.inst d n).bits s u) :
      Succeeds s (.setch d n 0 ch) (u.setInst d n { s.inst d n with chans := ch })
  | setvol {d : Dir} {n : Idx} {vol : BitVec 7} {u : State} (hv : valid s.cfg d n = true)
      (hl : (s.inst d n).life ≠ .reset) (hvol : vol.toNat ≤ 100) (steps : Steps d n s u) (hq : ∀ q, u.queue q = s.queue q) :
      Succeeds s (.setvol d n 0 vol) (u.setInst d n { s.inst d n with volume := vol })
  | mute {d : Dir} {n : Idx} {u : State} (hv : valid s.cfg d n = true) (hl : (s.inst d n).life ≠ .reset)
      (steps : Steps d n s u) (hq : ∀ q, u.queue q = s.queue q) :
      Succeeds s (.mute d n) (u.setInst d n { s.inst d n with mute := true })
  | unmute {d : Dir} {n : Idx} {u : State} (hv : valid s.cfg d n = true) (hl : (s.inst d n).life ≠ .reset)
      (steps : Steps d n s u) (hq : ∀ q, u.queue q = s.queue q) :
      Succeeds s (.unmute d n) (u.setInst d n { s.inst d n with mute := false })

/-- What executing a command comes to. -/
inductive Executed (i : Instr) (s : State) : State → Prop where
  | refused {e : Status} (he : e = .wrongParam ∨ e = .busy ∨ e = .featureNotSupported) :
      Executed i s { s with status := e.code }
  | failed {e : Status} {u : State} (h : Fails s i e u) : Executed i s { u with status := e.code }
  | succeeded {u : State} (h : Succeeds s i u) : Executed i s { u with status := 0 }

/-- The kinds the checks of a list name are those of R271's first group. -/
def checkKinds (checks : List (Bool × Status)) : Bool :=
  checks.all fun c => c.2 == .wrongParam || c.2 == .busy || c.2 == .featureNotSupported

/-- A command from what its steps come to. -/
theorem executed_command {i : Instr} {s t : State} {checks : List (Bool × Status)} {body : State → Res}
    {D : State → Prop} {R : Status → State → Prop} (h : command checks body s = .next t)
    (hk : checkKinds checks = true) (hb : firstFailure checks = none → (body s).Sat D R)
    (hd : firstFailure checks = none → ∀ u, D u → Succeeds s i u)
    (hr : firstFailure checks = none → ∀ e u, R e u → Fails s i e u) : Executed i s t := by
  obtain ⟨e, hf, hc⟩ | ⟨hf, hc⟩ := command_cases checks body s
  · rw [hc] at h
    cases h
    obtain ⟨c, hm, -, rfl⟩ := firstFailure_mem hf
    have := List.all_eq_true.1 hk c hm
    simp only [Bool.or_eq_true, beq_iff_eq, or_assoc] at this
    exact .refused this
  · rw [hc] at h
    cases h
    have hs := hb hf
    cases hbody : body s with
    | done u => rw [hbody] at hs; exact .succeeded (hd hf u hs)
    | raised e u => rw [hbody] at hs; exact .failed (hr hf e u hs)

/-- No codec power changed. -/
theorem Fails.plain {s u : State} {i : Instr} {e : Status} (he : e.late = true) (hd : ∀ d n, i ≠ .deinit d n)
    (steps : Steps i.target.1 i.target.2 s u) (idle : StaysIdle s u) : Fails s i e u :=
  .kept he hd (.inl rfl) (.inl rfl) steps idle

theorem Rebuilt.staysIdle {d : Dir} {i : Idx} {bits : BitVec 6} {s t : State} (h : Rebuilt d i bits s t) :
    StaysIdle s t := fun q hq => by
  obtain ⟨td, b, he, -⟩ := h q
  rw [he]
  exact hq

theorem getter_executed {i : Instr} {d : Dir} {n : Idx} {field : Inst → Word} {s t : State} (hi : i.isGetter = true)
    (h : getter d n field s = .next t) : Executed i s t := by
  refine executed_command (D := fun u => u = { s with result := field (s.inst d n) }) (R := fun _ _ => False) h rfl
    (fun _ => rfl) (fun _ u hu => hu ▸ .getter _ hi) fun _ e u h => h.elim

theorem forward_executed {i : Instr} {d : Dir} {n : Idx} {bad : Bool} {mk : Idx → Call} {set : Inst → Inst} {s t : State}
    (ht : i.target = (d, n)) (hd : ∀ d n, i ≠ .deinit d n) (h : forwardToCodec d n bad mk set s = .next t)
    (hs : ∀ u, valid s.cfg d n = true → bad = false → (s.inst d n).life ≠ .reset → Steps d n s u → (∀ q, u.queue q = s.queue q) →
      Succeeds s i (u.setInst d n (set (s.inst d n)))) : Executed i s t := by
  refine executed_command h rfl (fun _ => forwardSteps_sat d n mk set s) ?_ ?_
  · rintro hf _ ⟨u, hu, hq, rfl⟩
    simp [firstFailure_eq_none] at hf
    exact hs u hf.1.1 hf.1.2 hf.2.1 hu hq
  · rintro - e u ⟨he, hu, hq⟩
    exact .plain he hd (by rw [ht]; exact hu) (.of_eq hq)

theorem startSerial_executed {i : Instr} {d : Dir} {n : Idx} {w : Nat} {buf len : Word} {s t : State}
    (ht : i.target = (d, n)) (hd : ∀ d n, i ≠ .deinit d n) (hsd : isSd s.cfg d n = false)
    (h : command [(!valid s.cfg d n, .wrongParam), (badBuffer s.cfg w buf len, .wrongParam),
      ((s.inst d n).life != .stop, .busy)] (startSerial d n buf (len.toNat / w)) s = .next t)
    (hs : ∀ u, (s.inst d n).life = .stop → Steps d n s u → Succeeds s i (u.setLife d n .active)) :
    Executed i s t := by
  refine executed_command h rfl (fun _ => startSerial_sat d n buf _ s (serialQueue_reaches hsd)) ?_ ?_
  · rintro hf _ ⟨u, hu, rfl⟩
    simp [firstFailure_eq_none] at hf
    exact hs u hf.2.2 hu
  · rintro - e u ⟨he, hu, hq⟩
    refine .plain he hd (by rw [ht]; exact hu) fun q hi => ?_
    by_cases e : q = serialQueue d n
    · subst e; exact hq hi
    · rw [hu.others q (by simpa [Reaches, hsd] using e), hi]

/-- **What executing a command can do.** -/
theorem exec_cases {i : Instr} {s t : State} (h : exec i s = .next t) : Executed i s t := by
  cases i
  case init d n ch bits mbz vol =>
    refine executed_command h rfl (fun _ => initBody_sat d n _ _ bits ch vol s) ?_ ?_
    · rintro hf _ ⟨u, hw, hon, htd, rfl⟩
      simp [firstFailure_eq_none, badInit, volLegal] at hf
      obtain ⟨hv, ⟨⟨⟨⟨⟨⟨rfl, h1⟩, -⟩, -⟩, h2⟩, h3⟩, h4⟩, h5, h6, h7⟩ := hf
      exact .init hv h1 h2 h3 h4 h5 h6 h7 hw hon htd
    · rintro - e u ⟨he, ⟨s0, hp, hst⟩, hr⟩
      exact .kept he (by simp) hp (.inr ⟨_, _, _, _, _, _, rfl⟩) hst hr.staysIdle
  case deinit d n =>
    simp only [exec, execDeinit] at h
    have hb : (if (s.inst d n).life = .reset then Res.done s else deinitBody d n s).Sat
        (fun t => ((s.inst d n).life = .reset ∧ t = s) ∨ (s.inst d n).life ≠ .reset ∧ DeinitWork d n s t)
        (fun e t => (s.inst d n).life ≠ .reset ∧ e.late = true ∧ DeinitWork d n s t) := by
      split
      next hl => exact .inl ⟨hl, rfl⟩
      next hl => exact (deinitBody_sat d n s).imp (fun t ht => .inr ⟨hl, ht⟩) fun e t ht => ⟨hl, ht⟩
    refine executed_command h rfl (fun _ => hb) ?_ ?_
    · rintro hf u (⟨hl, rfl⟩ | ⟨hl, hw⟩)
      · exact .deinitReset hl
      · exact .deinit (by simpa [firstFailure_eq_none] using hf) hl hw
    · rintro hf e u ⟨hl, he, hw⟩
      exact .deinit he (by simpa [firstFailure_eq_none] using hf) hl hw
  case play n =>
    exact startSerial_executed (d := .out) (n := n) rfl (by simp) (by simp [isSd]) h fun u hl hu => .play hl hu
  case record n =>
    cases hs : isSd s.cfg .inp n
    · simp only [exec, execRecord, hs] at h
      exact startSerial_executed (d := .inp) (n := n) rfl (by simp) hs h fun u hl hu => .record hs hl hu
    · simp only [exec, execRecord, hs, if_true] at h
      refine executed_command h rfl (fun _ => startMerge_sat n _ _ s hs) ?_ ?_
      · rintro hf _ ⟨u, hu, rfl⟩
        simp [firstFailure_eq_none] at hf
        exact .recordMerge hs hf.2.2 hf.2.1.1 hf.2.1.2 hu
      · rintro - e u ⟨he, hu, hi⟩
        exact .plain he (by simp) hu hi
  case recordm n =>
    refine executed_command (D := fun t => ∃ u, isSd s.cfg .inp n = true ∧ Steps .inp n s u ∧
        t = { u.setLife .inp n .active with sr := s.sr.multiSession (mics s.cfg (s.inst .inp n).device) })
      (R := fun e t => e.late = true ∧ Steps .inp n s t ∧ StaysIdle s t) h rfl (fun hf => ?_) ?_ ?_
    · have hs : isSd s.cfg .inp n = true := by
        simp [firstFailure_eq_none] at hf
        exact hf.1.2
      exact (startMulti_sat n _ _ s hs).imp (fun t ⟨u, h⟩ => ⟨u, hs, h⟩) fun _ _ h => h
    · rintro hf _ ⟨u, hs, hu, rfl⟩
      simp [firstFailure_eq_none] at hf
      exact .recordMulti hs hf.2.2.2 hu
    · rintro - e u ⟨he, hu, hi⟩
      exact .plain he (by simp) hu hi
  case pause d n =>
    simp only [exec, execPause] at h
    refine executed_command h rfl (fun _ => pauseSteps_sat d n s) ?_ ?_
    · rintro hf _ ⟨u, hu, hi, rfl⟩
      simp [firstFailure_eq_none] at hf
      exact .pause hf.2 hu hi
    · rintro - e u ⟨he, hu, hi⟩
      exact .plain he (by simp) hu hi
  case resume d n =>
    simp only [exec, execResume] at h
    refine executed_command h rfl (fun _ => resumeSteps_sat d n s) ?_ ?_
    · rintro hf _ ⟨u, hu, hi, rfl⟩
      simp [firstFailure_eq_none] at hf
      exact .resume hf.2 hu hi
    · rintro - e u ⟨he, hu, hi⟩
      exact .plain he (by simp) hu hi
  case stop d n =>
    refine executed_command h rfl (fun _ => stopBody_sat d n s) ?_ ?_
    · rintro hf _ ⟨u, hu, rfl⟩
      refine .stop ?_ hu
      simp [firstFailure_eq_none] at hf
      exact or_iff_not_imp_left.2 hf.2
    · rintro - e u ⟨he, hu⟩
      refine .plain he (by simp) hu.steps fun q hi => ?_
      by_cases hm : q ∈ queuesOf s.cfg d n
      · rw [hu.queues q hm]; rfl
      · rw [hu.others q hm, hi]
  case mute d n =>
    simp only [exec, execMute] at h
    exact forward_executed rfl (by simp) h fun u hv _ hl hu hq => .mute hv hl hu hq
  case unmute d n =>
    simp only [exec, execUnmute] at h
    exact forward_executed rfl (by simp) h fun u hv _ hl hu hq => .unmute hv hl hu hq
  case setvol d n mbz vol =>
    simp only [exec, execSetvol] at h
    refine forward_executed rfl (by simp) h fun u hv hb hl hu hq => ?_
    simp [volLegal] at hb
    obtain ⟨rfl, hvol⟩ := hb
    exact .setvol hv hl hvol hu hq
  case ismute d n =>
    simp only [exec, execIsmute] at h
    exact getter_executed rfl h
  case getvol d n =>
    simp only [exec, execGetvol] at h
    exact getter_executed rfl h
  case getdev d n =>
    simp only [exec, execGetdev] at h
    exact getter_executed rfl h
  case getrate d n =>
    simp only [exec, execGetrate] at h
    exact getter_executed rfl h
  case getbits d n =>
    simp only [exec, execGetbits] at h
    exact getter_executed rfl h
  case getch d n =>
    simp only [exec, execGetch] at h
    exact getter_executed rfl h
  case getstate d n =>
    simp only [exec, execGetstate] at h
    exact executed_command (D := fun u => u = { s with result := (s.inst d n).life.code.setWidth 32 })
      (R := fun _ _ => False) h rfl (fun _ => rfl) (fun _ u hu => hu ▸ .getter _ rfl) fun _ e u h => h.elim
  case setdev d n =>
    refine executed_command h rfl (fun _ => setdevBody_sat d n _ s) ?_ ?_
    · rintro hf _ ⟨u, hw, rfl⟩
      simp [firstFailure_eq_none] at hf
      exact .setdev hf.1.1 hf.1.2 hf.2.1 hf.2.2 hw
    · rintro - e u ⟨he, hu, hr⟩
      exact .plain he (by simp) hu hr.staysIdle
  case setrate d n =>
    refine executed_command h rfl (fun _ => setrateBody_sat d n _ s) ?_ ?_
    · rintro hf _ ⟨u, hw, rfl⟩
      simp [firstFailure_eq_none] at hf
      exact .setrate hf.1.1 hf.1.2 hf.2.1 hf.2.2 hw
    · rintro - e u ⟨he, hu, hr⟩
      exact .plain he (by simp) hu hr.staysIdle
  case setbits d n mbz bits =>
    refine executed_command h rfl (fun _ => setbitsBody_sat d n bits s) ?_ ?_
    · rintro hf _ ⟨u, hw, rfl⟩
      simp [firstFailure_eq_none] at hf
      obtain ⟨⟨⟨h1, rfl⟩, h2⟩, h3, h4⟩ := hf
      exact .setbits h1 h2 h3 h4 hw
    · rintro - e u ⟨he, hu, hr⟩
      exact .plain he (by simp) hu hr.staysIdle
  case setch d n mbz ch =>
    refine executed_command h rfl (fun _ => setchBody_sat d n ch s) ?_ ?_
    · rintro hf _ ⟨u, hw, rfl⟩
      simp [firstFailure_eq_none] at hf
      obtain ⟨⟨⟨⟨h1, rfl⟩, -⟩, h2⟩, h3, h4⟩ := hf
      exact .setch h1 h2 (h3 (by simp [h4])) h4 hw
    · rintro - e u ⟨he, hu, hr⟩
      exact .plain he (by simp) hu hr.staysIdle
  case regcb d n mbz mask =>
    simp only [exec, execRegcb] at h
    refine executed_command
      (D := fun u => u = s.setInst d n { s.inst d n with cben := mask, cbreg := true }) (R := fun _ _ => False) h rfl
      (fun _ => rfl) ?_ fun _ e u h => h.elim
    rintro hf u rfl
    simp [firstFailure_eq_none] at hf
    obtain ⟨hv, rfl⟩ := hf
    exact .regcb hv

end Sys2Proof.Machine
end

