-- ==== Sys2Proof/Laws/PerInstr.lean ====
section
/-! SUPPORT. The family of statements made per instruction: the encoding of every command selects its own row of the
opcode map (30_encoding.md R107, R111), whatever its operands. -/

namespace Sys2Proof.Laws.EncodeMatchesRow

/-- The number of the command's row in the opcode map, from 0: its opcode less 1 (30_encoding.md R107). -/
def rowNumber : Instr → Nat
  | .init _ _ _ _ _ _ => 0
  | .deinit _ _ => 1
  | .play _ => 2
  | .record _ => 3
  | .recordm _ => 4
  | .pause _ _ => 5
  | .resume _ _ => 6
  | .stop _ _ => 7
  | .mute _ _ => 8
  | .unmute _ _ => 9
  | .ismute _ _ => 10
  | .setvol _ _ _ _ => 11
  | .getvol _ _ => 12
  | .setdev _ _ => 13
  | .getdev _ _ => 14
  | .setrate _ _ => 15
  | .getrate _ _ => 16
  | .setbits _ _ _ _ => 17
  | .getbits _ _ => 18
  | .setch _ _ _ _ => 19
  | .getch _ _ => 20
  | .getstate _ _ => 21
  | .regcb _ _ _ _ => 22

/-- The row of the command selects the command's word. -/
def Statement (i : Instr) : Prop :=
  ∃ r, opcodeTable[rowNumber i]? = some r ∧ r.selects (encode i) = true

/-- The upper half of a word. -/
def upper (opc : BitVec 8) (d : Dir) (i : Idx) : BitVec 16 :=
  opc ++ (dirBit d ++ ((0 : BitVec 3) ++ idxBits i))

/-- A word from its two halves. -/
theorem pack_halves (opc : BitVec 8) (d : Dir) (i : Idx) (imm : BitVec 16) :
    pack opc d i imm = upper opc d i ++ imm := by
  refine BitVec.eq_of_getLsbD_eq fun k hk => ?_
  simp only [pack, upper, BitVec.getLsbD_append]
  by_cases h : k < 16
  · simp [h, show k < 20 by omega, show k < 23 by omega, show k < 24 by omega]
  · simp only [h, if_false, Nat.sub_sub]
    simp [show k < 20 ↔ k - 16 < 4 by omega, show k < 23 ↔ k - 16 < 7 by omega, show k < 24 ↔ k - 16 < 8 by omega]

/-- Masking two halves at once. -/
theorem and_halves (a c b e : BitVec 16) : ((a ++ b : Word) &&& (c ++ e : Word)) = ((a &&& c) ++ (b &&& e) : Word) := by
  refine BitVec.eq_of_getLsbD_eq fun k hk => ?_
  simp only [BitVec.getLsbD_and, BitVec.getLsbD_append]
  split <;> rfl

/-- A row whose mask ignores the immediate selects a word when it selects the upper half. -/
theorem selects_any (p m : BitVec 16) (opc : BitVec 8) (d : Dir) (i : Idx) (imm : BitVec 16)
    (h : upper opc d i &&& m = p) :
    OpcodeRow.selects ⟨p ++ (0 : BitVec 16), m ++ (0 : BitVec 16)⟩ (pack opc d i imm) = true := by
  rw [OpcodeRow.selects, pack_halves, and_halves, h]
  simp

/-- A row whose mask fixes the immediate to 0 selects a word when it selects the upper half. -/
theorem selects_zero (p m : BitVec 16) (opc : BitVec 8) (d : Dir) (i : Idx) (h : upper opc d i &&& m = p) :
    OpcodeRow.selects ⟨p ++ (0 : BitVec 16), m ++ (0xFFFF : BitVec 16)⟩ (pack opc d i 0) = true := by
  rw [OpcodeRow.selects, pack_halves, and_halves, h]
  simp

/-- The mask of the rows with either direction leaves the opcode. -/
theorem upper_both (opc : BitVec 8) (d : Dir) (i : Idx) : upper opc d i &&& 0xFF70 = opc ++ (0 : BitVec 8) := by
  refine BitVec.eq_of_getLsbD_eq fun k hk => ?_
  simp only [upper, BitVec.getLsbD_and, BitVec.getLsbD_append]
  interval_cases k <;> simp

/-- The mask of the rows with one direction leaves the opcode and the direction. -/
theorem upper_one (opc : BitVec 8) (d : Dir) (i : Idx) :
    upper opc d i &&& 0xFFF0 = opc ++ (dirBit d ++ (0 : BitVec 7) : BitVec 8) := by
  refine BitVec.eq_of_getLsbD_eq fun k hk => ?_
  simp only [upper, BitVec.getLsbD_and, BitVec.getLsbD_append]
  interval_cases k <;> simp

theorem init (d : Dir) (i : Idx) (ch : BitVec 2) (bits : BitVec 6) (mbz : BitVec 1) (vol : BitVec 7) :
    Statement (.init d i ch bits mbz vol) :=
  ⟨_, rfl, selects_any 0x0100 0xFF70 1 d i _ (upper_both 1 d i)⟩

theorem deinit (d : Dir) (i : Idx) : Statement (.deinit d i) :=
  ⟨_, rfl, selects_zero 0x0200 0xFF70 2 d i (upper_both 2 d i)⟩

theorem play (i : Idx) : Statement (.play i) :=
  ⟨_, rfl, selects_zero 0x0300 0xFFF0 3 .out i (upper_one 3 .out i)⟩

theorem record (i : Idx) : Statement (.record i) :=
  ⟨_, rfl, selects_zero 0x0480 0xFFF0 4 .inp i (upper_one 4 .inp i)⟩

theorem recordm (i : Idx) : Statement (.recordm i) :=
  ⟨_, rfl, selects_zero 0x0580 0xFFF0 5 .inp i (upper_one 5 .inp i)⟩

theorem pause (d : Dir) (i : Idx) : Statement (.pause d i) :=
  ⟨_, rfl, selects_zero 0x0600 0xFF70 6 d i (upper_both 6 d i)⟩

theorem resume (d : Dir) (i : Idx) : Statement (.resume d i) :=
  ⟨_, rfl, selects_zero 0x0700 0xFF70 7 d i (upper_both 7 d i)⟩

theorem stop (d : Dir) (i : Idx) : Statement (.stop d i) :=
  ⟨_, rfl, selects_zero 0x0800 0xFF70 8 d i (upper_both 8 d i)⟩

theorem mute (d : Dir) (i : Idx) : Statement (.mute d i) :=
  ⟨_, rfl, selects_zero 0x0900 0xFF70 9 d i (upper_both 9 d i)⟩

theorem unmute (d : Dir) (i : Idx) : Statement (.unmute d i) :=
  ⟨_, rfl, selects_zero 0x0A00 0xFF70 10 d i (upper_both 10 d i)⟩

theorem ismute (d : Dir) (i : Idx) : Statement (.ismute d i) :=
  ⟨_, rfl, selects_zero 0x0B00 0xFF70 11 d i (upper_both 11 d i)⟩

theorem setvol (d : Dir) (i : Idx) (mbz : BitVec 9) (vol : BitVec 7) : Statement (.setvol d i mbz vol) :=
  ⟨_, rfl, selects_any 0x0C00 0xFF70 12 d i _ (upper_both 12 d i)⟩

theorem getvol (d : Dir) (i : Idx) : Statement (.getvol d i) :=
  ⟨_, rfl, selects_zero 0x0D00 0xFF70 13 d i (upper_both 13 d i)⟩

theorem setdev (d : Dir) (i : Idx) : Statement (.setdev d i) :=
  ⟨_, rfl, selects_zero 0x0E00 0xFF70 14 d i (upper_both 14 d i)⟩

theorem getdev (d : Dir) (i : Idx) : Statement (.getdev d i) :=
  ⟨_, rfl, selects_zero 0x0F00 0xFF70 15 d i (upper_both 15 d i)⟩

theorem setrate (d : Dir) (i : Idx) : Statement (.setrate d i) :=
  ⟨_, rfl, selects_zero 0x1000 0xFF70 16 d i (upper_both 16 d i)⟩

theorem getrate (d : Dir) (i : Idx) : Statement (.getrate d i) :=
  ⟨_, rfl, selects_zero 0x1100 0xFF70 17 d i (upper_both 17 d i)⟩

theorem setbits (d : Dir) (i : Idx) (mbz : BitVec 10) (bits : BitVec 6) : Statement (.setbits d i mbz bits) :=
  ⟨_, rfl, selects_any 0x1200 0xFF70 18 d i _ (upper_both 18 d i)⟩

theorem getbits (d : Dir) (i : Idx) : Statement (.getbits d i) :=
  ⟨_, rfl, selects_zero 0x1300 0xFF70 19 d i (upper_both 19 d i)⟩

theorem setch (d : Dir) (i : Idx) (mbz : BitVec 14) (ch : BitVec 2) : Statement (.setch d i mbz ch) :=
  ⟨_, rfl, selects_any 0x1400 0xFF70 20 d i _ (upper_both 20 d i)⟩

theorem getch (d : Dir) (i : Idx) : Statement (.getch d i) :=
  ⟨_, rfl, selects_zero 0x1500 0xFF70 21 d i (upper_both 21 d i)⟩

theorem getstate (d : Dir) (i : Idx) : Statement (.getstate d i) :=
  ⟨_, rfl, selects_zero 0x1600 0xFF70 22 d i (upper_both 22 d i)⟩

theorem regcb (d : Dir) (i : Idx) (mbz : BitVec 13) (mask : BitVec 3) : Statement (.regcb d i mbz mask) :=
  ⟨_, rfl, selects_any 0x1700 0xFF70 23 d i _ (upper_both 23 d i)⟩

end Sys2Proof.Laws.EncodeMatchesRow
end

