-- ==== Sys2Proof/Laws/Window.lean ====
section
/-! SUPPORT. The words of the register window, bit by bit (10_state.md R40): each equals the word `shownInst`,
`shownQueue` or the row of the table writes out. -/

namespace Sys2Proof.Machine

/-! ### Placed fields -/

theorem place_halfword (v : BitVec 16) : place v 0 = 0#16 ++ v := by
  refine BitVec.eq_of_getLsbD_eq fun i hi => ?_
  simp only [place, BitVec.getLsbD_append, BitVec.getLsbD_shiftLeft, BitVec.getLsbD_setWidth]
  interval_cases i <;> simp

theorem getLsbD_placeBool (b : Bool) (n i : Nat) (hi : i < 32) :
    (placeBool b n).getLsbD i = (decide (n = i) && b) := by
  simp only [placeBool, place, BitVec.getLsbD_shiftLeft, BitVec.getLsbD_setWidth, BitVec.getLsbD_ofBool]
  by_cases h : n = i
  · subst h; simp [hi]
  · simp only [h, decide_false, Bool.false_and]
    by_cases h2 : i < n
    · simp [h2]
    · simp [show ¬i - n = 0 by omega]

/-! ### The groups -/

theorem ifmt_shown (v : Inst) :
    ifmt v = 0#3 ++ (v.cben ++ (BitVec.ofBool v.cbreg ++ (BitVec.ofBool v.mute ++ (0#1 ++ (v.volume ++ (0#6
      ++ (v.chans ++ (0#2 ++ v.bits)))))))) := by
  refine BitVec.eq_of_getLsbD_eq fun i hi => ?_
  simp only [ifmt, place, placeBool, BitVec.getLsbD_append, BitVec.getLsbD_or, BitVec.getLsbD_shiftLeft,
    BitVec.getLsbD_setWidth, BitVec.getLsbD_ofBool]
  interval_cases i <;> simp

theorem place_life (l : Life) :
    place l.code 0 = 0#30 ++ (match l with
      | .reset => 0#2
      | .active => 1#2
      | .stop => 2#2
      | .pause => 3#2) := by
  cases l <;> decide

theorem instWord_shown (v : Inst) {k : Nat} (hk : k < 4) : instWord v k = (shownInst v).getD k 0 := by
  interval_cases k
  · exact place_life v.life
  · rfl
  · rfl
  · exact ifmt_shown v

theorem qctl_shown (v : Queue) (st : BitVec 2) (h : v.st.code = st) :
    qctl v = 0#7 ++ (BitVec.ofBool v.built ++ (0#6 ++ (BitVec.ofBool v.errs ++ (BitVec.ofBool v.ovr ++ (0#5
      ++ (BitVec.ofBool v.pendErr ++ (BitVec.ofBool v.pendTc ++ (BitVec.ofBool v.pendHt ++ (0#3
      ++ (BitVec.ofBool v.ie ++ (0#2 ++ st))))))))))) := by
  refine BitVec.eq_of_getLsbD_eq fun i hi => ?_
  simp only [qctl, h, place, placeBool, BitVec.getLsbD_append, BitVec.getLsbD_or, BitVec.getLsbD_shiftLeft,
    BitVec.getLsbD_setWidth, BitVec.getLsbD_ofBool]
  interval_cases i <;> simp

theorem queueWord_shown (v : Queue) {k : Nat} (hk : k < 8) : queueWord v k = (shownQueue v).getD k 0 := by
  interval_cases k
  · rfl
  · refine qctl_shown v _ ?_
    cases v.st <;> rfl
  · rfl
  · exact place_halfword v.count
  · exact place_halfword v.pos
  · rfl
  · rfl
  · rfl

/-- Each queue is found at its number. -/
theorem queueOfNumber_windowNumber (q : QueueId) : queueOfNumber (windowNumber q) = some q := by
  cases q with
  | qo i => simp [queueOfNumber, windowNumber]
  | qi j =>
    unfold queueOfNumber windowNumber
    rw [dif_neg (by simp), dif_pos (by simp)]
    simp
  | qm m =>
    unfold queueOfNumber windowNumber
    rw [dif_neg (by simp; omega), dif_neg (by simp; omega), dif_pos (by simp)]
    simp

theorem windowNumber_lt (q : QueueId) : windowNumber q < 44 := by
  cases q <;> simp [windowNumber] <;> omega

/-! ### The parameters and the reassembler -/

theorem param0_shown (p : Config.Params) :
    param0 p = BitVec.ofNat 8 p.codecIds.length ++ (BitVec.ofNat 8 p.mics.length
      ++ (BitVec.ofNat 8 p.ins.length ++ BitVec.ofNat 8 p.outs.length)) := by
  unfold param0 Config.Params.nOut Config.Params.nIn Config.Params.nMic Config.Params.nCodec
  generalize BitVec.ofNat 8 p.codecIds.length = a, BitVec.ofNat 8 p.mics.length = b,
    BitVec.ofNat 8 p.ins.length = c, BitVec.ofNat 8 p.outs.length = d
  refine BitVec.eq_of_getLsbD_eq fun i hi => ?_
  simp only [place, BitVec.getLsbD_append, BitVec.getLsbD_or, BitVec.getLsbD_shiftLeft, BitVec.getLsbD_setWidth]
  interval_cases i <;> simp

theorem place_param1 (cap : BitVec 16) (shift sd : BitVec 5) :
    place cap 0 ||| place shift 16 ||| place sd 24 = 0#3 ++ (sd ++ (0#3 ++ (shift ++ cap))) := by
  refine BitVec.eq_of_getLsbD_eq fun i hi => ?_
  simp only [place, BitVec.getLsbD_append, BitVec.getLsbD_or, BitVec.getLsbD_shiftLeft, BitVec.getLsbD_setWidth]
  interval_cases i <;> simp

theorem param1_shown (p : Config.Params) :
    param1 p = 0#3 ++ (BitVec.ofNat 5 (match p.sd with
      | some j => j.val
      | none => 0x1F) ++ (0#3 ++ (BitVec.ofNat 5 p.shift ++ BitVec.ofNat 16 p.cap))) := by
  unfold param1
  cases p.sd <;> exact place_param1 _ _ _

theorem srctl_shown (r : Reassembler) :
    srctl r = 0#7 ++ (BitVec.ofBool r.ovr ++ (0#6 ++ (BitVec.ofBool r.mbuf ++ (BitVec.ofBool r.ch2
      ++ (0#4 ++ r.en))))) := by
  refine BitVec.eq_of_getLsbD_eq fun i hi => ?_
  simp only [srctl, place, placeBool, BitVec.getLsbD_append, BitVec.getLsbD_or, BitVec.getLsbD_shiftLeft,
    BitVec.getLsbD_setWidth, BitVec.getLsbD_ofBool]
  interval_cases i <;> simp

theorem srrdy_shown (r : Reassembler) : srrdy r = 0#4 ++ (r.rdy1 ++ (0#4 ++ r.rdy0)) := by
  refine BitVec.eq_of_getLsbD_eq fun i hi => ?_
  simp only [srrdy, place, BitVec.getLsbD_append, BitVec.getLsbD_or, BitVec.getLsbD_shiftLeft,
    BitVec.getLsbD_setWidth]
  interval_cases i <;> simp

/-- A word put together from one bit per codec. -/
theorem getLsbD_foldr_placeBool (f : Idx → Bool) (l : List Idx) (i : Nat) (hi : i < 32) :
    (l.foldr (fun c v => placeBool (f c) c.val ||| v) (0 : Word)).getLsbD i
      = l.any fun c => decide (c.val = i) && f c := by
  induction l with
  | nil => simp
  | cons a l ih =>
    rw [List.foldr_cons, BitVec.getLsbD_or, ih, getLsbD_placeBool _ _ _ hi, List.any_cons]

theorem codecPwrWord_shown (s : State) :
    (∀ c : Idx, (codecPwrWord s).getLsbD c.val = s.power[c]) ∧ (codecPwrWord s).toNat < 2 ^ 16 := by
  constructor
  · intro c
    rw [codecPwrWord, getLsbD_foldr_placeBool _ _ _ (by omega), Bool.eq_iff_iff, List.any_eq_true]
    constructor
    · rintro ⟨x, -, h⟩
      rw [Bool.and_eq_true, decide_eq_true_eq] at h
      rw [← Fin.ext h.1]
      exact h.2
    · exact fun h => ⟨c, by simp, by simp [h]⟩
  · refine Nat.lt_pow_two_of_testBit _ fun i hi => ?_
    by_cases h32 : i < 32
    · change (codecPwrWord s).getLsbD i = false
      rw [codecPwrWord, getLsbD_foldr_placeBool _ _ _ h32, List.any_eq_false]
      intro x _
      simp only [Bool.and_eq_true, decide_eq_true_eq, not_and]
      omega
    · exact Nat.testBit_lt_two_pow (Nat.lt_of_lt_of_le (codecPwrWord s).isLt
        (Nat.pow_le_pow_right (by decide) (by omega)))

end Sys2Proof.Machine
end

