-- ==== Sys2Proof/Tests/Slice0.lean ====
section
/-! SUPPORT. Tests on fixed values: the ill-formed operands each check refuses, every command decoded from a word
written out from 30_encoding.md (most of the words stand in 95_test_vectors.md section 2.1), one-step tests of the
commands and of the agents with the results of 95_test_vectors.md, and, for every obligation that has hypotheses,
a state and operands that meet them. -/

namespace Sys2Proof.Tests

open Sys2Proof Sys2Proof.Machine

/-! ### WellFormed (30_encoding.md R104, R105, R114; 95_test_vectors.md 2.1) -/

theorem test_wf_init : (Instr.init .out 0 2 16 0 50).wellFormed = true := by decide
theorem test_wf_init_mbz : (Instr.init .out 0 2 16 1 50).wellFormed = false := by decide
theorem test_wf_init_vol : (Instr.init .out 0 2 16 0 101).wellFormed = false := by decide
theorem test_wf_init_bits : (Instr.init .out 0 2 20 0 50).wellFormed = false := by decide
theorem test_wf_init_ch0 : (Instr.init .out 0 0 16 0 50).wellFormed = false := by decide
theorem test_wf_init_ch3 : (Instr.init .out 0 3 16 0 50).wellFormed = false := by decide
theorem test_wf_setvol_mbz : (Instr.setvol .out 0 1 0).wellFormed = false := by decide
theorem test_wf_setvol_vol : (Instr.setvol .out 0 0 101).wellFormed = false := by decide
theorem test_wf_setbits_mbz : (Instr.setbits .out 0 1 16).wellFormed = false := by decide
theorem test_wf_setbits_bits : (Instr.setbits .out 0 0 0).wellFormed = false := by decide
theorem test_wf_setch_mbz : (Instr.setch .out 0 1 1).wellFormed = false := by decide
theorem test_wf_setch_ch : (Instr.setch .out 0 0 3).wellFormed = false := by decide
theorem test_wf_regcb_mbz : (Instr.regcb .out 0 1 0).wellFormed = false := by decide

/-! ### Decoding, one word or more per command -/

theorem test_decode_init : decode 0x01819000 = .ok (.init .inp 1 2 16 0 0) := by decide
theorem test_decode_init_fields : decode 0x0115E4E5 = .error .zField ∧
    decode 0x018FE4E5 = .ok (.init .inp 15 3 36 1 101) := by decide
theorem test_decode_deinit : decode 0x02800000 = .ok (.deinit .inp 0) := by decide
theorem test_decode_play : decode 0x03000000 = .ok (.play 0) := by decide
theorem test_decode_record : decode 0x04810000 = .ok (.record 1) := by decide
theorem test_decode_recordm : decode 0x05810000 = .ok (.recordm 1) := by decide
theorem test_decode_pause : decode 0x06810000 = .ok (.pause .inp 1) := by decide
theorem test_decode_resume : decode 0x07810000 = .ok (.resume .inp 1) := by decide
theorem test_decode_stop : decode 0x08800000 = .ok (.stop .inp 0) := by decide
theorem test_decode_mute : decode 0x09000000 = .ok (.mute .out 0) := by decide
theorem test_decode_unmute : decode 0x0A800000 = .ok (.unmute .inp 0) := by decide
theorem test_decode_ismute : decode 0x0B000000 = .ok (.ismute .out 0) := by decide
theorem test_decode_setvol : decode 0x0C81000A = .ok (.setvol .inp 1 0 10) := by decide
theorem test_decode_getvol : decode 0x0D810000 = .ok (.getvol .inp 1) := by decide
theorem test_decode_setdev : decode 0x0E810000 = .ok (.setdev .inp 1) := by decide
theorem test_decode_getdev : decode 0x0F810000 = .ok (.getdev .inp 1) := by decide
theorem test_decode_setrate : decode 0x10000000 = .ok (.setrate .out 0) := by decide
theorem test_decode_getrate : decode 0x11800000 = .ok (.getrate .inp 0) := by decide
theorem test_decode_setbits : decode 0x12810018 = .ok (.setbits .inp 1 0 24) := by decide
theorem test_decode_getbits : decode 0x13800000 = .ok (.getbits .inp 0) := by decide
theorem test_decode_setch : decode 0x14810002 = .ok (.setch .inp 1 0 2) := by decide
theorem test_decode_getch : decode 0x15810000 = .ok (.getch .inp 1) := by decide
theorem test_decode_getstate : decode 0x16800000 = .ok (.getstate .inp 0) := by decide
theorem test_decode_regcb : decode 0x17810003 = .ok (.regcb .inp 1 0 3) := by decide

/-- An immediate that R105 refuses is no reserved encoding: it decodes, with the bits that must be zero. -/
theorem test_decode_bad_immediates :
    decode 0x0C000080 = .ok (.setvol .out 0 1 0) ∧ decode 0x12000040 = .ok (.setbits .out 0 1 0) ∧
    decode 0x14000004 = .ok (.setch .out 0 1 0) ∧ decode 0x17000008 = .ok (.regcb .out 0 1 0) ∧
    decode 0x010090B2 = .ok (.init .out 0 2 16 1 50) := by decide

theorem test_decode_reserved :
    decode 0x00000000 = .error .unassignedOpcode ∧ decode 0xFF000000 = .error .unassignedOpcode ∧
    decode 0x04000000 = .error .wrongDirection ∧ decode 0x05000000 = .error .wrongDirection ∧
    decode 0x03000001 = .error .immediateNotZero ∧ decode 0x10000001 = .error .immediateNotZero := by decide

theorem test_encode : encode (.init .inp 0 1 32 0 100) = 0x01806064 ∧ encode (.setbits .inp 0 0 32) = 0x12800020 := by
  decide

theorem test_decodeTableWord : decodeTableWord 32 0x17810003 = some (.regcb .inp 1 0 3) ∧
    decodeTableWord 32 0x18000000 = none := by decide

/-! ### Small states: the configuration of 95_test_vectors.md section 0, each instance in a chosen state -/

/-- Reset, with `CAP = 4` and an environment that grants the next calls and identifies codec 0. -/
def base : State :=
  { State.zeroed { Config.Params.standard with cap := 4 } with answers := List.replicate 8 (.ok 0x8994) }

/-- A queue under a lifecycle state: 4 elements at `0x20000000`. -/
def queueAt (td : Word) (l : Life) : Queue :=
  match l with
  | .active => ⟨td, .running, true, false, false, false, false, false, false, 0x20000000, 4, 0⟩
  | .pause => ⟨td, .paused, true, false, false, false, false, false, false, 0x20000000, 4, 0⟩
  | _ => { Queue.reset with td := td }

/-- `OUT[0]` after `INIT out0, 2, 48000, 16, 2, 50`, in state `l`; `ARG0`, `ARG1` a good buffer of 8 bytes. -/
def outAt (l : Life) : State :=
  ((({ base with arg0 := 0x20000000, arg1 := 8 }).setPower 0 true).setInst .out 0
    ⟨l, 2, 48000, 16, 2, 50, false, false, 0⟩).setQueue (.qo 0) (queueAt 0x155 l)

/-- `IN[0]` after `INIT in0, 1, 48000, 16, 2, 0`, in state `l`. -/
def in0At (l : Life) : State :=
  ((({ base with arg0 := 0x20008000, arg1 := 4096 }).setPower 0 true).setInst .inp 0
    ⟨l, 1, 48000, 16, 2, 0, false, false, 0⟩).setQueue (.qi 0) (queueAt 0x167 l)

/-- The `SD` instance `IN[1]` after `INIT in1, 0x30, 16000, 16, 2, 0`, in state `l`, its two microphones as they are
in a merge-mode session into 16 bytes at `0x20001000`. -/
def sdAt (l : Life) : State :=
  { ((({ base with arg0 := 0x20001000, arg1 := 16 }).setInst .inp 1
      ⟨l, 0x30, 16000, 16, 2, 0, false, true, 7⟩).setQueue (.qm 0) (queueAt 0x16B l)).setQueue (.qm 1)
      (queueAt 0x16B l) with
    sr := ⟨3, true, false, 0, 0, 0, 0x20001000, 8, false⟩ }

/-- The environment gives these answers to the next calls. -/
def answering (as : List Config.Answer) (s : State) : State := { s with answers := as }

/-- The environment fails the next calls. -/
def failing : State → State := answering [.fail, .fail, .fail]

/-- Something of the state a command leads to. -/
def after {α : Type} (i : Instr) (s : State) (f : State → α) : Option α :=
  match exec i s with
  | .next t => some (f t)
  | _ => none

/-- The same of an event. -/
def afterEvent {α : Type} (e : Config.Event) (s : State) (f : State → α) : Option α :=
  match runEvent e s with
  | .next t => some (f t)
  | _ => none

/-- The state an outcome leads to, for the witnesses. -/
def landing (s : State) : Host.Outcome State Fault Refusal → State
  | .next t => t
  | _ => s

/-! ### The commands (95_test_vectors.md 1, 2.2, 2.3, 2.6) -/

theorem test_init : after (.init .out 0 2 16 0 50) { base with arg0 := 2, arg1 := 48000 }
    (fun t => (t.status, t.inst .out 0, (t.queue (.qo 0)).td, t.power[0], t.calls)) =
    some (0, ⟨.stop, 2, 48000, 16, 2, 50, false, false, 0⟩, 0x155, true,
      [.busInit 0, .codecReset 0, .codecReadId 0, .clockConfig .out 0 48000, .linkConfigure (.qo 0) .m2p 2,
       .codecInit 0 ⟨2, 0, 48000, 16, 50⟩]) := by decide
theorem test_init_clock_fails : after (.init .out 0 2 16 0 50)
    { base with arg0 := 2, arg1 := 48000, answers := [.ok 0, .ok 0, .ok 0x8994, .fail] }
    (fun t => (t.status, (t.inst .out 0).life, (t.queue (.qo 0)).td, t.power[0])) =
    some (0xFFFFFFF7, .reset, 0, true) := by decide
theorem test_deinit_reset : after (.deinit .out 0) base (fun t => (t.status, t.calls)) = some (0, []) := by decide
theorem test_deinit_fails : after (.deinit .out 0) { outAt .stop with answers := [.fail, .fail] }
    (fun t => (t.status, (t.inst .out 0).life, t.power[0], t.calls)) =
    some (0xFFFFFFFB, .reset, false, [.codecDeInit 0, .busDeInit 0]) := by decide
theorem test_play_limit : after (.play 0) { outAt .stop with arg1 := 0x1FFFE }
    (fun t => (t.status, (t.inst .out 0).life, (t.queue (.qo 0)).count)) = some (0, .active, 65535) := by decide
theorem test_play_codec_fails : after (.play 0) { outAt .stop with answers := [.ok 0, .fail, .ok 0] }
    (fun t => (t.status, (t.inst .out 0).life, qctl (t.queue (.qo 0)), t.calls)) =
    some (0xFFFFFFFB, .stop, 0, [.linkEnable (.qo 0), .codecPlay 0, .linkDisable (.qo 0)]) := by decide
theorem test_record_serial : after (.record 0) (in0At .stop)
    (fun t => (t.status, (t.inst .inp 0).life, qctl (t.queue (.qi 0)), (t.queue (.qi 0)).count)) =
    some (0, .active, 0x11, 2048) := by decide
theorem test_record_merge : after (.record 1) (sdAt .stop)
    (fun t => (t.status, srctl t.sr, t.sr.size, t.calls)) =
    some (0, 0x00010003, 8, [.linkEnable (.qm 0), .linkEnable (.qm 1)]) ∧
    after (.record 1) { sdAt .stop with arg1 := 24 } (·.status) = some 0xFFFFFFFE := by decide
/-- The buffer table of RECORDM at `0x20000100`: `0x20002000`, `0x20003000`. -/
def table : State :=
  { sdAt .stop with
    arg0 := 0x20000100
    arg1 := 16
    mem := writeBytes [] 0x20000100 [0x00, 0x20, 0x00, 0x20, 0x00, 0x30, 0x00, 0x20] }

theorem test_recordm : after (.recordm 1) table
    (fun t => (t.status, srctl t.sr, (t.queue (.qm 0)).base, (t.queue (.qm 1)).base, (t.queue (.qm 1)).count)) =
    some (0, 0x00020003, 0x20002000, 0x20003000, 4) := by decide
theorem test_recordm_serial : after (.recordm 0) (in0At .stop) (·.status) = some 0xFFFFFFFE := by decide
theorem test_pause_codec_fails : after (.pause .out 0) { outAt .active with answers := [.ok 0, .fail] }
    (fun t => (t.status, (t.inst .out 0).life, qctl (t.queue (.qo 0)), t.calls)) =
    some (0xFFFFFFFB, .active, 0x12, [.linkPause (.qo 0), .codecPause 0]) := by decide
theorem test_resume_link_fails : after (.resume .out 0) { outAt .pause with answers := [.ok 0, .fail] }
    (fun t => (t.status, (t.inst .out 0).life, qctl (t.queue (.qo 0)), t.calls)) =
    some (0xFFFFFFFC, .pause, 0x12, [.codecResume 0, .linkResume (.qo 0)]) := by decide
theorem test_stop : after (.stop .out 0) { outAt .active with answers := [.fail, .fail] }
    (fun t => (t.status, (t.inst .out 0).life, qctl (t.queue (.qo 0)), t.calls)) =
    some (0xFFFFFFFC, .active, 0, [.linkDisable (.qo 0), .codecStop 0 .swPd]) := by decide
theorem test_mute : after (.mute .out 0) (outAt .stop) (fun t => (t.status, (t.inst .out 0).mute, t.calls)) =
    some (0, true, [.codecSetMute 0 true]) := by decide
theorem test_mute_sd : after (.mute .inp 1) (sdAt .stop) (·.status) = some 0xFFFFFFF5 := by decide
theorem test_unmute : after (.unmute .out 0) ((outAt .stop).setInst .out 0 ⟨.stop, 2, 48000, 16, 2, 50, true, false, 0⟩)
    (fun t => (t.status, (t.inst .out 0).mute, t.calls)) = some (0, false, [.codecSetMute 0 false]) := by decide
theorem test_ismute : after (.ismute .out 0)
    ((outAt .stop).setInst .out 0 ⟨.stop, 2, 48000, 16, 2, 50, true, false, 0⟩)
    (fun t => (t.status, t.result)) = some (0, 1) := by decide
theorem test_setvol : after (.setvol .inp 0 0 100) (in0At .stop)
    (fun t => (t.status, (t.inst .inp 0).volume, t.calls)) = some (0, 100, [.codecSetVolume 0 1 100]) := by decide
theorem test_setvol_101 : after (.setvol .out 0 0 101) (outAt .stop) (·.status) = some 0xFFFFFFFE := by decide
theorem test_getvol : after (.getvol .out 0) (outAt .stop) (fun t => (t.status, t.result)) = some (0, 50) := by decide
theorem test_setdev_drops_mic : after (.setdev .inp 1)
    ({ sdAt .stop with arg0 := 0x10 }.setInst .inp 1 ⟨.stop, 0x30, 16000, 16, 1, 0, false, false, 0⟩)
    (fun t => (t.status, (t.inst .inp 1).device, (t.queue (.qm 0)).td, (t.queue (.qm 1)).td, t.calls)) =
    some (0, 0x10, 0x16B, 0, [.linkConfigure (.qm 0) .p2m 4]) := by decide
theorem test_setdev_too_few : after (.setdev .inp 1) { sdAt .stop with arg0 := 0x10 } (·.status) =
    some 0xFFFFFFFE := by decide
theorem test_getdev : after (.getdev .out 0) (outAt .pause) (fun t => (t.status, t.result)) = some (0, 2) := by decide
theorem test_setrate : after (.setrate .out 0) { outAt .stop with arg0 := 44100 }
    (fun t => (t.status, (t.inst .out 0).rate, t.calls)) =
    some (0, 44100, [.clockConfig .out 0 44100, .linkConfigure (.qo 0) .m2p 2, .codecInit 0 ⟨2, 0, 44100, 16, 50⟩]) := by
  decide
theorem test_setrate_playing : after (.setrate .out 0) { outAt .active with arg0 := 44100 } (·.status) =
    some 0xFFFFFFFD := by decide
theorem test_getrate : after (.getrate .out 0) (outAt .stop) (fun t => (t.status, t.result)) = some (0, 48000) := by
  decide
theorem test_setbits : after (.setbits .out 0 0 24) (outAt .stop)
    (fun t => (t.status, (t.inst .out 0).bits, (t.queue (.qo 0)).td, t.calls)) =
    some (0, 24, 0x159, [.linkConfigure (.qo 0) .m2p 4, .codecInit 0 ⟨2, 0, 48000, 24, 50⟩]) := by decide
theorem test_setbits_codec_fails : after (.setbits .out 0 0 24) { outAt .stop with answers := [.ok 0, .fail] }
    (fun t => (t.status, (t.inst .out 0).bits, (t.queue (.qo 0)).td)) = some (0xFFFFFFFF, 16, 0x159) := by decide
theorem test_getbits : after (.getbits .out 0) (outAt .stop) (fun t => (t.status, t.result)) = some (0, 16) := by decide
theorem test_setch : after (.setch .out 0 0 1) (outAt .stop) (fun t => (t.status, (t.inst .out 0).chans, t.calls)) =
    some (0, 1, [.linkConfigure (.qo 0) .m2p 2]) := by decide
theorem test_getch : after (.getch .out 0) (outAt .stop) (fun t => (t.status, t.result)) = some (0, 2) := by decide
theorem test_getch_reset : after (.getch .out 0) base (fun t => (t.status, t.result)) = some (0xFFFFFFFD, 0) := by
  decide
theorem test_getstate : after (.getstate .out 0) (outAt .pause) (fun t => (t.status, t.result)) = some (0, 3) := by
  decide
theorem test_regcb : after (.regcb .inp 1 0 3) base (fun t => (t.status, ifmt (t.inst .inp 1))) =
    some (0, 0x0E000000) := by decide

/-! ### The agents (95_test_vectors.md 2.4, 2.5, 2.7) -/

theorem test_dma_receive : afterEvent (.dma (.qi 0) 0xBEEF) (in0At .active)
    (fun t => (byteAt t.mem 0x20000000, byteAt t.mem 0x20000001, (t.queue (.qi 0)).pos)) =
    some (0xEF, 0xBE, 1) := by decide
theorem test_dma_send : afterEvent (.dma (.qo 0) 0)
    { outAt .active with mem := writeBytes [] 0x20000000 [0x78, 0x56, 0x34, 0x12] } (·.tx) =
    some [(.qo 0, 0x5678)] := by decide
theorem test_dma_overrun : afterEvent (.dma (.qo 0) 0)
    ({ outAt .active with mem := writeBytes [] 0x20000006 [1, 2] }.setQueue (.qo 0)
      ⟨0x155, .running, true, true, false, false, false, false, false, 0x20000000, 4, 3⟩)
    (fun t => qctl (t.queue (.qo 0))) = some 0x00010311 := by decide
theorem test_error : afterEvent (.error (.qm 0)) (sdAt .active) (fun t => qctl (t.queue (.qm 0))) =
    some 0x00020411 := by decide
theorem test_service_paused : afterEvent (.service (.qo 0) .ht)
    (((outAt .pause).setInst .out 0 ⟨.pause, 2, 48000, 16, 2, 50, false, true, 1⟩).setQueue (.qo 0)
      ⟨0x155, .paused, true, true, false, false, false, false, false, 0x20000000, 4, 2⟩)
    (fun t => (qctl (t.queue (.qo 0)), t.evlog)) = some (0x12, [⟨.out, 0, .half, 0⟩]) := by decide
/-- Both microphones have filled their first half (the samples of 95_test_vectors.md S4); channel 0 has reported. -/
def halfFull : State :=
  { (sdAt .active).setQueue (.qm 1)
      ⟨0x16B, .running, true, true, false, false, false, false, false, 0, 4, 2⟩ with
    cb := [(0, 0x00012345), (1, 0x00800000), (65536, 0x00000100), (65537, 0xFF7FFFFF)]
    sr := ⟨3, true, false, 1, 0, 0, 0x20001000, 8, false⟩ }

theorem test_merge_waits : afterEvent (.service (.qm 1) .ht)
    { halfFull with sr := ⟨3, true, false, 0, 0, 0, 0x20001000, 8, false⟩ }
    (fun t => (srrdy t.sr, t.sr.cur, t.evlog, t.mem)) = some (0x00000002, 0, [], []) := by decide
theorem test_merge : afterEvent (.service (.qm 1) .ht) halfFull
    (fun t => (srrdy t.sr, t.sr.cur, t.evlog, readBytes t.mem 0x20001000 8)) =
    some (0, 4, [⟨.inp, 1, .half, 0⟩], [0x23, 0x01, 0x01, 0x00, 0xFF, 0x7F, 0x00, 0x80]) := by decide
theorem test_slots : slotOf 8 0x007FFFFF = 0x7FFF ∧ slotOf 8 0x00800000 = 0x7FFF ∧ slotOf 8 0xFF800000 = 0x8000 ∧
    slotOf 8 0xFF7FFFFF = 0x8000 ∧ slotOf 8 0xFFFFFEFF = 0xFFFE ∧ slotOf 0 0x00008000 = 0x7FFF ∧
    slotOf 31 0x80000000 = 0xFFFF ∧ slotOf 4 0xFFFF7FFF = 0xF7FF := by decide
theorem test_window : readReg (in0At .active) 0x200 = 1 ∧ readReg (in0At .active) 0x20C = 0x00000210 ∧
    readReg (in0At .active) 0x600 = 0x167 ∧ readReg (in0At .active) 0x604 = 0x11 ∧
    readReg (in0At .active) 0x01C = 1 ∧ readReg (sdAt .active) 0xA00 = 0x00010003 ∧
    readReg (sdAt .active) 0x014 = 0x01020201 ∧ readReg (sdAt .active) 0x018 = 0x01080004 := by decide
theorem test_window_groups : readReg (sdAt .active) 0x218 = 16000 ∧ readReg (sdAt .active) 0x21C = 0x1E000210 ∧
    readReg (sdAt .active) 0x824 = 0x11 ∧ readReg (sdAt .active) 0x828 = 0x20000000 ∧
    readReg (sdAt .active) 0x82C = 4 ∧ readReg (sdAt .active) 0x844 = 0 ∧ readReg (sdAt .active) 0xA0C = 0x20001000 ∧
    readReg (sdAt .active) 0xA10 = 8 ∧ readReg (outAt .pause) 0x404 = 0x12 ∧ readReg (outAt .pause) 0x420 = 0 := by decide
theorem test_fetch_word : after (.getstate .out 0) (outAt .pause) (·.result) = some 3 ∧
    (match step ((outAt .pause).withFetchWord 32 0x16000000) with
      | .next t => some (t.result, t.cmd)
      | _ => none) = some (3, 0x16000000) := by decide

/-! ### Witnesses: for each obligation with hypotheses, values that meet them, at the edges of each clause -/

theorem witness_EncodeDecodeRoundTrip : decode 0xFF8FFFFF = .error .unassignedOpcode ∧
    decode 0x178FFFFF = .ok (.regcb .inp 15 0x1FFF 7) ∧ decode 0x01000000 = .ok (.init .out 0 0 0 0 0) := by decide

theorem witness_DecodeAcceptsExactlyTheTable : ⟨0x17000000, 0xFF700000⟩ ∈ opcodeTable ∧
    OpcodeRow.selects ⟨0x17000000, 0xFF700000⟩ 0x178FFFFF = true := by decide

/-- The next agent step is a command, and its word decodes. -/
def commanded : State := { outAt .pause with schedule := [.regWrite 4 0 0x16000000, .dma (.qo 0) 0] }

theorem witness_StepRunsTheDecodedCommand : commanded.schedule = .regWrite 4 0 0x16000000 :: [.dma (.qo 0) 0] ∧
    decode 0x16000000 = .ok (.getstate .out 0) := by decide

theorem witness_ReservedWordOnlyWritesStatus :
    { base with schedule := [.regWrite 4 0 0x18000000] }.schedule = .regWrite 4 0 0x18000000 :: [] ∧
    (∀ r ∈ opcodeTable, r.selects 0x18000000 = false) ∧ (∀ r ∈ opcodeTable, r.selects 0x00FFFFFF = false) ∧
    (∀ r ∈ opcodeTable, r.selects 0x04000000 = false) := by decide

theorem witness_WindowAccesses :
    ((0xC : Word).toNat % 4 = 0 ∧ (0xC : Word) ≠ 0 ∧ (0xC : Word) ≠ 4 ∧ (0xC : Word) ≠ 8) ∧
    ((0xFFFFFFFC : Word).toNat % 4 = 0 ∧ (0xFFFFFFFC : Word) ≠ 0 ∧ (0xFFFFFFFC : Word) ≠ 4 ∧
      (0xFFFFFFFC : Word) ≠ 8) ∧
    (0 : Word).toNat % 4 = 0 ∧ ((4 : Nat) ≠ 4 ∨ (1 : Word).toNat % 4 ≠ 0) ∧ ((3 : Nat) ≠ 4 ∨ (0 : Word).toNat % 4 ≠ 0) ∧
    ((5 : Nat) ≠ 4 ∨ (0 : Word).toNat % 4 ≠ 0) := by decide

/-- The groups that exist, the first and the last that do not, the first and the last word of a group, and the ends of
the unmapped ranges. -/
theorem witness_WindowContents :
    (valid base.cfg .out 0 = true ∧ valid base.cfg .out 1 = false ∧ valid base.cfg .out 15 = false ∧
      valid base.cfg .inp 1 = true ∧ valid base.cfg .inp 2 = false ∧ valid base.cfg .inp 15 = false ∧ 0 < 4 ∧ 3 < 4) ∧
    (queueExists base.cfg (.qo 0) = true ∧ queueExists base.cfg (.qo 1) = false ∧ queueExists base.cfg (.qo 15) = false ∧
      queueExists base.cfg (.qi 1) = false ∧ queueExists base.cfg (.qi 15) = false ∧
      queueExists base.cfg (.qm 1) = true ∧ queueExists base.cfg (.qm 2) = false ∧
      queueExists base.cfg (.qm 11) = false ∧ 0 < 8 ∧ 7 < 8) ∧
    ∀ off ∈ [0x020, 0x0FF, 0x300, 0x3FF, 0x980, 0x9FF, 0xA14, 0x100000],
      (0x020 ≤ off ∧ off < 0x100) ∨ (0x300 ≤ off ∧ off < 0x400) ∨ (0x980 ≤ off ∧ off < 0xA00) ∨ 0xA14 ≤ off := by
  decide

theorem witness_MemoryIsLittleEndian : (0 < 2 ∧ 1 < 2) ∧ (7 < 8 ∨ 8 + 2 ≤ 7) ∧ (10 < 8 ∨ 8 + 2 ≤ 10) := by decide

theorem witness_StatusIsAlwaysATableCode :
    exec (.stop .out 0) (outAt .active) = .next (landing base (exec (.stop .out 0) (outAt .active))) := by rfl

/-- One microphone recorded, so that the selector `0x10` has enough. -/
def monoAt : State := { sdAt .stop with arg0 := 0x10 }.setInst .inp 1 ⟨.stop, 0x30, 16000, 16, 1, 0, false, false, 0⟩

/-- `OUT[0]` stopped, with system memory reachable in one page only. -/
def paged : State :=
  { outAt .stop with cfg := { (outAt .stop).cfg with memory := [⟨0x20000000, 0x1000⟩] } }

/-- Each way an instance, an immediate, or the operand of INIT or of a reconfiguration can be bad. -/
theorem witness_BadInstanceOrImmediateIsWrongParam :
    (valid base.cfg .out 1 = false ∧ valid base.cfg .inp 2 = false ∧ valid base.cfg .inp 15 = false ∧
      (Instr.setvol .out 0 0 101).wellFormed = false ∧ (Instr.setch .out 0 1 1).wellFormed = false) ∧
    (devOk base.cfg .out 0 0 = false ∧ devOk base.cfg .inp 1 0x40 = false ∧ rateOk base.cfg .out 0 47999 = false ∧
      comboOk base.cfg .inp 1 24 1 = false ∧ comboOk base.cfg .out 0 16 3 = false ∧
      TooFewMics base.cfg .inp 1 0x10 2) ∧
    TooFewMics (sdAt .stop).cfg .inp 1 0x10 ((sdAt .stop).inst .inp 1).chans ∧
    comboOk (sdAt .stop).cfg .inp 1 32 2 = false ∧ comboOk (sdAt .stop).cfg .inp 1 16 0 = false ∧
    ((monoAt.setInst .inp 1 ⟨.stop, 0x10, 16000, 16, 1, 0, false, false, 0⟩).inst .inp 1).life ≠ .reset ∧
    TooFewMics monoAt.cfg .inp 1 0x10 2 := by
  unfold TooFewMics
  decide

/-- Each way a buffer of PLAY and RECORD can be bad: null, no whole element, none, too many, misaligned, wrapping,
unreachable; and a merge-mode length that is no multiple. -/
theorem witness_BadInstanceOrImmediateIsWrongParam_buffer :
    (((outAt .stop).inst .out 0).bits = 16 ∧ BadBuffer base.cfg 2 0 8 ∧ BadBuffer base.cfg 2 0x20000000 7 ∧
      BadBuffer base.cfg 2 0x20000000 0 ∧ BadBuffer base.cfg 2 0x20000000 0x20000 ∧
      BadBuffer base.cfg 2 0x20000001 8 ∧ BadBuffer base.cfg 2 0xFFFFFFFA 8 ∧ BadBuffer paged.cfg 2 0x20000FFA 8) ∧
    (isSd (in0At .stop).cfg .inp 0 = false ∧
      ((in0At .stop).inst .inp 0).bits = 16 ∧ BadBuffer (in0At .stop).cfg 2 0 4096) ∧
    (isSd (sdAt .stop).cfg .inp 1 = true ∧ BadBuffer (sdAt .stop).cfg 2 0 16 ∧
      (24 : Word).toNat / 2 % (2 * (sdAt .stop).cfg.cap) ≠ 0) :=
  ⟨⟨by decide, .inl rfl, .inr (.inl (by decide)), .inr (.inr (.inl (by decide))),
    .inr (.inr (.inr (.inl (by decide)))), .inr (.inr (.inr (.inr (.inl (by decide))))),
    .inr (.inr (.inr (.inr (.inr (.inl (by decide)))))), .inr (.inr (.inr (.inr (.inr (.inr (by decide))))))⟩,
    ⟨by decide, by decide, .inl rfl⟩, by decide, .inl rfl, by decide⟩

/-- RECORDM on a `SERIAL` instance; a bad table, a bad length, and a table with an entry never written (0). -/
theorem witness_BadInstanceOrImmediateIsWrongParam_table :
    isSd (in0At .stop).cfg .inp 0 = false ∧ BadTable table 3 0 16 ∧ BadTable table 3 0x20000102 16 ∧
    BadTable table 3 0xFFFFFFFC 16 ∧ BadTable table 3 0x20000100 18 ∧ BadTable table 3 0x20000100 0 ∧
    BadTable table 3 0x20000100 0x40000 ∧
    (mics table.cfg (table.inst .inp 1).device = 3 ∧
      BadTable { table with mem := writeBytes table.mem 0x20000104 [0, 0, 0, 0] } 3 0x20000100 16) := by
  refine ⟨by decide, .inl rfl, .inr (.inl (by decide)), .inr (.inr (.inl (by decide))),
    .inr (.inr (.inr (.inr (.inl (by decide))))), .inr (.inr (.inr (.inr (.inr (.inl (by decide)))))),
    .inr (.inr (.inr (.inr (.inr (.inr (.inl (by decide))))))), by decide,
    .inr (.inr (.inr (.inr (.inr (.inr (.inr ⟨1, 0, by decide, by decide, .inl rfl⟩))))))⟩

theorem witness_CheckFailureWritesOnlyStatus :
    (exec (.play 0) (outAt .active) = .next (landing base (exec (.play 0) (outAt .active))) ∧
      (landing base (exec (.play 0) (outAt .active))).status = 0xFFFFFFFD) ∧
    (exec (.mute .inp 1) (sdAt .stop) = .next (landing base (exec (.mute .inp 1) (sdAt .stop))) ∧
      (landing base (exec (.mute .inp 1) (sdAt .stop))).status = 0xFFFFFFF5) ∧
    (exec (.setvol .out 0 0 101) (outAt .stop) = .next (landing base (exec (.setvol .out 0 0 101) (outAt .stop))) ∧
      (landing base (exec (.setvol .out 0 0 101) (outAt .stop))).status = 0xFFFFFFFE) :=
  ⟨⟨rfl, rfl⟩, ⟨rfl, rfl⟩, rfl, rfl⟩

theorem witness_FailedCommandKeepsInstances :
    exec (.stop .out 0) (failing (outAt .active)) = .next (landing base (exec (.stop .out 0) (failing (outAt .active)))) ∧
    (landing base (exec (.stop .out 0) (failing (outAt .active)))).status ≠ 0 ∧
    (∀ d n, Instr.stop .out 0 ≠ .deinit d n) :=
  ⟨rfl, by decide, by intros; simp⟩

theorem witness_CommandsKeepSurroundings :
    exec (.record 1) (sdAt .stop) = .next (landing base (exec (.record 1) (sdAt .stop))) := by rfl

theorem witness_CommandsStayInTheirInstance :
    exec (.record 1) (sdAt .stop) = .next (landing base (exec (.record 1) (sdAt .stop))) ∧
    (Dir.out, (0 : Idx)) ≠ (Instr.record 1).target ∧ QueueId.qo 0 ∈ queuesOf (sdAt .stop).cfg .out 0 ∧
    (Dir.inp, (0 : Idx)) ≠ (Instr.record 1).target ∧ QueueId.qi 0 ∈ queuesOf (sdAt .stop).cfg .inp 0 :=
  ⟨rfl, by decide, by decide, by decide, by decide⟩

/-- INIT that powers the codec up, DEINIT that powers it down, RECORD on the `SD` instance, a getter: each changes what
its clause speaks of. -/
theorem witness_RegisterWriters :
    (exec (.init .out 0 2 16 0 50) { base with arg0 := 2, arg1 := 48000 } = .next
        (landing base (exec (.init .out 0 2 16 0 50) { base with arg0 := 2, arg1 := 48000 })) ∧
      (landing base (exec (.init .out 0 2 16 0 50) { base with arg0 := 2, arg1 := 48000 })).power[(0 : Idx)]
        ≠ base.power[(0 : Idx)]) ∧
    (exec (.deinit .out 0) (outAt .stop) = .next (landing base (exec (.deinit .out 0) (outAt .stop))) ∧
      (landing base (exec (.deinit .out 0) (outAt .stop))).power[(0 : Idx)] ≠ (outAt .stop).power[(0 : Idx)]) ∧
    (exec (.recordm 1) table = .next (landing base (exec (.recordm 1) table)) ∧
      (landing base (exec (.recordm 1) table)).sr ≠ table.sr) ∧
    (exec (.getrate .out 0) (outAt .stop) = .next (landing base (exec (.getrate .out 0) (outAt .stop))) ∧
      (landing base (exec (.getrate .out 0) (outAt .stop))).result ≠ (outAt .stop).result) :=
  ⟨⟨rfl, by decide⟩, ⟨rfl, by decide⟩, ⟨rfl, by decide⟩, rfl, by decide⟩

theorem witness_GettersReturnTheCache :
    (Instr.getdev .out 0, ((outAt .stop).inst .out 0).device) ∈
      [(Instr.getdev .out 0, ((outAt .stop).inst .out 0).device), (.getrate .out 0, ((outAt .stop).inst .out 0).rate)] ∧
    valid base.cfg .out 1 = false ∧ (valid base.cfg .out 0 = true ∧ (base.inst .out 0).life = .reset) ∧
    (valid (outAt .stop).cfg .out 0 = true ∧ ((outAt .stop).inst .out 0).life ≠ .reset) := by decide

theorem witness_GetstateReturnsTheCode : valid base.cfg .out 1 = false ∧ valid (outAt .pause).cfg .out 0 = true ∧
    valid base.cfg .inp 1 = true := by decide

theorem witness_RegcbWritesTheMask : valid base.cfg .inp 1 = true := by decide

theorem witness_SetvolForwardsToTheCodec : valid (outAt .stop).cfg .out 0 = true ∧ (100 : BitVec 7).toNat ≤ 100 ∧
    (0 : BitVec 7).toNat ≤ 100 ∧ (base.inst .out 0).life = .reset ∧
    (valid (sdAt .stop).cfg .inp 1 = true ∧ ((sdAt .stop).inst .inp 1).life ≠ .reset ∧
      codecOf (sdAt .stop).cfg .inp 1 = none) ∧
    (((outAt .stop).inst .out 0).life ≠ .reset ∧ codecOf (outAt .stop).cfg .out 0 = some 0 ∧
      answerOk (outAt .stop).nextAnswer = true ∧ answerOk (failing (outAt .stop)).nextAnswer = false) := by decide

theorem witness_MuteAndUnmuteForwardToTheCodec :
    (Instr.unmute .out 0, false) ∈ [(Instr.mute .out 0, true), (Instr.unmute .out 0, false)] ∧
    valid base.cfg .out 1 = false ∧ valid (outAt .stop).cfg .out 0 = true ∧
    (valid base.cfg .out 0 = true ∧ (base.inst .out 0).life = .reset) ∧
    (valid (sdAt .stop).cfg .inp 1 = true ∧ ((sdAt .stop).inst .inp 1).life ≠ .reset ∧ codecOf (sdAt .stop).cfg .inp 1 = none) ∧
    (((outAt .stop).inst .out 0).life ≠ .reset ∧ codecOf (outAt .stop).cfg .out 0 = some 0 ∧
      answerOk (outAt .stop).nextAnswer = true ∧ answerOk (failing (outAt .stop)).nextAnswer = false) := by decide

/-- The `SD` instance drops a microphone, with one call; a serial instance makes two, of which each can fail. -/
theorem witness_SetdevRebuildsAndSelects :
    (∀ as ∈ [[.ok 0], [.fail]], valid (answering as monoAt).cfg .inp 1 = true ∧
      devOk (answering as monoAt).cfg .inp 1 (answering as monoAt).arg0 = true ∧
      tooFewMics monoAt.cfg .inp 1 monoAt.arg0 ((answering as monoAt).inst .inp 1).chans = false ∧
      ((answering as monoAt).inst .inp 1).life = .stop) ∧
    (configuredQueues monoAt.cfg .inp 1 monoAt.arg0 = [.qm 0] ∧ codecOf monoAt.cfg .inp 1 = none ∧
      QueueId.qm 1 ∈ queuesOf monoAt.cfg .inp 1) ∧
    Granted 1 (answering [.ok 0] monoAt) ∧ FailsAt 0 (answering [.fail] monoAt) ∧
    (∀ as ∈ [[.ok 0, .ok 0], [.fail], [.ok 0, .fail]], valid (answering as (outAt .stop)).cfg .out 0 = true ∧
      devOk (outAt .stop).cfg .out 0 3 = true ∧
      tooFewMics (outAt .stop).cfg .out 0 3 ((answering as (outAt .stop)).inst .out 0).chans = false ∧
      ((answering as { outAt .stop with arg0 := 3 }).inst .out 0).life = .stop) ∧
    (configuredQueues (outAt .stop).cfg .out 0 3 = [.qo 0] ∧ codecOf (outAt .stop).cfg .out 0 = some 0) ∧
    Granted 2 (answering [.ok 0, .ok 0] { outAt .stop with arg0 := 3 }) ∧
    FailsAt 0 (answering [.fail] { outAt .stop with arg0 := 3 }) ∧
    FailsAt 1 (answering [.ok 0, .fail] { outAt .stop with arg0 := 3 }) := by
  unfold FailsAt Granted
  decide

/-- Three calls: the clock, one link, the codec. -/
theorem witness_SetrateSetsTheRate :
    (∀ as ∈ [[.ok 0, .ok 0, .ok 0], [.fail], [.ok 0, .fail], [.ok 0, .ok 0, .fail]],
      valid (answering as (outAt .stop)).cfg .out 0 = true ∧ rateOk (outAt .stop).cfg .out 0 (192000 : Word) = true ∧
      ((answering as { outAt .stop with arg0 := 192000 }).inst .out 0).life = .stop ∧
      xinstOk (answering as { outAt .stop with arg0 := 192000 }) .out 0 192000 16 = true) ∧
    (configuredQueues (outAt .stop).cfg .out 0 2 = [.qo 0] ∧ codecOf (outAt .stop).cfg .out 0 = some 0) ∧
    Granted 3 (answering [.ok 0, .ok 0, .ok 0] (outAt .stop)) ∧ FailsAt 0 (answering [.fail] (outAt .stop)) ∧
    FailsAt 1 (answering [.ok 0, .fail] (outAt .stop)) ∧
    FailsAt 2 (answering [.ok 0, .ok 0, .fail] (outAt .stop)) := by
  unfold FailsAt Granted
  decide

/-- Two calls: one link, the codec. -/
theorem witness_SetbitsSetsTheWidth :
    (∀ as ∈ [[.ok 0, .ok 0], [.fail], [.ok 0, .fail]], valid (answering as (outAt .stop)).cfg .out 0 = true ∧
      comboOk (outAt .stop).cfg .out 0 32 (chansOr1 2) = true ∧
      ((answering as (outAt .stop)).inst .out 0).life = .stop ∧
      xinstOk (answering as (outAt .stop)) .out 0 48000 32 = true) ∧
    (configuredQueues (outAt .stop).cfg .out 0 2 = [.qo 0] ∧ codecOf (outAt .stop).cfg .out 0 = some 0) ∧
    Granted 2 (answering [.ok 0, .ok 0] (outAt .stop)) ∧ FailsAt 0 (answering [.fail] (outAt .stop)) ∧
    FailsAt 1 (answering [.ok 0, .fail] (outAt .stop)) := by
  unfold FailsAt Granted
  decide

/-- Two links, and no codec. -/
theorem witness_SetchSetsTheChannels :
    (∀ as ∈ [[.ok 0, .ok 0], [.fail], [.ok 0, .fail]], valid (answering as (sdAt .stop)).cfg .inp 1 = true ∧
      comboOk (sdAt .stop).cfg .inp 1 (bitsOr16 16) 2 = true ∧ tooFewMics (sdAt .stop).cfg .inp 1 0x30 2 = false ∧
      ((answering as (sdAt .stop)).inst .inp 1).life = .stop) ∧
    configuredQueues (sdAt .stop).cfg .inp 1 0x30 = [.qm 0, .qm 1] ∧
    Granted 2 (answering [.ok 0, .ok 0] (sdAt .stop)) ∧ FailsAt 0 (answering [.fail] (sdAt .stop)) ∧
    FailsAt 1 (answering [.ok 0, .fail] (sdAt .stop)) := by
  unfold FailsAt Granted
  decide

theorem witness_ReconfigurationNeedsStop :
    valid (outAt .active).cfg .out 0 = true ∧ ((outAt .active).inst .out 0).life ≠ .stop ∧
    (devOk (outAt .active).cfg .out 0 3 = true ∧ tooFewMics (outAt .active).cfg .out 0 3 2 = false) ∧
    rateOk (outAt .active).cfg .out 0 44100 = true ∧ comboOk (outAt .active).cfg .out 0 24 (chansOr1 2) = true ∧
    comboOk (outAt .active).cfg .out 0 (bitsOr16 16) 1 = true ∧ tooFewMics (outAt .active).cfg .out 0 2 1 = false ∧
    (base.inst .out 0).life = .reset := by decide

/-- Both coupled instances exist, at 48000 Hz and 16 bits, and the operands are good. -/
def coupled (l : Life) : State :=
  { (outAt l).setInst .inp 0 ⟨.stop, 1, 48000, 16, 2, 0, false, false, 0⟩ with arg0 := 44100, arg1 := 44100 }

theorem witness_SharedClockIsRefused :
    valid (coupled .stop).cfg .out 0 = true ∧ (Dir.inp, (0 : Idx)) ∈ sibs (coupled .stop).cfg .out 0 ∧
    ((coupled .stop).inst .inp 0).life ≠ .reset ∧
    (((coupled .stop).inst .out 0).life = .stop ∧ rateOk (coupled .stop).cfg .out 0 44100 = true ∧
      ((coupled .stop).inst .inp 0).rate ≠ 44100) ∧
    (comboOk (coupled .stop).cfg .out 0 24 (chansOr1 2) = true ∧ ((coupled .stop).inst .inp 0).bits ≠ 24) ∧
    (((coupled .reset).inst .out 0).life = .reset ∧ (100 : BitVec 7).toNat ≤ 100 ∧
      devOk (coupled .reset).cfg .out 0 2 = true ∧ comboOk (coupled .reset).cfg .out 0 16 2 = true ∧
      tooFewMics (coupled .reset).cfg .out 0 2 2 = false) := by decide

/-- Reset, with the operands of `INIT out0, 2, 48000, 16, 2, 50`. -/
def fresh : State := { base with arg0 := 2, arg1 := 48000 }

/-- The answers of a power-up that succeeds. -/
def poweredUp : List Config.Answer := [.ok 0, .ok 0, .ok 0x8994]

/-- Three calls power the codec up; then the clock, one link, the codec. -/
theorem witness_InitCreatesTheInstance :
    (∀ as ∈ [[.ok 0, .ok 0, .ok 0], [.fail], [.ok 0, .fail], [.ok 0, .ok 0, .fail]],
      valid (answering (poweredUp ++ as) fresh).cfg .out 0 = true ∧ (100 : BitVec 7).toNat ≤ 100 ∧
      devOk fresh.cfg .out 0 fresh.arg0 = true ∧ rateOk fresh.cfg .out 0 fresh.arg1 = true ∧
      comboOk fresh.cfg .out 0 16 2 = true ∧ tooFewMics fresh.cfg .out 0 fresh.arg0 2 = false ∧
      ((answering (poweredUp ++ as) fresh).inst .out 0).life = .reset ∧
      xinstOk (answering (poweredUp ++ as) fresh) .out 0 fresh.arg1 16 = true ∧
      ProbeMatches (answering (poweredUp ++ as) fresh) .out 0) ∧
    ((powerUpCalls fresh .out 0).length = 3 ∧ configuredQueues fresh.cfg .out 0 fresh.arg0 = [.qo 0] ∧
      codecOf fresh.cfg .out 0 = some 0) ∧
    Granted 6 (answering (poweredUp ++ [.ok 0, .ok 0, .ok 0]) fresh) ∧
    FailsAt (3 + 0) (answering (poweredUp ++ [.fail]) fresh) ∧
    FailsAt (3 + 1) (answering (poweredUp ++ [.ok 0, .fail]) fresh) ∧
    FailsAt (3 + 2) (answering (poweredUp ++ [.ok 0, .ok 0, .fail]) fresh) := by
  unfold FailsAt Granted ProbeMatches
  decide

/-- A codec that is on, and an instance without one: no call before the clock. -/
theorem witness_InitCreatesTheInstance_on :
    (ProbeMatches (outAt .reset) .out 0 ∧ (powerUpCalls (outAt .reset) .out 0).length = 0 ∧
      xinstOk (outAt .reset) .out 0 48000 16 = true ∧ ((outAt .reset).inst .out 0).life = .reset) ∧
    (ProbeMatches (sdAt .reset) .inp 1 ∧ (powerUpCalls (sdAt .reset) .inp 1).length = 0 ∧
      xinstOk (sdAt .reset) .inp 1 16000 16 = true ∧ ((sdAt .reset).inst .inp 1).life = .reset) := by
  unfold ProbeMatches
  decide

/-- The bus fails; the probe fails; the probe answers another identity; the codec reset fails and all else is granted. -/
theorem witness_PowerUpProbesTheCodec :
    (∀ as ∈ [[.fail, .ok 0, .ok 0], [.ok 0, .ok 0, .fail], [.ok 0, .fail, .ok 0x1234],
        [.ok 0, .fail, .ok 0x8994, .ok 0, .ok 0, .ok 0]],
      codecOf (answering as fresh).cfg .out 0 = some 0 ∧ (answering as fresh).power[(0 : Idx)] = false ∧
      xinstOk (answering as fresh) .out 0 fresh.arg1 16 = true ∧ ((answering as fresh).inst .out 0).life = .reset ∧
      ∃ a₁ ∈ as, ∃ a₂ ∈ as, ∃ a₃ ∈ as, (answering as fresh).answers.take 3 = [a₁, a₂, a₃]) ∧
    (valid fresh.cfg .out 0 = true ∧ (0 : BitVec 7).toNat ≤ 100 ∧ devOk fresh.cfg .out 0 fresh.arg0 = true ∧
      rateOk fresh.cfg .out 0 fresh.arg1 = true ∧ comboOk fresh.cfg .out 0 16 2 = true ∧
      tooFewMics fresh.cfg .out 0 fresh.arg0 2 = false) ∧
    answerOk (.ok 0) = true ∧ 0x1234 ≠ codecId fresh.cfg 0 := by decide

/-- In `RESET`; active, with a link that fails; stopped, the last of its codec, each of whose two calls can fail; and
not the last. -/
theorem witness_DeinitAlwaysResets :
    (valid base.cfg .out 0 = true ∧ (base.inst .out 0).life = .reset) ∧
    (valid (outAt .active).cfg .out 0 = true ∧ ((outAt .active).inst .out 0).life ≠ .reset ∧
      1 = (armed (outAt .active) (queuesOf (outAt .active).cfg .out 0)).length ∧
      1 ≤ (failing (outAt .active)).answers.length ∧ ¬Granted 1 (failing (outAt .active)) ∧
      lastOfCodec (outAt .active) .out 0 = true ∧ FailsAt 1 (answering [.ok 0, .fail] (outAt .active)) ∧
      FailsAt 2 (answering [.ok 0, .ok 0, .fail] (outAt .active)) ∧ Granted 3 (outAt .active)) ∧
    (((outAt .stop).inst .out 0).life ≠ .reset ∧ lastOfCodec (outAt .stop) .out 0 = true ∧
      0 = (armed (outAt .stop) (queuesOf (outAt .stop).cfg .out 0)).length ∧ FailsAt 0 (failing (outAt .stop)) ∧
      FailsAt 1 (answering [.ok 0, .fail] (outAt .stop)) ∧ Granted 2 (outAt .stop)) ∧
    (((coupled .stop).inst .out 0).life ≠ .reset ∧ lastOfCodec (coupled .stop) .out 0 = false ∧
      0 = (armed (coupled .stop) (queuesOf (coupled .stop).cfg .out 0)).length ∧ Granted 0 (coupled .stop)) := by
  unfold FailsAt Granted
  decide

/-- Two calls, of which each can fail; and buffers at the ends of the ranges. -/
theorem witness_PlayStartsQueueThenCodec :
    (∀ as ∈ [[.ok 0, .ok 0], [.fail], [.ok 0, .fail, .fail]], valid (answering as (outAt .stop)).cfg .out 0 = true ∧
      badBuffer (outAt .stop).cfg (width 16) (outAt .stop).arg0 (outAt .stop).arg1 = false ∧
      ((answering as (outAt .stop)).inst .out 0).life = .stop ∧
      tdValid ((answering as (outAt .stop)).queue (.qo 0)).td = true ∧
      ((answering as (outAt .stop)).queue (.qo 0)).st = .idle) ∧
    codecOf (outAt .stop).cfg .out 0 = some 0 ∧ Granted 2 (answering [.ok 0, .ok 0] (outAt .stop)) ∧
    FailsAt 0 (answering [.fail] (outAt .stop)) ∧ FailsAt 1 (answering [.ok 0, .fail, .fail] (outAt .stop)) ∧
    (badBuffer (outAt .stop).cfg (width 16) 0xFFFFFFF8 8 = false ∧
      badBuffer (outAt .stop).cfg (width 16) 0x20000000 0x1FFFE = false) := by
  unfold FailsAt Granted
  decide

theorem witness_RecordSerialStartsQueueThenCodec :
    (∀ as ∈ [[.ok 0, .ok 0], [.fail], [.ok 0, .fail, .ok 0]], valid (answering as (in0At .stop)).cfg .inp 0 = true ∧
      isSd (in0At .stop).cfg .inp 0 = false ∧
      badBuffer (in0At .stop).cfg (width 16) (in0At .stop).arg0 (in0At .stop).arg1 = false ∧
      ((answering as (in0At .stop)).inst .inp 0).life = .stop ∧
      tdValid ((answering as (in0At .stop)).queue (.qi 0)).td = true ∧
      ((answering as (in0At .stop)).queue (.qi 0)).st = .idle) ∧
    codecOf (in0At .stop).cfg .inp 0 = some 0 ∧ Granted 2 (answering [.ok 0, .ok 0] (in0At .stop)) ∧
    FailsAt 0 (answering [.fail] (in0At .stop)) ∧ FailsAt 1 (answering [.ok 0, .fail, .ok 0] (in0At .stop)) := by
  unfold FailsAt Granted
  decide

/-- Two microphones, of which each start can fail. -/
theorem witness_RecordMergeSetsUpTheSession :
    (∀ as ∈ [[.ok 0, .ok 0], [.fail], [.ok 0, .fail, .fail]], valid (answering as (sdAt .stop)).cfg .inp 1 = true ∧
      isSd (sdAt .stop).cfg .inp 1 = true ∧ ((answering as (sdAt .stop)).inst .inp 1).life = .stop ∧
      3 = lowbits (mics (sdAt .stop).cfg ((answering as (sdAt .stop)).inst .inp 1).device)
        ((answering as (sdAt .stop)).inst .inp 1).chans.toNat ∧
      (∀ m ∈ bitList 3, tdValid ((answering as (sdAt .stop)).queue (.qm m)).td = true ∧
        ((answering as (sdAt .stop)).queue (.qm m)).st = .idle)) ∧
    (1 ≤ (sdAt .stop).cfg.cap ∧ (sdAt .stop).cfg.cap ≤ 65535 ∧
      badBuffer (sdAt .stop).cfg 2 (sdAt .stop).arg0 (sdAt .stop).arg1 = false ∧
      (sdAt .stop).arg1.toNat / 2 % (2 * (sdAt .stop).cfg.cap) = 0) ∧
    (bitList 3).length = 2 ∧ Granted 2 (answering [.ok 0, .ok 0] (sdAt .stop)) ∧
    FailsAt 0 (answering [.fail] (sdAt .stop)) ∧ FailsAt 1 (answering [.ok 0, .fail, .fail] (sdAt .stop)) := by
  unfold FailsAt Granted
  decide

theorem witness_RecordmStartsEverySelectedMic :
    (∀ as ∈ [[.ok 0, .ok 0], [.fail], [.ok 0, .fail, .fail]], valid (answering as table).cfg .inp 1 = true ∧
      ((answering as table).inst .inp 1).life = .stop ∧
      3 = mics table.cfg ((answering as table).inst .inp 1).device ∧
      (∀ m ∈ bitList 3, tdValid ((answering as table).queue (.qm m)).td = true ∧
        ((answering as table).queue (.qm m)).st = .idle)) ∧
    (isSd table.cfg .inp 1 = true ∧ badTable table.cfg table.arg0 table.arg1 = false ∧
      (∀ m ∈ bitList 3, badEntry table.cfg table.arg1
        (BitVec.ofNat 32 (memRead table.mem (table.arg0.toNat + 4 * m.val) 4)) = false)) ∧
    (bitList 3).length = 2 ∧ Granted 2 (answering [.ok 0, .ok 0] table) ∧
    FailsAt 0 (answering [.fail] table) ∧ FailsAt 1 (answering [.ok 0, .fail, .fail] table) := by
  unfold FailsAt Granted
  decide

/-- The merge-mode session after a PAUSE that failed on the second microphone: one of its queues is paused. -/
def halfPaused : State := (sdAt .active).setQueue (.qm 0) (queueAt 0x16B .pause)

/-- Two links and no codec; one link, the other queue paused already; one link and the codec. -/
theorem witness_PauseHoldsQueuesThenCodec :
    (∀ s ∈ [answering [.ok 0, .ok 0] (sdAt .active), answering [.fail] (sdAt .active),
        answering [.ok 0, .fail] (sdAt .active), answering [.ok 0] halfPaused, answering [.fail] halfPaused],
      valid s.cfg .inp 1 = true ∧ (s.inst .inp 1).life = .active ∧
      ∀ q ∈ runQueues s .inp 1, (s.queue q).st ≠ .idle) ∧
    (inRunState .running (sdAt .active) (runQueues (sdAt .active) .inp 1) = [.qm 0, .qm 1] ∧
      inRunState .running halfPaused (runQueues halfPaused .inp 1) = [.qm 1] ∧ codecOf base.cfg .inp 1 = none) ∧
    (Granted 2 (answering [.ok 0, .ok 0] (sdAt .active)) ∧ FailsAt 0 (answering [.fail] (sdAt .active)) ∧
      FailsAt 1 (answering [.ok 0, .fail] (sdAt .active)) ∧ Granted 1 (answering [.ok 0] halfPaused) ∧
      FailsAt 0 (answering [.fail] halfPaused)) ∧
    (∀ s ∈ [answering [.ok 0, .ok 0] (outAt .active), answering [.ok 0, .fail] (outAt .active)],
      valid s.cfg .out 0 = true ∧ (s.inst .out 0).life = .active ∧
      (∀ q ∈ runQueues s .out 0, (s.queue q).st ≠ .idle) ∧
      inRunState .running s (runQueues s .out 0) = [.qo 0] ∧ codecOf s.cfg .out 0 = some 0) ∧
    Granted 2 (answering [.ok 0, .ok 0] (outAt .active)) ∧ FailsAt 1 (answering [.ok 0, .fail] (outAt .active)) := by
  unfold FailsAt Granted
  decide

/-- The paused session after a RESUME that failed on the second microphone: one of its queues runs. -/
def halfResumed : State := (sdAt .pause).setQueue (.qm 0) (queueAt 0x16B .active)

/-- Two links and no codec; one link, the other queue running already; the codec and one link. -/
theorem witness_ResumeStartsCodecThenQueues :
    (∀ s ∈ [answering [.ok 0, .ok 0] (sdAt .pause), answering [.fail] (sdAt .pause),
        answering [.ok 0, .fail] (sdAt .pause), answering [.ok 0] halfResumed, answering [.fail] halfResumed],
      valid s.cfg .inp 1 = true ∧ (s.inst .inp 1).life = .pause ∧
      ∀ q ∈ runQueues s .inp 1, (s.queue q).st ≠ .idle) ∧
    (inRunState .paused (sdAt .pause) (runQueues (sdAt .pause) .inp 1) = [.qm 0, .qm 1] ∧
      inRunState .paused halfResumed (runQueues halfResumed .inp 1) = [.qm 1] ∧ codecOf base.cfg .inp 1 = none) ∧
    (Granted 2 (answering [.ok 0, .ok 0] (sdAt .pause)) ∧ FailsAt 0 (answering [.fail] (sdAt .pause)) ∧
      FailsAt 1 (answering [.ok 0, .fail] (sdAt .pause)) ∧ Granted 1 (answering [.ok 0] halfResumed) ∧
      FailsAt 0 (answering [.fail] halfResumed)) ∧
    (∀ s ∈ [answering [.ok 0, .ok 0] (outAt .pause), answering [.fail] (outAt .pause),
        answering [.ok 0, .fail] (outAt .pause)],
      valid s.cfg .out 0 = true ∧ (s.inst .out 0).life = .pause ∧
      (∀ q ∈ runQueues s .out 0, (s.queue q).st ≠ .idle) ∧
      inRunState .paused s (runQueues s .out 0) = [.qo 0] ∧ (codecOf s.cfg .out 0).toList.length = 1) ∧
    Granted 2 (answering [.ok 0, .ok 0] (outAt .pause)) ∧ FailsAt 0 (answering [.fail] (outAt .pause)) ∧
    FailsAt 1 (answering [.ok 0, .fail] (outAt .pause)) := by
  unfold FailsAt Granted
  decide

/-- Two links and no codec; one link and the codec, each of which can fail. -/
theorem witness_StopSilencesTheInstance :
    (valid (sdAt .pause).cfg .inp 1 = true ∧
      (((sdAt .pause).inst .inp 1).life = .active ∨ ((sdAt .pause).inst .inp 1).life = .pause) ∧
      2 = (armed (sdAt .pause) (queuesOf (sdAt .pause).cfg .inp 1)).length ∧ codecOf (sdAt .pause).cfg .inp 1 = none ∧
      Granted 2 (sdAt .pause) ∧ 2 ≤ (answering [.ok 0, .fail] (sdAt .pause)).answers.length ∧
      ¬Granted 2 (answering [.ok 0, .fail] (sdAt .pause))) ∧
    (valid (outAt .active).cfg .out 0 = true ∧
      (((outAt .active).inst .out 0).life = .active ∨ ((outAt .active).inst .out 0).life = .pause) ∧
      1 = (armed (outAt .active) (queuesOf (outAt .active).cfg .out 0)).length ∧
      codecOf (outAt .active).cfg .out 0 = some 0 ∧ Granted 2 (outAt .active) ∧
      1 ≤ (failing (outAt .active)).answers.length ∧ ¬Granted 1 (failing (outAt .active)) ∧
      FailsAt 1 (answering [.ok 0, .fail] (outAt .active))) ∧
    (landing base (exec (.stop .out 0) (failing (outAt .active)))).status ≠ 0 := by
  unfold FailsAt Granted
  decide

theorem witness_LifecycleBusyCells :
    (valid (outAt .active).cfg .out 0 = true ∧ ((outAt .active).inst .out 0).life ≠ .pause ∧
      ((outAt .active).inst .out 0).life ≠ .stop ∧ ((outAt .active).inst .out 0).life ≠ .reset ∧
      badBuffer (outAt .active).cfg (width 16) (outAt .active).arg0 (outAt .active).arg1 = false) ∧
    (valid (outAt .stop).cfg .out 0 = true ∧ ((outAt .stop).inst .out 0).life ≠ .active ∧
      (((outAt .stop).inst .out 0).life = .reset ∨ ((outAt .stop).inst .out 0).life = .stop)) ∧
    (isSd (in0At .pause).cfg .inp 0 = false ∧ ((in0At .pause).inst .inp 0).life ≠ .stop ∧
      badBuffer (in0At .pause).cfg (width 16) (in0At .pause).arg0 (in0At .pause).arg1 = false) ∧
    (isSd (sdAt .pause).cfg .inp 1 = true ∧ ((sdAt .pause).inst .inp 1).life ≠ .stop ∧
      badBuffer (sdAt .pause).cfg 2 (sdAt .pause).arg0 (sdAt .pause).arg1 = false ∧
      (sdAt .pause).arg1.toNat / 2 % (2 * (sdAt .pause).cfg.cap) = 0) ∧
    (devOk (outAt .active).cfg .out 0 2 = true ∧ rateOk (outAt .active).cfg .out 0 48000 = true ∧
      comboOk (outAt .active).cfg .out 0 16 2 = true ∧ tooFewMics (outAt .active).cfg .out 0 2 2 = false) := by decide

/-- The table of `table` under a running session. -/
theorem witness_LifecycleBusyCells_recordm :
    (({ sdAt .active with arg0 := table.arg0, arg1 := table.arg1, mem := table.mem }).inst .inp 1).life ≠ .stop ∧
    badTable table.cfg table.arg0 table.arg1 = false ∧
    (∀ m ∈ bitList (mics table.cfg 0x30), badEntry table.cfg table.arg1 (tableEntry table.mem table.arg0 m) = false) := by
  decide

theorem witness_ConfigureBuildsTheDescriptor : answerOk base.nextAnswer = true ∧
    answerOk (failing base).nextAnswer = false ∧ (2 = 2 ∨ 2 = 4) ∧ (4 = 2 ∨ 4 = 4) := by decide

theorem witness_PrimitivesFollowTheRunStates :
    (1 ≤ 1 ∧ 65535 ≤ 65535 ∧ tdValid ((outAt .stop).queue (.qo 0)).td = true ∧
      ((outAt .stop).queue (.qo 0)).st = .idle) ∧
    65535 < 65536 ∧ tdValid (base.queue (.qo 0)).td = false ∧ ((outAt .pause).queue (.qo 0)).st = .paused ∧
    ((outAt .active).queue (.qo 0)).st = .running := by decide

theorem descriptor_sending : DescriptorFor (.qo 0) 0x155 :=
  ⟨by decide, by decide, by decide, nofun, ⟨fun h => absurd h (by decide), fun h => absurd rfl (h 0)⟩, by decide, by decide,
    by decide⟩

theorem descriptor_mic (m : Mic) : DescriptorFor (.qm m) 0x16B :=
  ⟨by decide, by decide, by decide, fun _ _ => by decide, ⟨fun _ => nofun, fun _ => by decide⟩, by decide, by decide,
    by decide⟩

/-- The last element of the address space, sent; and the first element of a microphone in multi-buffer mode, stored. -/
theorem witness_DmaMovesOneElement :
    (queueExists (outAt .active).cfg (.qo 0) = true ∧
      (((outAt .active).setQueue (.qo 0)
        ⟨0x155, .running, true, false, false, false, false, false, false, 0xFFFFFFF8, 4, 3⟩).queue (.qo 0)).st = .running ∧
      DescriptorFor (.qo 0) 0x155 ∧ 2 = 2 * tdWidth 0x155 ∧ 0xFFFFFFFE = (0xFFFFFFF8 : Word).toNat + (3 : BitVec 16).toNat * 2 ∧
      0xFFFFFFFE + 2 ≤ 2 ^ 32 ∧ tdIsP2m 0x155 = false ∧ ((outAt .active).queue (.qo 0)).errs = false) ∧
    (queueExists (sdAt .active).cfg (.qm 0) = true ∧ ((sdAt .active).queue (.qm 0)).st = .running ∧
      DescriptorFor (.qm 0) ((sdAt .active).queue (.qm 0)).td ∧ 4 = 2 * tdWidth ((sdAt .active).queue (.qm 0)).td ∧
      0x20000000 = ((sdAt .active).queue (.qm 0)).base.toNat + ((sdAt .active).queue (.qm 0)).pos.toNat * 4 ∧
      0x20000000 + 4 ≤ 2 ^ 32 ∧ tdIsP2m ((sdAt .active).queue (.qm 0)).td = true ∧
      (∀ m, QueueId.qm 0 = .qm m → { (sdAt .active).sr with mbuf := true }.mbuf = true)) :=
  ⟨⟨by decide, by decide, descriptor_sending, by decide, by decide, by decide, by decide, by decide⟩,
    by decide, by decide, descriptor_mic 0, by decide, by decide, by decide, by decide, fun _ _ => rfl⟩

theorem witness_DmaFillsTheChannelBuffer :
    queueExists (sdAt .active).cfg (.qm 1) = true ∧ ((sdAt .active).queue (.qm 1)).st = .running ∧
    DescriptorFor (.qm 1) ((sdAt .active).queue (.qm 1)).td ∧ (sdAt .active).sr.mbuf = false ∧ 65535 < 65536 ∧
    ((0 : Mic), 65535) ≠ ((1 : Mic), ((sdAt .active).queue (.qm 1)).pos.toNat) :=
  ⟨by decide, by decide, descriptor_mic 1, by decide, by decide, by decide⟩

/-- Four elements: the end, the half, and between; one element: the end is not the half (42 R210). -/
theorem witness_CompletionPoints :
    tdCirc 0x155 = true ∧ ((3 : BitVec 16).toNat < (4 : BitVec 16).toNat ∧ (3 : BitVec 16).toNat + 1 = 4) ∧
    ((1 : BitVec 16).toNat + 1 ≠ 4 ∧ (1 : BitVec 16).toNat + 1 = (4 : BitVec 16).toNat / 2) ∧
    ((0 : BitVec 16).toNat + 1 ≠ 4 ∧ (0 : BitVec 16).toNat + 1 ≠ (4 : BitVec 16).toNat / 2) ∧
    ((0 : BitVec 16).toNat < (1 : BitVec 16).toNat ∧ (0 : BitVec 16).toNat + 1 = (1 : BitVec 16).toNat) := by decide

/-- A completion of a serial queue; an error of a microphone in merge mode; a half and a full completion of one in merge
mode. -/
theorem witness_ServiceDeliversTheNotification :
    (queueExists (outAt .active).cfg (.qo 0) = true ∧ owner (outAt .active).cfg (.qo 0) = some (.out, 0) ∧
      ((outAt .active).queue (.qo 0)).st = .running ∧ ((outAt .active).queue (.qo 0)).ie = true) ∧
    ((Completion.tc, Notice.full, 1, true, Queue.reset) ∈
        [(Completion.ht, Notice.half, 0, false, Queue.reset), (.tc, .full, 1, true, Queue.reset)] ∧
      (((outAt .active).queue (.qo 0)).setPending .tc true).pendTc = true ∧
      (∀ m, QueueId.qo 0 = .qm m → Completion.tc = .err ∨ (outAt .active).sr.mbuf = true)) ∧
    (queueExists (sdAt .active).cfg (.qm 0) = true ∧ owner (sdAt .active).cfg (.qm 0) = some (.inp, 1) ∧
      ((sdAt .active).queue (.qm 0)).ie = true ∧ (((sdAt .active).queue (.qm 0)).setPending .err true).pendErr = true ∧
      (∀ m, QueueId.qm 0 = .qm m → Completion.err = .err ∨ (sdAt .active).sr.mbuf = true)) ∧
    ((sdAt .active).sr.mbuf = false ∧ (((sdAt .active).queue (.qm 0)).setPending .ht true).pendHt = true ∧
      (((sdAt .active).queue (.qm 0)).setPending .tc true).pendTc = true) :=
  ⟨by decide, ⟨by decide, by decide, nofun⟩, ⟨by decide, by decide, by decide, by decide, fun _ _ => .inl rfl⟩, by decide⟩

/-- An event that does not complete the bank, one that does, and one whose flag was set already. -/
theorem witness_MergeWaitsForTheLastChannel :
    ((sdAt .active).sr.rdy0 ||| (1#12 <<< (1 : Mic).val)) &&& (sdAt .active).sr.en ≠ (sdAt .active).sr.en ∧
    (halfFull.sr.rdy0 ||| (1#12 <<< (1 : Mic).val)) &&& halfFull.sr.en = halfFull.sr.en ∧
    halfFull.sr.rdy0.getLsbD (0 : Mic).val = true ∧ halfFull.sr.rdy1.getLsbD (11 : Mic).val = false := by decide

theorem witness_MergeWritesTheFrames :
    frameChannels halfFull.sr = some (0, 1) ∧ halfFull.sr.cur.toNat + 2 * (halfFull.cfg.cap / 2) ≤ 65535 ∧
    merge 1 .first halfFull = .next (landing base (merge 1 .first halfFull)) ∧ 0 < halfFull.cfg.cap / 2 ∧
    0x20001007 < 0x20001000 + 8 :=
  ⟨by decide, by decide, rfl, by decide, by decide⟩

/-- The first merge ends at the half of the target, the second at its end. -/
theorem witness_MergeAdvancesAndNotifies :
    halfFull.cfg.wf = true ∧ frameChannels halfFull.sr = some (0, 1) ∧ 4 = halfFull.sr.cur.toNat + halfFull.cfg.cap ∧
    4 ≤ halfFull.sr.size.toNat ∧ halfFull.sr.tgt.toNat + 2 * halfFull.sr.size.toNat ≤ 2 ^ 32 ∧
    (8 = ({ halfFull.sr with cur := 4 } : Reassembler).cur.toNat + halfFull.cfg.cap ∧ 8 ≤ halfFull.sr.size.toNat) := by
  decide

/-! ### Witnesses of the invariants: a playing instance whose queue moves its last element, and a merge -/

/-- `OUT[0]` plays; the next step is the DMA of its queue. -/
def playing : State := { outAt .active with schedule := [.dma (.qo 0) 0] }

theorem playing_steps : step playing = .next (landing base (step playing)) := by rfl

theorem playing_queues : ∀ q, q ≠ .qo 0 → playing.queue q = Queue.reset := by
  intro q
  cases q with
  | qo i => revert i; decide
  | qi i => revert i; decide
  | qm m => revert m; decide

theorem playing_insts : ∀ d i, (d, i) ≠ (Dir.out, (0 : Idx)) → (playing.inst d i).life = .reset := by
  intro d i
  cases d <;> (revert i; decide)

theorem reset_queueInv (q : QueueId) : QueueInv q Queue.reset :=
  ⟨.inl rfl, by decide, by decide, by decide, by decide⟩

/-- A machine that can be constructed, at the ends of the range of `CAP`; and configurations that break each constraint of
R9, and one of R6. -/
theorem witness_ResetLeavesZero :
    (∀ cap ∈ [2, 4, 65534], State.resetWith { Config.Params.standard with cap := cap }
      = some (State.zeroed { Config.Params.standard with cap := cap })) ∧
    (∀ cap ∈ [3, 0, 65536], cap % 2 ≠ 0 ∨ cap < 2 ∨ 65534 < cap) ∧
    12 < ({ Config.Params.standard with mics := List.replicate 13 Config.defaultQueue } : Config.Params).mics.length ∧
    (Config.Params.standard.ins[(0 : Idx).val]?.isSome = true ∧
      State.resetWith { Config.Params.standard with sd := some 0 } = none) ∧
    State.resetWith { Config.Params.standard with outs := [] } = none :=
  ⟨fun cap h => by
      simp only [List.mem_cons, List.not_mem_nil, or_false] at h
      obtain rfl | rfl | rfl := h <;> exact resetWith_eq_some.2 ⟨by decide, rfl⟩,
    by decide, by decide, ⟨by decide, resetWith_eq_none.2 (by decide)⟩, resetWith_eq_none.2 (by decide)⟩

theorem witness_ResetMeetsTheInvariants :
    State.resetWith { Config.Params.standard with cap := 4 } = some (State.zeroed { Config.Params.standard with cap := 4 }) :=
  resetWith_eq_some.2 ⟨by decide, rfl⟩

theorem witness_StepKeepsMemoryForm : MemoryForm playing ∧ step playing = .next (landing base (step playing)) :=
  ⟨⟨rfl, rfl⟩, playing_steps⟩

theorem witness_StepKeepsTheEngineInvariant :
    EngineInv playing ∧ step playing = .next (landing base (step playing)) := by
  refine ⟨⟨fun q => ?_, fun d i _ hl q hq => ?_⟩, playing_steps⟩
  · by_cases h : q = .qo 0
    · subst h
      exact ⟨.inr descriptor_sending, by decide, by decide, by decide, by decide⟩
    · rw [playing_queues q h]
      exact reset_queueInv q
  · by_cases h : q = .qo 0
    · subst h
      by_cases h2 : (d, i) = (Dir.out, (0 : Idx))
      · obtain ⟨rfl, rfl⟩ := Prod.mk.inj h2
        exact absurd hl (by decide)
      · exfalso
        revert h2 hq
        cases d <;> (revert i; decide)
    · rw [playing_queues q h]
      rfl

theorem witness_StepKeepsTheConfigurationInvariant :
    ConfigInv playing ∧ step playing = .next (landing base (step playing)) := by
  have only : ∀ d i, (playing.inst d i).life ≠ .reset → d = .out ∧ i = 0 := fun d i h => by
    by_contra hne
    exact h (playing_insts d i fun e => hne (Prod.mk.inj e))
  refine ⟨⟨fun d i _ hl => ?_, fun d i c _ hl hc => ?_, fun d i _ hl x hx hx2 => ?_, fun d i _ hl q hq => ?_⟩,
    playing_steps⟩
  · obtain ⟨rfl, rfl⟩ := only d i hl
    exact ⟨by decide, by decide, by decide, by decide, by decide⟩
  · obtain ⟨rfl, rfl⟩ := only d i hl
    revert hc
    revert c
    decide
  · obtain ⟨h1, h2⟩ := only x.1 x.2 hx2
    obtain ⟨rfl, rfl⟩ := only d i hl
    rw [h1, h2]
    exact ⟨rfl, rfl⟩
  · obtain ⟨rfl, rfl⟩ := only d i hl
    obtain rfl : q = .qo 0 := by simpa [configuredQueues, isSd, serialQueue] using hq
    decide

theorem witness_StepKeepsCompletionOrder :
    (∀ q, CompletionOrder (playing.queue q)) ∧ step playing = .next (landing base (step playing)) := by
  refine ⟨fun q => ?_, playing_steps⟩
  by_cases h : q = .qo 0
  · subst h
    exact fun _ => ⟨by decide, fun _ => ⟨by decide, by decide, by decide⟩⟩
  · rw [playing_queues q h]
    exact fun h => absurd rfl h

/-- Both microphones of the merge-mode session have filled their first half; the service of the second comes next. -/
def merging : State := { halfFull with schedule := [.service (.qm 1) .ht] }

theorem witness_StepKeepsTheCursorInside :
    merging.cfg.wf = true ∧ CursorInv merging ∧ step merging = .next (landing base (step merging)) ∧
    (landing base (step merging)).sr.cur ≠ merging.sr.cur :=
  ⟨by decide, by unfold CursorInv; decide, rfl, by decide⟩

/-- A sticky bit of each kind is set before the step. -/
def faulted : State :=
  { playing.setQueue (.qo 0) ⟨0x155, .running, true, true, false, false, true, false, true, 0x20000000, 4, 3⟩ with
    sr := ⟨0, false, false, 0, 0, 0, 0, 0, true⟩ }

theorem witness_FaultBitsAreSticky :
    step faulted = .next (landing base (step faulted)) ∧ faulted.sr.ovr = true ∧ (faulted.queue (.qo 0)).ovr = true ∧
    (faulted.queue (.qo 0)).built = true :=
  ⟨rfl, by decide, by decide, by decide⟩

theorem witness_TracesOnlyGrow : step merging = .next (landing base (step merging)) ∧
    (landing base (step merging)).evlog ≠ merging.evlog :=
  ⟨rfl, by decide⟩

theorem witness_OnlyCommandsWriteInstances :
    (∀ v, Config.Event.service (.qm 1) .ht ≠ .regWrite 4 0 v) ∧
    runEvent (.service (.qm 1) .ht) halfFull = .next (landing base (runEvent (.service (.qm 1) .ht) halfFull)) :=
  ⟨nofun, rfl⟩

end Sys2Proof.Tests
end

section
/-! PROOFS. Construction and reset (00_scope.md R6, R7, R9; 10_state.md R45; 70_reset_and_hazards.md R310). -/

namespace Sys2Proof.Proofs

open Sys2Proof.Machine

/-! ### What a well-formed configuration says of R9 -/

/-- The constraints of R9 inside `Params.wf`: the capacity of a microphone's buffer, the number of microphones, and no
codec on the instance that `J_SD` names. -/
theorem wf_capacity_mics_sdCodec {p : Config.Params} (h : p.wf = true) :
    (2 ≤ p.cap ∧ p.cap ≤ 65534 ∧ p.cap % 2 = 0) ∧ p.mics.length ≤ 12 ∧
    ∀ j c, p.sd = some j → p.ins[j.val]? = some c → c.codec = none := by
  simp only [Config.Params.wf, Bool.and_eq_true, decide_eq_true_eq] at h
  obtain ⟨⟨⟨⟨⟨⟨⟨⟨⟨-, hmics⟩, hlow⟩, hhigh⟩, heven⟩, -⟩, -⟩, -⟩, hsd⟩, -⟩ := h
  refine ⟨⟨hlow, hhigh, heven⟩, hmics, fun j c hj hc => ?_⟩
  simp only [hj, hc, Bool.and_eq_true, Option.isNone_iff_eq_none] at hsd
  exact hsd.2

/-- A configuration that breaks a constraint of R9 is not well formed. -/
theorem wf_eq_false_of_breaks_R9 {p : Config.Params}
    (h : p.cap % 2 ≠ 0 ∨ p.cap < 2 ∨ 65534 < p.cap ∨ 12 < p.mics.length ∨
      ∃ j c, p.sd = some j ∧ p.ins[j.val]? = some c ∧ c.codec.isSome = true) : p.wf = false := by
  by_contra hwf
  obtain ⟨⟨hlow, hhigh, heven⟩, hmics, hsd⟩ := wf_capacity_mics_sdCodec (Bool.eq_true_of_not_eq_false hwf)
  obtain hodd | hsmall | hlarge | hmany | ⟨j, c, hj, hc, hcodec⟩ := h
  · exact hodd heven
  · omega
  · omega
  · omega
  · simp [hsd j c hj hc] at hcodec

/-! ### The zeroed machine -/

theorem zeroed_power (p : Config.Params) (c : Idx) : (State.zeroed p).power[c] = false := by
  simp [State.zeroed]

/-- Settles O51: the construction is a test of `Params.wf` and yields the zeroed machine, so the clauses of R9 come from
`wf_eq_false_of_breaks_R9` and the registers from the lemmas of `State.zeroed`. -/
theorem resetLeavesZero : Obligations.ResetLeavesZero := by
  refine ⟨resetWith_standard, fun p =>
    ⟨resetWith_eq_none, fun h => resetWith_eq_none.2 (wf_eq_false_of_breaks_R9 h), fun s hs => ?_⟩⟩
  obtain ⟨-, rfl⟩ := resetWith_eq_some.1 hs
  exact ⟨zeroed_cfg p, zeroed_inst p, zeroed_power p, zeroed_queue p, rfl, rfl, rfl, rfl, rfl, rfl, rfl, rfl, rfl⟩

end Sys2Proof.Proofs
end

section
/-! PROOFS. What every command leaves alone (10_state.md R31, R33, R37, R47; 20_memory.md R72): one frame for all
commands, composed of the frames of their parts, and the statements it gives. -/

namespace Sys2Proof.Machine

/-! ### Surroundings -/

theorem KeepsSurroundings.trans {s t u : State} (h : KeepsSurroundings s t) (k : KeepsSurroundings t u) :
    KeepsSurroundings s u where
  cfg := k.cfg.trans h.cfg
  cmd := k.cmd.trans h.cmd
  arg0 := k.arg0.trans h.arg0
  arg1 := k.arg1.trans h.arg1
  evlog := k.evlog.trans h.evlog
  tx := k.tx.trans h.tx
  bytes a := (k.bytes a).trans (h.bytes a)
  samples m n := (k.samples m n).trans (h.samples m n)
  mem := k.mem.trans h.mem
  cb := k.cb.trans h.cb
  schedule := k.schedule.trans h.schedule
  readData := k.readData.trans h.readData

theorem Kept.surroundings {s t : State} (h : Kept s t) : KeepsSurroundings s t :=
  ⟨h.cfg, h.cmd, h.arg0, h.arg1, h.evlog, h.tx, fun _ => by rw [h.mem], fun _ _ => by rw [h.cb], h.mem, h.cb,
    h.schedule, h.readData⟩

/-! ### The sticky bits of a queue (10_state.md R33, R42) -/

/-- `OVR` and `BUILT` are not cleared. -/
structure StickyQueue (v w : Queue) : Prop where
  ovr : v.ovr = true → w.ovr = true
  built : v.built = true → w.built = true

theorem StickyQueue.refl (v : Queue) : StickyQueue v v := ⟨id, id⟩

theorem StickyQueue.trans {u v w : Queue} (h : StickyQueue u v) (k : StickyQueue v w) : StickyQueue u w :=
  ⟨k.ovr ∘ h.ovr, k.built ∘ h.built⟩

/-- No primitive clears them: `TE.Configure` may only set `BUILT`, the others write neither. -/
theorem QueueChange.sticky {p : Config.Params} {q : QueueId} {v w : Queue} (h : QueueChange p q v w) :
    StickyQueue v w := by
  cases h with
  | configured _ _ _ => exact ⟨id, fun hb => by simp [hb]⟩
  | same => exact .refl _
  | started | paused | resumed | stopped => exact ⟨id, id⟩

/-- What one primitive after another keeps of a queue. -/
theorem changes_keep {p : Config.Params} {q : QueueId} {P : Queue → Prop}
    (hP : ∀ v w, QueueChange p q v w → P v → P w) {v w : Queue} (h : Relation.ReflTransGen (QueueChange p q) v w)
    (hv : P v) : P w := by
  induction h with
  | refl => exact hv
  | tail _ hc ih => exact hP _ _ hc ih

theorem Steps.sticky {d : Dir} {i : Idx} {s t : State} (h : Steps d i s t) (q : QueueId) :
    StickyQueue (s.queue q) (t.queue q) :=
  changes_keep (P := StickyQueue (s.queue q)) (fun _ _ hc hv => hv.trans hc.sticky) (h.changes q) (.refl _)

/-! ### The frame of a command on instance `(d,i)` -/

/-- Outside the surroundings, a command on `(d,i)` can reach that instance, its queues, its codec's power, the
reassembler, `STATUS`, `RESULT` and `CALLS`; the sticky bits and the calls already made stay. -/
structure CommandFrame (d : Dir) (i : Idx) (s t : State) : Prop where
  surroundings : KeepsSurroundings s t
  insts : SameOtherInsts d i s t
  queues : ∀ q, ¬Reaches s.cfg d i q → t.queue q = s.queue q
  power : ∀ c : Idx, codecOf s.cfg d i ≠ some c → t.power[c] = s.power[c]
  sticky : ∀ q, StickyQueue (s.queue q) (t.queue q)
  srOvr : s.sr.ovr = true → t.sr.ovr = true
  calls : s.calls <+: t.calls

namespace CommandFrame

variable {d : Dir} {i : Idx} {s t u : State}

theorem cfg (h : CommandFrame d i s t) : t.cfg = s.cfg := h.surroundings.cfg

theorem trans (h : CommandFrame d i s t) (k : CommandFrame d i t u) : CommandFrame d i s u where
  surroundings := h.surroundings.trans k.surroundings
  insts d' i' hne := (k.insts d' i' hne).trans (h.insts d' i' hne)
  queues q hq := (k.queues q (by rwa [h.cfg])).trans (h.queues q hq)
  power c hc := (k.power c (by rwa [h.cfg])).trans (h.power c hc)
  sticky q := (h.sticky q).trans (k.sticky q)
  srOvr := k.srOvr ∘ h.srOvr
  calls := h.calls.trans k.calls

/-- Changes that touch the queues and the calls only. -/
theorem of_kept (h : Kept s t) (hq : ∀ q, ¬Reaches s.cfg d i q → t.queue q = s.queue q)
    (hs : ∀ q, StickyQueue (s.queue q) (t.queue q)) (hc : s.calls <+: t.calls) : CommandFrame d i s t where
  surroundings := h.surroundings
  insts d' i' _ := h.inst d' i'
  queues := hq
  power c _ := by simp [h.power]
  sticky := hs
  srOvr := by rw [h.sr]; exact id
  calls := hc

theorem refl (d : Dir) (i : Idx) (s : State) : CommandFrame d i s s :=
  of_kept (.refl s) (fun _ _ => rfl) (fun _ => .refl _) (List.prefix_refl _)

theorem steps (h : Steps d i s t) : CommandFrame d i s t :=
  of_kept h.kept h.others h.sticky h.calls

theorem setInst (d : Dir) (i : Idx) (s : State) (v : Inst) : CommandFrame d i s (s.setInst d i v) where
  surroundings := by constructor <;> simp
  insts d' i' hne := inst_setInst_ne s v hne
  queues q _ := queue_setInst s d i v q
  power c _ := by simp
  sticky q := by rw [queue_setInst]; exact .refl _
  srOvr := by rw [setInst_sr]; exact id
  calls := by rw [setInst_calls]

theorem setLife (d : Dir) (i : Idx) (s : State) (l : Life) : CommandFrame d i s (s.setLife d i l) := setInst d i s _

theorem powered {on : Bool} (h : Powered d i on s t) : CommandFrame d i s t := by
  obtain rfl | ⟨c, hc, rfl⟩ := h
  · exact refl d i t
  · exact
      { surroundings := by constructor <;> simp
        insts := fun d' i' _ => inst_setPower s c on d' i'
        queues := fun q _ => queue_setPower s c on q
        power := fun c' hc' => by rw [setPower_get, if_neg fun e => hc' (by rw [hc, e])]
        sticky := fun q => by rw [queue_setPower]; exact .refl _
        srOvr := by rw [setPower_sr]; exact id
        calls := by rw [setPower_calls] }

/-- The registers that belong to no instance. -/
theorem setRegs (d : Dir) (i : Idx) (s : State) (r : Reassembler) (status result : Word)
    (h : s.sr.ovr = true → r.ovr = true) :
    CommandFrame d i s { s with sr := r, status := status, result := result } where
  surroundings := ⟨rfl, rfl, rfl, rfl, rfl, rfl, fun _ => rfl, fun _ _ => rfl, rfl, rfl, rfl, rfl⟩
  insts _ _ _ := rfl
  queues _ _ := rfl
  power _ _ := rfl
  sticky _ := .refl _
  srOvr := h
  calls := List.prefix_refl _

theorem setStatus (h : CommandFrame d i s t) (c : Word) : CommandFrame d i s { t with status := c } :=
  h.trans (setRegs d i t t.sr c t.result id)

/-- The microphones a selector drops are queues of the `SD` instance. -/
theorem dropMics (hs : isSd s.cfg d i = true) (dev : Word) : CommandFrame d i s (dropMics s.cfg dev s) :=
  of_kept (dropMics_kept s.cfg dev s)
    (fun q hq => by
      rw [dropMics_queue, if_neg]
      rintro ⟨m, -, -, rfl⟩
      exact hq (micQueue_reaches hs m))
    (fun q => by
      rw [dropMics_queue]
      split
      · exact ⟨id, id⟩
      · exact .refl _)
    (by rw [dropMics_calls])

end CommandFrame

/-- The end state of DEINIT: `DeinitWork` gives the queues and the calls outright, the rest comes part by part. -/
theorem DeinitWork.frame {d : Dir} {i : Idx} {s t : State} (h : DeinitWork d i s t) : CommandFrame d i s t := by
  obtain ⟨u, s0, hu, hp, hst, -⟩ := h.steps
  have k : CommandFrame d i u t := ((CommandFrame.setInst d i u Inst.reset).trans (.powered hp)).trans (.steps hst)
  have others : ∀ q, q ∉ queuesOf s.cfg d i → t.queue q = s.queue q := h.others
  exact
    { surroundings := hu.surroundings.trans k.surroundings
      insts := fun d' i' hne => (k.insts d' i' hne).trans (hu.inst d' i')
      queues := fun q hq => others q fun hm => hq (reaches_of_queuesOf hm)
      power := fun c hc => (k.power c (by rwa [hu.cfg])).trans (by simp [hu.power])
      sticky := fun q => by
        by_cases hm : q ∈ queuesOf s.cfg d i
        · rw [h.queues q hm]; exact ⟨id, id⟩
        · rw [others q hm]; exact .refl _
      srOvr := fun ho => k.srOvr (by rw [hu.sr]; exact ho)
      calls := by rw [h.calls, List.append_assoc]; exact List.prefix_append _ _ }

theorem Fails.frame {s u : State} {i : Instr} {e : Status} (h : Fails s i e u) :
    CommandFrame i.target.1 i.target.2 s u := by
  cases h with
  | kept _ _ hp _ steps _ => exact (CommandFrame.powered hp).trans (.steps steps)
  | deinit _ _ _ work => exact work.frame

theorem Succeeds.frame {s u : State} {i : Instr} (h : Succeeds s i u) : CommandFrame i.target.1 i.target.2 s u := by
  cases h with
  | init _ _ _ _ _ _ _ _ work _ _ =>
    obtain ⟨s0, hp, hst⟩ := work.steps
    exact ((CommandFrame.powered hp).trans (.steps hst)).trans (.setInst _ _ _ _)
  | deinitReset _ => exact .refl _ _ s
  | deinit _ _ work => exact work.frame
  | play _ steps => exact (CommandFrame.steps steps).trans (.setLife _ _ _ _)
  | record _ _ steps => exact (CommandFrame.steps steps).trans (.setLife _ _ _ _)
  | @recordMerge n v _ _ _ _ steps =>
    have k := (CommandFrame.steps steps).trans (.setLife _ _ _ .active)
    exact k.trans (.setRegs _ _ _ _ _ _ (by rw [setLife_sr, steps.kept.sr]; exact id))
  | @recordMulti n v _ _ steps =>
    have k := (CommandFrame.steps steps).trans (.setLife _ _ _ .active)
    exact k.trans (.setRegs _ _ _ _ _ _ (by rw [setLife_sr, steps.kept.sr]; exact id))
  | pause _ steps _ => exact (CommandFrame.steps steps).trans (.setLife _ _ _ _)
  | resume _ steps _ => exact (CommandFrame.steps steps).trans (.setLife _ _ _ _)
  | stop _ work => exact (CommandFrame.steps work.steps).trans (.setLife _ _ _ _)
  | getter v _ => exact .setRegs _ _ s s.sr s.status v id
  | regcb _ => exact .setInst _ _ s _
  | @setdev d n v _ _ _ _ work =>
    have k := CommandFrame.steps work.steps
    refine CommandFrame.trans (t := if isSd s.cfg d n then dropMics s.cfg s.arg0 v else v) ?_ (.setInst d n _ _)
    split
    next hs =>
      rw [← work.steps.kept.cfg] at hs ⊢
      exact k.trans (.dropMics hs _)
    next => exact k
  | setrate _ _ _ _ work => exact (CommandFrame.steps work.steps).trans (.setInst _ _ _ _)
  | setbits _ _ _ _ work => exact (CommandFrame.steps work.steps).trans (.setInst _ _ _ _)
  | setch _ _ _ _ work => exact (CommandFrame.steps work.steps).trans (.setInst _ _ _ _)
  | setvol _ _ _ steps _ => exact (CommandFrame.steps steps).trans (.setInst _ _ _ _)
  | mute _ _ steps _ => exact (CommandFrame.steps steps).trans (.setInst _ _ _ _)
  | unmute _ _ steps _ => exact (CommandFrame.steps steps).trans (.setInst _ _ _ _)

/-- **The frame of every command**, whether a check refused it, a collaborator failed, or it succeeded. -/
theorem exec_frame {i : Instr} {s t : State} (h : exec i s = .next t) :
    CommandFrame i.target.1 i.target.2 s t := by
  cases exec_cases h with
  | refused _ => exact (CommandFrame.refl _ _ s).setStatus _
  | failed hf => exact hf.frame.setStatus _
  | succeeded hs => exact hs.frame.setStatus _

end Sys2Proof.Machine

namespace Sys2Proof.Proofs

open Sys2Proof.Machine

/-- Settles O15: the surroundings are part of the frame of every command. -/
theorem commandsKeepSurroundings : Obligations.CommandsKeepSurroundings :=
  fun _ _ _ h => (exec_frame h).surroundings

/-- Settles O16: by the frame of every command, and because two instances reach no queue in common. -/
theorem commandsStayInTheirInstance : Obligations.CommandsStayInTheirInstance := by
  intro i s t h
  refine ⟨(exec_frame h).insts, fun d n hne q hq => (exec_frame h).queues q fun hr => ?_⟩
  exact hne (reaches_inj hr (reaches_of_queuesOf hq))

end Sys2Proof.Proofs
end

section
/-! PROOFS. Which commands write `CODEC_PWR`, the reassembler and `RESULT` (10_state.md R37, R47). -/

namespace Sys2Proof.Machine

/-- What a changed codec power bit, a changed reassembler and a changed `RESULT` say of the command. -/
structure WriterOf (i : Instr) (s t : State) : Prop where
  power : ∀ c : Idx, t.power[c] ≠ s.power[c] →
    (∃ d n ch bits mbz vol, i = .init d n ch bits mbz vol ∧ t.power[c] = true) ∨
      ∃ d n, i = .deinit d n ∧ t.power[c] = false
  sr : t.sr ≠ s.sr → ∃ n, i = .record n ∨ i = .recordm n
  result : t.result ≠ s.result → i.isGetter = true

/-- Any command may leave all three as they were. -/
theorem WriterOf.of_eq {i : Instr} {s t : State} (hp : t.power = s.power) (hs : t.sr = s.sr)
    (hr : t.result = s.result) : WriterOf i s t :=
  ⟨fun c hc => absurd (by simp [hp]) hc, fun h => absurd hs h, fun h => absurd hr h⟩

theorem Steps.writerOf {d : Dir} {n : Idx} {s t : State} (h : Steps d n s t) (i : Instr) : WriterOf i s t :=
  .of_eq h.kept.power h.kept.sr h.kept.result

/-- After a sequence of steps, an instance is written. -/
theorem Steps.writerOf_setInst {d : Dir} {n : Idx} {s t : State} (h : Steps d n s t) (i : Instr) (v : Inst) :
    WriterOf i s (t.setInst d n v) :=
  .of_eq ((setInst_power ..).trans h.kept.power) ((setInst_sr ..).trans h.kept.sr)
    ((setInst_result ..).trans h.kept.result)

/-- A codec that was switched is in the state it was switched to. -/
theorem Powered.power_eq {d : Dir} {i : Idx} {on : Bool} {s t : State} (h : Powered d i on s t) {c : Idx}
    (hc : t.power[c] ≠ s.power[c]) : t.power[c] = on := by
  obtain rfl | ⟨c', -, rfl⟩ := h
  · exact absurd rfl hc
  · rw [setPower_get] at hc ⊢
    split at hc
    next e => rw [if_pos e]
    next => exact absurd rfl hc

theorem Powered.sr {d : Dir} {i : Idx} {on : Bool} {s t : State} (h : Powered d i on s t) : t.sr = s.sr := by
  obtain rfl | ⟨c, -, rfl⟩ := h
  · rfl
  · exact setPower_sr s c on

theorem Powered.result {d : Dir} {i : Idx} {on : Bool} {s t : State} (h : Powered d i on s t) :
    t.result = s.result := by
  obtain rfl | ⟨c, -, rfl⟩ := h
  · rfl
  · exact setPower_result s c on

/-- INIT, from its power-up on: what follows the power-up writes none of the three. -/
theorem Powered.writerOf_init {d' : Dir} {i' : Idx} {s s0 u : State} (hp : Powered d' i' true s s0)
    (hst : Steps d' i' s0 u) (d : Dir) (n : Idx) (ch : BitVec 2) (bits : BitVec 6) (mbz : BitVec 1)
    (vol : BitVec 7) : WriterOf (.init d n ch bits mbz vol) s u := by
  refine ⟨fun c hc => .inl ⟨d, n, ch, bits, mbz, vol, rfl, ?_⟩, fun hs => absurd (hst.kept.sr.trans hp.sr) hs,
    fun hr => absurd (hst.kept.result.trans hp.result) hr⟩
  rw [hst.kept.power] at hc ⊢
  exact hp.power_eq hc

theorem DeinitWork.writerOf {d : Dir} {n : Idx} {s t : State} (h : DeinitWork d n s t) :
    WriterOf (.deinit d n) s t := by
  obtain ⟨u, s0, hu, hp, hst, -⟩ := h.steps
  refine ⟨fun c hc => .inr ⟨d, n, rfl, ?_⟩, fun hs => absurd ?_ hs, fun hr => absurd ?_ hr⟩
  · rw [hst.kept.power] at hc ⊢
    exact hp.power_eq (by simpa [hu.power] using hc)
  · rw [hst.kept.sr, hp.sr, setInst_sr, hu.sr]
  · rw [hst.kept.result, hp.result, setInst_result, hu.result]

theorem Fails.writerOf {s u : State} {i : Instr} {e : Status} (h : Fails s i e u) : WriterOf i s u := by
  cases h with
  | kept _ _ hp hi steps _ =>
    obtain rfl | ⟨d, n, ch, bits, mbz, vol, rfl⟩ := hi
    · exact steps.writerOf i
    · exact hp.writerOf_init steps d n ch bits mbz vol
  | deinit _ _ _ work => exact work.writerOf

theorem Succeeds.writerOf {s u : State} {i : Instr} (h : Succeeds s i u) : WriterOf i s u := by
  cases h with
  | @init d n ch bits vol v _ _ _ _ _ _ _ _ work _ _ =>
    obtain ⟨s0, hp, hst⟩ := work.steps
    have w := hp.writerOf_init hst d n ch bits 0 vol
    refine ⟨fun c hc => ?_, fun hs => w.sr (by simpa using hs), fun hr => w.result (by simpa using hr)⟩
    simpa using w.power c (by simpa using hc)
  | deinitReset _ => exact .of_eq rfl rfl rfl
  | deinit _ _ work => exact work.writerOf
  | play _ steps => exact steps.writerOf_setInst _ _
  | record _ _ steps => exact steps.writerOf_setInst _ _
  | @recordMerge n v _ _ _ _ steps =>
    have w := steps.writerOf_setInst (.record n) { v.inst .inp n with life := .active }
    exact ⟨w.power, fun _ => ⟨n, .inl rfl⟩, w.result⟩
  | @recordMulti n v _ _ steps =>
    have w := steps.writerOf_setInst (.recordm n) { v.inst .inp n with life := .active }
    exact ⟨w.power, fun _ => ⟨n, .inr rfl⟩, w.result⟩
  | pause _ steps _ => exact steps.writerOf_setInst _ _
  | resume _ steps _ => exact steps.writerOf_setInst _ _
  | stop _ work => exact work.steps.writerOf_setInst _ _
  | getter v hi => exact ⟨fun c hc => absurd rfl hc, fun hs => absurd rfl hs, fun _ => hi⟩
  | regcb _ => exact (Steps.refl _ _ s).writerOf_setInst _ _
  | @setdev d n v _ _ _ _ work =>
    split
    · have hk := work.steps.kept.trans (dropMics_kept s.cfg s.arg0 v)
      exact .of_eq ((setInst_power ..).trans hk.power) ((setInst_sr ..).trans hk.sr)
        ((setInst_result ..).trans hk.result)
    · exact work.steps.writerOf_setInst _ _
  | setrate _ _ _ _ work => exact work.steps.writerOf_setInst _ _
  | setbits _ _ _ _ work => exact work.steps.writerOf_setInst _ _
  | setch _ _ _ _ work => exact work.steps.writerOf_setInst _ _
  | setvol _ _ _ steps _ => exact steps.writerOf_setInst _ _
  | mute _ _ steps _ => exact steps.writerOf_setInst _ _
  | unmute _ _ steps _ => exact steps.writerOf_setInst _ _

theorem exec_writerOf {i : Instr} {s t : State} (h : exec i s = .next t) : WriterOf i s t := by
  cases exec_cases h with
  | refused _ => exact .of_eq rfl rfl rfl
  | failed hf => exact ⟨hf.writerOf.power, hf.writerOf.sr, hf.writerOf.result⟩
  | succeeded hs => exact ⟨hs.writerOf.power, hs.writerOf.sr, hs.writerOf.result⟩

end Sys2Proof.Machine

namespace Sys2Proof.Proofs

open Sys2Proof.Machine

/-- Settles O17: that the codec is the instance's own is in the frame of every command; who wrote what is `WriterOf`. -/
theorem registerWriters : Obligations.RegisterWriters := by
  intro i s t h
  have w := exec_writerOf h
  refine ⟨fun c hc => ⟨?_, w.power c hc⟩, w.sr, w.result⟩
  by_contra hne
  exact hc ((exec_frame h).power c hne)

end Sys2Proof.Proofs
end

section
/-! PROOFS. What every agent step that is no command leaves alone, and every step of the machine as a command or such a
step (10_state.md R33, R38, R42, R47; 42_transfer_engine.md R208, R212, R213; 43_sample_reassembler.md R242, R247). -/

namespace Sys2Proof.Machine

/-! ### The reassembler -/

/-- What a channel event can do to the reassembler: `OVR` stays set, the mode and the size stay, the cursor stays or
advances by the frames of one merge and starts again at the size. -/
structure ReassemblerMove (cap : Nat) (r r' : Reassembler) : Prop where
  ovr : r.ovr = true → r'.ovr = true
  mbuf : r'.mbuf = r.mbuf
  size : r'.size = r.size
  cur : r'.cur = r.cur ∨
    r'.cur = if r.cur + BitVec.ofNat 16 (2 * (cap / 2)) = r.size then 0 else r.cur + BitVec.ofNat 16 (2 * (cap / 2))

theorem ReassemblerMove.refl (cap : Nat) (r : Reassembler) : ReassemblerMove cap r r := ⟨id, rfl, rfl, .inl rfl⟩

theorem markReady_sr_cur (m : Mic) (h : Half) (s : State) : (markReady m h s).sr.cur = s.sr.cur := setRdy_cur ..
theorem markReady_sr_size (m : Mic) (h : Half) (s : State) : (markReady m h s).sr.size = s.sr.size := setRdy_size ..
theorem markReady_sr_mbuf (m : Mic) (h : Half) (s : State) : (markReady m h s).sr.mbuf = s.sr.mbuf := setRdy_mbuf ..
theorem markReady_sr_ovr (m : Mic) (h : Half) (s : State) (ho : s.sr.ovr = true) :
    (markReady m h s).sr.ovr = true := by
  simp [markReady, ho]

theorem mergeEndRegs_ovr (h : Half) (r : Reassembler) : (mergeEndRegs h r).ovr = r.ovr := by
  unfold mergeEndRegs
  split
  · rfl
  · exact setRdy_ovr ..

theorem mergeEndRegs_mbuf (h : Half) (r : Reassembler) : (mergeEndRegs h r).mbuf = r.mbuf := by
  unfold mergeEndRegs
  split
  · rfl
  · exact setRdy_mbuf ..

theorem mergeEndRegs_size (h : Half) (r : Reassembler) : (mergeEndRegs h r).size = r.size := by
  unfold mergeEndRegs
  split
  · rfl
  · exact setRdy_size ..

theorem mergeEndRegs_cur (h : Half) (r : Reassembler) :
    (mergeEndRegs h r).cur = if r.cur = r.size then 0 else r.cur := by
  unfold mergeEndRegs
  split
  · rfl
  · exact setRdy_cur ..

/-- A merge writes memory, moves the reassembler on and appends notifications. -/
theorem merge_frame {j : Idx} {h : Half} {s t : State} (hm : merge j h s = .next t) :
    ∃ mem r log, t = { s with mem := mem, sr := r, evlog := s.evlog ++ log } ∧
      ReassemblerMove s.cfg.cap s.sr r := by
  obtain ⟨c0, c1, -, -, rfl⟩ := merge_cases hm
  obtain ⟨mem, hf, -⟩ := mergeFrames_frame h c0 c1 (s.cfg.cap / 2) 0 (noteSkew h s)
  rw [hf, mergeEnd_eq]
  refine ⟨mem, _, _, rfl, ?_, ?_, ?_, .inr ?_⟩
  · intro ho
    rw [mergeEndRegs_ovr]
    simp [noteSkew, ho]
  · exact mergeEndRegs_mbuf ..
  · exact mergeEndRegs_size ..
  · exact mergeEndRegs_cur ..

/-- A channel event does too; the ready flag it sets first is no part of what `ReassemblerMove` speaks of. -/
theorem channelEvent_frame {j : Idx} {m : Mic} {h : Half} {s t : State} (hc : channelEvent j m h s = .next t) :
    ∃ mem r log, t = { s with mem := mem, sr := r, evlog := s.evlog ++ log } ∧
      ReassemblerMove s.cfg.cap s.sr r := by
  obtain rfl | hm := channelEvent_cases hc
  · refine ⟨s.mem, (markReady m h s).sr, [], by rw [List.append_nil]; rfl, ?_⟩
    exact ⟨markReady_sr_ovr m h s, markReady_sr_mbuf m h s, markReady_sr_size m h s, .inl (markReady_sr_cur m h s)⟩
  · obtain ⟨mem, r, log, rfl, hr⟩ := merge_frame hm
    refine ⟨mem, r, log, rfl, fun ho => hr.ovr (markReady_sr_ovr m h s ho), ?_, ?_, ?_⟩
    · rw [hr.mbuf, markReady_sr_mbuf]
    · rw [hr.size, markReady_sr_size]
    · simpa only [markReady_cfg, markReady_sr_cur, markReady_sr_size] using hr.cur

/-! ### One queue -/

/-- What an agent step can do to a queue. -/
inductive AgentChange : Queue → Queue → Prop where
  | same (v : Queue) : AgentChange v v
  | advanced (v : Queue) (h : v.st = .running) : AgentChange v v.advance
  | delivered (v : Queue) (x : Completion) : AgentChange v (v.setPending x false)
  | failed (v : Queue) (h : v.st = .running) : AgentChange v { v with errs := true, pendErr := true }

theorem AgentChange.sticky {v w : Queue} (h : AgentChange v w) : StickyQueue v w := by
  cases h with
  | same => exact .refl _
  | advanced _ =>
    obtain ⟨-, e⟩ | ⟨-, -, e⟩ | ⟨-, -, e⟩ := advance_cases v <;> rw [e]
    · exact ⟨fun ho => by simp [ho], id⟩
    · exact ⟨fun ho => by simp [ho], id⟩
    · exact ⟨id, id⟩
  | delivered x => cases x <;> exact ⟨id, id⟩
  | failed _ => exact ⟨id, id⟩

theorem AgentChange.td {v w : Queue} (h : AgentChange v w) : w.td = v.td := by
  cases h with
  | same => rfl
  | advanced _ => obtain ⟨-, e⟩ | ⟨-, -, e⟩ | ⟨-, -, e⟩ := advance_cases v <;> rw [e]
  | delivered x => cases x <;> rfl
  | failed _ => rfl

/-! ### The frame of an agent step -/

/-- An agent step that is no command leaves the instances, the codec power, `STATUS`, `RESULT`, `CALLS` and the
configuration alone, appends to the traces, and changes queues and reassembler as the engine does. -/
structure AgentFrame (s t : State) : Prop where
  cfg : t.cfg = s.cfg
  outs : t.outs = s.outs
  ins : t.ins = s.ins
  power : t.power = s.power
  status : t.status = s.status
  result : t.result = s.result
  calls : t.calls = s.calls
  evlog : s.evlog <+: t.evlog
  tx : s.tx <+: t.tx
  queues : ∀ q, AgentChange (s.queue q) (t.queue q)
  sr : ReassemblerMove s.cfg.cap s.sr t.sr

namespace AgentFrame

theorem inst {s t : State} (h : AgentFrame s t) (d : Dir) (i : Idx) : t.inst d i = s.inst d i :=
  inst_congr h.outs h.ins d i

/-- The host's accesses: operand registers, system memory and what was read. -/
theorem host (s : State) (arg0 arg1 : Word) (mem : Memory) (readData : Nat) :
    AgentFrame s { s with arg0 := arg0, arg1 := arg1, mem := mem, readData := readData } :=
  ⟨rfl, rfl, rfl, rfl, rfl, rfl, rfl, List.prefix_refl _, List.prefix_refl _,
    fun _ => .same _, .refl _ _⟩

/-- A write to one queue. -/
theorem setQueue (s : State) (q : QueueId) {v : Queue} (h : AgentChange (s.queue q) v) :
    AgentFrame s (s.setQueue q v) where
  cfg := setQueue_cfg ..
  outs := setQueue_outs ..
  ins := setQueue_ins ..
  power := setQueue_power ..
  status := setQueue_status ..
  result := setQueue_result ..
  calls := setQueue_calls ..
  evlog := by rw [setQueue_evlog]
  tx := by rw [setQueue_tx]
  queues q' := by
    rw [queue_setQueue]
    split
    next e => rw [e]; exact h
    next => exact .same _
  sr := by rw [setQueue_sr]; exact .refl _ _

/-- After a write to a queue, what the delivery of a completion adds. -/
theorem then_notified {s u : State} (h : AgentFrame s u) (hs : u.sr = s.sr) {mem : Memory} {r : Reassembler}
    {log : List LogEntry} (hr : ReassemblerMove u.cfg.cap u.sr r) :
    AgentFrame s { u with mem := mem, sr := r, evlog := u.evlog ++ log } where
  cfg := h.cfg
  outs := h.outs
  ins := h.ins
  power := h.power
  status := h.status
  result := h.result
  calls := h.calls
  evlog := h.evlog.trans (List.prefix_append _ _)
  tx := h.tx
  queues := h.queues
  sr := by rw [← h.cfg, ← hs]; exact hr

/-- Before a write to a queue, the move of an element. -/
theorem of_moved {q : QueueId} {v : Word} {s s1 : State} (h : Moved q v s s1) (hr : (s.queue q).st = .running) :
    AgentFrame s (s1.setQueue q (s.queue q).advance) := by
  have k : AgentFrame s1 (s1.setQueue q (s.queue q).advance) :=
    setQueue s1 q (by rw [h.queue]; exact .advanced _ hr)
  have queues : ∀ q', AgentChange (s.queue q') ((s1.setQueue q (s.queue q).advance).queue q') := fun q' => by
    rw [← h.queue q']; exact k.queues q'
  cases h with
  | sample => exact { k with queues := queues }
  | store => exact { k with queues := queues }
  | send => exact { k with queues := queues, tx := (List.prefix_append _ _).trans k.tx }

end AgentFrame

theorem deliver_frame {d : Dir} {i : Idx} {q : QueueId} {x : Completion} {s u t : State} (h : AgentFrame s u)
    (hs : u.sr = s.sr) (hd : deliver d i q x u = .next t) : AgentFrame s t := by
  obtain ⟨k, rfl⟩ | ⟨-, m, b, -, hc⟩ := deliver_cases hd
  · rw [notify_eq]
    exact h.then_notified hs (.refl _ _)
  · obtain ⟨mem, r, log, rfl, hr⟩ := channelEvent_frame hc
    exact h.then_notified hs hr

theorem dmaStep_frame {q : QueueId} {v : Word} {s t : State} (h : dmaStep q v s = .next t) : AgentFrame s t := by
  obtain ⟨-, hr, s1, hm, rfl⟩ := dmaStep_cases h
  exact .of_moved hm hr

theorem serviceStep_frame {q : QueueId} {x : Completion} {s t : State} (h : serviceStep q x s = .next t) :
    AgentFrame s t := by
  obtain ⟨d, i, -, -, -, -, hd⟩ := serviceStep_cases h
  exact deliver_frame (.setQueue s q (.delivered _ x)) (setQueue_sr ..) hd

theorem errorStep_frame {q : QueueId} {s t : State} (h : errorStep q s = .next t) : AgentFrame s t := by
  obtain ⟨-, hr, rfl⟩ := errorStep_cases h
  exact .setQueue s q (.failed _ hr)

/-! ### Agent steps and steps of the machine -/

/-- An agent step: the write of a command's word, the write of a reserved word, or a step with the frame above. -/
inductive AgentStep (e : Config.Event) (s t : State) : Prop where
  | command {w : Word} {i : Instr} (he : e = .regWrite 4 0 w) (h : exec i { s with cmd := w } = .next t)
  | reserved {w : Word} (he : e = .regWrite 4 0 w) (ht : t = { s with cmd := w, status := Status.wrongParam.code })
  | other (h : AgentFrame s t)

theorem wordAccess_iff {size : Nat} {off : Word} : wordAccess size off = true ↔ size = 4 ∧ off.toNat % 4 = 0 := by
  simp [wordAccess]

theorem commandWrite_agentStep {w : Word} {s t : State} (h : commandWrite w s = .next t) :
    AgentStep (.regWrite 4 0 w) s t := by
  unfold commandWrite at h
  split at h
  · exact .command rfl h
  · cases h; exact .reserved rfl rfl

theorem hostRegWrite_agentStep {size : Nat} {off w : Word} {s t : State} (h : hostRegWrite size off w s = .next t) :
    AgentStep (.regWrite size off w) s t := by
  unfold hostRegWrite at h
  split at h
  next ha =>
    obtain ⟨rfl, -⟩ := wordAccess_iff.1 ha
    split at h
    next h0 =>
      obtain rfl : off = 0 := BitVec.eq_of_toNat_eq h0
      exact commandWrite_agentStep h
    · cases h; exact .other (.host s w s.arg1 s.mem s.readData)
    · cases h; exact .other (.host s s.arg0 w s.mem s.readData)
    · cases h; exact .other (.host s s.arg0 s.arg1 s.mem s.readData)
  · cases h

theorem hostRegRead_frame {size : Nat} {off : Word} {s t : State} (h : hostRegRead size off s = .next t) :
    AgentFrame s t := by
  unfold hostRegRead at h
  split at h
  · cases h; exact .host s s.arg0 s.arg1 s.mem _
  · cases h

theorem hostMemWrite_frame {a : Word} {bytes : List Byte} {s t : State} (h : hostMemWrite a bytes s = .next t) :
    AgentFrame s t := by
  unfold hostMemWrite at h
  split at h
  · cases h
  · cases h; exact .host s s.arg0 s.arg1 _ s.readData

theorem hostMemRead_frame {a : Word} {n : Nat} {s t : State} (h : hostMemRead a n s = .next t) :
    AgentFrame s t := by
  unfold hostMemRead at h
  split at h
  · cases h
  · cases h; exact .host s s.arg0 s.arg1 s.mem _

theorem runEvent_agentStep {e : Config.Event} {s t : State} (h : runEvent e s = .next t) : AgentStep e s t := by
  cases e with
  | regWrite size off v => exact hostRegWrite_agentStep h
  | regRead size off => exact .other (hostRegRead_frame h)
  | memWrite a bytes => exact .other (hostMemWrite_frame h)
  | memRead a n => exact .other (hostMemRead_frame h)
  | dma q v => exact .other (dmaStep_frame h)
  | service q x => exact .other (serviceStep_frame h)
  | error q => exact .other (errorStep_frame h)

/-- `u` differs from `s` only in the model's choice of the next step (log 2) and in `CMD` and `STATUS`. -/
structure Dispatched (s u : State) : Prop where
  cfg : u.cfg = s.cfg
  inst : ∀ d i, u.inst d i = s.inst d i
  power : u.power = s.power
  queue : ∀ q, u.queue q = s.queue q
  sr : u.sr = s.sr
  evlog : u.evlog = s.evlog
  calls : u.calls = s.calls
  tx : u.tx = s.tx

theorem dispatched_dropEvent (s : State) (w c : Word) : Dispatched s { s.dropEvent with cmd := w, status := c } where
  cfg := dropEvent_cfg s
  inst := inst_dropEvent s
  power := dropEvent_power s
  queue := queue_dropEvent s
  sr := dropEvent_sr s
  evlog := dropEvent_evlog s
  calls := dropEvent_calls s
  tx := dropEvent_tx s

/-- **What a step of the machine can do**: a command, or an agent step with the frame above. -/
theorem step_cases {s t : State} (h : step s = .next t) :
    ∃ u, Dispatched s u ∧ ((∃ i, exec i u = .next t) ∨ AgentFrame u t) := by
  cases runEvent_agentStep h with
  | @command w i _ hx => exact ⟨_, dispatched_dropEvent s w s.dropEvent.status, .inl ⟨i, hx⟩⟩
  | @reserved w _ ht =>
    subst ht
    exact ⟨_, dispatched_dropEvent s w Status.wrongParam.code, .inr (.host _ _ _ _ _)⟩
  | other hf => exact ⟨_, dispatched_dropEvent s s.dropEvent.cmd s.dropEvent.status, .inr hf⟩

end Sys2Proof.Machine

namespace Sys2Proof.Proofs

open Sys2Proof.Machine

/-- Settles O58: commands and agent steps alike keep the sticky bits, by their frames. -/
theorem faultBitsAreSticky : Obligations.FaultBitsAreSticky := by
  intro s t h
  obtain ⟨u, hu, ⟨i, hx⟩ | hf⟩ := step_cases h
  · have k := exec_frame hx
    rw [← hu.sr]
    exact ⟨k.srOvr, fun q => by rw [← hu.queue]; exact ⟨(k.sticky q).ovr, (k.sticky q).built⟩⟩
  · rw [← hu.sr]
    exact ⟨hf.sr.ovr, fun q => by rw [← hu.queue]; exact ⟨(hf.queues q).sticky.ovr, (hf.queues q).sticky.built⟩⟩

/-- Settles O59: a command appends to `CALLS` only, an agent step to `EVLOG` and `TX` only. -/
theorem tracesOnlyGrow : Obligations.TracesOnlyGrow := by
  intro s t h
  obtain ⟨u, hu, ⟨i, hx⟩ | hf⟩ := step_cases h
  · have k := exec_frame hx
    rw [← hu.evlog, ← hu.calls, ← hu.tx, ← hu.cfg, k.surroundings.evlog, k.surroundings.tx]
    exact ⟨List.prefix_refl _, k.calls, List.prefix_refl _, k.cfg⟩
  · rw [← hu.evlog, ← hu.calls, ← hu.tx, ← hu.cfg, hf.calls]
    exact ⟨hf.evlog, List.prefix_refl _, hf.tx, hf.cfg⟩

/-- Settles O60: an event that is no 32-bit write of `CMD` has the frame of an agent step. -/
theorem onlyCommandsWriteInstances : Obligations.OnlyCommandsWriteInstances := by
  intro e s t hne h
  cases runEvent_agentStep h with
  | command he _ => exact absurd he (hne _)
  | reserved he _ => exact absurd he (hne _)
  | other hf => exact ⟨hf.outs, hf.ins, hf.power, hf.status, hf.result, hf.calls⟩

end Sys2Proof.Proofs
end

section
/-! PROOFS. The engine invariant (10_state.md R44 (a), (b); 42_transfer_engine.md R201, R205): each change of a queue
keeps its clauses, and each command leaves the queues of a `RESET` or `STOP` instance idle. -/

namespace Sys2Proof.Machine

/-! ### One queue -/

theorem tdValid_zero : tdValid 0 = false := by decide

/-- A valid descriptor is one that `TE.Configure` wrote. -/
theorem QueueInv.descriptor {q : QueueId} {v : Queue} (h : QueueInv q v) (hv : tdValid v.td = true) :
    DescriptorFor q v.td := by
  obtain h0 | hd := h.td
  · rw [h0, tdValid_zero] at hv; cases hv
  · exact hd

/-- A queue that has been stopped, whatever it was before; its descriptor is kept. -/
theorem stopped_queueInv {q : QueueId} {v : Queue} (htd : v.td = 0 ∨ DescriptorFor q v.td) :
    QueueInv q v.stopped where
  td := htd
  enabled := by simp [Queue.stopped]
  pending := by simp [Queue.stopped, Queue.clearPending]
  built h := absurd rfl h
  position h := absurd rfl h

/-- The descriptor of an idle queue may be discarded. -/
theorem QueueInv.discard {q : QueueId} {v : Queue} (h : QueueInv q v) (hi : v.st = .idle) :
    QueueInv q { v with td := 0 } :=
  ⟨.inl rfl, h.enabled, h.pending, fun hn => absurd hi hn, h.position⟩

/-- Every primitive keeps the clauses of a queue. -/
theorem QueueChange.queueInv {p : Config.Params} {q : QueueId} {v w : Queue} (hc : QueueChange p q v w)
    (h : QueueInv q v) : QueueInv q w := by
  cases hc with
  | same => exact h
  | configured flow w hd => exact ⟨.inr hd, h.enabled, h.pending, fun _ => hd.valid, h.position⟩
  | started base count h1 h2 hv hi =>
    have hcount : (BitVec.ofNat 16 count).toNat = count := by
      rw [BitVec.toNat_ofNat]; exact Nat.mod_eq_of_lt (by omega)
    exact
      { td := h.td
        enabled := by simp [Queue.started]
        pending := fun _ => rfl
        built := fun _ => hv
        position := fun _ => by simp only [Queue.started, hcount]; exact h1 }
  | paused hr =>
    have hne : v.st ≠ .idle := by rw [hr]; exact nofun
    have hie := h.enabled.2 hne
    exact ⟨h.td, ⟨fun _ => nofun, fun _ => hie⟩, h.pending, fun _ => h.built hne, fun _ => h.position hne⟩
  | resumed hp =>
    have hne : v.st ≠ .idle := by rw [hp]; exact nofun
    have hie := h.enabled.2 hne
    exact ⟨h.td, ⟨fun _ => nofun, fun _ => hie⟩, h.pending, fun _ => h.built hne, fun _ => h.position hne⟩
  | stopped => exact stopped_queueInv h.td

theorem Steps.queueInv {d : Dir} {i : Idx} {s t : State} (hs : Steps d i s t)
    (h : ∀ q, QueueInv q (s.queue q)) (q : QueueId) : QueueInv q (t.queue q) :=
  changes_keep (P := QueueInv q) (fun _ _ hc hv => hc.queueInv hv) (hs.changes q) (h q)

/-- An element moved under a circular descriptor: the queue runs on, its position inside the buffer. -/
theorem advance_queueInv {q : QueueId} {v : Queue} (h : QueueInv q v) (hr : v.st = .running) :
    QueueInv q v.advance ∧ v.advance.st = v.st := by
  have hne : v.st ≠ .idle := by rw [hr]; exact nofun
  have hpos := h.position hne
  have hie := h.enabled.2 hne
  have hcirc := (h.descriptor (h.built hne)).circ
  have hnext := pos_succ_toNat hpos
  obtain ⟨-, e⟩ | ⟨hlast, -, e⟩ | ⟨hlast, -, e⟩ := advance_cases v <;> rw [e]
  · rw [if_pos hcirc]
    exact ⟨⟨h.td, h.enabled, fun _ => hie, h.built, fun _ => Nat.zero_lt_of_lt hpos⟩, rfl⟩
  · exact ⟨⟨h.td, h.enabled, fun _ => hie, h.built, fun _ => by simp only [hnext]; omega⟩, rfl⟩
  · exact ⟨⟨h.td, h.enabled, fun _ => hie, h.built, fun _ => by simp only [hnext]; omega⟩, rfl⟩

/-- A delivered completion is no longer pending; nothing else changes. -/
theorem delivered_queueInv {q : QueueId} {v : Queue} (h : QueueInv q v) (x : Completion) :
    QueueInv q (v.setPending x false) ∧ (v.setPending x false).st = v.st := by
  have hp := h.pending
  cases x with
  | ht => exact ⟨⟨h.td, h.enabled, fun hx => hp (hx.imp_left nofun), h.built, h.position⟩, rfl⟩
  | tc => exact ⟨⟨h.td, h.enabled, fun hx => hp (hx.imp_right (.imp_left nofun)), h.built, h.position⟩, rfl⟩
  | err => exact ⟨⟨h.td, h.enabled, fun hx => hp (hx.imp_right (.imp_right nofun)), h.built, h.position⟩, rfl⟩

/-- Every agent step keeps the clauses of a queue, and its run state. -/
theorem AgentChange.queueInv {q : QueueId} {v w : Queue} (hc : AgentChange v w) (h : QueueInv q v) :
    QueueInv q w ∧ w.st = v.st := by
  cases hc with
  | same => exact ⟨h, rfl⟩
  | advanced hr => exact advance_queueInv h hr
  | delivered x => exact delivered_queueInv h x
  | failed hr =>
    have hie := h.enabled.2 (by rw [hr]; exact nofun)
    exact ⟨⟨h.td, h.enabled, fun _ => hie, h.built, h.position⟩, rfl⟩

/-! ### One instance -/

/-- A `RESET` or `STOP` instance has idle queues: the clause `EngineInv.idle` of one instance. -/
def IdleWhenDown (d : Dir) (n : Idx) (s : State) : Prop :=
  valid s.cfg d n = true → (s.inst d n).life = .reset ∨ (s.inst d n).life = .stop →
    ∀ q ∈ queuesOf s.cfg d n, (s.queue q).st = .idle

theorem EngineInv.idleWhenDown {s : State} (h : EngineInv s) (d : Dir) (n : Idx) : IdleWhenDown d n s := h.idle d n

/-- An instance that is `ACTIVE` or `PAUSE` owes nothing. -/
theorem idleWhenDown_setLife {l : Life} (hl : l = .active ∨ l = .pause) (d : Dir) (n : Idx) (s : State) :
    IdleWhenDown d n (s.setLife d n l) := by
  intro _ h
  rw [inst_setLife, if_pos rfl] at h
  obtain rfl | rfl := hl <;> simp at h

/-- An instance whose queues are idle after the command. -/
theorem idleWhenDown_of_idle {d : Dir} {n : Idx} {s u : State} (hc : u.cfg = s.cfg)
    (h : ∀ q ∈ queuesOf s.cfg d n, (u.queue q).st = .idle) : IdleWhenDown d n u :=
  fun _ _ => by rw [hc]; exact h

/-- An instance that comes to `RESET` or `STOP` only from there, by steps that leave idle queues idle. -/
theorem IdleWhenDown.stays {d : Dir} {n : Idx} {s u : State} (h : IdleWhenDown d n s) (hc : u.cfg = s.cfg)
    (hi : StaysIdle s u)
    (hl : (u.inst d n).life = .reset ∨ (u.inst d n).life = .stop →
      (s.inst d n).life = .reset ∨ (s.inst d n).life = .stop) : IdleWhenDown d n u := by
  intro hv hd
  rw [hc] at hv ⊢
  exact fun q hq => hi q (h hv (hl hd) q hq)

/-- The same when the instance is written at the end, with its life as it was. -/
theorem IdleWhenDown.setInst {d : Dir} {n : Idx} {s u : State} (h : IdleWhenDown d n s) (hc : u.cfg = s.cfg)
    (hi : StaysIdle s u) {v : Inst} (hl : v.life = (s.inst d n).life) : IdleWhenDown d n (u.setInst d n v) :=
  h.stays ((setInst_cfg ..).trans hc) (hi.trans (.of_eq (queue_setInst u d n v)))
    (by rw [inst_setInst_same, hl]; exact id)

/-! ### Commands -/

/-- What a command owes the invariant beside its frame: the clauses of every queue, and idle queues of the instance it
addresses. -/
structure EngineAfter (d : Dir) (n : Idx) (s : State) : Prop where
  queues : ∀ q, QueueInv q (s.queue q)
  idle : IdleWhenDown d n s

/-- With the frame of a command that is the whole invariant: the queues of other instances are as they were. -/
theorem EngineAfter.engineInv {d : Dir} {n : Idx} {s t : State} (ha : EngineAfter d n t) (f : CommandFrame d n s t)
    (h : EngineInv s) : EngineInv t := by
  refine ⟨ha.queues, fun d' i' hv hl q hq => ?_⟩
  by_cases e : (d', i') = (d, n)
  · obtain ⟨rfl, rfl⟩ := Prod.mk.inj e
    exact ha.idle hv hl q hq
  · rw [f.cfg] at hv hq
    rw [f.insts d' i' e] at hl
    rw [f.queues q fun hr => e (reaches_inj hr (reaches_of_queuesOf hq))]
    exact h.idle d' i' hv hl q hq

theorem DeinitWork.engineAfter {d : Dir} {n : Idx} {s t : State} (w : DeinitWork d n s t) (h : EngineInv s) :
    EngineAfter d n t where
  queues q := by
    by_cases hm : q ∈ queuesOf s.cfg d n
    · rw [w.queues q hm]; exact (stopped_queueInv (h.queues q).td).discard rfl
    · have := w.others q hm
      rw [this]; exact h.queues q
  idle := idleWhenDown_of_idle w.frame.cfg fun q hq => by rw [w.queues q hq]; rfl

/-- STOP silences its queues (42 R205). -/
theorem StopWork.engineAfter {d : Dir} {n : Idx} {s u : State} (w : StopWork d n s u) (h : EngineInv s) :
    EngineAfter d n (u.setLife d n .stop) where
  queues q := by rw [queue_setLife]; exact w.steps.queueInv h.queues q
  idle := idleWhenDown_of_idle (s := s) ((setLife_cfg ..).trans w.steps.kept.cfg) fun q hq => by
    rw [queue_setLife, w.queues q hq]; rfl

/-- A command that ends in `ACTIVE` or `PAUSE`. -/
theorem Steps.engineAfter_setLife {d : Dir} {n : Idx} {s u : State} (st : Steps d n s u) (h : EngineInv s) {l : Life}
    (hl : l = .active ∨ l = .pause) : EngineAfter d n (u.setLife d n l) :=
  ⟨fun q => by rw [queue_setLife]; exact st.queueInv h.queues q, idleWhenDown_setLife hl d n u⟩

/-- A command that leaves the lifecycle state of its instance, and idle queues idle. -/
theorem Steps.engineAfter_setInst {d : Dir} {n : Idx} {s u : State} (st : Steps d n s u) (h : EngineInv s)
    (hi : StaysIdle s u) {v : Inst} (hl : v.life = (s.inst d n).life) : EngineAfter d n (u.setInst d n v) :=
  ⟨fun q => by rw [queue_setInst]; exact st.queueInv h.queues q, (h.idleWhenDown d n).setInst st.kept.cfg hi hl⟩

/-- A setter runs in `STOP`, where the queues it rebuilds are idle; SETDEV discards descriptors of idle queues only. -/
theorem SetterWork.engineAfter_setdev {d : Dir} {n : Idx} {bits : BitVec 6} {dev : Word} {s u : State}
    (w : SetterWork d n dev bits s u) (h : EngineInv s) (hv : valid s.cfg d n = true)
    (hl : (s.inst d n).life = .stop) (hs : isSd s.cfg d n = true) {v : Inst} (hv' : v.life = (s.inst d n).life) :
    EngineAfter d n ((dropMics s.cfg dev u).setInst d n v) := by
  have idle : ∀ m : Mic, m.val < s.cfg.nMic → (u.queue (.qm m)).st = .idle := fun m hm =>
    w.rebuilt.staysIdle _ (h.idle d n hv (.inr hl) _ (by
      rw [queuesOf, if_pos hs]; exact List.mem_map.2 ⟨m, mem_allMics.2 hm, rfl⟩))
  have inv := w.steps.queueInv h.queues
  have stays : StaysIdle s (dropMics s.cfg dev u) := w.rebuilt.staysIdle.trans fun q hq => by
    rw [dropMics_queue]; split <;> exact hq
  refine ⟨fun q => ?_, (h.idleWhenDown d n).setInst ((dropMics_kept ..).cfg.trans w.steps.kept.cfg) stays hv'⟩
  rw [queue_setInst, dropMics_queue]
  split
  next hm => obtain ⟨m, hlt, -, rfl⟩ := hm; exact (inv _).discard (idle m hlt)
  next => exact inv q

/-- INIT creates a stopped instance; its queues were idle and are only rebuilt. -/
theorem InitWork.engineAfter {d : Dir} {n : Idx} {bits : BitVec 6} {s u : State} (w : InitWork d n bits s u)
    (h : EngineInv s) (hl : (s.inst d n).life = .reset) (v : Inst) : EngineAfter d n (u.setInst d n v) := by
  obtain ⟨s0, hp, st⟩ := w.steps
  refine ⟨fun q => ?_, (h.idleWhenDown d n).stays ((setInst_cfg ..).trans (st.kept.cfg.trans hp.cfg))
    (w.rebuilt.staysIdle.trans (.of_eq (queue_setInst u d n v))) fun _ => .inl hl⟩
  rw [queue_setInst]
  exact st.queueInv (fun q => by rw [hp.queue]; exact h.queues q) q

theorem Fails.engineAfter {s u : State} {i : Instr} {e : Status} (hf : Fails s i e u) (h : EngineInv s) :
    EngineAfter i.target.1 i.target.2 u := by
  cases hf with
  | kept _ _ hp _ st idle =>
    refine ⟨st.queueInv fun q => by rw [hp.queue]; exact h.queues q,
      (h.idleWhenDown _ _).stays (st.kept.cfg.trans hp.cfg) idle ?_⟩
    rw [st.inst, hp.inst]
    exact id
  | deinit _ _ _ work => exact work.engineAfter h

theorem Succeeds.engineAfter {s u : State} {i : Instr} (hs : Succeeds s i u) (h : EngineInv s) :
    EngineAfter i.target.1 i.target.2 u := by
  cases hs with
  | init _ _ _ _ _ _ hl _ work _ _ => exact work.engineAfter h hl _
  | deinitReset _ => exact ⟨h.queues, h.idleWhenDown _ _⟩
  | deinit _ _ work => exact work.engineAfter h
  | play _ st => exact st.engineAfter_setLife h (.inl rfl)
  | record _ _ st => exact st.engineAfter_setLife h (.inl rfl)
  | recordMerge _ _ _ _ st =>
    have k := st.engineAfter_setLife h (.inl rfl)
    exact ⟨k.queues, k.idle⟩
  | recordMulti _ _ st =>
    have k := st.engineAfter_setLife h (.inl rfl)
    exact ⟨k.queues, k.idle⟩
  | pause _ st _ => exact st.engineAfter_setLife h (.inr rfl)
  | resume _ st _ => exact st.engineAfter_setLife h (.inl rfl)
  | stop _ work => exact work.engineAfter h
  | getter v _ => exact ⟨h.queues, h.idleWhenDown _ _⟩
  | @regcb d n _ _ => exact (Steps.refl d n s).engineAfter_setInst h (.of_eq fun _ => rfl) rfl
  | setdev hv _ _ hl work =>
    split
    next hsd => exact work.engineAfter_setdev h hv hl hsd rfl
    next => exact work.steps.engineAfter_setInst h work.rebuilt.staysIdle rfl
  | setrate _ _ _ _ work => exact work.steps.engineAfter_setInst h work.rebuilt.staysIdle rfl
  | setbits _ _ _ _ work => exact work.steps.engineAfter_setInst h work.rebuilt.staysIdle rfl
  | setch _ _ _ _ work => exact work.steps.engineAfter_setInst h work.rebuilt.staysIdle rfl
  | setvol _ _ _ st hq => exact st.engineAfter_setInst h (.of_eq hq) rfl
  | mute _ _ st hq => exact st.engineAfter_setInst h (.of_eq hq) rfl
  | unmute _ _ st hq => exact st.engineAfter_setInst h (.of_eq hq) rfl

/-- Every command keeps the engine invariant. -/
theorem exec_engineInv {i : Instr} {s t : State} (hx : exec i s = .next t) (h : EngineInv s) : EngineInv t := by
  have after : EngineAfter i.target.1 i.target.2 t := by
    cases exec_cases hx with
    | refused _ => exact ⟨h.queues, h.idleWhenDown _ _⟩
    | failed hf => exact ⟨(hf.engineAfter h).queues, (hf.engineAfter h).idle⟩
    | succeeded hs => exact ⟨(hs.engineAfter h).queues, (hs.engineAfter h).idle⟩
  exact after.engineInv (exec_frame hx) h

/-! ### Steps -/

/-- The invariant reads the configuration, the instances and the queues. -/
theorem EngineInv.dispatched {s u : State} (h : EngineInv s) (hu : Dispatched s u) : EngineInv u := by
  refine ⟨fun q => by rw [hu.queue]; exact h.queues q, fun d i hv hl q hq => ?_⟩
  rw [hu.cfg] at hv hq
  rw [hu.inst] at hl
  rw [hu.queue]
  exact h.idle d i hv hl q hq

/-- Every agent step that is no command keeps the engine invariant: no queue changes its run state. -/
theorem AgentFrame.engineInv {s t : State} (f : AgentFrame s t) (h : EngineInv s) : EngineInv t := by
  refine ⟨fun q => ((f.queues q).queueInv (h.queues q)).1, fun d i hv hl q hq => ?_⟩
  rw [f.cfg] at hv hq
  rw [f.inst] at hl
  rw [((f.queues q).queueInv (h.queues q)).2]
  exact h.idle d i hv hl q hq

end Sys2Proof.Machine

namespace Sys2Proof.Proofs

open Sys2Proof.Machine

/-- Settles O54: a step is a command or an agent step, and both keep the invariant. -/
theorem stepKeepsTheEngineInvariant : Obligations.StepKeepsTheEngineInvariant := by
  intro s t h hstep
  obtain ⟨u, hu, ⟨i, hx⟩ | hf⟩ := step_cases hstep
  · exact exec_engineInv hx (h.dispatched hu)
  · exact hf.engineInv (h.dispatched hu)

end Sys2Proof.Proofs
end

section
/-! PROOFS. The configuration invariant (10_state.md R43, R44 (c) to (f); 40_stream_lifecycle.md R142): its clauses for
one instance, what a command owes its own instance, and why the other instances keep theirs. -/

namespace Sys2Proof.Machine

/-! ### One instance -/

/-- The clauses of `ConfigInv` for one instance that is not `RESET`. -/
structure ConfigAt (d : Dir) (n : Idx) (s : State) : Prop where
  legal : LegalInst s.cfg d n (s.inst d n)
  powered : ∀ c : Idx, codecOf s.cfg d n = some c → s.power[c] = true
  coupled : ∀ x ∈ sibs s.cfg d n, (s.inst x.1 x.2).life ≠ .reset →
    (s.inst x.1 x.2).rate = (s.inst d n).rate ∧ (s.inst x.1 x.2).bits = (s.inst d n).bits
  built : ∀ q ∈ configuredQueues s.cfg d n (s.inst d n).device, tdValid (s.queue q).td = true

theorem configInv_iff {s : State} :
    ConfigInv s ↔ ∀ d n, valid s.cfg d n = true → (s.inst d n).life ≠ .reset → ConfigAt d n s := by
  constructor
  · exact fun h d n hv hl =>
      ⟨h.legal d n hv hl, fun c => h.powered d n c hv hl, h.coupled d n hv hl, h.built d n hv hl⟩
  · exact fun h => ⟨fun d n hv hl => (h d n hv hl).legal, fun d n c hv hl => (h d n hv hl).powered c,
      fun d n hv hl => (h d n hv hl).coupled, fun d n hv hl => (h d n hv hl).built⟩

namespace ConfigAt

variable {d : Dir} {n : Idx} {s t u : State}

/-- The clauses read the configuration, the instances and the codec power, and which descriptors are valid. -/
theorem congr (h : ConfigAt d n s) (hc : t.cfg = s.cfg) (hi : ∀ d i, t.inst d i = s.inst d i)
    (hp : ∀ c : Idx, s.power[c] = true → t.power[c] = true)
    (hq : ∀ q, tdValid (s.queue q).td = true → tdValid (t.queue q).td = true) : ConfigAt d n t where
  legal := by rw [hc, hi]; exact h.legal
  powered c hcc := hp c (h.powered c (by rwa [hc] at hcc))
  coupled x hx := by rw [hc] at hx; simp only [hi]; exact h.coupled x hx
  built q hq' := by rw [hc, hi] at hq'; exact hq q (h.built q hq')

/-- The instance written at the end of a command: its attributes must be legal and agree with those of its coupled
instances, and the queues of its selector must have been configured. -/
theorem of_setInst {v : Inst} (hc : u.cfg = s.cfg) (hi : ∀ d i, u.inst d i = s.inst d i)
    (legal : LegalInst s.cfg d n v) (powered : ∀ c : Idx, codecOf s.cfg d n = some c → u.power[c] = true)
    (coupled : ∀ x ∈ sibs s.cfg d n, (s.inst x.1 x.2).life ≠ .reset →
      (s.inst x.1 x.2).rate = v.rate ∧ (s.inst x.1 x.2).bits = v.bits)
    (built : ∀ q ∈ configuredQueues s.cfg d n v.device, tdValid (u.queue q).td = true) :
    ConfigAt d n (u.setInst d n v) := by
  have hcfg : (u.setInst d n v).cfg = s.cfg := (setInst_cfg ..).trans hc
  refine ⟨by rw [hcfg, inst_setInst_same]; exact legal, fun c hcc => ?_, fun x hx hl => ?_, fun q hq => ?_⟩
  · rw [setInst_power]
    exact powered c (by rwa [hcfg] at hcc)
  · rw [hcfg] at hx
    rw [inst_setInst_ne u v (mem_sibs.1 hx).2.1, hi] at hl ⊢
    rw [inst_setInst_same]
    exact coupled x hx hl
  · rw [hcfg, inst_setInst_same] at hq
    rw [queue_setInst]
    exact built q hq

end ConfigAt

/-! ### Steps of a command -/

/-- No primitive invalidates a descriptor. -/
theorem QueueChange.tdValid {p : Config.Params} {q : QueueId} {v w : Queue} (h : QueueChange p q v w)
    (hv : tdValid v.td = true) : tdValid w.td = true := by
  cases h with
  | configured _ _ hd => exact hd.valid
  | same | started | paused | resumed | stopped => exact hv

theorem Steps.tdValid {d : Dir} {n : Idx} {s u : State} (st : Steps d n s u) (q : QueueId)
    (h : tdValid (s.queue q).td = true) : tdValid (u.queue q).td = true :=
  changes_keep (P := fun v => Machine.tdValid v.td = true) (fun _ _ hc => hc.tdValid) (st.changes q) h

theorem Steps.configAt {d : Dir} {n : Idx} {s u : State} (st : Steps d n s u) (h : ConfigAt d n s) : ConfigAt d n u :=
  h.congr st.kept.cfg st.inst (fun c => by simp [st.kept.power]) st.tdValid

theorem Powered.configAt {d : Dir} {n : Idx} {s s0 : State} (hp : Powered d n true s s0) (h : ConfigAt d n s) :
    ConfigAt d n s0 := by
  refine h.congr hp.cfg hp.inst (fun c hc => ?_) fun q => by rw [hp.queue]; exact id
  by_contra hne
  exact hne (hp.power_eq (by rw [hc]; exact hne))

/-- After some steps the instance is written with the device, rate and width it had. -/
theorem Steps.configAt_setInst {d : Dir} {n : Idx} {s u : State} (st : Steps d n s u) (h : ConfigAt d n s) {v : Inst}
    (legal : LegalInst s.cfg d n v) (hdev : v.device = (s.inst d n).device) (hrate : v.rate = (s.inst d n).rate)
    (hbits : v.bits = (s.inst d n).bits) : ConfigAt d n (u.setInst d n v) :=
  .of_setInst st.kept.cfg st.inst legal (fun c hc => by simpa [st.kept.power] using h.powered c hc)
    (by rw [hrate, hbits]; exact h.coupled)
    (by rw [hdev]; exact fun q hq => st.tdValid q (h.built q hq))

/-- After some steps only the lifecycle state of the instance is written. -/
theorem Steps.configAt_setLife {d : Dir} {n : Idx} {s u : State} (st : Steps d n s u) (h : ConfigAt d n s) (l : Life) :
    ConfigAt d n (u.setLife d n l) := by
  have k := h.legal
  rw [State.setLife, st.inst]
  exact st.configAt_setInst h ⟨k.device, k.mics, k.rate, k.combo, k.volume⟩ rfl rfl rfl

/-! ### The setters -/

theorem comboOk_legal {p : Config.Params} {d : Dir} {n : Idx} {bits : BitVec 6} {ch : BitVec 2}
    (h : comboOk p d n bits ch = true) : bitsLegal bits = true ∧ chansLegal ch = true := by
  unfold comboOk at h
  split at h
  · simp only [Bool.and_eq_true] at h
    obtain ⟨⟨⟨-, hb⟩, hc⟩, -⟩ := h
    exact ⟨hb, hc⟩
  · cases h

/-- The channels and the width an operand is checked against are those of a legal instance (41 R165, R167). -/
theorem LegalInst.chansOr1 {p : Config.Params} {d : Dir} {n : Idx} {v : Inst} (h : LegalInst p d n v) :
    chansOr1 v.chans = v.chans :=
  if_pos (comboOk_legal h.combo).2

theorem LegalInst.bitsOr16 {p : Config.Params} {d : Dir} {n : Idx} {v : Inst} (h : LegalInst p d n v) :
    bitsOr16 v.bits = v.bits :=
  if_pos (comboOk_legal h.combo).1

/-- The queues a setter has rebuilt have valid descriptors. -/
theorem SetterWork.tdValid {d : Dir} {n : Idx} {dev : Word} {bits : BitVec 6} {s u : State}
    (w : SetterWork d n dev bits s u) {q : QueueId} (hq : q ∈ configuredQueues s.cfg d n dev) :
    tdValid (u.queue q).td = true := by
  rw [w.tds q hq]
  exact (configured_descriptor (reaches_of_configuredQueues hq) bits).valid

/-- The codec stays on while a setter works. -/
theorem SetterWork.powered {d : Dir} {n : Idx} {dev : Word} {bits : BitVec 6} {s u : State}
    (w : SetterWork d n dev bits s u) (h : ConfigAt d n s) (c : Idx) (hc : codecOf s.cfg d n = some c) :
    u.power[c] = true := by
  simpa [w.steps.kept.power] using h.powered c hc

/-- The microphones a selector drops are not among those it selects. -/
theorem dropMics_configured {p : Config.Params} {d : Dir} {n : Idx} (hs : isSd p d n = true) {dev : Word} {q : QueueId}
    (hq : q ∈ configuredQueues p d n dev) (u : State) : (dropMics p dev u).queue q = u.queue q := by
  rw [configuredQueues, if_pos hs] at hq
  obtain ⟨m, hm, rfl⟩ := List.mem_map.1 hq
  rw [dropMics_queue, if_neg]
  rintro ⟨m', -, hoff, he⟩
  cases he
  rw [mem_bitList.1 hm] at hoff
  cases hoff

/-- SETDEV: a legal selector, its queues rebuilt, and only queues outside it discarded. -/
theorem SetterWork.configAt_setdev {d : Dir} {n : Idx} {dev : Word} {bits : BitVec 6} {s u : State}
    (w : SetterWork d n dev bits s u) (h : ConfigAt d n s) (hdev : devOk s.cfg d n dev = true)
    (hmics : tooFewMics s.cfg d n dev (s.inst d n).chans = false) :
    ConfigAt d n ((if isSd s.cfg d n then dropMics s.cfg dev u else u).setInst d n
      { s.inst d n with device := dev }) := by
  have legal : LegalInst s.cfg d n { s.inst d n with device := dev } :=
    ⟨hdev, hmics, h.legal.rate, h.legal.combo, h.legal.volume⟩
  split
  next hs =>
    have k := dropMics_kept s.cfg dev u
    refine .of_setInst (k.cfg.trans w.steps.kept.cfg) (fun d i => (k.inst d i).trans (w.steps.inst d i)) legal
      (fun c hc => by simpa [k.power] using w.powered h c hc) h.coupled fun q hq => ?_
    rw [dropMics_configured hs hq]
    exact w.tdValid hq
  next => exact .of_setInst w.steps.kept.cfg w.steps.inst legal (w.powered h) h.coupled fun q hq => w.tdValid hq

/-- SETRATE: a legal rate, which the coupled instances have. -/
theorem SetterWork.configAt_setrate {d : Dir} {n : Idx} {rate : Word} {s u : State}
    (w : SetterWork d n (s.inst d n).device (s.inst d n).bits s u) (h : ConfigAt d n s)
    (hrate : rateOk s.cfg d n rate = true) (hx : xinstOk s d n rate (s.inst d n).bits = true) :
    ConfigAt d n (u.setInst d n { s.inst d n with rate := rate }) :=
  .of_setInst w.steps.kept.cfg w.steps.inst ⟨h.legal.device, h.legal.mics, hrate, h.legal.combo, h.legal.volume⟩
    (w.powered h) (xinstOk_iff.1 hx) fun _ hq => w.tdValid hq

/-- SETBITS: a legal width, which the coupled instances have. -/
theorem SetterWork.configAt_setbits {d : Dir} {n : Idx} {bits : BitVec 6} {s u : State}
    (w : SetterWork d n (s.inst d n).device bits s u) (h : ConfigAt d n s)
    (hcombo : comboOk s.cfg d n bits (chansOr1 (s.inst d n).chans) = true)
    (hx : xinstOk s d n (s.inst d n).rate bits = true) :
    ConfigAt d n (u.setInst d n { s.inst d n with bits := bits }) := by
  rw [h.legal.chansOr1] at hcombo
  exact .of_setInst w.steps.kept.cfg w.steps.inst
    ⟨h.legal.device, h.legal.mics, h.legal.rate, hcombo, h.legal.volume⟩ (w.powered h) (xinstOk_iff.1 hx)
    fun _ hq => w.tdValid hq

/-- SETCH: a legal channel count for which enough microphones are selected. -/
theorem SetterWork.configAt_setch {d : Dir} {n : Idx} {ch : BitVec 2} {s u : State}
    (w : SetterWork d n (s.inst d n).device (s.inst d n).bits s u) (h : ConfigAt d n s)
    (hcombo : comboOk s.cfg d n (bitsOr16 (s.inst d n).bits) ch = true)
    (hmics : tooFewMics s.cfg d n (s.inst d n).device ch = false) :
    ConfigAt d n (u.setInst d n { s.inst d n with chans := ch }) := by
  rw [h.legal.bitsOr16] at hcombo
  exact w.steps.configAt_setInst h ⟨h.legal.device, hmics, h.legal.rate, hcombo, h.legal.volume⟩ rfl rfl rfl

/-- INIT: everything the invariant asks has been checked or done (R131). -/
theorem InitWork.configAt {d : Dir} {n : Idx} {bits : BitVec 6} {s u : State} (w : InitWork d n bits s u)
    {v : Inst} (legal : LegalInst s.cfg d n v) (hon : ∀ c : Idx, codecOf s.cfg d n = some c → u.power[c] = true)
    (hx : xinstOk s d n v.rate v.bits = true)
    (htd : ∀ q ∈ configuredQueues s.cfg d n v.device,
      (u.queue q).td = descriptor s.cfg q (flowOf d) (elementWidth s.cfg d n bits)) :
    ConfigAt d n (u.setInst d n v) := by
  obtain ⟨s0, hp, st⟩ := w.steps
  refine .of_setInst (st.kept.cfg.trans hp.cfg) (fun d i => (st.inst d i).trans (hp.inst d i)) legal hon
    (xinstOk_iff.1 hx) fun q hq => ?_
  rw [htd q hq]
  exact (configured_descriptor (reaches_of_configuredQueues hq) bits).valid

/-! ### What a command owes its own instance -/

/-- The clauses of an instance, if it is not `RESET`. -/
def ConfigWhenUp (d : Dir) (n : Idx) (s : State) : Prop := (s.inst d n).life ≠ .reset → ConfigAt d n s

/-- DEINIT resets its instance, which then owes nothing. -/
theorem DeinitWork.configWhenUp {d : Dir} {n : Idx} {s t : State} (w : DeinitWork d n s t) : ConfigWhenUp d n t := by
  obtain ⟨u, s0, -, hp, st, -⟩ := w.steps
  intro hl
  rw [st.inst, hp.inst, inst_setInst_same] at hl
  exact absurd rfl hl

theorem Fails.configWhenUp {s u : State} {i : Instr} {e : Status} (hf : Fails s i e u)
    (h : ConfigWhenUp i.target.1 i.target.2 s) : ConfigWhenUp i.target.1 i.target.2 u := by
  cases hf with
  | kept _ _ hp _ st _ =>
    intro hl
    rw [st.inst, hp.inst] at hl
    exact st.configAt (hp.configAt (h hl))
  | deinit _ _ _ work => exact work.configWhenUp

theorem Succeeds.configWhenUp {s u : State} {i : Instr} (hs : Succeeds s i u)
    (h : ConfigWhenUp i.target.1 i.target.2 s) : ConfigWhenUp i.target.1 i.target.2 u := by
  cases hs with
  | init _ hvol hdev hrate hcombo hmics _ hx work hon htd =>
    exact fun _ => work.configAt ⟨hdev, hmics, hrate, hcombo, hvol⟩ hon hx htd
  | deinitReset _ => exact h
  | deinit _ _ work => exact work.configWhenUp
  | play hl st => exact fun _ => st.configAt_setLife (h (ne_of_eq_of_ne hl nofun)) _
  | record _ hl st => exact fun _ => st.configAt_setLife (h (ne_of_eq_of_ne hl nofun)) _
  | recordMerge _ hl _ _ st =>
    have k := st.configAt_setLife (h (ne_of_eq_of_ne hl nofun)) .active
    exact fun _ => ⟨k.legal, k.powered, k.coupled, k.built⟩
  | recordMulti _ hl st =>
    have k := st.configAt_setLife (h (ne_of_eq_of_ne hl nofun)) .active
    exact fun _ => ⟨k.legal, k.powered, k.coupled, k.built⟩
  | pause hl st _ => exact fun _ => st.configAt_setLife (h (ne_of_eq_of_ne hl nofun)) _
  | resume hl st _ => exact fun _ => st.configAt_setLife (h (ne_of_eq_of_ne hl nofun)) _
  | stop hl work =>
    exact fun _ => work.steps.configAt_setLife
      (h (hl.elim (ne_of_eq_of_ne · nofun) (ne_of_eq_of_ne · nofun))) _
  | getter v _ => exact fun hl => ⟨(h hl).legal, (h hl).powered, (h hl).coupled, (h hl).built⟩
  | @regcb d n mask hv =>
    intro (hl : ((s.setInst d n { s.inst d n with cben := mask, cbreg := true }).inst d n).life ≠ .reset)
    rw [inst_setInst_same] at hl
    have k := (h hl).legal
    exact (Steps.refl d n s).configAt_setInst (h hl) ⟨k.device, k.mics, k.rate, k.combo, k.volume⟩ rfl rfl rfl
  | setdev _ hdev hmics hl work => exact fun _ => work.configAt_setdev (h (ne_of_eq_of_ne hl nofun)) hdev hmics
  | setrate _ hrate hl hx work => exact fun _ => work.configAt_setrate (h (ne_of_eq_of_ne hl nofun)) hrate hx
  | setbits _ hcombo hl hx work => exact fun _ => work.configAt_setbits (h (ne_of_eq_of_ne hl nofun)) hcombo hx
  | setch _ hcombo hmics hl work => exact fun _ => work.configAt_setch (h (ne_of_eq_of_ne hl nofun)) hcombo hmics
  | setvol _ hl hvol st _ =>
    have k := (h hl).legal
    exact fun _ => st.configAt_setInst (h hl) ⟨k.device, k.mics, k.rate, k.combo, hvol⟩ rfl rfl rfl
  | mute _ hl st _ =>
    have k := (h hl).legal
    exact fun _ => st.configAt_setInst (h hl) ⟨k.device, k.mics, k.rate, k.combo, k.volume⟩ rfl rfl rfl
  | unmute _ hl st _ =>
    have k := (h hl).legal
    exact fun _ => st.configAt_setInst (h hl) ⟨k.device, k.mics, k.rate, k.combo, k.volume⟩ rfl rfl rfl

theorem exec_configWhenUp {i : Instr} {s t : State} (hx : exec i s = .next t)
    (h : ConfigWhenUp i.target.1 i.target.2 s) : ConfigWhenUp i.target.1 i.target.2 t := by
  cases exec_cases hx with
  | refused _ => exact fun hl => ⟨(h hl).legal, (h hl).powered, (h hl).coupled, (h hl).built⟩
  | failed hf =>
    have k := hf.configWhenUp h
    exact fun hl => ⟨(k hl).legal, (k hl).powered, (k hl).coupled, (k hl).built⟩
  | succeeded hs =>
    have k := hs.configWhenUp h
    exact fun hl => ⟨(k hl).legal, (k hl).powered, (k hl).coupled, (k hl).built⟩

/-! ### Why the other instances keep theirs -/

/-- What DEINIT leaves of the codec powers: all of them, or what its power-down leaves. -/
theorem exec_deinit_power {d : Dir} {n : Idx} {s t : State} (hx : exec (.deinit d n) s = .next t) :
    t.power = s.power ∨ ∃ u, DeinitWork d n s u ∧ t.power = u.power := by
  cases exec_cases hx with
  | refused _ => exact .inl rfl
  | failed hf =>
    cases hf with
    | kept _ hd => exact absurd rfl (hd d n)
    | deinit _ _ _ work => exact .inr ⟨_, work, rfl⟩
  | succeeded hs =>
    cases hs with
    | deinitReset _ => exact .inl rfl
    | deinit _ _ work => exact .inr ⟨_, work, rfl⟩
    | getter v hi => cases hi

/-- A command that switches a codec off does so only when every instance coupled to its own is `RESET` (R132). -/
theorem exec_power_off {i : Instr} {s t : State} (hx : exec i s = .next t) {c : Idx} (hs : s.power[c] = true)
    (ht : t.power[c] = false) :
    codecOf s.cfg i.target.1 i.target.2 = some c ∧ sibsReset s i.target.1 i.target.2 = true := by
  have hne : t.power[c] ≠ s.power[c] := by rw [hs, ht]; exact nofun
  have hc : codecOf s.cfg i.target.1 i.target.2 = some c := by
    by_contra hcc
    exact hne ((exec_frame hx).power c hcc)
  refine ⟨hc, ?_⟩
  obtain ⟨d, n, ch, bits, mbz, vol, -, hon⟩ | ⟨d, n, rfl, -⟩ := (exec_writerOf hx).power c hne
  · rw [hon] at ht; cases ht
  · obtain he | ⟨u, work, he⟩ := exec_deinit_power hx
    · exact absurd (by simp [he]) hne
    · have hp := work.power c hc
      simp only [he] at ht
      rw [ht, hs, Bool.true_and] at hp
      have hreset : sibsReset s d n = true := by simpa using hp.symm
      exact hreset

/-- Every command keeps the configuration invariant: its own instance by what it checked and did; another one because
the command leaves its registers and queues, does not switch off a codec in use, and keeps rate and width agreed. -/
theorem exec_configInv {i : Instr} {s t : State} (hx : exec i s = .next t) (h : ConfigInv s) : ConfigInv t := by
  have f := exec_frame hx
  have own : valid s.cfg i.target.1 i.target.2 = true → ConfigWhenUp i.target.1 i.target.2 t := fun hv =>
    exec_configWhenUp hx (configInv_iff.1 h _ _ hv)
  refine configInv_iff.2 fun d n hv hl => ?_
  rw [f.cfg] at hv
  by_cases e : (d, n) = i.target
  · obtain ⟨rfl, rfl⟩ := Prod.mk.inj e
    exact own hv hl
  · have hinst : t.inst d n = s.inst d n := f.insts d n e
    rw [hinst] at hl
    have k := configInv_iff.1 h d n hv hl
    refine ⟨by rw [f.cfg, hinst]; exact k.legal, fun c hc => ?_, fun x hxs hxl => ?_, fun q hq => ?_⟩
    · rw [f.cfg] at hc
      by_contra hoff
      obtain ⟨hcc, hreset⟩ := exec_power_off hx (k.powered c hc) (by simpa using hoff)
      refine hl (sibsReset_iff.1 hreset (d, n) (mem_sibs.2 ⟨hv, e, ?_, ?_⟩))
      · rw [hcc]; rfl
      · rw [hcc, hc]
    · rw [f.cfg] at hxs
      by_cases ex : x = i.target
      · subst ex
        have kx := (own (mem_sibs.1 hxs).1 hxl).coupled (d, n) (by rw [f.cfg]; exact sibs_symm hxs hv)
          (by rw [hinst]; exact hl)
        exact ⟨kx.1.symm, kx.2.symm⟩
      · rw [f.insts x.1 x.2 ex] at hxl ⊢
        rw [hinst]
        exact k.coupled x hxs hxl
    · rw [f.cfg, hinst] at hq
      rw [f.queues q fun hr => e (reaches_inj hr (reaches_of_configuredQueues hq))]
      exact k.built q hq

/-! ### Steps -/

/-- Steps that leave the configuration, the instances, the codec power and the descriptors alone. -/
theorem ConfigInv.congr {s t : State} (h : ConfigInv s) (hc : t.cfg = s.cfg) (hi : ∀ d i, t.inst d i = s.inst d i)
    (hp : t.power = s.power) (hq : ∀ q, (t.queue q).td = (s.queue q).td) : ConfigInv t := by
  refine configInv_iff.2 fun d n hv hl => ?_
  rw [hc] at hv
  rw [hi] at hl
  exact (configInv_iff.1 h d n hv hl).congr hc hi (fun c => by simp [hp]) fun q => by rw [hq]; exact id

theorem ConfigInv.dispatched {s u : State} (h : ConfigInv s) (hu : Dispatched s u) : ConfigInv u :=
  h.congr hu.cfg hu.inst hu.power fun q => by rw [hu.queue]

theorem AgentFrame.configInv {s t : State} (f : AgentFrame s t) (h : ConfigInv s) : ConfigInv t :=
  h.congr f.cfg f.inst f.power fun q => (f.queues q).td

end Sys2Proof.Machine

namespace Sys2Proof.Proofs

open Sys2Proof.Machine

/-- Settles O55: a step is a command, which keeps the invariant, or an agent step, which touches nothing it reads. -/
theorem stepKeepsTheConfigurationInvariant : Obligations.StepKeepsTheConfigurationInvariant := by
  intro s t h hstep
  obtain ⟨u, hu, ⟨i, hx⟩ | hf⟩ := step_cases hstep
  · exact exec_configInv hx (h.dispatched hu)
  · exact hf.configInv (h.dispatched hu)

end Sys2Proof.Proofs
end

section
/-! PROOFS. The cursor invariant (10_state.md R44 (g); 43_sample_reassembler.md R247): a merge advances the cursor by
`CAP`, and only RECORD sets up a target. -/

namespace Sys2Proof.Machine

/-- The clause of `CursorInv`, of the registers and the capacity alone. -/
def CursorAt (cap : Nat) (r : Reassembler) : Prop :=
  r.mbuf = false → r.size = 0 ∨
    (r.size.toNat % (2 * cap) = 0 ∧ r.cur.toNat % cap = 0 ∧ r.cur.toNat < r.size.toNat)

theorem cursorInv_iff {s : State} : CursorInv s ↔ CursorAt s.cfg.cap s.sr := Iff.rfl

/-- One chunk further, from a chunk boundary inside a target of whole chunks: still inside, or at its end. -/
theorem chunk_le {cap cur size : Nat} (hsize : size % (2 * cap) = 0) (hcur : cur % cap = 0) (hlt : cur < size) :
    cur + cap ≤ size := by
  have hdvd : cap ∣ size - cur :=
    Nat.dvd_sub ((Nat.dvd_mul_left cap 2).trans (Nat.dvd_of_mod_eq_zero hsize)) (Nat.dvd_of_mod_eq_zero hcur)
  have := Nat.le_of_dvd (by omega) hdvd
  omega

/-- The frames of one merge are `CAP` slots. -/
theorem mergeSlots_toNat {cap : Nat} (heven : cap % 2 = 0) (hcap : cap ≤ 65534) :
    (BitVec.ofNat 16 (2 * (cap / 2))).toNat = cap := by
  rw [BitVec.toNat_ofNat, Nat.mod_eq_of_lt (by omega)]
  omega

/-- A channel event keeps the cursor at a chunk boundary inside the target: it stays, it advances by one chunk without
wrapping, or it starts again at the end. -/
theorem ReassemblerMove.cursorAt {cap : Nat} {r r' : Reassembler} (h : ReassemblerMove cap r r') (heven : cap % 2 = 0)
    (hcap : cap ≤ 65534) (hr : CursorAt cap r) : CursorAt cap r' := by
  intro hm
  rw [h.mbuf] at hm
  rw [h.size]
  refine (hr hm).imp_right fun ⟨hsize, hcur, hlt⟩ => ?_
  obtain e | e := h.cur
  · rw [e]; exact ⟨hsize, hcur, hlt⟩
  · have hle := chunk_le hsize hcur hlt
    have hadd : (r.cur + BitVec.ofNat 16 (2 * (cap / 2))).toNat = r.cur.toNat + cap := by
      have := r.size.isLt
      rw [BitVec.toNat_add, mergeSlots_toNat heven hcap, Nat.mod_eq_of_lt (by omega)]
    rw [e]
    split
    next => exact ⟨hsize, Nat.zero_mod cap, Nat.zero_lt_of_lt hlt⟩
    next hne =>
      rw [hadd, Nat.add_mod_right]
      exact ⟨hsize, hcur, Nat.lt_of_le_of_ne hle fun hend => hne (BitVec.eq_of_toNat_eq (hadd.trans hend))⟩

/-- The buffer RECORD accepts has at least one sample and at most 65535 of them. -/
theorem samples_of_badBuffer {p : Config.Params} {buf len : Word} (h : badBuffer p 2 buf len = false) :
    len.toNat / 2 ≠ 0 ∧ len.toNat / 2 ≤ 65535 := by
  simp only [badBuffer, Bool.or_eq_false_iff, decide_eq_false_iff_not, not_lt] at h
  obtain ⟨⟨⟨⟨⟨-, hsome⟩, hmost⟩, -⟩, -⟩, -⟩ := h
  exact ⟨hsome, hmost⟩

/-- RECORD sets up a target of whole pairs of chunks, with the cursor at its beginning. -/
theorem mergeSession_cursorAt {cap count : Nat} (r : Reassembler) (en : BitVec 12) (ch2 : Bool) (tgt : Word)
    (hpairs : count % (2 * cap) = 0) (hsome : count ≠ 0) (hmost : count ≤ 65535) :
    CursorAt cap (r.mergeSession en ch2 tgt count) := by
  have hsize : (BitVec.ofNat 16 count).toNat = count := by
    rw [BitVec.toNat_ofNat, Nat.mod_eq_of_lt (by omega)]
  intro _
  simp only [Reassembler.mergeSession, hsize]
  exact .inr ⟨hpairs, Nat.zero_mod cap, Nat.pos_of_ne_zero hsome⟩

/-- Commands other than RECORD and RECORDM leave the reassembler; those two set up a session. -/
theorem Succeeds.cursorAt {s u : State} {i : Instr} (h : Succeeds s i u) (hr : CursorAt s.cfg.cap s.sr) :
    CursorAt s.cfg.cap u.sr := by
  by_cases he : u.sr = s.sr
  · rw [he]; exact hr
  obtain ⟨n, rfl | rfl⟩ := h.writerOf.sr he
  · cases h with
    | record _ _ st => exact absurd ((setLife_sr ..).trans st.kept.sr) he
    | recordMerge _ _ hbuf hsize _ =>
      obtain ⟨hsome, hmost⟩ := samples_of_badBuffer hbuf
      exact mergeSession_cursorAt _ _ _ _ hsize hsome hmost
    | getter _ hi => cases hi
  · cases h with
    | recordMulti _ _ _ => exact fun hm => by cases hm
    | getter _ hi => cases hi

/-- A failed command leaves the reassembler. -/
theorem Fails.sr {s u : State} {i : Instr} {e : Status} (h : Fails s i e u) : u.sr = s.sr := by
  cases h with
  | kept _ _ hp _ st _ => rw [st.kept.sr, hp.sr]
  | deinit _ _ _ work =>
    by_contra hne
    obtain ⟨n, h | h⟩ := work.writerOf.sr hne <;> cases h

theorem exec_cursorInv {i : Instr} {s t : State} (hx : exec i s = .next t) (h : CursorInv s) : CursorInv t := by
  rw [cursorInv_iff, (exec_frame hx).cfg]
  cases exec_cases hx with
  | refused _ => exact h
  | failed hf => simp only [hf.sr]; exact h
  | succeeded hs => exact hs.cursorAt h

end Sys2Proof.Machine

namespace Sys2Proof.Proofs

open Sys2Proof.Machine

/-- Settles O57: a command leaves the reassembler or sets up a session, an agent step moves the cursor by one merge at
most; `CAP` is even and fits the cursor because the configuration is well formed. -/
theorem stepKeepsTheCursorInside : Obligations.StepKeepsTheCursorInside := by
  intro s t hwf h hstep
  obtain ⟨⟨-, hcap, heven⟩, -, -⟩ := wf_capacity_mics_sdCodec hwf
  obtain ⟨u, hu, hcase⟩ := step_cases hstep
  have hcur : CursorInv u := by rw [cursorInv_iff, hu.cfg, hu.sr]; exact h
  obtain ⟨i, hx⟩ | hf := hcase
  · exact exec_cursorInv hx hcur
  · rw [← hu.cfg] at hcap heven
    rw [cursorInv_iff, hf.cfg]
    exact hf.sr.cursorAt heven hcap hcur

end Sys2Proof.Proofs
end

section
/-! PROOFS. The register window (10_state.md R31, R40; 20_memory.md R74). -/

namespace Sys2Proof.Machine

/-! ### Accesses -/

/-- An aligned word write is ignored at every offset but those of the port. -/
theorem hostRegWrite_ignored {off : Word} (h4 : off.toNat % 4 = 0) (hcmd : off ≠ 0) (harg0 : off ≠ 4) (harg1 : off ≠ 8)
    (v : Word) (s : State) : hostRegWrite 4 off v s = .next s := by
  rw [hostRegWrite, if_pos (wordAccess_iff.2 ⟨rfl, h4⟩)]
  split
  next h => exact absurd (BitVec.eq_of_toNat_eq h) hcmd
  next h => exact absurd (BitVec.eq_of_toNat_eq h) harg0
  next h => exact absurd (BitVec.eq_of_toNat_eq h) harg1
  next => rfl

theorem wordAccess_false {size : Nat} {off : Word} (h : size ≠ 4 ∨ off.toNat % 4 ≠ 0) : ¬wordAccess size off = true := by
  rw [wordAccess_iff]
  exact fun ⟨hs, ho⟩ => h.elim (· hs) (· ho)

/-! ### Where the words stand -/

/-- Word `k` of the group of `OUT[i]`. -/
theorem readReg_out (s : State) (i : Idx) {k : Nat} (hk : k < 4) :
    readReg s (0x100 + 0x10 * i.val + 4 * k) = instGroup s .out i.val k := by
  have := i.isLt
  rw [readReg, if_pos (by omega)]
  congr 1 <;> omega

/-- Word `k` of the group of `IN[i]`. -/
theorem readReg_in (s : State) (i : Idx) {k : Nat} (hk : k < 4) :
    readReg s (0x200 + 0x10 * i.val + 4 * k) = instGroup s .inp i.val k := by
  have := i.isLt
  rw [readReg, if_neg (by omega), if_pos (by omega)]
  congr 1 <;> omega

/-- Word `k` of the group of queue number `n`. -/
theorem readReg_queue (s : State) {n k : Nat} (hn : n < 48) (hk : k < 8) :
    readReg s (0x400 + 0x20 * n + 4 * k) = queueGroup s n k := by
  rw [readReg, if_neg (by omega), if_neg (by omega), if_pos (by omega)]
  congr 1 <;> omega

/-- Below, between and above the groups stand the single registers. -/
theorem readReg_single (s : State) {off : Nat} (h : off < 0x100 ∨ (0x300 ≤ off ∧ off < 0x400) ∨ 0xA00 ≤ off) :
    readReg s off = singleWord s off := by
  rw [readReg, if_neg (by omega), if_neg (by omega), if_neg (by omega)]

/-- Past the microphones there is no queue. -/
theorem queueOfNumber_eq_none {n : Nat} (h : 44 ≤ n) : queueOfNumber n = none := by
  rw [queueOfNumber, dif_neg (by omega), dif_neg (by omega), dif_neg (by omega)]

/-- An offset of the single registers that names none of them. -/
theorem singleWord_unmapped (s : State) {off : Nat}
    (h : (0x020 ≤ off ∧ off < 0x100) ∨ (0x300 ≤ off ∧ off < 0x400) ∨ 0xA14 ≤ off) : singleWord s off = 0 := by
  unfold singleWord
  split
  case h_13 => rfl
  all_goals omega

theorem readReg_unmapped (s : State) {off : Nat}
    (h : (0x020 ≤ off ∧ off < 0x100) ∨ (0x300 ≤ off ∧ off < 0x400) ∨ (0x980 ≤ off ∧ off < 0xA00) ∨ 0xA14 ≤ off) :
    readReg s off = 0 := by
  by_cases hq : 0x980 ≤ off ∧ off < 0xA00
  · rw [readReg, if_neg (by omega), if_neg (by omega), if_pos (by omega), queueGroup,
      queueOfNumber_eq_none (by omega)]
  · rw [readReg_single s (by omega), singleWord_unmapped s (by omega)]

/-! ### What the groups hold -/

theorem instGroup_shown (s : State) (d : Dir) (i : Idx) {k : Nat} (hk : k < 4) :
    instGroup s d i.val k = if valid s.cfg d i then (shownInst (s.inst d i)).getD k 0 else 0 := by
  rw [instGroup, dif_pos i.isLt, Fin.eta, instWord_shown _ hk]

theorem queueGroup_shown (s : State) (q : QueueId) {k : Nat} (hk : k < 8) :
    queueGroup s (windowNumber q) k = if queueExists s.cfg q then (shownQueue (s.queue q)).getD k 0 else 0 := by
  rw [queueGroup, queueOfNumber_windowNumber, ← queueWord_shown _ hk]

end Sys2Proof.Machine

namespace Sys2Proof.Proofs

open Sys2Proof.Machine

/-- Settles O7: the cases of the offset, and of the width and alignment. -/
theorem windowAccesses : Obligations.WindowAccesses := by
  intro s v off size
  refine ⟨rfl, rfl, fun h4 hcmd harg0 harg1 => hostRegWrite_ignored h4 hcmd harg0 harg1 v s,
    fun h4 => if_pos (wordAccess_iff.2 ⟨rfl, h4⟩), fun h => ⟨if_neg (wordAccess_false h), if_neg (wordAccess_false h)⟩⟩

/-- Settles O8: where each word stands, and what it shows. -/
theorem windowContents : Obligations.WindowContents := by
  intro s
  refine ⟨⟨rfl, rfl, rfl, rfl, rfl⟩, param0_shown s.cfg, param1_shown s.cfg, (codecPwrWord_shown s).1,
    (codecPwrWord_shown s).2, fun i k hk => ⟨?_, ?_⟩, fun q k hk => ?_,
    ⟨srctl_shown s.sr, srrdy_shown s.sr, place_halfword s.sr.cur, rfl, place_halfword s.sr.size⟩,
    fun off h => readReg_unmapped s h⟩
  · rw [readReg_out s i hk, instGroup_shown s .out i hk]
  · rw [readReg_in s i hk, instGroup_shown s .inp i hk]
  · rw [readReg_queue s (Nat.lt_trans (windowNumber_lt q) (by omega)) hk, queueGroup_shown s q hk]

end Sys2Proof.Proofs
end

section
/-! PROOFS. The invariants after reset (00_scope.md R9; 10_state.md R44, R45). -/

namespace Sys2Proof.Proofs

open Sys2Proof.Machine

/-- A queue after reset is as a stopped one without a descriptor. -/
theorem zeroed_queueInv (q : QueueId) : QueueInv q Queue.reset :=
  stopped_queueInv (v := Queue.reset) (.inl rfl)

theorem zeroed_engineInv (p : Config.Params) : EngineInv (State.zeroed p) :=
  ⟨fun q => by rw [zeroed_queue]; exact zeroed_queueInv q, fun _ _ _ _ q _ => by rw [zeroed_queue]; rfl⟩

/-- After reset every instance is `RESET`, so the clauses of the others say nothing. -/
theorem zeroed_configInv (p : Config.Params) : ConfigInv (State.zeroed p) :=
  configInv_iff.2 fun d n _ hl => absurd (by rw [zeroed_inst]; rfl) hl

/-- Settles O52: the machine that is constructed is the zeroed one, and each invariant holds of it. -/
theorem resetMeetsTheInvariants : Obligations.ResetMeetsTheInvariants := by
  intro p s hs
  obtain ⟨hwf, rfl⟩ := resetWith_eq_some.1 hs
  refine ⟨hwf, zeroed_memory_wf p, zeroed_engineInv p, zeroed_configInv p, fun _ => .inl rfl, fun q hst => ?_,
    rfl, fun q => ?_⟩
  · rw [zeroed_queue] at hst
    exact absurd rfl hst
  · rw [zeroed_queue]; rfl

end Sys2Proof.Proofs
end

section
/-! PROOFS. System memory as bytes, and the canonical form of both memories (10_state.md R35; 20_memory.md R70, R72,
R73; 42_transfer_engine.md R208; 43_sample_reassembler.md R244): only DMA steps, merges and the host's memory writes
store, each of them inside the address space. -/

namespace Sys2Proof.Machine

/-! ### Accesses of `n` bytes -/

/-- The list read back has the width asked for, so it is the list written. -/
theorem memRead_memWrite_same (m : Memory) (a n v : Nat) : memRead (memWrite m a n v) a n = v % 256 ^ n := by
  have hread := readBytes_writeBytes_same m a (leBytes n v)
  rw [leBytes_length] at hread
  rw [memRead, memWrite, hread, ofLeBytes_leBytes]

theorem byteAt_memWrite_inside (m : Memory) (a v : Nat) {n k : Nat} (h : k < n) :
    byteAt (memWrite m a n v) (a + k) = BitVec.ofNat 8 (v / 256 ^ k) := by
  have hk : k < (leBytes n v).length := by rwa [leBytes_length]
  rw [memWrite, byteAt_writeBytes_inside m a _ k hk, leBytes_getElem]

theorem byteAt_memWrite_outside (m : Memory) (v : Nat) {a n b : Nat} (h : b < a ∨ a + n ≤ b) :
    byteAt (memWrite m a n v) b = byteAt m b :=
  byteAt_writeBytes_outside m a _ b (by rwa [leBytes_length])

/-! ### What stores nothing -/

theorem MemoryForm.congr {s t : State} (h : MemoryForm s) (hmem : t.mem = s.mem) (hcb : t.cb = s.cb) :
    MemoryForm t := by
  rw [MemoryForm, hmem, hcb]
  exact h

theorem MemoryForm.setQueue {s : State} (h : MemoryForm s) (q : QueueId) (v : Queue) : MemoryForm (s.setQueue q v) :=
  h.congr (setQueue_mem ..) (setQueue_cb ..)

theorem MemoryForm.notify {s : State} (h : MemoryForm s) (d : Dir) (i : Idx) (k : Notice) (m : Mic) :
    MemoryForm (notify d i k m s) :=
  h.congr (notify_mem ..) (notify_cb ..)

theorem MemoryForm.dropEvent {s : State} (h : MemoryForm s) : MemoryForm s.dropEvent :=
  h.congr (dropEvent_mem s) (dropEvent_cb s)

/-- No command writes a memory (20_memory.md R72). -/
theorem exec_memoryForm {i : Instr} {s t : State} (hx : exec i s = .next t) (h : MemoryForm s) : MemoryForm t :=
  have k := (exec_frame hx).surroundings
  h.congr k.mem k.cb

/-! ### What stores -/

/-- An element goes to channel memory at a 16-bit position, to bytes below `2^32`, or out on the link. -/
theorem Moved.memoryForm {q : QueueId} {v : Word} {s t : State} (hm : Moved q v s t) (h : MemoryForm s) :
    MemoryForm t := by
  obtain ⟨hmem, hcb⟩ := h
  cases hm with
  | sample m => exact ⟨hmem, writeSample_wf s.cb m v (s.queue q).pos.isLt hcb⟩
  | store w a _ _ fits => exact ⟨memWrite_wf s.mem a w v.toNat fits hmem, hcb⟩
  | send => exact ⟨hmem, hcb⟩

/-- The merge tests that all its frames lie below `2^32` before it writes the first. -/
theorem merge_memoryForm {j : Idx} {b : Half} {s t : State} (hm : merge j b s = .next t) (h : MemoryForm s) :
    MemoryForm t := by
  obtain ⟨hmem, hcb⟩ := h
  obtain ⟨c0, c1, -, hfits, rfl⟩ := merge_cases hm
  obtain ⟨mem, hframes, hwf⟩ := mergeFrames_frame b c0 c1 (s.cfg.cap / 2) 0 (noteSkew b s)
  rw [mergeEnd_eq, hframes]
  exact ⟨hwf hfits hmem, hcb⟩

theorem channelEvent_memoryForm {j : Idx} {m : Mic} {b : Half} {s t : State} (hc : channelEvent j m b s = .next t)
    (h : MemoryForm s) : MemoryForm t := by
  have hmark : MemoryForm (markReady m b s) := h.congr (markReady_mem ..) (markReady_cb ..)
  obtain rfl | hm := channelEvent_cases hc
  · exact hmark
  · exact merge_memoryForm hm hmark

theorem deliver_memoryForm {d : Dir} {i : Idx} {q : QueueId} {x : Completion} {s t : State}
    (hd : deliver d i q x s = .next t) (h : MemoryForm s) : MemoryForm t := by
  obtain ⟨k, rfl⟩ | ⟨-, m, b, -, hc⟩ := deliver_cases hd
  · exact h.notify d i k (chanOf q)
  · exact channelEvent_memoryForm hc h

/-! ### One agent step -/

theorem dmaStep_memoryForm {q : QueueId} {v : Word} {s t : State} (hs : dmaStep q v s = .next t)
    (h : MemoryForm s) : MemoryForm t := by
  obtain ⟨-, -, s1, hm, rfl⟩ := dmaStep_cases hs
  exact (hm.memoryForm h).setQueue q _

theorem serviceStep_memoryForm {q : QueueId} {x : Completion} {s t : State} (hs : serviceStep q x s = .next t)
    (h : MemoryForm s) : MemoryForm t := by
  obtain ⟨d, i, -, -, -, -, hd⟩ := serviceStep_cases hs
  exact deliver_memoryForm hd (h.setQueue q _)

theorem errorStep_memoryForm {q : QueueId} {s t : State} (hs : errorStep q s = .next t) (h : MemoryForm s) :
    MemoryForm t := by
  obtain ⟨-, -, rfl⟩ := errorStep_cases hs
  exact h.setQueue q _

theorem commandWrite_memoryForm {w : Word} {s t : State} (hs : commandWrite w s = .next t) (h : MemoryForm s) :
    MemoryForm t := by
  unfold commandWrite at hs
  split at hs
  · exact exec_memoryForm hs h
  · cases hs; exact h

/-- The register window holds neither memory: a write that is no command sets an operand or is ignored. -/
theorem hostRegWrite_memoryForm {size : Nat} {off w : Word} {s t : State} (hs : hostRegWrite size off w s = .next t)
    (h : MemoryForm s) : MemoryForm t := by
  unfold hostRegWrite at hs
  split at hs
  · split at hs
    · exact commandWrite_memoryForm hs h
    all_goals cases hs; exact h
  · cases hs

theorem hostRegRead_memoryForm {size : Nat} {off : Word} {s t : State} (hs : hostRegRead size off s = .next t)
    (h : MemoryForm s) : MemoryForm t := by
  unfold hostRegRead at hs
  split at hs
  · cases hs; exact h
  · cases hs

theorem hostMemWrite_memoryForm {a : Word} {bytes : List Byte} {s t : State} (hs : hostMemWrite a bytes s = .next t)
    (h : MemoryForm s) : MemoryForm t := by
  obtain ⟨hmem, hcb⟩ := h
  unfold hostMemWrite at hs
  split at hs
  · cases hs
  next hfits => cases hs; exact ⟨writeBytes_wf s.mem a.toNat bytes (Nat.le_of_not_lt hfits) hmem, hcb⟩

theorem hostMemRead_memoryForm {a : Word} {n : Nat} {s t : State} (hs : hostMemRead a n s = .next t)
    (h : MemoryForm s) : MemoryForm t := by
  unfold hostMemRead at hs
  split at hs
  · cases hs
  · cases hs; exact h

theorem runEvent_memoryForm {e : Config.Event} {s t : State} (hs : runEvent e s = .next t) (h : MemoryForm s) :
    MemoryForm t := by
  cases e with
  | regWrite size off v => exact hostRegWrite_memoryForm hs h
  | regRead size off => exact hostRegRead_memoryForm hs h
  | memWrite a bytes => exact hostMemWrite_memoryForm hs h
  | memRead a n => exact hostMemRead_memoryForm hs h
  | dma q v => exact dmaStep_memoryForm hs h
  | service q x => exact serviceStep_memoryForm hs h
  | error q => exact errorStep_memoryForm hs h

end Sys2Proof.Machine

namespace Sys2Proof.Proofs

open Sys2Proof.Machine

/-- Settles O53: the choice of the next step stores nothing, and each agent's step keeps the form. -/
theorem stepKeepsMemoryForm : Obligations.StepKeepsMemoryForm :=
  fun _ _ h hstep => runEvent_memoryForm hstep h.dropEvent

/-- Settles O9: the value read back, the bytes inside, and the bytes outside. -/
theorem memoryIsLittleEndian : Obligations.MemoryIsLittleEndian := fun m a n v =>
  ⟨memRead_memWrite_same m a n v, fun _ hk => byteAt_memWrite_inside m a v hk,
    fun _ hb => byteAt_memWrite_outside m v hb⟩

end Sys2Proof.Proofs
end

section
/-! PROOFS. The encoding of the commands (30_encoding.md R101 to R111): the decoder reads back the fields that `pack`
writes, a command and the words that decode to it are the same thing (`decode_eq_ok_iff`), and the rows of the opcode
map are compared with a word field by field. -/

namespace Sys2Proof

/-! ### The one-field codes and the tests of R109 -/

@[simp] theorem dirOf_dirBit (d : Dir) : dirOf (dirBit d) = d := by
  cases d <;> rfl

@[simp] theorem dirBit_dirOf (b : BitVec 1) : dirBit (dirOf b) = b := by
  revert b; decide

@[simp] theorem idxOf_idxBits (i : Idx) : idxOf (idxBits i) = i :=
  Fin.ext (Nat.mod_eq_of_lt i.isLt)

@[simp] theorem idxBits_idxOf (v : BitVec 4) : idxBits (idxOf v) = v :=
  (BitVec.ofNat_toNat 4 v).trans (BitVec.setWidth_eq v)

theorem noImm_eq_ok_iff {imm : BitVec 16} {i j : Instr} : noImm imm i = .ok j ↔ imm = 0 ∧ i = j := by
  unfold noImm
  split
  next himm => simp [himm]
  next himm => exact ⟨nofun, fun ⟨hzero, _⟩ => absurd hzero himm⟩

theorem onlyDir_eq_ok_iff {want d : Dir} {r : Except Reserved Instr} {j : Instr} :
    onlyDir want d r = .ok j ↔ d = want ∧ r = .ok j := by
  by_cases h : d = want <;> simp [onlyDir, h]

/-! ### The fields of a packed word (R101, R111) -/

section
variable (opc : BitVec 8) (d : Dir) (i : Idx) (imm : BitVec 16)

theorem pack_opc : (pack opc d i imm).extractLsb' 24 8 = opc :=
  BitVec.extractLsb'_append_eq_left

theorem pack_dir : (pack opc d i imm).extractLsb' 23 1 = dirBit d := by
  rw [pack, BitVec.extractLsb'_append_eq_of_add_le (by decide)]
  exact BitVec.extractLsb'_append_eq_left

theorem pack_z : (pack opc d i imm).extractLsb' 20 3 = 0 := by
  rw [pack, BitVec.extractLsb'_append_eq_of_add_le (by decide), BitVec.extractLsb'_append_eq_of_add_le (by decide)]
  exact BitVec.extractLsb'_append_eq_left

theorem pack_idx : (pack opc d i imm).extractLsb' 16 4 = idxBits i := by
  rw [pack, BitVec.extractLsb'_append_eq_of_add_le (by decide), BitVec.extractLsb'_append_eq_of_add_le (by decide),
    BitVec.extractLsb'_append_eq_of_add_le (by decide)]
  exact BitVec.extractLsb'_append_eq_left

theorem pack_imm : (pack opc d i imm).extractLsb' 0 16 = imm := by
  rw [pack, BitVec.extractLsb'_append_eq_of_add_le (by decide), BitVec.extractLsb'_append_eq_of_add_le (by decide),
    BitVec.extractLsb'_append_eq_of_add_le (by decide)]
  exact BitVec.extractLsb'_append_eq_right

/-- The decoder reads the fields that were packed. -/
theorem decode_pack : decode (pack opc d i imm) = decodeOpcode opc.toNat d i imm := by
  simp [decode, pack_opc, pack_dir, pack_z, pack_idx, pack_imm]

end

/-- Taking the next `n` bits above the `k` low ones. -/
theorem next_append_low {w : Nat} (v : BitVec w) (k n : Nat) :
    v.extractLsb' k n ++ v.extractLsb' 0 k = v.extractLsb' 0 (n + k) :=
  BitVec.extractLsb'_append_extractLsb'_eq_extractLsb' (Nat.zero_add k).symm

theorem high_append_low {m n : Nat} (v : BitVec (m + n)) : v.extractLsb' n m ++ v.extractLsb' 0 n = v := by
  rw [next_append_low, BitVec.extractLsb'_eq_self]

/-- The immediate of INIT is its four parts (R104). -/
theorem initImm_parts (imm : BitVec 16) :
    imm.extractLsb' 14 2 ++ (imm.extractLsb' 8 6 ++ (imm.extractLsb' 7 1 ++ imm.extractLsb' 0 7)) = imm := by
  rw [next_append_low imm 7 1, next_append_low imm 8 6]
  exact high_append_low (m := 2) (n := 14) imm

/-- A word whose bits 22:20 are zero is the packing of its fields. -/
theorem pack_fields {w : Word} (hz : w.extractLsb' 20 3 = 0) :
    pack (w.extractLsb' 24 8) (dirOf (w.extractLsb' 23 1)) (idxOf (w.extractLsb' 16 4)) (w.extractLsb' 0 16) = w := by
  rw [pack, dirBit_dirOf, idxBits_idxOf, ← hz, next_append_low w 16 4, next_append_low w 20 3, next_append_low w 23 1]
  exact high_append_low (m := 8) (n := 24) w

/-- Reading back the two parts of an immediate. -/
theorem split_append {α : Type} {m n : Nat} (f : BitVec m → BitVec n → α) (a : BitVec m) (b : BitVec n) :
    f ((a ++ b).extractLsb' n m) ((a ++ b).extractLsb' 0 n) = f a b := by
  rw [BitVec.extractLsb'_append_eq_left, BitVec.extractLsb'_append_eq_right]

/-- Reading back the four parts of the immediate of INIT (R104). -/
theorem split_initImm {α : Type} (f : BitVec 2 → BitVec 6 → BitVec 1 → BitVec 7 → α)
    (ch : BitVec 2) (bits : BitVec 6) (mbz : BitVec 1) (vol : BitVec 7) {imm : BitVec 16}
    (h : imm = ch ++ (bits ++ (mbz ++ vol))) :
    f (imm.extractLsb' 14 2) (imm.extractLsb' 8 6) (imm.extractLsb' 7 1) (imm.extractLsb' 0 7) = f ch bits mbz vol := by
  have hch : imm.extractLsb' 14 2 = ch := h ▸ BitVec.extractLsb'_append_eq_left
  have hrest (k l : Nat) (hl : k + l ≤ 14) : imm.extractLsb' k l = (bits ++ (mbz ++ vol)).extractLsb' k l :=
    h ▸ BitVec.extractLsb'_append_eq_of_add_le hl
  rw [hch, hrest 8 6 (by decide), hrest 7 1 (by decide), hrest 0 7 (by decide), BitVec.extractLsb'_append_eq_left,
    BitVec.extractLsb'_append_eq_of_add_le (start := 7) (by decide),
    BitVec.extractLsb'_append_eq_of_add_le (start := 0) (by decide)]
  exact split_append (f ch bits) mbz vol

/-! ### Decode and encode are inverse -/

/-- Only the commands with a structured immediate (R104, R105) have more to read back than the fields of `pack`. -/
theorem decode_encode (i : Instr) : decode (encode i) = .ok i := by
  cases i with
  | init d i ch bits mbz vol =>
    exact (decode_pack ..).trans
      (split_initImm (fun c b m v => Except.ok (Instr.init d i c b m v)) ch bits mbz vol rfl)
  | setvol d i mbz vol =>
    exact (decode_pack ..).trans (split_append (fun m v => Except.ok (Instr.setvol d i m v)) mbz vol)
  | setbits d i mbz bits =>
    exact (decode_pack ..).trans (split_append (fun m v => Except.ok (Instr.setbits d i m v)) mbz bits)
  | setch d i mbz ch =>
    exact (decode_pack ..).trans (split_append (fun m v => Except.ok (Instr.setch d i m v)) mbz ch)
  | regcb d i mbz mask =>
    exact (decode_pack ..).trans (split_append (fun m v => Except.ok (Instr.regcb d i m v)) mbz mask)
  | _ => exact decode_pack ..

/-- A row of format N, A or B: the immediate is 0, so nothing of it is lost. -/
theorem encode_of_noImm_eq_ok {opc : BitVec 8} {d : Dir} {x : Idx} {imm : BitVec 16} {i j : Instr}
    (henc : encode i = pack opc d x 0) (h : noImm imm i = .ok j) : encode j = pack opc d x imm := by
  obtain ⟨rfl, rfl⟩ := noImm_eq_ok_iff.1 h
  exact henc

/-- A row of one direction: the direction bit is the row's. -/
theorem encode_of_onlyDir_eq_ok {opc : BitVec 8} {want d : Dir} {x : Idx} {imm : BitVec 16} {i j : Instr}
    (henc : encode i = pack opc want x 0) (h : onlyDir want d (noImm imm i) = .ok j) :
    encode j = pack opc d x imm := by
  obtain ⟨rfl, hnoImm⟩ := onlyDir_eq_ok_iff.1 h
  exact encode_of_noImm_eq_ok henc hnoImm

/-- Case `h_n` is the row of opcode `n`: INIT (1), the commands of one direction (3 to 5), those with an immediate in
two parts (12, 18, 20, 23), the unassigned opcodes (24), and the rest, which take no immediate. -/
theorem encode_of_decodeOpcode_eq_ok {opc : Nat} {d : Dir} {x : Idx} {imm : BitVec 16} {i : Instr}
    (h : decodeOpcode opc d x imm = .ok i) : encode i = pack (BitVec.ofNat 8 opc) d x imm := by
  unfold decodeOpcode at h
  split at h
  case h_1 => cases h; rw [encode, initImm_parts]; rfl
  case h_3 | h_4 | h_5 => exact encode_of_onlyDir_eq_ok rfl h
  case h_12 | h_18 | h_20 | h_23 => cases h; rw [encode, high_append_low]; rfl
  case h_24 => cases h
  all_goals exact encode_of_noImm_eq_ok rfl h

theorem encode_of_decode_eq_ok {w : Word} {i : Instr} (h : decode w = .ok i) : encode i = w := by
  unfold decode at h
  split at h
  · cases h
  next hz =>
    rw [encode_of_decodeOpcode_eq_ok h, BitVec.ofNat_toNat, BitVec.setWidth_eq, pack_fields (not_not.1 hz)]

/-- A word decodes to a command exactly when it is the command's word. -/
theorem decode_eq_ok_iff {w : Word} {i : Instr} : decode w = .ok i ↔ encode i = w :=
  ⟨encode_of_decode_eq_ok, fun h => h ▸ decode_encode i⟩

/-! ### The rows of the opcode map (R107) -/

/-- On a field that the mask of a row keeps whole, a word that selects the row has the row's pattern. -/
theorem field_of_selects {r : OpcodeRow} {w : Word} (h : r.selects w = true) {k l : Nat}
    (hmask : r.mask.extractLsb' k l = BitVec.allOnes l) : w.extractLsb' k l = r.pattern.extractLsb' k l := by
  have hand : w &&& r.mask = r.pattern := beq_iff_eq.1 h
  rw [← hand, BitVec.extractLsb'_and, hmask, BitVec.and_allOnes]

theorem opc_of_selects {r : OpcodeRow} (hr : r ∈ opcodeTable) {w : Word} (h : r.selects w = true) :
    w.extractLsb' 24 8 = r.pattern.extractLsb' 24 8 :=
  field_of_selects h ((by decide : ∀ r ∈ opcodeTable, r.mask.extractLsb' 24 8 = BitVec.allOnes 8) r hr)

theorem z_of_selects {r : OpcodeRow} (hr : r ∈ opcodeTable) {w : Word} (h : r.selects w = true) :
    w.extractLsb' 20 3 = 0 := by
  have hrows : ∀ r ∈ opcodeTable,
      r.mask.extractLsb' 20 3 = BitVec.allOnes 3 ∧ r.pattern.extractLsb' 20 3 = 0 := by decide
  obtain ⟨hmask, hpattern⟩ := hrows r hr
  exact (field_of_selects h hmask).trans hpattern

/-- The rows have 23 different opcodes, so a word selects at most one of them. -/
theorem row_unique {r₁ r₂ : OpcodeRow} (h₁ : r₁ ∈ opcodeTable) (h₂ : r₂ ∈ opcodeTable) {w : Word}
    (hs₁ : r₁.selects w = true) (hs₂ : r₂.selects w = true) : r₁ = r₂ :=
  have hnodup : (opcodeTable.map fun r => r.pattern.extractLsb' 24 8).Nodup := by decide
  List.inj_on_of_nodup_map hnodup h₁ h₂ ((opc_of_selects h₁ hs₁).symm.trans (opc_of_selects h₂ hs₂))

/-- A word that selects a row goes to the opcode of that row. -/
theorem decode_of_selects {r : OpcodeRow} (hr : r ∈ opcodeTable) {w : Word} (h : r.selects w = true) :
    decode w = decodeOpcode (r.pattern.extractLsb' 24 8).toNat (dirOf (w.extractLsb' 23 1))
      (idxOf (w.extractLsb' 16 4)) (w.extractLsb' 0 16) := by
  rw [decode, if_neg (not_not.2 (z_of_selects hr h)), opc_of_selects hr h]

/-- The opcode of a row accepts every direction and immediate that the fixed bits of the row allow. -/
def OpcodeRow.Accepted (r : OpcodeRow) : Prop :=
  ∀ (b : BitVec 1) (x : Idx) (imm : BitVec 16),
    (r.mask.extractLsb' 23 1 = BitVec.allOnes 1 → b = r.pattern.extractLsb' 23 1) →
    (r.mask.extractLsb' 0 16 = BitVec.allOnes 16 → imm = r.pattern.extractLsb' 0 16) →
    ∃ i, decodeOpcode (r.pattern.extractLsb' 24 8).toNat (dirOf b) x imm = .ok i

/-- Rows whose opcode admits any immediate. -/
theorem accepted_anyImm {r : OpcodeRow}
    (h : ∀ d x imm, ∃ i, decodeOpcode (r.pattern.extractLsb' 24 8).toNat d x imm = .ok i) : r.Accepted :=
  fun b x imm _ _ => h (dirOf b) x imm

/-- Rows of formats N, A and B for both directions. -/
theorem accepted_noImm {r : OpcodeRow} (hmask : r.mask.extractLsb' 0 16 = BitVec.allOnes 16)
    (h : ∀ d x, ∃ i, decodeOpcode (r.pattern.extractLsb' 24 8).toNat d x (r.pattern.extractLsb' 0 16) = .ok i) :
    r.Accepted := by
  intro b x imm _ himm
  rw [himm hmask]
  exact h (dirOf b) x

/-- Rows for one direction (R103). -/
theorem accepted_oneDir {r : OpcodeRow} (hdir : r.mask.extractLsb' 23 1 = BitVec.allOnes 1)
    (hmask : r.mask.extractLsb' 0 16 = BitVec.allOnes 16)
    (h : ∀ x, ∃ i, decodeOpcode (r.pattern.extractLsb' 24 8).toNat (dirOf (r.pattern.extractLsb' 23 1)) x
      (r.pattern.extractLsb' 0 16) = .ok i) : r.Accepted := by
  intro b x imm hb himm
  rw [hb hdir, himm hmask]
  exact h x

/-- The rows in the table's order, each by what its mask fixes. -/
theorem opcodeTable_accepted : ∀ r ∈ opcodeTable, r.Accepted := by
  simp only [opcodeTable, List.forall_mem_cons]
  exact ⟨accepted_anyImm fun _ _ _ => ⟨_, rfl⟩, accepted_noImm rfl fun _ _ => ⟨_, rfl⟩,
    accepted_oneDir rfl rfl fun _ => ⟨_, rfl⟩, accepted_oneDir rfl rfl fun _ => ⟨_, rfl⟩,
    accepted_oneDir rfl rfl fun _ => ⟨_, rfl⟩, accepted_noImm rfl fun _ _ => ⟨_, rfl⟩,
    accepted_noImm rfl fun _ _ => ⟨_, rfl⟩, accepted_noImm rfl fun _ _ => ⟨_, rfl⟩,
    accepted_noImm rfl fun _ _ => ⟨_, rfl⟩, accepted_noImm rfl fun _ _ => ⟨_, rfl⟩,
    accepted_noImm rfl fun _ _ => ⟨_, rfl⟩, accepted_anyImm fun _ _ _ => ⟨_, rfl⟩,
    accepted_noImm rfl fun _ _ => ⟨_, rfl⟩, accepted_noImm rfl fun _ _ => ⟨_, rfl⟩,
    accepted_noImm rfl fun _ _ => ⟨_, rfl⟩, accepted_noImm rfl fun _ _ => ⟨_, rfl⟩,
    accepted_noImm rfl fun _ _ => ⟨_, rfl⟩, accepted_anyImm fun _ _ _ => ⟨_, rfl⟩,
    accepted_noImm rfl fun _ _ => ⟨_, rfl⟩, accepted_anyImm fun _ _ _ => ⟨_, rfl⟩,
    accepted_noImm rfl fun _ _ => ⟨_, rfl⟩, accepted_noImm rfl fun _ _ => ⟨_, rfl⟩,
    accepted_anyImm fun _ _ _ => ⟨_, rfl⟩, nofun⟩

theorem decodes_of_selects {r : OpcodeRow} (hr : r ∈ opcodeTable) {w : Word} (h : r.selects w = true) :
    ∃ i, decode w = .ok i := by
  rw [decode_of_selects hr h]
  exact opcodeTable_accepted r hr _ _ _ (field_of_selects h) (field_of_selects h)

/-- Every command's word selects the command's own row. -/
theorem encode_matches_row : ∀ i : Instr, Laws.EncodeMatchesRow.Statement i
  | .init d i ch bits mbz vol => Laws.EncodeMatchesRow.init d i ch bits mbz vol
  | .deinit d i => Laws.EncodeMatchesRow.deinit d i
  | .play i => Laws.EncodeMatchesRow.play i
  | .record i => Laws.EncodeMatchesRow.record i
  | .recordm i => Laws.EncodeMatchesRow.recordm i
  | .pause d i => Laws.EncodeMatchesRow.pause d i
  | .resume d i => Laws.EncodeMatchesRow.resume d i
  | .stop d i => Laws.EncodeMatchesRow.stop d i
  | .mute d i => Laws.EncodeMatchesRow.mute d i
  | .unmute d i => Laws.EncodeMatchesRow.unmute d i
  | .ismute d i => Laws.EncodeMatchesRow.ismute d i
  | .setvol d i mbz vol => Laws.EncodeMatchesRow.setvol d i mbz vol
  | .getvol d i => Laws.EncodeMatchesRow.getvol d i
  | .setdev d i => Laws.EncodeMatchesRow.setdev d i
  | .getdev d i => Laws.EncodeMatchesRow.getdev d i
  | .setrate d i => Laws.EncodeMatchesRow.setrate d i
  | .getrate d i => Laws.EncodeMatchesRow.getrate d i
  | .setbits d i mbz bits => Laws.EncodeMatchesRow.setbits d i mbz bits
  | .getbits d i => Laws.EncodeMatchesRow.getbits d i
  | .setch d i mbz ch => Laws.EncodeMatchesRow.setch d i mbz ch
  | .getch d i => Laws.EncodeMatchesRow.getch d i
  | .getstate d i => Laws.EncodeMatchesRow.getstate d i
  | .regcb d i mbz mask => Laws.EncodeMatchesRow.regcb d i mbz mask

/-- A word decodes exactly when some row of the opcode map selects it. -/
theorem decodes_iff_selected {w : Word} : (∃ i, decode w = .ok i) ↔ ∃ r ∈ opcodeTable, r.selects w = true := by
  constructor
  · rintro ⟨i, h⟩
    obtain ⟨r, hr, hsel⟩ := encode_matches_row i
    exact ⟨r, List.mem_of_getElem? hr, encode_of_decode_eq_ok h ▸ hsel⟩
  · rintro ⟨r, hr, h⟩
    exact decodes_of_selects hr h

/-- A word that no row selects is a reserved encoding (R108). -/
theorem decode_error_of_unselected {w : Word} (h : ∀ r ∈ opcodeTable, r.selects w = false) :
    ∃ e, decode w = .error e := by
  cases hd : decode w with
  | error e => exact ⟨e, rfl⟩
  | ok i =>
    obtain ⟨r, hr, hsel⟩ := decodes_iff_selected.1 ⟨i, hd⟩
    exact absurd hsel (Bool.eq_false_iff.1 (h r hr))

end Sys2Proof

namespace Sys2Proof.Machine

/-! ### The write of `CMD` as a step (10_state.md R29; R100, R108) -/

theorem step_of_commandWrite {s : State} {rest : List Config.Event} {w : Word}
    (h : s.schedule = .regWrite 4 0 w :: rest) : step s = commandWrite w { s with schedule := rest } := by
  rw [step, nextEvent_cons s _ rest h, dropEvent_cons s _ rest h]
  rfl

theorem commandWrite_of_decode_ok {w : Word} {i : Instr} (h : decode w = .ok i) (s : State) :
    commandWrite w s = exec i { s with cmd := w } := by
  simp only [commandWrite, h]

theorem commandWrite_of_decode_error {w : Word} {e : Reserved} (h : decode w = .error e) (s : State) :
    commandWrite w s = finishWith .wrongParam { s with cmd := w } := by
  simp only [commandWrite, h]

end Sys2Proof.Machine

namespace Sys2Proof.Proofs

open Sys2Proof.Machine

/-- Settles O1: `pack` keeps every field apart, and each command's immediate is split where it was joined. -/
theorem decodeEncodeRoundTrip : Obligations.DecodeEncodeRoundTrip :=
  decode_encode

/-- Settles O2, by the rows of the decoder. -/
theorem encodeDecodeRoundTrip : Obligations.EncodeDecodeRoundTrip :=
  fun _ _ => encode_of_decode_eq_ok

/-- Settles O3: a command's word selects the command's row, a row fixes just what its opcode asks, and no two rows have
one opcode. -/
theorem decodeAcceptsExactlyTheTable : Obligations.DecodeAcceptsExactlyTheTable :=
  fun _ => ⟨decodes_iff_selected, fun _ h₁ _ h₂ => row_unique h₁ h₂⟩

/-- Settles O6: an unselected word does not decode, and the write then only finishes with `WrongParam`. -/
theorem reservedWordOnlyWritesStatus : Obligations.ReservedWordOnlyWritesStatus := by
  intro s rest w hs hrows
  obtain ⟨e, he⟩ := decode_error_of_unselected hrows
  rw [step_of_commandWrite hs, commandWrite_of_decode_error he]
  rfl

/-- Settles O4: the six commands by their encodings, the four reserved words by the decoder's tests. -/
theorem writtenWordsDecode : Obligations.WrittenWordsDecode :=
  ⟨decode_eq_ok_iff.2 rfl, decode_eq_ok_iff.2 rfl, decode_eq_ok_iff.2 rfl, decode_eq_ok_iff.2 rfl,
    decode_eq_ok_iff.2 rfl, decode_eq_ok_iff.2 rfl, rfl, rfl, rfl, rfl⟩

/-- Settles O5: the write of `CMD` runs what its word decodes to. -/
theorem stepRunsTheDecodedCommand : Obligations.StepRunsTheDecodedCommand := by
  intro s rest w i hs hdec
  rw [step_of_commandWrite hs, commandWrite_of_decode_ok hdec]

end Sys2Proof.Proofs
end

section
/-! PROOFS. What the lifecycle proofs share (40_stream_lifecycle.md R130, R141, R145): a command whose checks are taken
one by one, the frame of a command that failed or wrote its instance, and collaborator calls that are granted. -/

namespace Sys2Proof.Machine

/-! ### Checks, one by one (R130) -/

theorem command_nil (body : State → Res) (s : State) : command [] body s = (body s).finish := rfl

theorem command_of_passed {b : Bool} (h : b = false) (e : Status) (rest : List (Bool × Status)) (body : State → Res)
    (s : State) : command ((b, e) :: rest) body s = command rest body s := by
  simp [command, firstFailure_cons, h]

theorem command_of_failed {b : Bool} (h : b = true) (e : Status) (rest : List (Bool × Status)) (body : State → Res)
    (s : State) : command ((b, e) :: rest) body s = .next { s with status := e.code } :=
  command_fails (by simp [firstFailure_cons, h]) body s

theorem finish_done (s : State) : (Res.done s).finish = .next { s with status := 0 } := rfl

/-! ### What a command leaves of the instances and the surroundings -/

/-- The instances, `RESULT` and the surroundings are as they were: a failed command comes to such a state, and a
granted one does before its last line. -/
structure InstsKept (s t : State) : Prop where
  outs : t.outs = s.outs
  ins : t.ins = s.ins
  result : t.result = s.result
  surroundings : KeepsSurroundings s t

theorem InstsKept.trans {s t u : State} (h : InstsKept s t) (k : InstsKept t u) : InstsKept s u :=
  ⟨k.outs.trans h.outs, k.ins.trans h.ins, k.result.trans h.result, h.surroundings.trans k.surroundings⟩

theorem Kept.instsKept {s t : State} (h : Kept s t) : InstsKept s t := ⟨h.outs, h.ins, h.result, h.surroundings⟩

theorem Powered.instsKept {d : Dir} {i : Idx} {on : Bool} {s t : State} (h : Powered d i on s t) : InstsKept s t := by
  refine ⟨?_, ?_, h.result, (CommandFrame.powered h).surroundings⟩
  all_goals obtain rfl | ⟨c, -, rfl⟩ := h <;> rfl

theorem InstsKept.inst {s t : State} (h : InstsKept s t) (d : Dir) (i : Idx) : t.inst d i = s.inst d i :=
  inst_congr h.outs h.ins d i

theorem keepsSurroundings_setRegs (s : State) (r : Reassembler) (c : Word) :
    KeepsSurroundings s { s with sr := r, status := c } :=
  ⟨rfl, rfl, rfl, rfl, rfl, rfl, fun _ => rfl, fun _ _ => rfl, rfl, rfl, rfl, rfl⟩

/-- What a command that wrote the registers of its instance leaves of the instances, `RESULT` and the surroundings. -/
structure InstWritten (d : Dir) (i : Idx) (v : Inst) (s t : State) : Prop where
  inst : t.inst d i = v
  others : SameOtherInsts d i s t
  result : t.result = s.result
  surroundings : KeepsSurroundings s t

/-- The last line of a command writes its instance, perhaps the reassembler, and `STATUS`. -/
theorem InstsKept.written {s u : State} (h : InstsKept s u) (d : Dir) (i : Idx) (v : Inst) (r : Reassembler)
    (c : Word) : InstWritten d i v s { u.setInst d i v with sr := r, status := c } where
  inst := inst_setInst_same u d i v
  others d' i' hne := (inst_setInst_ne u v hne).trans (h.inst d' i')
  result := (setInst_result u d i v).trans h.result
  surroundings := h.surroundings.trans <|
    (CommandFrame.setInst d i u v).surroundings.trans (keepsSurroundings_setRegs _ r c)

/-- The same without the reassembler. -/
theorem InstsKept.wroteInst {s u : State} (h : InstsKept s u) (d : Dir) (i : Idx) (v : Inst) (c : Word) :
    InstWritten d i v s { u.setInst d i v with status := c } := h.written d i v _ c

/-- A command whose calls led from `s` to `u` has moved its instance to the state `l`, and ended in `t`. -/
structure LifeMoved (d : Dir) (i : Idx) (l : Life) (s u t : State) : Prop
    extends InstWritten d i { s.inst d i with life := l } s t where
  queues : ∀ q, t.queue q = u.queue q
  calls : t.calls = u.calls
  power : t.power = s.power
  sr : t.sr = s.sr

theorem Kept.lifeMoved {s u : State} (h : Kept s u) (d : Dir) (i : Idx) (l : Life) (c : Word) :
    LifeMoved d i l s u { u.setLife d i l with status := c } where
  toInstWritten := h.inst d i ▸ h.instsKept.wroteInst d i _ c
  queues q := queue_setLife u d i l q
  calls := setLife_calls u d i l
  power := (setLife_power u d i l).trans h.power
  sr := (setLife_sr u d i l).trans h.sr

/-! ### Collaborator calls -/

/-- A state after the calls `cs` and what they changed of the queues. -/
structure Logged (cs : List Call) (s t : State) : Prop where
  kept : Kept s t
  calls : t.calls = s.calls ++ cs

/-- The same, with one listed answer used up for each call. -/
structure Made (cs : List Call) (s t : State) : Prop extends Logged cs s t where
  answers : t.answers = s.answers.drop cs.length

theorem Logged.trans {cs cs' : List Call} {s t u : State} (h : Logged cs s t) (k : Logged cs' t u) :
    Logged (cs ++ cs') s u :=
  ⟨h.kept.trans k.kept, by rw [k.calls, h.calls, List.append_assoc]⟩

theorem Made.trans {cs cs' : List Call} {s t u : State} (h : Made cs s t) (k : Made cs' t u) : Made (cs ++ cs') s u :=
  ⟨h.toLogged.trans k.toLogged, by rw [k.answers, h.answers, List.drop_drop, List.length_append]⟩

theorem Made.nil (s : State) : Made [] s s := ⟨⟨.refl s, by simp⟩, by simp⟩

theorem Made.logCall (s : State) (c : Call) : Made [c] s (s.logCall c) :=
  ⟨⟨.logCall s c, rfl⟩, logCall_drop s c⟩

/-- The answers granted to a list of calls, and those after them. -/
theorem Made.granted {cs : List Call} {s t : State} {n : Nat} (h : Made cs s t) (hg : Granted (cs.length + n) s) :
    Granted n t := ((granted_add h.answers).1 hg).2

theorem Made.failsAt {cs : List Call} {s t : State} {n : Nat} (h : Made cs s t) (hf : FailsAt (cs.length + n) s) :
    FailsAt n t := ((failsAt_add h.answers).1 hf).2

/-- What a failed command leaves. -/
theorem InstsKept.failedAfter {cs : List Call} {s t : State} (h : InstsKept s t) (hsr : t.sr = s.sr)
    (hc : t.calls = s.calls ++ cs) (e : Status) : FailedAfter e.code cs s { t with status := e.code } :=
  ⟨rfl, h.outs, h.ins, hc, hsr, h.result, h.surroundings.trans (keepsSurroundings_setRegs t t.sr _)⟩

theorem Logged.failedAfter {cs : List Call} {s t : State} (h : Logged cs s t) (e : Status) :
    FailedAfter e.code cs s { t with status := e.code } :=
  h.kept.instsKept.failedAfter h.kept.sr h.calls e

/-! ### Calls on the codec -/

theorem codecCalls_none {p : Config.Params} {d : Dir} {i : Idx} (h : codecOf p d i = none) (mk : Idx → Call) :
    codecCalls p d i mk = [] := by simp [codecCalls, h]

theorem codecCalls_some {p : Config.Params} {d : Dir} {i c : Idx} (h : codecOf p d i = some c) (mk : Idx → Call) :
    codecCalls p d i mk = [mk c] := by simp [codecCalls, h]

@[simp] theorem codecCalls_length (p : Config.Params) (d : Dir) (i : Idx) (mk : Idx → Call) :
    (codecCalls p d i mk).length = (codecOf p d i).toList.length := by
  cases h : codecOf p d i with
  | none => simp [codecCalls_none h]
  | some c => simp [codecCalls_some h]

/-- There is at most one call on the codec. -/
theorem codec_of_lt {o : Option Idx} {j : Nat} (h : j < o.toList.length) : ∃ c, o = some c ∧ j = 0 := by
  cases o with
  | none => exact absurd h (Nat.not_lt_zero j)
  | some c => exact ⟨c, rfl, Nat.lt_one_iff.1 h⟩

/-- A call on the codec, if there is one, granted. -/
theorem codecOr_made {s : State} {d : Dir} {i : Idx} (mk : Idx → Call) (e : Status)
    (hg : Granted (codecOf s.cfg d i).toList.length s) :
    ∃ t, codecOr d i mk e s = .done t ∧ Made (codecCalls s.cfg d i mk) s t ∧ ∀ q, t.queue q = s.queue q := by
  cases hc : codecOf s.cfg d i with
  | none => exact ⟨s, codecOr_none hc mk e, codecCalls_none hc mk ▸ .nil s, fun _ => rfl⟩
  | some c =>
    rw [hc] at hg
    refine ⟨s.logCall (mk c), ?_, codecCalls_some hc mk ▸ .logCall s (mk c), queue_logCall s _⟩
    rw [codecOr_some hc, if_pos (granted_succ hg (mk c)).1]

end Sys2Proof.Machine
end

section
/-! PROOFS. The checks of the lifecycle commands (40_stream_lifecycle.md R130, R140, R142): each command when its
operands are good, its `Busy` cells, the shared clock, and what a failure leaves of the instances. -/

namespace Sys2Proof.Machine

/-! ### Operands -/

theorem badInit_eq_false {p : Config.Params} {d : Dir} {i : Idx} {dev rate : Word} {ch : BitVec 2} {bits : BitVec 6}
    {vol : BitVec 7} (hvol : vol.toNat ≤ 100) (hdev : devOk p d i dev = true) (hrate : rateOk p d i rate = true)
    (hcombo : comboOk p d i bits ch = true) : badInit p d i dev rate ch bits 0 vol = false := by
  obtain ⟨hbits, hch⟩ := comboOk_legal hcombo
  simp [badInit, volLegal, hvol, hdev, hrate, hcombo, hbits, hch]

/-- A buffer that passes its checks holds 1 to 65535 elements. -/
theorem badBuffer_count {p : Config.Params} {w : Nat} {buf len : Word} (h : badBuffer p w buf len = false) :
    1 ≤ len.toNat / w ∧ len.toNat / w ≤ 65535 := by
  simp only [badBuffer, Bool.or_eq_false_iff, decide_eq_false_iff_not] at h
  obtain ⟨⟨⟨⟨⟨-, h1⟩, h2⟩, -⟩, -⟩, -⟩ := h
  exact ⟨Nat.one_le_iff_ne_zero.2 h1, Nat.le_of_not_lt h2⟩

theorem badTable_count {p : Config.Params} {tbl len : Word} (h : badTable p tbl len = false) :
    1 ≤ len.toNat / 4 ∧ len.toNat / 4 ≤ 65535 := by
  simp only [badTable, Bool.or_eq_false_iff, decide_eq_false_iff_not] at h
  obtain ⟨⟨-, h1⟩, h2⟩ := h
  omega

/-! ### Each command on a valid instance with good operands: what is left to check is the state -/

section
variable {s : State} {d : Dir} {n : Idx}

/-- The steps of PAUSE, as `exec` runs them. -/
def pauseBody (d : Dir) (i : Idx) (s : State) : Res :=
  (okOr (pauseAll (runQueues s d i) s) .periphFailure).andThen fun s =>
  (codecOr d i .codecPause .componentFailure s).andThen fun s => .done (s.setLife d i .pause)

/-- The steps of RESUME, as `exec` runs them. -/
def resumeBody (d : Dir) (i : Idx) (s : State) : Res :=
  (codecOr d i .codecResume .componentFailure s).andThen fun s =>
  (okOr (resumeAll (runQueues s d i) s) .periphFailure).andThen fun s => .done (s.setLife d i .active)

theorem exec_init_of_good {ch : BitVec 2} {bits : BitVec 6} {vol : BitVec 7} (hv : valid s.cfg d n = true)
    (hvol : vol.toNat ≤ 100) (hdev : devOk s.cfg d n s.arg0 = true) (hrate : rateOk s.cfg d n s.arg1 = true)
    (hcombo : comboOk s.cfg d n bits ch = true) (hmics : tooFewMics s.cfg d n s.arg0 ch = false) :
    exec (.init d n ch bits 0 vol) s = command
      [((s.inst d n).life != .reset, .busy), (!xinstOk s d n s.arg1 bits, .featureNotSupported)]
      (initBody d n s.arg0 s.arg1 bits ch vol) s :=
  (command_of_passed (by simp [hv]) ..).trans <|
    (command_of_passed (badInit_eq_false hvol hdev hrate hcombo) ..).trans (command_of_passed hmics ..)

theorem exec_deinit_of_good (hv : valid s.cfg d n = true) :
    exec (.deinit d n) s = (if (s.inst d n).life = .reset then Res.done s else deinitBody d n s).finish := by
  rw [exec, execDeinit, command_of_passed (by simp [hv])]
  rfl

theorem exec_play_of_good (hv : valid s.cfg .out n = true)
    (hb : badBuffer s.cfg (width (s.inst .out n).bits) s.arg0 s.arg1 = false) :
    exec (.play n) s = command [((s.inst .out n).life != .stop, .busy)]
      (startSerial .out n s.arg0 (s.arg1.toNat / width (s.inst .out n).bits)) s :=
  (command_of_passed (by simp [hv]) ..).trans (command_of_passed hb ..)

theorem exec_record_serial_of_good (hs : isSd s.cfg .inp n = false) (hv : valid s.cfg .inp n = true)
    (hb : badBuffer s.cfg (width (s.inst .inp n).bits) s.arg0 s.arg1 = false) :
    exec (.record n) s = command [((s.inst .inp n).life != .stop, .busy)]
      (startSerial .inp n s.arg0 (s.arg1.toNat / width (s.inst .inp n).bits)) s := by
  rw [exec, execRecord, hs]
  exact (command_of_passed (by simp [hv]) ..).trans (command_of_passed hb ..)

theorem exec_record_merge_of_good (hs : isSd s.cfg .inp n = true) (hv : valid s.cfg .inp n = true)
    (hb : badBuffer s.cfg 2 s.arg0 s.arg1 = false) (hsize : s.arg1.toNat / 2 % (2 * s.cfg.cap) = 0) :
    exec (.record n) s = command [((s.inst .inp n).life != .stop, .busy)]
      (startMerge n s.arg0 (s.arg1.toNat / 2)) s := by
  rw [exec, execRecord, hs]
  exact (command_of_passed (by simp [hv]) ..).trans (command_of_passed (by simp [hb, hsize]) ..)

theorem exec_recordm_of_good (hs : isSd s.cfg .inp n = true) (hv : valid s.cfg .inp n = true)
    (ht : badTable s.cfg s.arg0 s.arg1 = false)
    (he : ∀ m ∈ bitList (mics s.cfg (s.inst .inp n).device),
      badEntry s.cfg s.arg1 (tableEntry s.mem s.arg0 m) = false) :
    exec (.recordm n) s = command [((s.inst .inp n).life != .stop, .busy)] (startMulti n s.arg0 s.arg1) s :=
  (command_of_passed (by simp [hv, hs]) ..).trans <| (command_of_passed ht ..).trans
    (command_of_passed (List.any_eq_false.2 fun m hm => by simp [he m hm]) ..)

theorem exec_pause_of_good (hv : valid s.cfg d n = true) :
    exec (.pause d n) s = command [((s.inst d n).life != .active, .busy)] (pauseBody d n) s := by
  rw [exec, execPause, command_of_passed (by simp [hv])]
  rfl

theorem exec_resume_of_good (hv : valid s.cfg d n = true) :
    exec (.resume d n) s = command [((s.inst d n).life != .pause, .busy)] (resumeBody d n) s := by
  rw [exec, execResume, command_of_passed (by simp [hv])]
  rfl

theorem exec_stop_of_good (hv : valid s.cfg d n = true) :
    exec (.stop d n) s = command [((s.inst d n).life != .active && (s.inst d n).life != .pause, .busy)]
      (stopBody d n) s :=
  command_of_passed (by simp [hv]) ..

/-- The instance is in the state the command asks for: its steps run. -/
theorem command_of_life {l l' : Life} (h : l = l') (e : Status) (body : State → Res) :
    command [(l != l', e)] body s = (body s).finish :=
  command_of_passed (by simp [h]) ..

theorem command_of_life_ne {l l' : Life} (h : l ≠ l') (e : Status) (rest : List (Bool × Status)) (body : State → Res) :
    command ((l != l', e) :: rest) body s = .next { s with status := e.code } :=
  command_of_failed (by simp [h]) ..

end

/-- A coupled instance that is not `RESET` at another rate or width. -/
theorem xinstOk_eq_false {s : State} {d : Dir} {n : Idx} {x : Dir × Idx} {rate : Word} {bits : BitVec 6}
    (hx : x ∈ sibs s.cfg d n) (hl : (s.inst x.1 x.2).life ≠ .reset)
    (h : (s.inst x.1 x.2).rate ≠ rate ∨ (s.inst x.1 x.2).bits ≠ bits) : xinstOk s d n rate bits = false := by
  rw [Bool.eq_false_iff, Ne, xinstOk_iff]
  intro hall
  obtain ⟨hr, hb⟩ := hall x hx hl
  exact h.elim (· hr) (· hb)

/-- A failure of a command other than DEINIT: at most the codec's power, its queues and the calls have changed. -/
theorem Fails.instsKept {s u : State} {i : Instr} {e : Status} (h : Fails s i e u) (hd : ∀ d n, i ≠ .deinit d n) :
    InstsKept s u := by
  cases h with
  | kept _ _ hp _ steps _ => exact hp.instsKept.trans steps.kept.instsKept
  | @deinit d n => exact absurd rfl (hd d n)

end Sys2Proof.Machine

namespace Sys2Proof.Proofs

open Sys2Proof.Machine

/-- Settles O14: a refused command wrote `STATUS` only, and no step before a failure writes an instance or `RESULT`. -/
theorem failedCommandKeepsInstances : Obligations.FailedCommandKeepsInstances := by
  intro i s t h hst hd
  cases exec_cases h with
  | refused _ => exact ⟨rfl, rfl, rfl⟩
  | failed hf =>
    have k := hf.instsKept hd
    exact ⟨k.outs, k.ins, k.result⟩
  | succeeded _ => exact absurd rfl hst

/-- Settles O28: the coupled instance breaks `xinst_ok`, the last check of each of the three commands. -/
theorem sharedClockIsRefused : Obligations.SharedClockIsRefused := by
  intro s d n x bits ch vol hv hx hl
  refine ⟨fun hstop hrate hne => ?_, fun hstop hcombo hne => ?_, fun hreset hvol hdev hrate hcombo hmics hne => ?_⟩
  · have hbad := xinstOk_eq_false (bits := (s.inst d n).bits) hx hl (.inl hne)
    exact command_fails (e := .featureNotSupported) (by simp [firstFailure_cons, hv, hrate, hstop, hbad]) _ s
  · have hbad := xinstOk_eq_false (rate := (s.inst d n).rate) hx hl (.inr hne)
    exact command_fails (e := .featureNotSupported) (by simp [firstFailure_cons, hv, hcombo, hstop, hbad]) _ s
  · have hbad := xinstOk_eq_false hx hl hne
    rw [exec_init_of_good hv hvol hdev hrate hcombo hmics]
    exact command_fails (e := .featureNotSupported) (by simp [firstFailure_cons, hreset, hbad]) _ s

/-- Settles O39: with good operands the state is the next check, and a command in the wrong state fails it. -/
theorem lifecycleBusyCells : Obligations.LifecycleBusyCells := by
  intro s d n hv
  refine ⟨fun hl => ?_, fun hl => ?_, fun hl => ?_, fun hd hl hb => ?_, fun hd hs hl hb => ?_,
    fun hd hs hl hb hsize => ?_, fun hd hs hl ht he => ?_, fun ch bits vol hl hvol hdev hrate hcombo hmics => ?_⟩
  · exact (exec_pause_of_good hv).trans (command_of_life_ne hl ..)
  · exact (exec_resume_of_good hv).trans (command_of_life_ne hl ..)
  · exact (exec_stop_of_good hv).trans (command_of_failed (by obtain h | h := hl <;> simp [h]) ..)
  · subst hd
    exact (exec_play_of_good hv hb).trans (command_of_life_ne hl ..)
  · subst hd
    exact (exec_record_serial_of_good hs hv hb).trans (command_of_life_ne hl ..)
  · subst hd
    exact (exec_record_merge_of_good hs hv hb hsize).trans (command_of_life_ne hl ..)
  · subst hd
    exact (exec_recordm_of_good hs hv ht he).trans (command_of_life_ne hl ..)
  · exact (exec_init_of_good hv hvol hdev hrate hcombo hmics).trans (command_of_life_ne hl ..)

end Sys2Proof.Proofs
end

section
/-! PROOFS. PLAY and the two forms of RECORD, RECORDM (40_stream_lifecycle.md R133 to R136; 42_transfer_engine.md
R202, R205): the starts that are granted, those that fail, and what is undone. -/

namespace Sys2Proof.Machine

theorem started_eq_armedAt (v : Queue) (base : Word) (count : Nat) : v.started base count = armedAt v base count := rfl

theorem stopped_armedAt (v : Queue) (base : Word) (count : Nat) :
    (armedAt v base count).stopped = disarmedAt v base count := rfl

/-! ### One queue -/

/-- A granted start of a queue that is ready. -/
theorem teStart_made {q : QueueId} {base : Word} {count : Nat} {s : State} (h1 : 1 ≤ count) (h2 : count ≤ 65535)
    (hv : tdValid (s.queue q).td = true) (hi : (s.queue q).st = .idle) (hg : Granted 1 s) :
    ∃ t, teStart q base count s = (true, t) ∧ Made [.linkEnable q] s t ∧
      t.queue q = armedAt (s.queue q) base count ∧ SameOtherQueues [q] s t := by
  refine ⟨_, (teStart_ready h1 h2 hv hi).trans (if_pos (granted_succ hg (.linkEnable q)).1),
    ⟨⟨(Kept.logCall s _).trans (.setQueue _ _ _), by simp⟩, by simp [logCall_answers]⟩,
    (queue_setQueue_same ..).trans (started_eq_armedAt ..),
    (SameOtherQueues.logCall _ s _).trans (.setQueue _ (by simp) _)⟩

theorem teStart_failed {q : QueueId} {base : Word} {count : Nat} {s : State} (h1 : 1 ≤ count) (h2 : count ≤ 65535)
    (hv : tdValid (s.queue q).td = true) (hi : (s.queue q).st = .idle) (hf : FailsAt 0 s) :
    teStart q base count s = (false, s.logCall (.linkEnable q)) :=
  (teStart_ready h1 h2 hv hi).trans (if_neg (failsAt_zero_not_ok hf))

section
variable {s : State} {d : Dir} {n : Idx} {buf : Word} {count : Nat}

/-- The link and the codec granted: the queue is armed, and the instance moves. -/
theorem startSerial_granted (h1 : 1 ≤ count) (h2 : count ≤ 65535)
    (hv : tdValid (s.queue (serialQueue d n)).td = true) (hi : (s.queue (serialQueue d n)).st = .idle)
    (hg : Granted (1 + (codecOf s.cfg d n).toList.length) s) :
    ∃ u, startSerial d n buf count s = .done (u.setLife d n .active) ∧
      Logged ([.linkEnable (serialQueue d n)] ++ codecCalls s.cfg d n .codecPlay) s u ∧
      u.queue (serialQueue d n) = armedAt (s.queue (serialQueue d n)) buf count ∧
      SameOtherQueues [serialQueue d n] s u := by
  obtain ⟨t, he, hm, hq, ho⟩ := teStart_made (base := buf) h1 h2 hv hi (granted_mono hg (by omega))
  have hg := hm.granted hg
  rw [startSerial, he, okOr_eq, if_pos rfl, andThen_done, hm.kept.cfg]
  cases hc : codecOf s.cfg d n with
  | none => exact ⟨t, rfl, by simpa [codecCalls_none hc] using hm.toLogged, hq, ho⟩
  | some c =>
    rw [hc] at hg
    refine ⟨t.logCall (.codecPlay c), if_pos (granted_succ hg (.codecPlay c)).1, ?_, by rw [queue_logCall, hq],
      ho.trans (.logCall _ t _)⟩
    rw [codecCalls_some hc]
    exact (hm.trans (.logCall t _)).toLogged

/-- The link refuses: its call is all that happened. -/
theorem startSerial_linkFails (h1 : 1 ≤ count) (h2 : count ≤ 65535)
    (hv : tdValid (s.queue (serialQueue d n)).td = true) (hi : (s.queue (serialQueue d n)).st = .idle)
    (hf : FailsAt 0 s) :
    startSerial d n buf count s = .raised .periphFailure (s.logCall (.linkEnable (serialQueue d n))) := by
  rw [startSerial, teStart_failed h1 h2 hv hi hf]
  rfl

/-- The codec refuses: the queue is stopped again, whatever its link answers. -/
theorem startSerial_codecFails {c : Idx} (h1 : 1 ≤ count) (h2 : count ≤ 65535)
    (hv : tdValid (s.queue (serialQueue d n)).td = true) (hi : (s.queue (serialQueue d n)).st = .idle)
    (hc : codecOf s.cfg d n = some c) (hf : FailsAt 1 s) :
    ∃ u, startSerial d n buf count s = .raised .componentFailure u ∧
      Logged [.linkEnable (serialQueue d n), .codecPlay c, .linkDisable (serialQueue d n)] s u ∧
      u.queue (serialQueue d n) = disarmedAt (s.queue (serialQueue d n)) buf count ∧
      SameOtherQueues [serialQueue d n] s u := by
  obtain ⟨t, he, hm, hq, ho⟩ := teStart_made (base := buf) h1 h2 hv hi hf.1
  have hf : FailsAt 0 t := hm.failsAt (n := 0) hf
  have hm1 := hm.trans (.logCall t (.codecPlay c))
  refine ⟨(teStop (serialQueue d n) (t.logCall (.codecPlay c))).2, ?_, ?_, ?_, ?_⟩
  · rw [startSerial, he, okOr_eq, if_pos rfl, andThen_done, hm.kept.cfg, hc]
    exact if_neg (failsAt_zero_not_ok hf)
  · refine hm1.toLogged.trans ⟨teStop_kept _ _, ?_⟩
    rw [teStop_calls]
    simp [armed, hq, armedAt]
  · rw [teStop_queue, queue_logCall, hq, stopped_armedAt]
  · exact (ho.trans (.logCall _ t _)).trans (teStop_others _ _)

/-- The outcome of a command that runs the steps of PLAY, from a queue that is ready: granted, refused by the link,
refused by the codec. -/
theorem startSerial_outcome {i : Instr} (hexec : exec i s = (startSerial d n buf count s).finish) (h1 : 1 ≤ count)
    (h2 : count ≤ 65535) (hv : tdValid (s.queue (serialQueue d n)).td = true)
    (hi : (s.queue (serialQueue d n)).st = .idle) :
    (Granted (1 + (codecOf s.cfg d n).toList.length) s →
      ∃ t, exec i s = .next t ∧ t.status = 0 ∧ t.inst d n = { s.inst d n with life := .active } ∧
        SameOtherInsts d n s t ∧
        t.queue (serialQueue d n) = armedAt (s.queue (serialQueue d n)) buf count ∧
        SameOtherQueues [serialQueue d n] s t ∧
        t.calls = s.calls ++ [.linkEnable (serialQueue d n)] ++ codecCalls s.cfg d n .codecPlay ∧
        t.power = s.power ∧ t.sr = s.sr ∧ t.result = s.result ∧ KeepsSurroundings s t) ∧
    (FailsAt 0 s → ∃ t, exec i s = .next t ∧ FailedAfter 0xFFFFFFFC [.linkEnable (serialQueue d n)] s t ∧
      t.power = s.power ∧ SameOtherQueues [] s t) ∧
    (∀ c, codecOf s.cfg d n = some c → FailsAt 1 s → ∃ t, exec i s = .next t ∧
      FailedAfter 0xFFFFFFFB
        [.linkEnable (serialQueue d n), .codecPlay c, .linkDisable (serialQueue d n)] s t ∧
      t.power = s.power ∧ t.queue (serialQueue d n) = disarmedAt (s.queue (serialQueue d n)) buf count ∧
      SameOtherQueues [serialQueue d n] s t) := by
  rw [hexec]
  refine ⟨fun hg => ?_, fun hf => ?_, fun c hc hf => ?_⟩
  · obtain ⟨u, he, hl, hq, ho⟩ := startSerial_granted (buf := buf) h1 h2 hv hi hg
    have hm := hl.kept.lifeMoved d n .active 0
    rw [he]
    exact ⟨_, rfl, rfl, hm.inst, hm.others, (hm.queues _).trans hq, ho.trans fun q _ => hm.queues q,
      by rw [hm.calls, hl.calls, List.append_assoc], hm.power, hm.sr, hm.result, hm.surroundings⟩
  · have hm := Made.logCall s (.linkEnable (serialQueue d n))
    rw [startSerial_linkFails h1 h2 hv hi hf]
    exact ⟨_, rfl, hm.failedAfter .periphFailure, hm.kept.power,
      .logCall [] s (.linkEnable (serialQueue d n))⟩
  · obtain ⟨u, he, hl, hq, ho⟩ := startSerial_codecFails (buf := buf) h1 h2 hv hi hc hf
    rw [he]
    exact ⟨_, rfl, hl.failedAfter .componentFailure, hl.kept.power, hq, ho⟩

end

/-! ### The microphones -/

section
variable {count : Nat} {ms : List Mic} {s : State}

theorem startTodo_nodup (h : ms.Nodup) (base : Mic → Word) :
    ((ms.map fun m => (QueueId.qm m, base m)).map (·.1)).Nodup := by
  rw [List.map_map]
  exact h.map qm_injective

/-- Granted starts of microphones that are ready. -/
theorem startMics_granted (h1 : 1 ≤ count) (h2 : count ≤ 65535) (nodup : ms.Nodup) (base : Mic → Word)
    (hready : ∀ m ∈ ms, tdValid (s.queue (.qm m)).td = true ∧ (s.queue (.qm m)).st = .idle)
    (hg : Granted ms.length s) :
    ∃ u, startAll count [] (ms.map fun m => (.qm m, base m)) s = (true, u) ∧
      Logged (ms.map fun m => .linkEnable (.qm m)) s u ∧
      (∀ m ∈ ms, u.queue (.qm m) = armedAt (s.queue (.qm m)) (base m) count) ∧
      SameOtherQueues (ms.map .qm) s u := by
  obtain ⟨u, he, hk, hq, ho, hc, -⟩ := startAll_granted h1 h2 [] (startTodo_nodup nodup base) s
    (List.forall_mem_map.2 hready) (by simpa using hg)
  refine ⟨u, he, ⟨hk, by simpa [Function.comp_def] using hc⟩, List.forall_mem_map.1 hq, ?_⟩
  simpa [Function.comp_def] using ho

/-- Start number `k` fails: the microphones before it are stopped again. -/
theorem startMics_failsAt (h1 : 1 ≤ count) (h2 : count ≤ 65535) (nodup : ms.Nodup) (base : Mic → Word)
    (hready : ∀ m ∈ ms, tdValid (s.queue (.qm m)).td = true ∧ (s.queue (.qm m)).st = .idle)
    {k : Nat} (hk : k < ms.length) (hf : FailsAt k s) :
    ∃ u, startAll count [] (ms.map fun m => (.qm m, base m)) s = (false, u) ∧
      Logged ((ms.take (k + 1)).map (fun m => .linkEnable (.qm m))
        ++ (ms.take k).map (fun m => .linkDisable (.qm m))) s u ∧
      (∀ m ∈ ms.take k, u.queue (.qm m) = disarmedAt (s.queue (.qm m)) (base m) count) ∧
      SameOtherQueues ((ms.take k).map .qm) s u := by
  obtain ⟨u, he, hkept, hq, ho, hc⟩ := startAll_failsAt h1 h2 (startTodo_nodup nodup base) s
    (List.forall_mem_map.2 hready) (by simpa using hk) hf
  rw [← List.map_take] at hq ho
  refine ⟨u, he, ⟨hkept, by simpa [← List.map_take, Function.comp_def] using hc⟩, List.forall_mem_map.1 hq, ?_⟩
  simpa [Function.comp_def] using ho

/-- The outcome of a command that starts microphones that are ready and then sets the reassembler up: granted, or refused
at a start. -/
theorem startMics_outcome {i : Instr} {n : Idx} {base : Mic → Word} {r : Reassembler}
    (hexec : exec i s = ((okOr (startAll count [] (ms.map fun m => (.qm m, base m)) s) .periphFailure).andThen
      fun u => .done { u.setLife .inp n .active with sr := r }).finish)
    (h1 : 1 ≤ count) (h2 : count ≤ 65535) (nodup : ms.Nodup)
    (hready : ∀ m ∈ ms, tdValid (s.queue (.qm m)).td = true ∧ (s.queue (.qm m)).st = .idle) :
    (Granted ms.length s →
      ∃ t, exec i s = .next t ∧ t.status = 0 ∧ t.inst .inp n = { s.inst .inp n with life := .active } ∧
        SameOtherInsts .inp n s t ∧
        (∀ m ∈ ms, t.queue (.qm m) = armedAt (s.queue (.qm m)) (base m) count) ∧
        SameOtherQueues (ms.map .qm) s t ∧ t.sr = r ∧
        t.calls = s.calls ++ ms.map (fun m => .linkEnable (.qm m)) ∧
        t.power = s.power ∧ t.result = s.result ∧ KeepsSurroundings s t) ∧
    ∀ k, k < ms.length → FailsAt k s → ∃ t, exec i s = .next t ∧
      FailedAfter 0xFFFFFFFC ((ms.take (k + 1)).map (fun m => .linkEnable (.qm m))
        ++ (ms.take k).map (fun m => .linkDisable (.qm m))) s t ∧ t.power = s.power ∧
      (∀ m ∈ ms.take k, t.queue (.qm m) = disarmedAt (s.queue (.qm m)) (base m) count) ∧
      SameOtherQueues ((ms.take k).map .qm) s t := by
  rw [hexec]
  refine ⟨fun hg => ?_, fun k hk hf => ?_⟩
  · obtain ⟨u, he, hl, hq, ho⟩ := startMics_granted h1 h2 nodup base hready hg
    have hm := hl.kept.lifeMoved .inp n .active 0
    have hw := hl.kept.instsKept.written .inp n { u.inst .inp n with life := .active } r 0
    rw [he]
    exact ⟨_, rfl, rfl, hm.inst, hm.others, fun m hmem => (hm.queues _).trans (hq m hmem),
      ho.trans fun q _ => hm.queues q, rfl, hm.calls.trans hl.calls, hm.power, hm.result, hw.surroundings⟩
  · obtain ⟨u, he, hl, hq, ho⟩ := startMics_failsAt h1 h2 nodup base hready hk hf
    rw [he]
    exact ⟨_, rfl, hl.failedAfter .periphFailure, hl.kept.power, hq, ho⟩

end

/-- The rest of a command sees only the state its first step left. -/
theorem okOr_andThen_congr {r : Bool × State} {f g : State → Res} (e : Status) (h : f r.2 = g r.2) :
    (okOr r e).andThen f = (okOr r e).andThen g := by
  rw [okOr_eq]
  split
  · exact h
  · rfl

theorem startAll_kept (count : Nat) (todo : List (QueueId × Word)) (s : State) :
    Kept s (startAll count [] todo s).2 :=
  startAll_keeps (P := Kept s) (fun x _ t h => h.trans (teStart_primitive x.1 x.2 count t).kept)
    (fun q _ t h => h.trans (teStop_kept q t)) s (.refl s)

/-- The steps of RECORD on the `SD` instance, with the reassembler they leave. -/
theorem startMerge_eq (j : Idx) (buf : Word) (count : Nat) (s : State) :
    startMerge j buf count s =
      (okOr (startAll s.cfg.cap [] ((bitList (mergeSet s j)).map fun m => (.qm m, 0)) s) .periphFailure).andThen
        fun u => .done { u.setLife .inp j .active with
          sr := s.sr.mergeSession (mergeSet s j) ((s.inst .inp j).chans == 2) buf count } :=
  okOr_andThen_congr _ (by rw [setLife_sr_update, (startAll_kept ..).sr])

/-- The steps of RECORDM, with the reassembler they leave. -/
theorem startMulti_eq (j : Idx) (tbl len : Word) (s : State) :
    startMulti j tbl len s =
      (okOr (startAll (len.toNat / 4) [] ((bitList (mics s.cfg (s.inst .inp j).device)).map
        fun m => (.qm m, tableEntry s.mem tbl m)) s) .periphFailure).andThen
        fun u => .done { u.setLife .inp j .active with
          sr := s.sr.multiSession (mics s.cfg (s.inst .inp j).device) } :=
  okOr_andThen_congr _ (by rw [setLife_sr_update, (startAll_kept ..).sr])

end Sys2Proof.Machine

namespace Sys2Proof.Proofs

open Sys2Proof.Machine

/-- Settles O32: PLAY runs the steps of a serial start on its sending queue. -/
theorem playStartsQueueThenCodec : Obligations.PlayStartsQueueThenCodec := by
  rintro s n _ hv hb hl htd hst rfl
  obtain ⟨h1, h2⟩ := badBuffer_count hb
  exact startSerial_outcome (d := .out) ((exec_play_of_good hv hb).trans (command_of_life hl ..)) h1 h2 htd hst

/-- Settles O33: RECORD on a `SERIAL` instance runs the same steps on its receiving queue. -/
theorem recordSerialStartsQueueThenCodec : Obligations.RecordSerialStartsQueueThenCodec := by
  rintro s n _ hv hs hb hl htd hst rfl
  obtain ⟨h1, h2⟩ := badBuffer_count hb
  exact startSerial_outcome (d := .inp) ((exec_record_serial_of_good hs hv hb).trans (command_of_life hl ..)) h1 h2
    htd hst

/-- Settles O34: RECORD on the `SD` instance starts the microphones of its enabled set, all from position 0. -/
theorem recordMergeSetsUpTheSession : Obligations.RecordMergeSetsUpTheSession := by
  rintro s n _ _ hv hs h1 h2 hb hsize hl rfl rfl hready
  refine startMics_outcome (base := fun _ => 0) ?_ h1 h2 (bitList_nodup _) hready
  rw [exec_record_merge_of_good hs hv hb hsize, command_of_life hl, startMerge_eq]
  rfl

/-- Settles O35: RECORDM starts every selected microphone at the entry its table held before. -/
theorem recordmStartsEverySelectedMic : Obligations.RecordmStartsEverySelectedMic := by
  rintro s n _ _ entry hv hs ht rfl rfl hentry he hl hready
  obtain ⟨h1, h2⟩ := badTable_count ht
  obtain rfl : entry = tableEntry s.mem s.arg0 := funext hentry
  refine startMics_outcome ?_ h1 h2 (bitList_nodup _) hready
  rw [exec_recordm_of_good hs hv ht he, command_of_life hl, startMulti_eq]
  rfl

end Sys2Proof.Proofs
end

section
/-! PROOFS. PAUSE and RESUME (40_stream_lifecycle.md R137, R138; 42_transfer_engine.md R203, R204, R206): one loop that
moves queues from a run state to another, and the codec before or after it. -/

namespace Sys2Proof.Machine

/-! ### Moving queues between run states -/

/-- The primitive moves a queue from run state `r` to `r'` by one call, and does nothing to a queue already in `r'`. -/
structure Switches (op : QueueId → State → Bool × State) (mk : QueueId → Call) (r r' : RunState) : Prop where
  moves : ∀ q s, (s.queue q).st = r → op q s =
    if answerOk s.nextAnswer = true then (true, (s.logCall (mk q)).setQueue q { s.queue q with st := r' })
    else (false, s.logCall (mk q))
  rests : ∀ q s, (s.queue q).st = r' → op q s = (true, s)
  others : ∀ q s, SameOtherQueues [q] s (op q s).2

theorem tePause_switches : Switches tePause .linkPause .running .paused where
  moves q s h := by
    obtain ⟨h', -⟩ | ⟨h', -⟩ | ⟨-, e⟩ := tePause_cases q s
    · rw [h] at h'; cases h'
    · rw [h] at h'; cases h'
    · exact e
  rests q s h := by simp [tePause, h]
  others q s := (tePause_primitive q s).others

theorem teResume_switches : Switches teResume .linkResume .paused .running where
  moves q s h := by
    obtain ⟨h', -⟩ | ⟨h', -⟩ | ⟨-, e⟩ := teResume_cases q s
    · rw [h] at h'; cases h'
    · rw [h] at h'; cases h'
    · exact e
  rests q s h := by simp [teResume, h]
  others q s := (teResume_primitive q s).others

theorem mem_inRunState {r : RunState} {s : State} {qs : List QueueId} {q : QueueId} :
    q ∈ inRunState r s qs ↔ q ∈ qs ∧ (s.queue q).st = r := by
  simp [inRunState]

theorem inRunState_congr {s t : State} (h : ∀ q, t.queue q = s.queue q) (r : RunState) (qs : List QueueId) :
    inRunState r t qs = inRunState r s qs := by
  simp [inRunState, h]

namespace Switches

variable {op : QueueId → State → Bool × State} {mk : QueueId → Call} {r r' : RunState} {qs : List QueueId} {s : State}

/-- Only the queues in `r` take part in the loop. -/
theorem untilFail_eq (h : Switches op mk r r') (nodup : qs.Nodup)
    (hst : ∀ q ∈ qs, (s.queue q).st = r ∨ (s.queue q).st = r') :
    untilFail op qs s = untilFail op (inRunState r s qs) s :=
  untilFail_filter (fun q => (s.queue q).st == r) nodup s h.others fun q hq hne s' e =>
    h.rests q s' (by rw [e]; exact (hst q hq).resolve_left (by simpa using hne))

/-- All calls granted: every queue is in `r'`. -/
theorem granted (h : Switches op mk r r') (nodup : qs.Nodup)
    (hst : ∀ q ∈ qs, (s.queue q).st = r ∨ (s.queue q).st = r') (hg : Granted (inRunState r s qs).length s) :
    ∃ t, untilFail op qs s = (true, t) ∧ Made ((inRunState r s qs).map mk) s t ∧
      (∀ q ∈ qs, t.queue q = { s.queue q with st := r' }) ∧ SameOtherQueues (inRunState r s qs) s t := by
  obtain ⟨t, he, hk, hq, ho, hc, ha⟩ := untilFail_granted (op := op) mk (fun q => { s.queue q with st := r' })
    (nodup.filter _) s (fun q hm s' _ e hok => by
      rw [h.moves q s' (by rw [e]; exact (mem_inRunState.1 hm).2), if_pos hok, e]) hg
  refine ⟨t, (h.untilFail_eq nodup hst).trans he, ⟨⟨hk, hc⟩, by rw [List.length_map]; exact ha⟩, fun q hm => ?_, ho⟩
  by_cases hin : q ∈ inRunState r s qs
  · exact hq q hin
  · rw [ho q hin, ← (hst q hm).resolve_left fun hr => hin (mem_inRunState.2 ⟨hm, hr⟩)]

/-- Call number `k` fails: the queues before it are in `r'`. -/
theorem failsAt (h : Switches op mk r r') (nodup : qs.Nodup)
    (hst : ∀ q ∈ qs, (s.queue q).st = r ∨ (s.queue q).st = r') {k : Nat} (hk : k < (inRunState r s qs).length)
    (hf : FailsAt k s) :
    ∃ t, untilFail op qs s = (false, t) ∧ Logged (((inRunState r s qs).take (k + 1)).map mk) s t ∧
      (∀ q ∈ (inRunState r s qs).take k, t.queue q = { s.queue q with st := r' }) ∧
      SameOtherQueues ((inRunState r s qs).take k) s t := by
  obtain ⟨t, he, hkept, hq, ho, hc⟩ := untilFail_failsAt (op := op) mk (fun q => { s.queue q with st := r' })
    (nodup.filter _) s (fun q hm s' _ e => by
      rw [h.moves q s' (by rw [e]; exact (mem_inRunState.1 hm).2), e]) hk hf
  exact ⟨t, (h.untilFail_eq nodup hst).trans he, ⟨hkept, hc⟩, hq, ho⟩

end Switches

theorem runQueues_congr {s t : State} (hc : t.cfg = s.cfg) (hs : t.sr = s.sr) (d : Dir) (i : Idx) :
    runQueues t d i = runQueues s d i := by
  simp [runQueues, hc, hs]

/-! ### PAUSE -/

section
variable {s : State} {d : Dir} {n : Idx}

/-- A queue that is not idle is running or paused. -/
theorem running_or_paused {v : Queue} (h : v.st ≠ .idle) : v.st = .running ∨ v.st = .paused := by
  cases e : v.st
  · exact absurd e h
  · exact .inl rfl
  · exact .inr rfl

theorem pauseBody_granted (hst : ∀ q ∈ runQueues s d n, (s.queue q).st ≠ .idle)
    (hg : Granted ((inRunState .running s (runQueues s d n)).length + (codecOf s.cfg d n).toList.length) s) :
    ∃ u, pauseBody d n s = .done (u.setLife d n .pause) ∧
      Logged ((inRunState .running s (runQueues s d n)).map .linkPause ++ codecCalls s.cfg d n .codecPause) s u ∧
      (∀ q ∈ runQueues s d n, u.queue q = { s.queue q with st := .paused }) ∧
      SameOtherQueues (inRunState .running s (runQueues s d n)) s u := by
  obtain ⟨t, he, hm, hq, ho⟩ := tePause_switches.granted (runQueues_nodup s d n)
    (fun q h => running_or_paused (hst q h)) (granted_mono hg (Nat.le_add_right _ _))
  rw [← List.length_map Call.linkPause] at hg
  obtain ⟨u, he', hm', hq'⟩ := codecOr_made (d := d) (i := n) .codecPause .componentFailure
    (hm.kept.cfg ▸ hm.granted hg)
  rw [hm.kept.cfg] at hm'
  refine ⟨u, ?_, (hm.trans hm').toLogged, fun q h => (hq' q).trans (hq q h), ho.trans fun q _ => hq' q⟩
  rw [pauseBody, pauseAll, he, okOr_eq, if_pos rfl, andThen_done, he', andThen_done]

theorem pauseBody_linkFails (hst : ∀ q ∈ runQueues s d n, (s.queue q).st ≠ .idle) {k : Nat}
    (hk : k < (inRunState .running s (runQueues s d n)).length) (hf : FailsAt k s) :
    ∃ u, pauseBody d n s = .raised .periphFailure u ∧
      Logged (((inRunState .running s (runQueues s d n)).take (k + 1)).map .linkPause) s u ∧
      (∀ q ∈ (inRunState .running s (runQueues s d n)).take k, u.queue q = { s.queue q with st := .paused }) ∧
      SameOtherQueues ((inRunState .running s (runQueues s d n)).take k) s u := by
  obtain ⟨u, he, h⟩ := tePause_switches.failsAt (runQueues_nodup s d n)
    (fun q h => running_or_paused (hst q h)) hk hf
  refine ⟨u, ?_, h⟩
  rw [pauseBody, pauseAll, he]
  rfl

theorem pauseBody_codecFails (hst : ∀ q ∈ runQueues s d n, (s.queue q).st ≠ .idle) {c : Idx}
    (hc : codecOf s.cfg d n = some c) (hf : FailsAt (inRunState .running s (runQueues s d n)).length s) :
    ∃ u, pauseBody d n s = .raised .componentFailure u ∧
      Logged ((inRunState .running s (runQueues s d n)).map .linkPause ++ [.codecPause c]) s u ∧
      (∀ q ∈ runQueues s d n, u.queue q = { s.queue q with st := .paused }) ∧
      SameOtherQueues (inRunState .running s (runQueues s d n)) s u := by
  obtain ⟨t, he, hm, hq, ho⟩ := tePause_switches.granted (runQueues_nodup s d n)
    (fun q h => running_or_paused (hst q h)) hf.1
  rw [← List.length_map Call.linkPause] at hf
  refine ⟨t.logCall (.codecPause c), ?_, (hm.trans (.logCall t _)).toLogged,
    fun q h => (queue_logCall t _ q).trans (hq q h), ho.trans (.logCall _ t _)⟩
  rw [pauseBody, pauseAll, he, okOr_eq, if_pos rfl, andThen_done,
    codecOr_failed (hm.kept.cfg ▸ hc) (hm.failsAt (n := 0) hf)]
  rfl

/-! ### RESUME -/

theorem resumeBody_codecFails {c : Idx} (hc : codecOf s.cfg d n = some c) (hf : FailsAt 0 s) :
    resumeBody d n s = .raised .componentFailure (s.logCall (.codecResume c)) := by
  rw [resumeBody, codecOr_failed hc hf]
  rfl

/-- Once the codec has resumed, the queues of the session are what they were. -/
theorem resumeBody_afterCodec (hg : Granted (codecOf s.cfg d n).toList.length s) :
    ∃ t, resumeBody d n s = ((okOr (resumeAll (runQueues s d n) t) .periphFailure).andThen
        fun u => .done (u.setLife d n .active)) ∧
      Made (codecCalls s.cfg d n .codecResume) s t ∧ ∀ q, t.queue q = s.queue q := by
  obtain ⟨t, he, hm, hq⟩ := codecOr_made .codecResume .componentFailure hg
  refine ⟨t, ?_, hm, hq⟩
  rw [resumeBody, he, andThen_done, runQueues_congr hm.kept.cfg hm.kept.sr]

theorem resumeBody_granted (hst : ∀ q ∈ runQueues s d n, (s.queue q).st ≠ .idle)
    (hg : Granted ((codecOf s.cfg d n).toList.length + (inRunState .paused s (runQueues s d n)).length) s) :
    ∃ u, resumeBody d n s = .done (u.setLife d n .active) ∧
      Logged (codecCalls s.cfg d n .codecResume ++ (inRunState .paused s (runQueues s d n)).map .linkResume) s u ∧
      (∀ q ∈ runQueues s d n, u.queue q = { s.queue q with st := .running }) ∧
      SameOtherQueues (inRunState .paused s (runQueues s d n)) s u := by
  obtain ⟨t, he, hm, hq⟩ := resumeBody_afterCodec (granted_mono hg (Nat.le_add_right _ _))
  rw [← codecCalls_length _ _ _ .codecResume] at hg
  obtain ⟨u, he', hm', hq', ho⟩ := teResume_switches.granted (s := t) (runQueues_nodup s d n)
    (fun q h => (running_or_paused (hq q ▸ hst q h)).symm) (inRunState_congr hq .paused _ ▸ hm.granted hg)
  rw [inRunState_congr hq] at hm' ho
  refine ⟨u, ?_, (hm.trans hm').toLogged, fun q h => by rw [hq' q h, hq], fun q h => (ho q h).trans (hq q)⟩
  rw [he, resumeAll, he']
  rfl

theorem resumeBody_linkFails (hst : ∀ q ∈ runQueues s d n, (s.queue q).st ≠ .idle) {k : Nat}
    (hk : k < (inRunState .paused s (runQueues s d n)).length)
    (hf : FailsAt ((codecOf s.cfg d n).toList.length + k) s) :
    ∃ u, resumeBody d n s = .raised .periphFailure u ∧
      Logged (codecCalls s.cfg d n .codecResume
        ++ ((inRunState .paused s (runQueues s d n)).take (k + 1)).map .linkResume) s u ∧
      (∀ q ∈ (inRunState .paused s (runQueues s d n)).take k, u.queue q = { s.queue q with st := .running }) ∧
      SameOtherQueues ((inRunState .paused s (runQueues s d n)).take k) s u := by
  obtain ⟨t, he, hm, hq⟩ := resumeBody_afterCodec (granted_mono hf.1 (Nat.le_add_right _ _))
  rw [← codecCalls_length _ _ _ .codecResume] at hf
  obtain ⟨u, he', hl, hq', ho⟩ := teResume_switches.failsAt (s := t) (runQueues_nodup s d n)
    (fun q h => (running_or_paused (hq q ▸ hst q h)).symm) (inRunState_congr hq .paused _ ▸ hk) (hm.failsAt hf)
  rw [inRunState_congr hq] at hl ho hq'
  refine ⟨u, ?_, hm.toLogged.trans hl, fun q h => by rw [hq' q h, hq], fun q h => (ho q h).trans (hq q)⟩
  rw [he, resumeAll, he']
  rfl

end
end Sys2Proof.Machine

namespace Sys2Proof.Proofs

open Sys2Proof.Machine

/-- Settles O36: the calls are those of the links, in the loop over the running queues, and then that of the codec. -/
theorem pauseHoldsQueuesThenCodec : Obligations.PauseHoldsQueuesThenCodec := by
  rintro s d n qs _ hv hl hst rfl rfl
  rw [exec_pause_of_good hv, command_of_life hl]
  refine ⟨fun hg => ?_, fun k hk hf => ?_⟩
  · obtain ⟨u, he, hl, hq, ho⟩ := pauseBody_granted hst (by simpa using hg)
    have hm := hl.kept.lifeMoved d n .pause 0
    rw [he]
    exact ⟨_, rfl, rfl, hm.inst, hm.others, fun q h => (hm.queues q).trans (hq q h), ho.trans fun q _ => hm.queues q,
      hm.calls.trans hl.calls, hm.power, hm.sr, hm.result, hm.surroundings⟩
  · by_cases hlink : k < (inRunState .running s (runQueues s d n)).length
    · obtain ⟨u, he, hl, hq, ho⟩ := pauseBody_linkFails hst hlink hf
      rw [he, if_pos hlink, List.take_append_of_le_length (by simpa using hlink), ← List.map_take]
      exact ⟨_, rfl, hl.failedAfter .periphFailure, hl.kept.power, hq, ho⟩
    · rw [List.length_append, List.length_map, codecCalls_length] at hk
      obtain ⟨c, hc, hj⟩ := codec_of_lt (Nat.sub_lt_left_of_lt_add (Nat.le_of_not_lt hlink) hk)
      obtain rfl : k = (inRunState .running s (runQueues s d n)).length := by omega
      obtain ⟨u, he, hl, hq, ho⟩ := pauseBody_codecFails hst hc hf
      rw [he, if_neg hlink, codecCalls_some hc, List.take_length, List.take_of_length_le (by simp)]
      exact ⟨_, rfl, hl.failedAfter .componentFailure, hl.kept.power, fun q h => hq q (mem_inRunState.1 h).1, ho⟩

/-- Settles O37: the calls are that of the codec and then those of the links, in the loop over the paused queues. -/
theorem resumeStartsCodecThenQueues : Obligations.ResumeStartsCodecThenQueues := by
  rintro s d n _ qs _ hv hl hst rfl rfl rfl
  rw [exec_resume_of_good hv, command_of_life hl]
  refine ⟨fun hg => ?_, fun k hk hf => ?_⟩
  · obtain ⟨u, he, hl, hq, ho⟩ := resumeBody_granted hst (by simpa using hg)
    have hm := hl.kept.lifeMoved d n .active 0
    rw [he]
    exact ⟨_, rfl, rfl, hm.inst, hm.others, fun q h => (hm.queues q).trans (hq q h), ho.trans fun q _ => hm.queues q,
      hm.calls.trans hl.calls, hm.power, hm.sr, hm.result, hm.surroundings⟩
  · by_cases hcodec : k < (codecOf s.cfg d n).toList.length
    · obtain ⟨c, hc, rfl⟩ := codec_of_lt hcodec
      have hm := Made.logCall s (.codecResume c)
      rw [resumeBody_codecFails hc hf, if_pos hcodec, codecCalls_some hc, Nat.zero_sub, List.take_zero]
      exact ⟨_, rfl, hm.failedAfter .componentFailure, hm.kept.power, nofun, .logCall [] s (.codecResume c)⟩
    · obtain ⟨j, rfl⟩ := Nat.exists_eq_add_of_le (Nat.le_of_not_lt hcodec)
      obtain ⟨u, he, hl, hq, ho⟩ := resumeBody_linkFails hst (by simpa using hk) hf
      rw [he, if_neg hcodec, Nat.add_sub_cancel_left, Nat.add_assoc,
        ← codecCalls_length s.cfg d n .codecResume, List.take_length_add_append, ← List.map_take]
      exact ⟨_, rfl, hl.failedAfter .periphFailure, hl.kept.power, hq, ho⟩

end Sys2Proof.Proofs
end

section
/-! PROOFS. DEINIT and STOP (40_stream_lifecycle.md R132, R139): what they do whatever the collaborators answer. -/

namespace Sys2Proof.Machine

/-! ### DEINIT -/

theorem deinitBody_work (d : Dir) (i : Idx) (s : State) : DeinitWork d i s (deinitBody d i s).state := by
  have h := deinitBody_sat d i s
  cases hb : deinitBody d i s with
  | done t => rw [hb] at h; exact h
  | raised e t => rw [hb] at h; exact h.2

/-- The instance is at its defaults: what comes after its reset is calls and the codec's power. -/
theorem DeinitWork.inst {d : Dir} {i : Idx} {s t : State} (h : DeinitWork d i s t) : t.inst d i = Inst.reset := by
  obtain ⟨u, s0, -, hp, hst, -⟩ := h.steps
  rw [hst.inst, hp.inst, inst_setInst_same]

/-! ### STOP -/

/-- What STOP leaves of the queues, the calls and the codecs, whether it moved the instance or not. -/
structure Silenced (d : Dir) (i : Idx) (s t : State) : Prop where
  queues : ∀ q ∈ queuesOf s.cfg d i, t.queue q = (s.queue q).stopped
  others : SameOtherQueues (queuesOf s.cfg d i) s t
  calls : t.calls = s.calls ++ (armed s (queuesOf s.cfg d i)).map .linkDisable
    ++ codecCalls s.cfg d i (fun c => .codecStop c .swPd)
  power : t.power = s.power

theorem StopWork.silenced {d : Dir} {i : Idx} {s u : State} (h : StopWork d i s u) : Silenced d i s u :=
  ⟨h.queues, h.others, h.calls, h.steps.kept.power⟩

theorem Silenced.setLife {d : Dir} {i : Idx} {s u : State} (h : Silenced d i s u) (l : Life) :
    Silenced d i s (u.setLife d i l) where
  queues q hq := (queue_setLife u d i l q).trans (h.queues q hq)
  others q hq := (queue_setLife u d i l q).trans (h.others q hq)
  calls := (setLife_calls u d i l).trans h.calls
  power := (setLife_power u d i l).trans h.power

/-- The queues are silenced in both ends, and the instance moves in the one that is no failure. -/
theorem stopBody_ends (d : Dir) (i : Idx) (s : State) :
    Silenced d i s (stopBody d i s).state ∧
    ((stopBody d i s).status = .ok ∧ (stopBody d i s).state.inst d i = { s.inst d i with life := .stop } ∨
      (stopBody d i s).status.late = true ∧ (stopBody d i s).state.inst d i = s.inst d i) := by
  have h := stopBody_sat d i s
  cases hb : stopBody d i s with
  | done t =>
    rw [hb] at h
    obtain ⟨u, hw, rfl⟩ := h
    exact ⟨hw.silenced.setLife .stop, .inl ⟨rfl, (hw.steps.kept.lifeMoved d i .stop 0).inst⟩⟩
  | raised e t =>
    rw [hb] at h
    obtain ⟨he, hw⟩ := h
    exact ⟨hw.silenced, .inr ⟨he, hw.steps.inst d i⟩⟩

/-- A queue whose interrupts are off has no service step. -/
theorem serviceStep_of_disabled {q : QueueId} {t : State} (h : (t.queue q).ie = false) (x : Completion) :
    serviceStep q x t = .refused .notEnabled := by
  unfold serviceStep
  cases owner t.cfg q <;> simp [h]

/-- An idle queue has no DMA step. -/
theorem dmaStep_of_idle {q : QueueId} {t : State} (h : (t.queue q).st = .idle) (v : Word) :
    dmaStep q v t = .refused .notEnabled := by
  simp [dmaStep, h]

end Sys2Proof.Machine

namespace Sys2Proof.Proofs

open Sys2Proof.Machine

/-- Settles O31: the steps of DEINIT come to one state whatever is answered; the frame of every command gives the rest of
the state, and the answers decide only `STATUS`. -/
theorem deinitAlwaysResets : Obligations.DeinitAlwaysResets := by
  intro s d n m hv hm
  rw [exec_deinit_of_good hv]
  refine ⟨fun hl => by rw [if_pos hl, finish_done], fun hl => ?_⟩
  have hexec := exec_deinit_of_good (s := s) (d := d) (n := n) hv
  rw [if_neg hl, finish_eq] at hexec ⊢
  have hw := deinitBody_work d n s
  have hframe := exec_frame hexec
  have hwriter := exec_writerOf hexec
  obtain ⟨hlinks, hnone, hcomponent, hbus, hpowered⟩ := deinitBody_status hm
  exact ⟨_, rfl, hw.inst, hframe.insts, hw.queues, hw.others, hw.power, hframe.power, hw.calls,
    by simpa using hwriter.sr, by simpa [Instr.isGetter] using hwriter.result, hframe.surroundings,
    fun hlen hn => congrArg Status.code (hlinks hlen hn), fun h hg => congrArg Status.code (hnone h hg),
    fun h hf => congrArg Status.code (hcomponent h hf), fun h hf => congrArg Status.code (hbus h hf),
    fun h hg => congrArg Status.code (hpowered h hg)⟩

/-- Settles O38: both ends of the steps of STOP leave the queues silenced; only the granted end moves the instance. -/
theorem stopSilencesTheInstance : Obligations.StopSilencesTheInstance := by
  intro s d n m hv hl hm
  have hexec := exec_stop_of_good (s := s) (d := d) (n := n) hv
  rw [command_of_passed (by obtain h | h := hl <;> simp [h]), command_nil, finish_eq] at hexec
  rw [hexec]
  obtain ⟨hs, hends⟩ := stopBody_ends d n s
  obtain ⟨hlinks, hcodec, hgranted⟩ := stopBody_status hm
  have hframe := exec_frame hexec
  have hwriter := exec_writerOf hexec
  refine ⟨_, rfl, hs.queues, hs.others, hframe.insts, fun q hq x v => ?_, hs.calls, hs.power,
    by simpa using hwriter.sr, by simpa [Instr.isGetter] using hwriter.result, hframe.surroundings, fun hne => ?_,
    fun hlen hn => congrArg Status.code (hlinks hlen hn), fun c hc hf => congrArg Status.code (hcodec c hc hf),
    fun hg => ?_⟩
  · refine ⟨serviceStep_of_disabled ?_ x, dmaStep_of_idle ?_ v⟩
    · exact congrArg Queue.ie (hs.queues q hq)
    · exact congrArg Queue.st (hs.queues q hq)
  · obtain ⟨hok, -⟩ | ⟨-, hinst⟩ := hends
    · exact absurd (congrArg Status.code hok) hne
    · exact hinst
  · have hok := hgranted hg
    obtain ⟨-, hinst⟩ | ⟨hlate, -⟩ := hends
    · exact ⟨congrArg Status.code hok, hinst⟩
    · rw [hok] at hlate
      cases hlate

end Sys2Proof.Proofs
end

section
/-! PROOFS. INIT (40_stream_lifecycle.md R131, R143, R144): the power-up and its failures, then the clock, the links and
the codec. -/

namespace Sys2Proof.Machine

/-! ### The power-up (R143) -/

theorem logCall_cons {s : State} {a : Config.Answer} {rest : List Config.Answer} (h : s.answers = a :: rest)
    (c : Call) : s.logCall c = { s with calls := s.calls ++ [c], answers := rest } := by
  simp [State.logCall, State.dropAnswer, h]

/-- The probe of `power_up`, its last two steps. -/
def probe (c : Idx) (s : State) : Res :=
  match s.nextAnswer with
  | .fail => .raised .componentFailure (s.logCall (.codecReadId c))
  | .ok id =>
    if id = codecId s.cfg c then .done ((s.logCall (.codecReadId c)).setPower c true)
    else .raised .unknownComponent (s.logCall (.codecReadId c))

section
variable {s : State} {c : Idx} {a₁ a₂ a₃ : Config.Answer} {rest : List Config.Answer}

theorem powerUp_busFails (ha : s.answers = .fail :: rest) :
    powerUp c s = .raised .busFailure { s with calls := s.calls ++ [.busInit c], answers := rest } := by
  rw [powerUp, callOr_eq, if_neg (by simp [nextAnswer_cons s _ _ ha, answerOk]), logCall_cons ha]
  rfl

/-- Once the bus is granted, the second answer is used up and not looked at. -/
theorem powerUp_eq_probe (ha : s.answers = a₁ :: a₂ :: rest) (hok : answerOk a₁ = true) :
    powerUp c s = probe c { s with calls := s.calls ++ [.busInit c, .codecReset c], answers := rest } := by
  rw [powerUp, callOr_eq, if_pos (by rw [nextAnswer_cons s _ _ ha, hok]), andThen_done, logCall_cons ha,
    logCall_cons rfl, List.append_assoc]
  rfl

theorem probe_fails (ha : s.answers = .fail :: rest) :
    probe c s = .raised .componentFailure { s with calls := s.calls ++ [.codecReadId c], answers := rest } := by
  rw [probe, nextAnswer_cons s _ _ ha, logCall_cons ha]

theorem probe_unknown {id : Word} (ha : s.answers = .ok id :: rest) (hid : id ≠ codecId s.cfg c) :
    probe c s = .raised .unknownComponent { s with calls := s.calls ++ [.codecReadId c], answers := rest } := by
  rw [probe, nextAnswer_cons s _ _ ha, logCall_cons ha]
  exact if_neg hid

theorem probe_matches (ha : s.answers = .ok (codecId s.cfg c) :: rest) :
    probe c s = .done (({ s with calls := s.calls ++ [.codecReadId c], answers := rest } : State).setPower c true) := by
  rw [probe, nextAnswer_cons s _ _ ha, logCall_cons ha]
  exact if_pos rfl

theorem powerUp_probeFails (ha : s.answers = a₁ :: a₂ :: .fail :: rest) (hok : answerOk a₁ = true) :
    powerUp c s = .raised .componentFailure { s with
      calls := s.calls ++ [.busInit c, .codecReset c, .codecReadId c], answers := rest } := by
  rw [powerUp_eq_probe ha hok, probe_fails rfl, List.append_assoc]
  rfl

theorem powerUp_unknown {id : Word} (ha : s.answers = a₁ :: a₂ :: .ok id :: rest) (hok : answerOk a₁ = true)
    (hid : id ≠ codecId s.cfg c) :
    powerUp c s = .raised .unknownComponent { s with
      calls := s.calls ++ [.busInit c, .codecReset c, .codecReadId c], answers := rest } := by
  refine (powerUp_eq_probe ha hok).trans ((probe_unknown rfl (by exact hid)).trans ?_)
  rw [List.append_assoc]
  rfl

theorem powerUp_matches (ha : s.answers = a₁ :: a₂ :: .ok (codecId s.cfg c) :: rest) (hok : answerOk a₁ = true) :
    powerUp c s = .done (({ s with
      calls := s.calls ++ [.busInit c, .codecReset c, .codecReadId c], answers := rest } : State).setPower c true) := by
  rw [powerUp_eq_probe ha hok, probe_matches rfl, List.append_assoc]
  rfl

end

theorem powerUpCalls_off {s : State} {d : Dir} {i c : Idx} (hc : codecOf s.cfg d i = some c)
    (hp : s.power[c] = false) : powerUpCalls s d i = [.busInit c, .codecReset c, .codecReadId c] := by
  simp only [powerUpCalls, hc]
  rw [if_neg (Bool.eq_false_iff.1 hp)]

/-- INIT powers a codec up that is off. -/
theorem powerUpIfOff_off {s : State} {d : Dir} {i c : Idx} (hc : codecOf s.cfg d i = some c)
    (hp : s.power[c] = false) : powerUpIfOff d i s = powerUp c s := by
  simp only [powerUpIfOff, hc]
  rw [if_neg (Bool.eq_false_iff.1 hp)]

/-- The state after the power-up of INIT: the codec is on, the calls are made and their answers used up, and the rest is
as it was. -/
structure PoweredUp (d : Dir) (i : Idx) (s t : State) : Prop where
  insts : InstsKept s t
  sr : t.sr = s.sr
  queues : ∀ q, t.queue q = s.queue q
  on : ∀ c : Idx, codecOf s.cfg d i = some c → t.power[c] = true
  power : ∀ c : Idx, codecOf s.cfg d i ≠ some c → t.power[c] = s.power[c]
  calls : t.calls = s.calls ++ powerUpCalls s d i
  answers : t.answers = s.answers.drop (powerUpCalls s d i).length

/-- No power-up is needed. -/
theorem PoweredUp.refl {d : Dir} {i : Idx} {s : State}
    (h : ∀ c : Idx, codecOf s.cfg d i = some c → s.power[c] = true) : PoweredUp d i s s := by
  have hcalls : powerUpCalls s d i = [] := by
    cases hc : codecOf s.cfg d i with
    | none => simp [powerUpCalls, hc]
    | some c => simpa [powerUpCalls, hc] using h c hc
  exact ⟨(Kept.refl s).instsKept, rfl, fun _ => rfl, h, fun _ _ => rfl, by simp [hcalls], by simp [hcalls]⟩

/-- The codec is powered up. -/
theorem PoweredUp.of_matches {d : Dir} {i c : Idx} {s : State} {a₁ a₂ a₃ : Config.Answer} {rest : List Config.Answer}
    (hc : codecOf s.cfg d i = some c) (hp : s.power[c] = false) (ha : s.answers = a₁ :: a₂ :: a₃ :: rest) :
    PoweredUp d i s (({ s with
      calls := s.calls ++ [.busInit c, .codecReset c, .codecReadId c], answers := rest } : State).setPower c true) := by
  have hcalls := powerUpCalls_off hc hp
  refine ⟨⟨rfl, rfl, rfl, ?_⟩, rfl, fun q => queue_setPower _ c true q, fun c' hc' => ?_, fun c' hc' => ?_,
    by rw [hcalls]; rfl, by simp [hcalls, ha]⟩
  · exact ⟨rfl, rfl, rfl, rfl, rfl, rfl, fun _ => rfl, fun _ _ => rfl, rfl, rfl, rfl, rfl⟩
  · cases hc.symm.trans hc'
    rw [setPower_get, if_pos rfl]
  · rw [setPower_get, if_neg fun e : c' = c => hc' (e ▸ hc)]

/-- The power-up of INIT, granted and with the right identity. -/
theorem powerUpIfOff_granted {d : Dir} {i : Idx} {s : State} (hm : ProbeMatches s d i)
    (hg : Granted (powerUpCalls s d i).length s) : ∃ t, powerUpIfOff d i s = .done t ∧ PoweredUp d i s t := by
  cases hc : codecOf s.cfg d i with
  | none => exact ⟨s, by simp [powerUpIfOff, hc], .refl (by simp [hc])⟩
  | some c =>
    cases hp : s.power[c] with
    | true =>
      refine ⟨s, by simp only [powerUpIfOff, hc]; rw [if_pos hp], .refl fun c' hc' => ?_⟩
      cases hc.symm.trans hc'
      exact hp
    | false =>
      have hid := hm c hc hp
      rcases ha : s.answers with _ | ⟨a₁, _ | ⟨a₂, _ | ⟨a₃, rest⟩⟩⟩
      · simp [ha] at hid
      · simp [ha] at hid
      · simp [ha] at hid
      · have hok : answerOk a₁ = true := hg.2 a₁ (by simp [ha, powerUpCalls_off hc hp])
        obtain rfl : a₃ = .ok (codecId s.cfg c) := by simpa [ha] using hid
        rw [powerUpIfOff_off hc hp, powerUp_matches ha hok]
        exact ⟨_, rfl, .of_matches hc hp ha⟩

/-! ### The clock, the links and the codec (R131) -/

/-- The steps of INIT after the power-up. -/
def initSteps (d : Dir) (i : Idx) (dev rate : Word) (bits : BitVec 6) (ch : BitVec 2) (vol : BitVec 7) (s : State) :
    Res :=
  (callOr (.clockConfig d i rate) .clockFailure s).andThen fun s =>
  (okOr (reconfigure d i dev bits s) .periphFailure).andThen fun s =>
  (codecOr d i (fun c => .codecInit c (codecCfg s d i dev rate bits vol)) .componentFailure s).andThen fun s =>
  .done (s.setInst d i ((s.inst d i).created dev rate bits ch vol))

theorem initBody_eq_initSteps (d : Dir) (i : Idx) (dev rate : Word) (bits : BitVec 6) (ch : BitVec 2) (vol : BitVec 7)
    (s : State) : initBody d i dev rate bits ch vol s =
      (powerUpIfOff d i s).andThen (initSteps d i dev rate bits ch vol) := rfl

/-- The calls of INIT after the power-up and before the codec: the clock, then the links. -/
def clockAndLinks (p : Config.Params) (d : Dir) (i : Idx) (rate : Word) (bits : BitVec 6) (qs : List QueueId) :
    List Call :=
  .clockConfig d i rate :: qs.map fun q => .linkConfigure q (flowOf d) (elementWidth p d i bits)

/-- The calls of INIT after the power-up. -/
def initCalls (s : State) (d : Dir) (i : Idx) (dev rate : Word) (bits : BitVec 6) (vol : BitVec 7) : List Call :=
  clockAndLinks s.cfg d i rate bits (configuredQueues s.cfg d i dev)
    ++ codecCalls s.cfg d i (fun c => .codecInit c (codecCfg s d i dev rate bits vol))

@[simp] theorem clockAndLinks_length (p : Config.Params) (d : Dir) (i : Idx) (rate : Word) (bits : BitVec 6)
    (qs : List QueueId) : (clockAndLinks p d i rate bits qs).length = qs.length + 1 := by
  simp [clockAndLinks]

theorem initCalls_length (s : State) (d : Dir) (i : Idx) (dev rate : Word) (bits : BitVec 6) (vol : BitVec 7) :
    (initCalls s d i dev rate bits vol).length =
      (configuredQueues s.cfg d i dev).length + 1 + (codecOf s.cfg d i).toList.length := by
  simp [initCalls]

section
variable {s : State} {d : Dir} {i : Idx} {dev rate : Word} {bits : BitVec 6}

theorem initSteps_clockFails (ch : BitVec 2) (vol : BitVec 7) (hf : FailsAt 0 s) :
    initSteps d i dev rate bits ch vol s = .raised .clockFailure (s.logCall (.clockConfig d i rate)) := by
  rw [initSteps, callOr_eq, if_neg (failsAt_zero_not_ok hf)]
  rfl

theorem initSteps_linkFails (rate : Word) (ch : BitVec 2) (vol : BitVec 7) {k : Nat}
    (hk : k < (configuredQueues s.cfg d i dev).length) (hf : FailsAt (k + 1) s) :
    ∃ u, initSteps d i dev rate bits ch vol s = .raised .periphFailure u ∧
      Logged (clockAndLinks s.cfg d i rate bits ((configuredQueues s.cfg d i dev).take (k + 1))) s u ∧
      (∀ q ∈ (configuredQueues s.cfg d i dev).take k, u.queue q = rebuiltFor s d i bits q) ∧
      SameOtherQueues ((configuredQueues s.cfg d i dev).take k) s u := by
  obtain ⟨hok, hf⟩ := failsAt_succ hf (.clockConfig d i rate)
  obtain ⟨u, he, hkept, hq, ho, hc⟩ := reconfigure_failsAt (bits := bits) (by rwa [logCall_cfg]) hf
  rw [logCall_cfg] at hq ho hc
  refine ⟨u, ?_, (Made.logCall s _).toLogged.trans ⟨hkept, hc⟩, ?_, fun q h => (ho q h).trans (queue_logCall s _ q)⟩
  · rw [initSteps, callOr_eq, if_pos hok, andThen_done, he]
    rfl
  · simpa [rebuiltFor] using hq

/-- The clock and the links granted: what is left is the codec. -/
theorem initSteps_beforeCodec (rate : Word) (ch : BitVec 2) (vol : BitVec 7)
    (hg : Granted ((configuredQueues s.cfg d i dev).length + 1) s) :
    ∃ t, initSteps d i dev rate bits ch vol s =
        (codecOr d i (fun c => .codecInit c (codecCfg s d i dev rate bits vol)) .componentFailure t).andThen
          (fun u => .done (u.setInst d i ((u.inst d i).created dev rate bits ch vol))) ∧
      Made (clockAndLinks s.cfg d i rate bits (configuredQueues s.cfg d i dev)) s t ∧
      (∀ q ∈ configuredQueues s.cfg d i dev, t.queue q = rebuiltFor s d i bits q) ∧
      SameOtherQueues (configuredQueues s.cfg d i dev) s t := by
  obtain ⟨hok, hg⟩ := granted_succ hg (.clockConfig d i rate)
  obtain ⟨t, he, hkept, hq, ho, hc, ha⟩ := reconfigure_granted (bits := bits) (by rwa [logCall_cfg])
  rw [logCall_cfg] at hq ho hc ha
  have hm := (Made.logCall s (.clockConfig d i rate)).trans ⟨⟨hkept, hc⟩, by rw [ha, List.length_map]⟩
  refine ⟨t, ?_, hm, ?_, fun q h => (ho q h).trans (queue_logCall s _ q)⟩
  · rw [initSteps, callOr_eq, if_pos hok, andThen_done, he, okOr_eq, if_pos rfl, andThen_done,
      codecCfg_congr hm.kept.cfg hm.kept.inst]
  · simpa [rebuiltFor] using hq

theorem initSteps_granted (ch : BitVec 2) {vol : BitVec 7}
    (hg : Granted (initCalls s d i dev rate bits vol).length s) :
    ∃ u, initSteps d i dev rate bits ch vol s = .done (u.setInst d i ((s.inst d i).created dev rate bits ch vol)) ∧
      Logged (initCalls s d i dev rate bits vol) s u ∧
      (∀ q ∈ configuredQueues s.cfg d i dev, u.queue q = rebuiltFor s d i bits q) ∧
      SameOtherQueues (configuredQueues s.cfg d i dev) s u := by
  rw [initCalls_length] at hg
  obtain ⟨t, he, hm, hq, ho⟩ := initSteps_beforeCodec (bits := bits) rate ch vol
    (granted_mono hg (Nat.le_add_right _ _))
  obtain ⟨u, he', hm', hq'⟩ := codecOr_made (d := d) (i := i)
    (fun c => .codecInit c (codecCfg s d i dev rate bits vol)) .componentFailure
    (by rw [hm.kept.cfg]; exact hm.granted (by rwa [clockAndLinks_length]))
  rw [hm.kept.cfg] at hm'
  have hl := (hm.trans hm').toLogged
  refine ⟨u, ?_, hl, fun q h => (hq' q).trans (hq q h), ho.trans fun q _ => hq' q⟩
  rw [he, he', andThen_done, hl.kept.inst]

theorem initSteps_codecFails (rate : Word) (ch : BitVec 2) (vol : BitVec 7) {c : Idx}
    (hc : codecOf s.cfg d i = some c) (hf : FailsAt ((configuredQueues s.cfg d i dev).length + 1) s) :
    ∃ u, initSteps d i dev rate bits ch vol s = .raised .componentFailure u ∧
      Logged (initCalls s d i dev rate bits vol) s u ∧
      (∀ q ∈ configuredQueues s.cfg d i dev, u.queue q = rebuiltFor s d i bits q) ∧
      SameOtherQueues (configuredQueues s.cfg d i dev) s u := by
  obtain ⟨t, he, hm, hq, ho⟩ := initSteps_beforeCodec (bits := bits) rate ch vol hf.1
  have hf : FailsAt 0 t := hm.failsAt (by rwa [clockAndLinks_length])
  refine ⟨t.logCall (.codecInit c (codecCfg s d i dev rate bits vol)), ?_, ?_,
    fun q h => (queue_logCall t _ q).trans (hq q h), ho.trans (.logCall _ t _)⟩
  · rw [he, codecOr_failed (hm.kept.cfg ▸ hc) hf]
    rfl
  · rw [initCalls, codecCalls_some hc]
    exact (hm.trans (.logCall t _)).toLogged

/-- The kind INIT fails with at call number `k` after the power-up: the clock, one of the links, the codec. -/
def initFailure (links k : Nat) : Status :=
  if k = 0 then .clockFailure else if k ≤ links then .periphFailure else .componentFailure

theorem initFailure_code (links k : Nat) : (initFailure links k).code =
    if k = 0 then 0xFFFFFFF7 else if k ≤ links then 0xFFFFFFFC else 0xFFFFFFFB := by
  simp only [initFailure, apply_ite Status.code]
  rfl

/-- Call number `k` after the power-up fails. -/
theorem initSteps_failsAt (ch : BitVec 2) {vol : BitVec 7} {k : Nat}
    (hk : k < (initCalls s d i dev rate bits vol).length) (hf : FailsAt k s) :
    ∃ u, initSteps d i dev rate bits ch vol s =
        .raised (initFailure (configuredQueues s.cfg d i dev).length k) u ∧
      Logged ((initCalls s d i dev rate bits vol).take (k + 1)) s u ∧
      (∀ q ∈ (configuredQueues s.cfg d i dev).take (k - 1), u.queue q = rebuiltFor s d i bits q) ∧
      SameOtherQueues ((configuredQueues s.cfg d i dev).take (k - 1)) s u := by
  cases k with
  | zero => exact ⟨_, initSteps_clockFails ch vol hf, (Made.logCall s _).toLogged, nofun, .logCall _ s _⟩
  | succ k =>
    rw [initFailure, if_neg (Nat.succ_ne_zero k), Nat.add_sub_cancel]
    by_cases hlink : k < (configuredQueues s.cfg d i dev).length
    · obtain ⟨u, he, hl, h⟩ := initSteps_linkFails (bits := bits) rate ch vol hlink hf
      rw [if_pos (Nat.succ_le_of_lt hlink)]
      refine ⟨u, he, ?_, h⟩
      rwa [initCalls, List.take_append_of_le_length (by rw [clockAndLinks_length]; omega), clockAndLinks,
        List.take_succ_cons, ← List.map_take]
    · rw [initCalls_length] at hk
      obtain ⟨c, hc, hj⟩ := codec_of_lt (o := codecOf s.cfg d i)
        (j := k - (configuredQueues s.cfg d i dev).length) (by omega)
      obtain rfl : k = (configuredQueues s.cfg d i dev).length := by omega
      obtain ⟨u, he, hl, h⟩ := initSteps_codecFails (bits := bits) rate ch vol hc hf
      rw [if_neg (Nat.not_succ_le_self _), List.take_length, List.take_of_length_le (by simp [initCalls_length])]
      exact ⟨u, he, hl, h⟩

end
/-- INIT whose checks all pass. -/
theorem exec_init_runs {s : State} {d : Dir} {n : Idx} {ch : BitVec 2} {bits : BitVec 6} {vol : BitVec 7}
    (hv : valid s.cfg d n = true) (hvol : vol.toNat ≤ 100) (hdev : devOk s.cfg d n s.arg0 = true)
    (hrate : rateOk s.cfg d n s.arg1 = true) (hcombo : comboOk s.cfg d n bits ch = true)
    (hmics : tooFewMics s.cfg d n s.arg0 ch = false) (hl : (s.inst d n).life = .reset)
    (hx : xinstOk s d n s.arg1 bits = true) :
    exec (.init d n ch bits 0 vol) s =
      ((powerUpIfOff d n s).andThen (initSteps d n s.arg0 s.arg1 bits ch vol)).finish := by
  rw [exec_init_of_good hv hvol hdev hrate hcombo hmics, command_of_passed (by simp [hl]),
    command_of_passed (by simp [hx]), command_nil, initBody_eq_initSteps]

/-- INIT whose checks all pass, on an instance whose codec is off. -/
theorem exec_init_runs_off {s : State} {d : Dir} {n c : Idx} {ch : BitVec 2} {bits : BitVec 6} {vol : BitVec 7}
    (hv : valid s.cfg d n = true) (hvol : vol.toNat ≤ 100) (hdev : devOk s.cfg d n s.arg0 = true)
    (hrate : rateOk s.cfg d n s.arg1 = true) (hcombo : comboOk s.cfg d n bits ch = true)
    (hmics : tooFewMics s.cfg d n s.arg0 ch = false) (hl : (s.inst d n).life = .reset)
    (hx : xinstOk s d n s.arg1 bits = true) (hc : codecOf s.cfg d n = some c) (hp : s.power[c] = false) :
    exec (.init d n ch bits 0 vol) s =
      ((powerUp c s).andThen (initSteps d n s.arg0 s.arg1 bits ch vol)).finish := by
  rw [exec_init_runs hv hvol hdev hrate hcombo hmics hl hx, powerUpIfOff_off hc hp]

/-- The power-up changes nothing the later calls of INIT depend on. -/
theorem PoweredUp.initCalls_eq {d : Dir} {i : Idx} {s t : State} (h : PoweredUp d i s t) (dev rate : Word)
    (bits : BitVec 6) (vol : BitVec 7) : initCalls t d i dev rate bits vol = initCalls s d i dev rate bits vol := by
  have hc := h.insts.surroundings.cfg
  simp only [initCalls, hc, codecCfg_congr hc h.insts.inst]

theorem PoweredUp.rebuiltFor_eq {d : Dir} {i : Idx} {s t : State} (h : PoweredUp d i s t) (bits : BitVec 6)
    (q : QueueId) : rebuiltFor t d i bits q = rebuiltFor s d i bits q := by
  rw [rebuiltFor, rebuiltFor, h.queues, h.insts.surroundings.cfg]

/-- What INIT has done once it is powered up and made the calls `cs`, having rebuilt the queues `qs`. -/
structure InitReached (d : Dir) (i : Idx) (bits : BitVec 6) (qs : List QueueId) (cs : List Call) (s u : State) :
    Prop where
  insts : InstsKept s u
  sr : u.sr = s.sr
  calls : u.calls = s.calls ++ (powerUpCalls s d i ++ cs)
  on : ∀ c : Idx, codecOf s.cfg d i = some c → u.power[c] = true
  power : ∀ c : Idx, codecOf s.cfg d i ≠ some c → u.power[c] = s.power[c]
  rebuilt : ∀ q ∈ qs, u.queue q = rebuiltFor s d i bits q
  others : SameOtherQueues qs s u

theorem PoweredUp.reached {d : Dir} {i : Idx} {bits : BitVec 6} {qs : List QueueId} {cs : List Call} {s t u : State}
    (h : PoweredUp d i s t) (hl : Logged cs t u) (hq : ∀ q ∈ qs, u.queue q = rebuiltFor t d i bits q)
    (ho : SameOtherQueues qs t u) : InitReached d i bits qs cs s u where
  insts := h.insts.trans hl.kept.instsKept
  sr := hl.kept.sr.trans h.sr
  calls := by rw [hl.calls, h.calls, List.append_assoc]
  on c hc := hl.kept.power ▸ h.on c hc
  power c hc := hl.kept.power ▸ h.power c hc
  rebuilt q hm := (hq q hm).trans (h.rebuiltFor_eq bits q)
  others q hm := (ho q hm).trans (h.queues q)

end Sys2Proof.Machine

namespace Sys2Proof.Proofs

open Sys2Proof.Machine

/-- Settles O29: the power-up, then the calls of `initSteps` on the state it leaves. -/
theorem initCreatesTheInstance : Obligations.InitCreatesTheInstance := by
  rintro s d n ch bits vol _ _ calls hv hvol hdev hrate hcombo hmics hl hx hprobe rfl rfl hcalls
  rw [exec_init_runs hv hvol hdev hrate hcombo hmics hl hx]
  obtain rfl : calls = powerUpCalls s d n ++ initCalls s d n s.arg0 s.arg1 bits vol := by
    simpa [initCalls, clockAndLinks] using hcalls
  rw [List.length_append]
  refine ⟨fun hg => ?_, fun k hk hf => ?_⟩
  · obtain ⟨t, he, hp⟩ := powerUpIfOff_granted hprobe (granted_mono hg (Nat.le_add_right _ _))
    have hg := ((granted_add hp.answers).1 hg).2
    rw [← hp.initCalls_eq] at hg
    obtain ⟨u, hu, hl, hq, ho⟩ := initSteps_granted ch hg
    rw [hp.initCalls_eq] at hl
    rw [hp.insts.surroundings.cfg] at hq ho
    have hr := hp.reached hl hq ho
    have hw := hr.insts.wroteInst d n ((s.inst d n).created s.arg0 s.arg1 bits ch vol) 0
    rw [he, andThen_done, hu, hp.insts.inst]
    exact ⟨_, rfl, rfl, hw.inst, hw.others, by simpa using hr.on, by simpa using hr.power,
      fun q hm => (queue_setInst u d n _ q).trans (hr.rebuilt q hm),
      fun q hm => (queue_setInst u d n _ q).trans (hr.others q hm), (setInst_calls u d n _).trans hr.calls,
      (setInst_sr u d n _).trans hr.sr, hw.result, hw.surroundings⟩
  · obtain ⟨t, he, hp⟩ := powerUpIfOff_granted hprobe (granted_mono hf.1 (Nat.le_add_right _ _))
    have hf := ((failsAt_add hp.answers).1 hf).2
    have hk := Nat.lt_of_add_lt_add_left hk
    rw [← hp.initCalls_eq] at hk
    obtain ⟨u, hu, hl, hq, ho⟩ := initSteps_failsAt ch hk hf
    rw [hp.initCalls_eq] at hl
    rw [hp.insts.surroundings.cfg] at hu hq ho
    have hr := hp.reached hl hq ho
    rw [he, andThen_done, hu, Nat.add_assoc, List.take_length_add_append, ← initFailure_code]
    exact ⟨_, rfl, hr.insts.failedAfter hr.sr hr.calls _, hr.on, hr.power, hr.rebuilt, hr.others⟩

/-- Settles O30: `power_up` as its three answers decide it; the second is only used up. -/
theorem powerUpProbesTheCodec : Obligations.PowerUpProbesTheCodec := by
  intro s d n c ch bits vol a₁ a₂ a₃ rest hv hvol hdev hrate hcombo hmics hl hx hc hp ha
  have hexec := exec_init_runs_off hv hvol hdev hrate hcombo hmics hl hx hc hp
  refine ⟨fun h₁ => ?_, fun h₁ h₃ => ?_, fun id h₁ h₃ hid => ?_, fun a h₁ => ?_⟩
  · subst h₁
    rw [hexec, powerUp_busFails ha]
    rfl
  · subst h₃
    rw [hexec, powerUp_probeFails ha h₁]
    rfl
  · subst h₃
    rw [hexec, powerUp_unknown ha h₁ hid]
    rfl
  · have hexec' := exec_init_runs_off (s := { s with answers := a₁ :: a :: a₃ :: rest }) hv hvol hdev hrate hcombo
      hmics hl hx hc hp
    rw [powerUp_eq_probe rfl h₁] at hexec'
    rw [hexec, hexec', powerUp_eq_probe ha h₁]

end Sys2Proof.Proofs
end

section
/-! PROOFS. The configuration commands that configure no queue (41_stream_config.md R162 to R176): the getters, GETSTATE
and REGCB, and SETVOL, MUTE and UNMUTE, which ask the codec first. -/

namespace Sys2Proof.Machine

/-! ### The getters (R176) -/

/-- The three exclusive cases of a getter. -/
theorem getter_cases (d : Dir) (n : Idx) (field : Inst → Word) (s : State) :
    (valid s.cfg d n = false → getter d n field s = .next { s with status := 0xFFFFFFFE }) ∧
    (valid s.cfg d n = true → (s.inst d n).life = .reset →
      getter d n field s = .next { s with status := 0xFFFFFFFD }) ∧
    (valid s.cfg d n = true → (s.inst d n).life ≠ .reset →
      getter d n field s = .next { s with result := field (s.inst d n), status := 0 }) := by
  rw [getter_eq]
  refine ⟨fun hv => ?_, fun hv hl => ?_, fun hv hl => ?_⟩
  · rw [if_pos hv]
  · rw [if_neg (by simp [hv]), if_pos hl]
  · rw [if_neg (by simp [hv]), if_neg hl]

theorem setWidth_ofBool (b : Bool) : (BitVec.ofBool b).setWidth 32 = if b then (1 : Word) else 0 := by
  cases b <;> rfl

/-! ### The calls on the codec (R169, R171, R172) -/

theorem chsel_eq (d : Dir) : chsel d = if d = .out then 0 else 1 := by cases d <;> rfl

section
variable {s : State} {d : Dir} {n : Idx} {bad : Bool}

theorem forwardToCodec_of_invalid (hv : valid s.cfg d n = false) (mk : Idx → Call) (set : Inst → Inst) :
    forwardToCodec d n bad mk set s = .next { s with status := 0xFFFFFFFE } :=
  command_of_failed (by simp [hv]) ..

theorem forwardToCodec_of_reset (hv : valid s.cfg d n = true) (hb : bad = false) (hl : (s.inst d n).life = .reset)
    (mk : Idx → Call) (set : Inst → Inst) :
    forwardToCodec d n bad mk set s = .next { s with status := 0xFFFFFFFD } :=
  (command_of_passed (by simp [hv, hb]) ..).trans (command_of_failed (by simp [hl]) ..)

theorem forwardToCodec_of_noCodec (hv : valid s.cfg d n = true) (hb : bad = false) (hl : (s.inst d n).life ≠ .reset)
    (hc : codecOf s.cfg d n = none) (mk : Idx → Call) (set : Inst → Inst) :
    forwardToCodec d n bad mk set s = .next { s with status := 0xFFFFFFF5 } :=
  (command_of_passed (by simp [hv, hb]) ..).trans <|
    (command_of_passed (by simp [hl]) ..).trans (command_of_failed (by simp [hc]) ..)

/-- All checks passed: the answer of the codec decides. -/
theorem forwardToCodec_of_codec (hv : valid s.cfg d n = true) (hb : bad = false) (hl : (s.inst d n).life ≠ .reset)
    {c : Idx} (hc : codecOf s.cfg d n = some c) (mk : Idx → Call) (set : Inst → Inst) :
    forwardToCodec d n bad mk set s = .next
      (if answerOk s.nextAnswer = true then
        { (s.logCall (mk c)).setInst d n (set (s.inst d n)) with status := 0 }
      else { s.logCall (mk c) with status := 0xFFFFFFFB }) := by
  rw [forwardToCodec, command_of_passed (by simp [hv, hb]), command_of_passed (by simp [hl]),
    command_of_passed (by simp [hc]), command_nil, codecOr_some hc]
  split
  · rw [andThen_done, inst_logCall, finish_done]
  · rfl

theorem forwardToCodec_refused (hv : valid s.cfg d n = true) (hb : bad = false) (hl : (s.inst d n).life ≠ .reset)
    {c : Idx} (hc : codecOf s.cfg d n = some c) (ha : answerOk s.nextAnswer = false) (mk : Idx → Call)
    (set : Inst → Inst) :
    forwardToCodec d n bad mk set s = .next { s.logCall (mk c) with status := 0xFFFFFFFB } := by
  rw [forwardToCodec_of_codec hv hb hl hc, if_neg (Bool.eq_false_iff.1 ha)]

theorem forwardToCodec_accepted (hv : valid s.cfg d n = true) (hb : bad = false) (hl : (s.inst d n).life ≠ .reset)
    {c : Idx} (hc : codecOf s.cfg d n = some c) (ha : answerOk s.nextAnswer = true) (mk : Idx → Call)
    (set : Inst → Inst) :
    forwardToCodec d n bad mk set s =
      .next { (s.logCall (mk c)).setInst d n (set (s.inst d n)) with status := 0 } := by
  rw [forwardToCodec_of_codec hv hb hl hc, if_pos ha]

end

theorem exec_setvol_eq {vol : BitVec 7} (d : Dir) (n : Idx) (s : State) :
    exec (.setvol d n 0 vol) s = forwardToCodec d n (!volLegal vol)
      (fun c => .codecSetVolume c (if d = .out then 0 else 1) vol) (fun v => { v with volume := vol }) s := by
  rw [exec, execSetvol, chsel_eq]
  rfl

end Sys2Proof.Machine

namespace Sys2Proof.Proofs

open Sys2Proof.Machine

/-- Settles O18: the six commands are one shape, each with its own field. -/
theorem gettersReturnTheCache : Obligations.GettersReturnTheCache := by
  intro s d n i v hmem
  simp only [List.mem_cons, Prod.mk.injEq, List.not_mem_nil, or_false] at hmem
  obtain ⟨rfl, rfl⟩ | ⟨rfl, rfl⟩ | ⟨rfl, rfl⟩ | ⟨rfl, rfl⟩ | ⟨rfl, rfl⟩ | ⟨rfl, rfl⟩ := hmem
  · exact getter_cases d n (·.device) s
  · exact getter_cases d n (·.rate) s
  · exact getter_cases d n (·.bits.setWidth 32) s
  · exact getter_cases d n (·.chans.setWidth 32) s
  · exact getter_cases d n (·.volume.setWidth 32) s
  · rw [← setWidth_ofBool]
    exact getter_cases d n (fun v => (BitVec.ofBool v.mute).setWidth 32) s

/-- Settles O19: the instance is the only check. -/
theorem getstateReturnsTheCode : Obligations.GetstateReturnsTheCode := by
  intro s d n
  rw [exec, execGetstate]
  refine ⟨fun hv => command_of_failed (by simp [hv]) .., fun hv => ?_⟩
  rw [command_of_passed (by simp [hv]), command_nil, finish_done]
  cases (s.inst d n).life <;> rfl

/-- Settles O20: the instance and the zero operand bits are the only checks. -/
theorem regcbWritesTheMask : Obligations.RegcbWritesTheMask := by
  intro s d n mask hv
  rw [exec, execRegcb, command_of_passed (by simp [hv]), command_nil, finish_done]

/-- Settles O21: with a legal volume, the state, the codec's presence and its answer decide, in that order. -/
theorem setvolForwardsToTheCodec : Obligations.SetvolForwardsToTheCodec := by
  intro s d n vol hv hvol
  have hlegal : (!volLegal vol) = false := by simp [volLegal, hvol]
  rw [exec_setvol_eq]
  exact ⟨fun hl => forwardToCodec_of_reset hv hlegal hl .., fun hl hc => forwardToCodec_of_noCodec hv hlegal hl hc ..,
    fun c hl hc => ⟨fun ha => forwardToCodec_refused hv hlegal hl hc ha ..,
      fun ha => forwardToCodec_accepted hv hlegal hl hc ha ..⟩⟩

/-- Settles O22: the two commands differ in the argument of the call and the value of the field. -/
theorem muteAndUnmuteForwardToTheCodec : Obligations.MuteAndUnmuteForwardToTheCodec := by
  intro s d n i on hmem
  have hexec : exec i s =
      forwardToCodec d n false (fun c => .codecSetMute c on) (fun v => { v with mute := on }) s := by
    simp only [List.mem_cons, Prod.mk.injEq, List.not_mem_nil, or_false] at hmem
    obtain ⟨rfl, rfl⟩ | ⟨rfl, rfl⟩ := hmem <;> rfl
  rw [hexec]
  exact ⟨fun hv => forwardToCodec_of_invalid hv .., fun hv hl => forwardToCodec_of_reset hv rfl hl ..,
    fun hv hl hc => forwardToCodec_of_noCodec hv rfl hl hc ..,
    fun c hv hl hc => ⟨fun ha => forwardToCodec_refused hv rfl hl hc ha ..,
      fun ha => forwardToCodec_accepted hv rfl hl hc ha ..⟩⟩

end Sys2Proof.Proofs
end

section
/-! PROOFS. SETDEV, SETRATE, SETBITS and SETCH (41_stream_config.md R160, R161, R163, R165, R167): one rebuild of the
queues and one re-initialisation of the codec, granted or failing at call number `k`, then the register of each
command. -/

namespace Sys2Proof.Machine

/-! ### Each setter on a valid instance with good operands: what is left to check is the state -/

section
variable {s : State} {d : Dir} {n : Idx}

theorem exec_setdev_of_good (hv : valid s.cfg d n = true) (hdev : devOk s.cfg d n s.arg0 = true)
    (hmics : tooFewMics s.cfg d n s.arg0 (s.inst d n).chans = false) :
    exec (.setdev d n) s = command [((s.inst d n).life != .stop, .busy)] (setdevBody d n s.arg0) s :=
  (command_of_passed (by simp [hv, hdev]) ..).trans (command_of_passed hmics ..)

theorem exec_setrate_of_good (hv : valid s.cfg d n = true) (hrate : rateOk s.cfg d n s.arg0 = true) :
    exec (.setrate d n) s = command
      [((s.inst d n).life != .stop, .busy), (!xinstOk s d n s.arg0 (s.inst d n).bits, .featureNotSupported)]
      (setrateBody d n s.arg0) s :=
  command_of_passed (by simp [hv, hrate]) ..

theorem exec_setbits_of_good {bits : BitVec 6} (hv : valid s.cfg d n = true)
    (hcombo : comboOk s.cfg d n bits (chansOr1 (s.inst d n).chans) = true) :
    exec (.setbits d n 0 bits) s = command
      [((s.inst d n).life != .stop, .busy), (!xinstOk s d n (s.inst d n).rate bits, .featureNotSupported)]
      (setbitsBody d n bits) s :=
  command_of_passed (by simp [hv, hcombo]) ..

theorem exec_setch_of_good {ch : BitVec 2} (hv : valid s.cfg d n = true)
    (hcombo : comboOk s.cfg d n (bitsOr16 (s.inst d n).bits) ch = true)
    (hmics : (s.inst d n).life ≠ .reset → tooFewMics s.cfg d n (s.inst d n).device ch = false) :
    exec (.setch d n 0 ch) s = command [((s.inst d n).life != .stop, .busy)] (setchBody d n ch) s :=
  (command_of_passed (by simp [hv, hcombo, (comboOk_legal hcombo).2]) ..).trans
    (command_of_passed (by simpa using hmics) ..)

/-- The two checks on the state passed. -/
theorem command_of_life_xinst {l l' : Life} (h : l = l') {x : Bool} (hx : x = true) (e e' : Status)
    (body : State → Res) : command [(l != l', e), (!x, e')] body s = (body s).finish :=
  (command_of_passed (by simp [h]) ..).trans (command_of_passed (by simp [hx]) ..)

end

/-! ### What the calls of a setter leave (R160) -/

/-- The calls `cs` have been made, the queues `qs` are rebuilt for the width, and nothing else changed. -/
structure RebuiltAfter (d : Dir) (i : Idx) (bits : BitVec 6) (qs : List QueueId) (cs : List Call) (s u : State) : Prop
    extends Logged cs s u where
  rebuilt : ∀ q ∈ qs, u.queue q = rebuiltFor s d i bits q
  others : SameOtherQueues qs s u

namespace RebuiltAfter

variable {d : Dir} {i : Idx} {bits : BitVec 6} {qs : List QueueId} {cs : List Call} {s t u : State}

/-- One call, and no queue rebuilt yet. -/
theorem call (d : Dir) (i : Idx) (bits : BitVec 6) (s : State) (c : Call) :
    RebuiltAfter d i bits [] [c] s (s.logCall c) :=
  ⟨(Made.logCall s c).toLogged, nofun, .logCall [] s c⟩

/-- A call before them. -/
theorem cons {c : Call} (h : RebuiltAfter d i bits qs cs (s.logCall c) u) : RebuiltAfter d i bits qs (c :: cs) s u where
  toLogged := (Made.logCall s c).toLogged.trans h.toLogged
  rebuilt q hq := by simpa [rebuiltFor] using h.rebuilt q hq
  others q hq := (h.others q hq).trans (queue_logCall s c q)

/-- Calls after them that are on no queue. -/
theorem append {cs' : List Call} (h : RebuiltAfter d i bits qs cs s t) (k : Logged cs' t u)
    (hq : ∀ q, u.queue q = t.queue q) : RebuiltAfter d i bits qs (cs ++ cs') s u where
  toLogged := h.toLogged.trans k
  rebuilt q hm := (hq q).trans (h.rebuilt q hm)
  others q hm := (hq q).trans (h.others q hm)

/-- The command ends here with a failure (40_stream_lifecycle.md R141). -/
theorem raised (h : RebuiltAfter d i bits qs cs s u) (e : Status) :
    ∃ t, (Res.raised e u).finish = .next t ∧ FailedAfter e.code cs s t ∧ t.power = s.power ∧
      (∀ q ∈ qs, t.queue q = rebuiltFor s d i bits q) ∧ SameOtherQueues qs s t :=
  ⟨_, rfl, h.toLogged.failedAfter e, h.kept.power, h.rebuilt, h.others⟩

/-- The command ends here, once it has written the register that `set` names. -/
theorem wrote (h : RebuiltAfter d i bits qs cs s u) (set : Inst → Inst) :
    ∃ t, (Res.done (u.setInst d i (set (u.inst d i)))).finish = .next t ∧ t.status = 0 ∧
      t.inst d i = set (s.inst d i) ∧ SameOtherInsts d i s t ∧
      (∀ q ∈ qs, t.queue q = rebuiltFor s d i bits q) ∧ SameOtherQueues qs s t ∧ t.calls = s.calls ++ cs ∧
      t.power = s.power ∧ t.sr = s.sr ∧ t.result = s.result ∧ KeepsSurroundings s t := by
  have hw := h.kept.instsKept.wroteInst d i (set (s.inst d i)) 0
  rw [h.kept.inst]
  exact ⟨_, rfl, rfl, hw.inst, hw.others, fun q hm => (queue_setInst u d i _ q).trans (h.rebuilt q hm),
    fun q hm => (queue_setInst u d i _ q).trans (h.others q hm), (setInst_calls u d i _).trans h.calls,
    (setInst_power u d i _).trans h.kept.power, (setInst_sr u d i _).trans h.kept.sr, hw.result, hw.surroundings⟩

end RebuiltAfter

/-! ### The links -/

/-- The calls that rebuild the queues, one on each link. -/
def linkCalls (p : Config.Params) (d : Dir) (i : Idx) (bits : BitVec 6) (qs : List QueueId) : List Call :=
  qs.map fun q => .linkConfigure q (flowOf d) (elementWidth p d i bits)

@[simp] theorem linkCalls_length (p : Config.Params) (d : Dir) (i : Idx) (bits : BitVec 6) (qs : List QueueId) :
    (linkCalls p d i bits qs).length = qs.length := List.length_map _

section
variable {s : State} {d : Dir} {i : Idx} {dev rate : Word} {bits : BitVec 6}

theorem links_granted (hg : Granted (configuredQueues s.cfg d i dev).length s) :
    ∃ u, okOr (reconfigure d i dev bits s) .periphFailure = .done u ∧
      RebuiltAfter d i bits (configuredQueues s.cfg d i dev)
        (linkCalls s.cfg d i bits (configuredQueues s.cfg d i dev)) s u ∧
      u.answers = s.answers.drop (configuredQueues s.cfg d i dev).length := by
  obtain ⟨u, he, hkept, hq, ho, hc, ha⟩ := reconfigure_granted (bits := bits) hg
  exact ⟨u, by rw [he, okOr_eq, if_pos rfl], ⟨⟨hkept, hc⟩, hq, ho⟩, ha⟩

theorem links_failsAt {k : Nat} (hk : k < (configuredQueues s.cfg d i dev).length) (hf : FailsAt k s) :
    ∃ u, okOr (reconfigure d i dev bits s) .periphFailure = .raised .periphFailure u ∧
      RebuiltAfter d i bits ((configuredQueues s.cfg d i dev).take k)
        ((linkCalls s.cfg d i bits (configuredQueues s.cfg d i dev)).take (k + 1)) s u := by
  obtain ⟨u, he, hkept, hq, ho, hc⟩ := reconfigure_failsAt (bits := bits) hk hf
  exact ⟨u, by rw [he, okOr_eq, if_neg (by simp)], ⟨⟨hkept, by rw [hc, linkCalls, List.map_take]⟩, hq, ho⟩⟩

/-- A line after the links that reads the instance reads what it was before them. -/
theorem links_andThen_inst (e : Status) (f : Inst → State → Res) :
    (okOr (reconfigure d i dev bits s) e).andThen (fun u => f (u.inst d i) u) =
      (okOr (reconfigure d i dev bits s) e).andThen (f (s.inst d i)) := by
  rw [okOr_eq]
  split
  · rw [andThen_done, andThen_done, (reconfigure_steps d i dev bits s).inst]
  · rfl

/-! ### The links and the codec -/

/-- The steps that SETDEV, SETRATE and SETBITS share (R160). -/
def rebuildAndReinit (d : Dir) (i : Idx) (dev rate : Word) (bits : BitVec 6) (s : State) : Res :=
  (okOr (reconfigure d i dev bits s) .periphFailure).andThen (reinit d i dev rate bits)

/-- The call they make on the codec, if the instance has one. -/
def reinitCalls (s : State) (d : Dir) (i : Idx) (dev rate : Word) (bits : BitVec 6) : List Call :=
  codecCalls s.cfg d i fun c => .codecInit c (codecCfg s d i dev rate bits (s.inst d i).volume)

/-- Their calls, in order. -/
def setterCalls (s : State) (d : Dir) (i : Idx) (dev rate : Word) (bits : BitVec 6) : List Call :=
  linkCalls s.cfg d i bits (configuredQueues s.cfg d i dev) ++ reinitCalls s d i dev rate bits

theorem setterCalls_length (s : State) (d : Dir) (i : Idx) (dev rate : Word) (bits : BitVec 6) :
    (setterCalls s d i dev rate bits).length =
      (configuredQueues s.cfg d i dev).length + (codecOf s.cfg d i).toList.length := by
  simp [setterCalls, reinitCalls]

theorem setterCalls_logCall (s : State) (c : Call) (d : Dir) (i : Idx) (dev rate : Word) (bits : BitVec 6) :
    setterCalls (s.logCall c) d i dev rate bits = setterCalls s d i dev rate bits := by
  simp [setterCalls, reinitCalls, codecCfg_congr (logCall_cfg s c) (inst_logCall s c)]

/-- The kind a setter fails with at call number `k`: one of the links, or the codec. -/
def setterFailure (links k : Nat) : Status :=
  if k < links then .periphFailure else .noInit

theorem setterFailure_code (links k : Nat) :
    (setterFailure links k).code = if k < links then 0xFFFFFFFC else 0xFFFFFFFF := by
  rw [setterFailure, apply_ite Status.code]
  rfl

/-- The codec is handed the registers as they were before the links. -/
theorem reinit_of_kept {t : State} (h : Kept s t) : reinit d i dev rate bits t =
    codecOr d i (fun c => .codecInit c (codecCfg s d i dev rate bits (s.inst d i).volume)) .noInit t := by
  rw [reinit, codecCfg_congr h.cfg h.inst, h.inst]

theorem rebuildAndReinit_granted (hg : Granted (setterCalls s d i dev rate bits).length s) :
    ∃ u, rebuildAndReinit d i dev rate bits s = .done u ∧
      RebuiltAfter d i bits (configuredQueues s.cfg d i dev) (setterCalls s d i dev rate bits) s u := by
  rw [setterCalls_length] at hg
  obtain ⟨t, he, h, ha⟩ := links_granted (bits := bits) (granted_mono hg (Nat.le_add_right _ _))
  obtain ⟨u, he', hm, hq⟩ := codecOr_made (d := d) (i := i)
    (fun c => .codecInit c (codecCfg s d i dev rate bits (s.inst d i).volume)) .noInit
    (by rw [h.kept.cfg]; exact ((granted_add ha).1 hg).2)
  rw [h.kept.cfg] at hm
  exact ⟨u, by rw [rebuildAndReinit, he, andThen_done, reinit_of_kept h.kept, he'], h.append hm.toLogged hq⟩

theorem rebuildAndReinit_failsAt {k : Nat} (hk : k < (setterCalls s d i dev rate bits).length) (hf : FailsAt k s) :
    ∃ u, rebuildAndReinit d i dev rate bits s =
        .raised (setterFailure (configuredQueues s.cfg d i dev).length k) u ∧
      RebuiltAfter d i bits ((configuredQueues s.cfg d i dev).take k)
        ((setterCalls s d i dev rate bits).take (k + 1)) s u := by
  by_cases hlink : k < (configuredQueues s.cfg d i dev).length
  · obtain ⟨u, he, h⟩ := links_failsAt (bits := bits) hlink hf
    rw [setterFailure, if_pos hlink, setterCalls, List.take_append_of_le_length (by simpa using hlink)]
    exact ⟨u, by rw [rebuildAndReinit, he, andThen_raised], h⟩
  · rw [setterCalls_length] at hk
    obtain ⟨c, hc, hj⟩ := codec_of_lt (o := codecOf s.cfg d i)
      (j := k - (configuredQueues s.cfg d i dev).length) (by omega)
    obtain rfl : k = (configuredQueues s.cfg d i dev).length := by omega
    obtain ⟨t, he, h, ha⟩ := links_granted (bits := bits) hf.1
    have hfail : FailsAt 0 t := ((failsAt_add ha).1 hf).2
    rw [setterFailure, if_neg hlink, List.take_length, List.take_of_length_le (by simp [setterCalls_length, hc]),
      rebuildAndReinit, he, andThen_done, reinit_of_kept h.kept, codecOr_failed (h.kept.cfg ▸ hc) hfail, setterCalls,
      reinitCalls, codecCalls_some hc]
    exact ⟨_, rfl, h.append (Made.logCall t _).toLogged (queue_logCall t _)⟩

end

/-! ### The steps of each setter -/

theorem andThen_assoc (r : Res) (f g : State → Res) :
    (r.andThen f).andThen g = r.andThen fun s => (f s).andThen g := by
  cases r <;> rfl

/-- The queues of the instance outside a new selector lose their descriptors (R161). -/
def discardUnselected (p : Config.Params) (d : Dir) (i : Idx) (dev : Word) (s : State) : State :=
  if isSd p d i then dropMics p dev s else s

theorem discardUnselected_kept (p : Config.Params) (d : Dir) (i : Idx) (dev : Word) (s : State) :
    Kept s (discardUnselected p d i dev s) := by
  unfold discardUnselected
  split
  · exact dropMics_kept p dev s
  · exact .refl s

theorem discardUnselected_calls (p : Config.Params) (d : Dir) (i : Idx) (dev : Word) (s : State) :
    (discardUnselected p d i dev s).calls = s.calls := by
  unfold discardUnselected
  split
  · exact dropMics_calls p dev s
  · rfl

theorem discardUnselected_queue (p : Config.Params) (d : Dir) (i : Idx) (dev : Word) (s : State) (q : QueueId) :
    (discardUnselected p d i dev s).queue q =
      if q ∈ queuesOf p d i ∧ q ∉ configuredQueues p d i dev then { s.queue q with td := 0 } else s.queue q := by
  by_cases hs : isSd p d i = true
  · rw [discardUnselected, if_pos hs, dropMics_queue]
    refine if_congr ?_ rfl rfl
    rw [queuesOf, configuredQueues, if_pos hs, if_pos hs]
    constructor
    · rintro ⟨m, hm, hoff, rfl⟩
      exact ⟨List.mem_map_of_mem (mem_allMics.2 hm), fun h => by
        obtain ⟨m', hm', e⟩ := List.mem_map.1 h
        rw [qm_injective e, mem_bitList, hoff] at hm'
        cases hm'⟩
    · rintro ⟨hq, hnot⟩
      obtain ⟨m, hm, rfl⟩ := List.mem_map.1 hq
      exact ⟨m, mem_allMics.1 hm, Bool.eq_false_iff.2 fun hon => hnot (List.mem_map_of_mem (mem_bitList.2 hon)), rfl⟩
  · rw [discardUnselected, if_neg hs, if_neg]
    rw [queuesOf, configuredQueues, if_neg hs, if_neg hs]
    exact fun h => h.2 h.1

theorem setdevBody_eq (d : Dir) (i : Idx) (dev : Word) (s : State) :
    setdevBody d i dev s = (rebuildAndReinit d i dev (s.inst d i).rate (s.inst d i).bits s).andThen fun u =>
      .done ((discardUnselected u.cfg d i dev u).setInst d i
        { (discardUnselected u.cfg d i dev u).inst d i with device := dev }) := by
  rw [rebuildAndReinit, andThen_assoc]
  exact links_andThen_inst .periphFailure fun v u => (reinit d i dev v.rate v.bits u).andThen fun u =>
    .done ((discardUnselected u.cfg d i dev u).setInst d i
      { (discardUnselected u.cfg d i dev u).inst d i with device := dev })

theorem setbitsBody_eq (d : Dir) (i : Idx) (bits : BitVec 6) (s : State) :
    setbitsBody d i bits s = (rebuildAndReinit d i (s.inst d i).device (s.inst d i).rate bits s).andThen fun u =>
      .done (u.setInst d i { u.inst d i with bits := bits }) := by
  rw [rebuildAndReinit, andThen_assoc]
  exact links_andThen_inst .periphFailure fun v u => (reinit d i v.device v.rate bits u).andThen fun u =>
    .done (u.setInst d i { u.inst d i with bits := bits })

/-- The steps of SETRATE after the clock. -/
def setrateSteps (d : Dir) (i : Idx) (rate : Word) (s : State) : Res :=
  (rebuildAndReinit d i (s.inst d i).device rate (s.inst d i).bits s).andThen fun u =>
    .done (u.setInst d i { u.inst d i with rate := rate })

theorem setrateBody_eq (d : Dir) (i : Idx) (rate : Word) (s : State) :
    setrateBody d i rate s = (callOr (.clockConfig d i rate) .clockFailure s).andThen (setrateSteps d i rate) := by
  refine congrArg (Res.andThen _) (funext fun s1 => ?_)
  rw [setrateSteps, rebuildAndReinit, andThen_assoc]
  exact links_andThen_inst .periphFailure fun v u => (reinit d i v.device rate v.bits u).andThen fun u =>
    .done (u.setInst d i { u.inst d i with rate := rate })

end Sys2Proof.Machine

namespace Sys2Proof.Proofs

open Sys2Proof.Machine

/-- Settles O23: the queues of the selector are rebuilt, then those outside it discarded. -/
theorem setdevRebuildsAndSelects : Obligations.SetdevRebuildsAndSelects := by
  rintro s d n _ _ hv hdev hmics hl rfl rfl
  rw [exec_setdev_of_good hv hdev hmics, command_of_life hl, setdevBody_eq]
  refine ⟨fun hg => ?_, fun k hk hf => ?_⟩
  · obtain ⟨u, he, h⟩ := rebuildAndReinit_granted hg
    have hkept := h.kept.trans (discardUnselected_kept s.cfg d n s.arg0 u)
    have hw := hkept.instsKept.wroteInst d n { s.inst d n with device := s.arg0 } 0
    rw [he, andThen_done, h.kept.cfg, hkept.inst]
    refine ⟨_, rfl, rfl, hw.inst, hw.others, fun q hq => ?_, fun q hq hmem => ?_, fun q hq => ?_,
      (setInst_calls ..).trans ((discardUnselected_calls ..).trans h.calls), (setInst_power ..).trans hkept.power,
      (setInst_sr ..).trans hkept.sr, hw.result, hw.surroundings⟩
    all_goals refine (queue_setInst _ d n _ q).trans ((discardUnselected_queue ..).trans ?_)
    · rw [if_neg fun hout => hout.2 hq, h.rebuilt q hq]
    · rw [if_pos ⟨hmem, hq⟩, h.others q hq]
    · rw [if_neg fun hin => hq hin.1, h.others q fun hin => hq (configuredQueues_sub _ _ _ _ q hin)]
  · obtain ⟨u, he, h⟩ := rebuildAndReinit_failsAt hk hf
    rw [he, andThen_raised, ← setterFailure_code]
    exact h.raised _

/-- Settles O24: the clock, then the links and the codec on the state it leaves. -/
theorem setrateSetsTheRate : Obligations.SetrateSetsTheRate := by
  rintro s d n _ calls hv hrate hl hx rfl hcalls
  obtain rfl : calls = .clockConfig d n s.arg0 :: setterCalls s d n (s.inst d n).device s.arg0 (s.inst d n).bits :=
    hcalls
  rw [exec_setrate_of_good hv hrate, command_of_life_xinst hl hx, setrateBody_eq, callOr_eq]
  refine ⟨fun hg => ?_, fun k hk hf => ?_⟩
  · obtain ⟨hok, hg⟩ := granted_succ hg (.clockConfig d n s.arg0)
    rw [← setterCalls_logCall] at hg
    obtain ⟨u, he, h⟩ := rebuildAndReinit_granted hg
    rw [logCall_cfg, setterCalls_logCall] at h
    rw [if_pos hok, andThen_done, setrateSteps, inst_logCall, he]
    exact h.cons.wrote fun v => { v with rate := s.arg0 }
  cases k with
  | zero =>
    rw [if_neg (failsAt_zero_not_ok hf)]
    exact (RebuiltAfter.call d n (s.inst d n).bits s _).raised .clockFailure
  | succ k =>
    obtain ⟨hok, hf⟩ := failsAt_succ hf (.clockConfig d n s.arg0)
    have hk := Nat.lt_of_succ_lt_succ hk
    rw [← setterCalls_logCall] at hk
    obtain ⟨u, he, h⟩ := rebuildAndReinit_failsAt hk hf
    rw [logCall_cfg] at he
    rw [logCall_cfg, setterCalls_logCall] at h
    have hr := h.cons.raised (setterFailure (configuredQueues s.cfg d n (s.inst d n).device).length k)
    rw [setterFailure_code] at hr
    rw [if_pos hok, andThen_done, setrateSteps, inst_logCall, he, if_neg (Nat.succ_ne_zero k)]
    exact hr

/-- Settles O25: the queues are rebuilt at the new width before the codec is asked. -/
theorem setbitsSetsTheWidth : Obligations.SetbitsSetsTheWidth := by
  rintro s d n bits _ _ hv hcombo hl hx rfl rfl
  rw [exec_setbits_of_good hv hcombo, command_of_life_xinst hl hx, setbitsBody_eq]
  refine ⟨fun hg => ?_, fun k hk hf => ?_⟩
  · obtain ⟨u, he, h⟩ := rebuildAndReinit_granted hg
    rw [he]
    exact h.wrote fun v => { v with bits := bits }
  · obtain ⟨u, he, h⟩ := rebuildAndReinit_failsAt hk hf
    rw [he, andThen_raised, ← setterFailure_code]
    exact h.raised _

/-- Settles O26: the links are the only calls. -/
theorem setchSetsTheChannels : Obligations.SetchSetsTheChannels := by
  rintro s d n ch _ _ hv hcombo hmics hl rfl rfl
  rw [exec_setch_of_good hv hcombo fun _ => hmics, command_of_life hl, setchBody, List.length_map]
  refine ⟨fun hg => ?_, fun k hk hf => ?_⟩
  · obtain ⟨u, he, h, -⟩ := links_granted hg
    rw [he]
    exact h.wrote fun v => { v with chans := ch }
  · obtain ⟨u, he, h⟩ := links_failsAt hk hf
    rw [he]
    exact h.raised .periphFailure

/-- Settles O27: with good operands the state is the next check. -/
theorem reconfigurationNeedsStop : Obligations.ReconfigurationNeedsStop := by
  intro s d n bits ch hv hl
  refine ⟨fun hdev hmics => ?_, fun hrate => ?_, fun hcombo => ?_, fun hcombo hmics => ?_⟩
  · exact (exec_setdev_of_good hv hdev hmics).trans (command_of_life_ne hl ..)
  · exact (exec_setrate_of_good hv hrate).trans (command_of_life_ne hl ..)
  · exact (exec_setbits_of_good hv hcombo).trans (command_of_life_ne hl ..)
  · exact (exec_setch_of_good hv hcombo hmics).trans (command_of_life_ne hl ..)

end Sys2Proof.Proofs
end

section
/-! PROOFS. The alternation of half and full completions (42_transfer_engine.md R214, 20_memory.md R83): what a command
can do to a queue, and that neither a command nor an agent step breaks the order of the completions. -/

namespace Sys2Proof.Machine

/-! ### What a command can do to a queue -/

/-- One primitive of the engine, or the discarding of a descriptor (40_stream_lifecycle.md R132, 41_stream_config.md
R161). -/
inductive CommandChange (p : Config.Params) (q : QueueId) : Queue → Queue → Prop where
  | primitive {v w : Queue} (h : QueueChange p q v w) : CommandChange p q v w
  | discarded (v : Queue) : CommandChange p q v { v with td := 0 }

/-- Every queue of `t` comes from that of `s` by such changes, one after another. -/
def Commanded (s t : State) : Prop :=
  ∀ q, Relation.ReflTransGen (CommandChange s.cfg q) (s.queue q) (t.queue q)

theorem Commanded.of_eq {s t : State} (h : ∀ q, t.queue q = s.queue q) : Commanded s t :=
  fun q => by rw [h]

theorem Commanded.trans {s t u : State} (h : Commanded s t) (hc : t.cfg = s.cfg) (k : Commanded t u) :
    Commanded s u :=
  fun q => (h q).trans (hc ▸ k q)

theorem Commanded.then_eq {s t u : State} (h : Commanded s t) (he : ∀ q, u.queue q = t.queue q) : Commanded s u :=
  fun q => by rw [he]; exact h q

theorem Powered.commanded {d : Dir} {i : Idx} {on : Bool} {s t : State} (h : Powered d i on s t) : Commanded s t :=
  .of_eq h.queue

theorem Steps.commanded {d : Dir} {i : Idx} {s t : State} (h : Steps d i s t) : Commanded s t :=
  fun q => Relation.ReflTransGen.mono (fun _ _ => CommandChange.primitive) _ _ (h.changes q)

/-- A power-up or none, then steps: INIT, and every command that makes no power-up. -/
theorem Powered.commanded_steps {d : Dir} {i : Idx} {on : Bool} {s s0 t : State} (hp : Powered d i on s s0)
    (hst : Steps d i s0 t) : Commanded s t :=
  hp.commanded.trans hp.cfg hst.commanded

/-- DEINIT stops the queues of its instance and discards their descriptors. -/
theorem DeinitWork.commanded {d : Dir} {i : Idx} {s t : State} (h : DeinitWork d i s t) : Commanded s t := by
  intro q
  by_cases hm : q ∈ queuesOf s.cfg d i
  · rw [h.queues q hm]
    exact .tail (.single (.primitive (.stopped _))) (.discarded _)
  · have same : t.queue q = s.queue q := h.others q hm
    rw [same]

theorem dropMics_commanded (p : Config.Params) (dev : Word) (s : State) : Commanded s (dropMics p dev s) := by
  intro q
  rw [dropMics_queue]
  split
  · exact .single (.discarded _)
  · exact .refl

theorem Fails.commanded {s u : State} {i : Instr} {e : Status} (h : Fails s i e u) : Commanded s u := by
  cases h with
  | kept _ _ hp _ steps _ => exact hp.commanded_steps steps
  | deinit _ _ _ work => exact work.commanded

theorem Succeeds.commanded {s u : State} {i : Instr} (h : Succeeds s i u) : Commanded s u := by
  cases h with
  | init _ _ _ _ _ _ _ _ work _ _ =>
    obtain ⟨s0, hp, hst⟩ := work.steps
    exact (hp.commanded_steps hst).then_eq (queue_setInst _ _ _ _)
  | deinitReset _ => exact .of_eq fun _ => rfl
  | deinit _ _ work => exact work.commanded
  | play _ steps => exact steps.commanded.then_eq (queue_setLife _ _ _ _)
  | record _ _ steps => exact steps.commanded.then_eq (queue_setLife _ _ _ _)
  | recordMerge _ _ _ _ steps => exact steps.commanded.then_eq (queue_setLife _ _ _ .active)
  | recordMulti _ _ steps => exact steps.commanded.then_eq (queue_setLife _ _ _ .active)
  | pause _ steps _ => exact steps.commanded.then_eq (queue_setLife _ _ _ _)
  | resume _ steps _ => exact steps.commanded.then_eq (queue_setLife _ _ _ _)
  | stop _ work => exact work.steps.commanded.then_eq (queue_setLife _ _ _ _)
  | getter v _ => exact .of_eq fun _ => rfl
  | regcb _ => exact .of_eq (queue_setInst _ _ _ _)
  | setdev _ _ _ _ work =>
    split
    · exact (work.steps.commanded.trans work.steps.kept.cfg (dropMics_commanded _ _ _)).then_eq (queue_setInst _ _ _ _)
    · exact work.steps.commanded.then_eq (queue_setInst _ _ _ _)
  | setrate _ _ _ _ work => exact work.steps.commanded.then_eq (queue_setInst _ _ _ _)
  | setbits _ _ _ _ work => exact work.steps.commanded.then_eq (queue_setInst _ _ _ _)
  | setch _ _ _ _ work => exact work.steps.commanded.then_eq (queue_setInst _ _ _ _)
  | setvol _ _ _ steps _ => exact steps.commanded.then_eq (queue_setInst _ _ _ _)
  | mute _ _ steps _ => exact steps.commanded.then_eq (queue_setInst _ _ _ _)
  | unmute _ _ steps _ => exact steps.commanded.then_eq (queue_setInst _ _ _ _)

/-- **What every command does to the queues.** -/
theorem exec_commanded {i : Instr} {s t : State} (h : exec i s = .next t) : Commanded s t := by
  cases exec_cases h with
  | refused _ => exact .of_eq fun _ => rfl
  | failed hf => exact hf.commanded.then_eq fun _ => rfl
  | succeeded hs => exact hs.commanded.then_eq fun _ => rfl

/-! ### The order of the completions of one queue -/

theorem completionOrder_of_idle {v : Queue} (h : v.st = .idle) : CompletionOrder v := fun hn => absurd h hn

/-- A queue that moved on no element, was not armed and has no new completion keeps the order. -/
theorem CompletionOrder.of_no_new {v w : Queue} (h : CompletionOrder v) (hst : w.st ≠ .idle → v.st ≠ .idle)
    (hpos : w.pos = v.pos) (hcount : w.count = v.count) (hovr : w.ovr = v.ovr)
    (hht : w.pendHt = true → v.pendHt = true) (htc : w.pendTc = true → v.pendTc = true) : CompletionOrder w := by
  intro hn
  obtain ⟨hin, hord⟩ := h (hst hn)
  rw [hpos, hcount, hovr]
  refine ⟨hin, fun ho => ?_⟩
  obtain ⟨hone, hhalf, hfull⟩ := hord ho
  exact ⟨fun hb => hone ⟨hht hb.1, htc hb.2⟩, fun hp => hhalf (hht hp), fun hp => hfull (htc hp)⟩

/-- An armed queue stands at its first element with nothing pending. -/
theorem started_completionOrder (v : Queue) (base : Word) {count : Nat} (h1 : 1 ≤ count) (h2 : count ≤ 65535) :
    CompletionOrder (v.started base count) := by
  have hcount : (BitVec.ofNat 16 count).toNat = count := by
    rw [BitVec.toNat_ofNat]; exact Nat.mod_eq_of_lt (by omega)
  intro _
  refine ⟨?_, fun _ => ⟨fun hb => Bool.noConfusion hb.1, nofun, nofun⟩⟩
  simp only [Queue.started, hcount]
  exact h1

theorem CommandChange.completionOrder {p : Config.Params} {q : QueueId} {v w : Queue} (hc : CommandChange p q v w)
    (h : CompletionOrder v) : CompletionOrder w := by
  cases hc with
  | discarded => exact h.of_no_new id rfl rfl rfl id id
  | primitive hq =>
    cases hq with
    | same => exact h
    | configured _ _ _ => exact h.of_no_new id rfl rfl rfl id id
    | started base count h1 h2 _ _ => exact started_completionOrder v base h1 h2
    | paused hr => exact h.of_no_new (fun _ => by rw [hr]; exact nofun) rfl rfl rfl id id
    | resumed hp => exact h.of_no_new (fun _ => by rw [hp]; exact nofun) rfl rfl rfl id id
    | stopped => exact completionOrder_of_idle rfl

/-- An element moved: with nothing undelivered before it, `TC` comes with position 0 and `HT` with the half; the
elements between leave the position in the half it is in. -/
theorem advance_completionOrder {v : Queue} (h : CompletionOrder v) (hr : v.st = .running) :
    CompletionOrder v.advance := by
  obtain ⟨hin, hord⟩ := h (by rw [hr]; exact nofun)
  have hnext := pos_succ_toNat hin
  obtain ⟨hlast, e⟩ | ⟨hlast, hhalf, e⟩ | ⟨hlast, hhalf, e⟩ := advance_cases v <;> rw [e] <;> intro _
  · refine ⟨Nat.zero_lt_of_lt hin, fun ho => ?_⟩
    obtain ⟨⟨-, hht⟩, -⟩ : (v.ovr = false ∧ v.pendHt = false) ∧ v.pendTc = false := by simpa using ho
    exact ⟨fun hb => by simp [hht] at hb, fun hp => by simp [hht] at hp, fun _ h2 => Nat.div_pos h2 (by omega)⟩
  · simp only [hnext]
    refine ⟨by omega, fun ho => ?_⟩
    obtain ⟨-, htc⟩ : (v.ovr = false ∧ v.pendHt = false) ∧ v.pendTc = false := by simpa using ho
    exact ⟨fun hb => by simp [htc] at hb, fun _ => by omega, fun hp => by simp [htc] at hp⟩
  · simp only [hnext]
    refine ⟨by omega, fun ho => ?_⟩
    obtain ⟨hone, hsecond, hfirst⟩ := hord ho
    exact ⟨hone, fun hp => by have := hsecond hp; omega, fun hp h2 => by have := hfirst hp h2; omega⟩

theorem AgentChange.completionOrder {v w : Queue} (hc : AgentChange v w) (h : CompletionOrder v) :
    CompletionOrder w := by
  cases hc with
  | same => exact h
  | advanced hr => exact advance_completionOrder h hr
  | delivered x =>
    cases x with
    | ht => exact h.of_no_new id rfl rfl rfl nofun id
    | tc => exact h.of_no_new id rfl rfl rfl id nofun
    | err => exact h.of_no_new id rfl rfl rfl id id
  | failed _ => exact h.of_no_new id rfl rfl rfl id id

theorem commandChanges_completionOrder {p : Config.Params} {q : QueueId} {v w : Queue}
    (hc : Relation.ReflTransGen (CommandChange p q) v w) (h : CompletionOrder v) : CompletionOrder w := by
  induction hc with
  | refl => exact h
  | tail _ hlast ih => exact hlast.completionOrder ih

end Sys2Proof.Machine

namespace Sys2Proof.Proofs

open Sys2Proof.Machine

/-- Settles O56: no change a command or an agent step makes to a queue breaks the order of its completions. -/
theorem stepKeepsCompletionOrder : Obligations.StepKeepsCompletionOrder := by
  intro s t h hstep q
  obtain ⟨u, hu, ⟨i, hx⟩ | hf⟩ := step_cases hstep
  · exact commandChanges_completionOrder (exec_commanded hx q) (by rw [hu.queue]; exact h q)
  · exact (hf.queues q).completionOrder (by rw [hu.queue]; exact h q)

end Sys2Proof.Proofs
end

section
/-! PROOFS. What the DMA, error and service steps of a queue need, and what they do (42_transfer_engine.md R207 to R213;
10_state.md R35; 60_exceptions.md R280). -/

namespace Sys2Proof.Machine

/-! ### The move of an element (R208, R209) -/

/-- A descriptor as the engine writes it has an element width the DMA step accepts. -/
theorem DescriptorFor.bytes {q : QueueId} {td : Word} (h : DescriptorFor q td) :
    2 * tdWidth td = 2 ∨ 2 * tdWidth td = 4 := by
  obtain hw | hw := h.width <;> simp [hw]

/-- Its memory side increments, in either direction. -/
theorem DescriptorFor.elementAddr_eq {q : QueueId} {v : Queue} (h : DescriptorFor q v.td) (w : Nat) :
    elementAddr v w = v.base.toNat + v.pos.toNat * w := by
  unfold elementAddr
  rw [h.sinc, h.dinc]
  cases tdIsP2m v.td <;> rfl

section

variable {q : QueueId} {v : Word} {s : State}

theorem moveElement_send (hd : DescriptorFor q (s.queue q).td) (hp : tdIsP2m (s.queue q).td = false) {w a : Nat}
    (hw : w = 2 * tdWidth (s.queue q).td) (ha : a = elementAddr (s.queue q) w) (fits : a + w ≤ 2 ^ 32) :
    moveElement q v s = .next { s with tx := s.tx ++ [(q, sentElement q w a s)] } := by
  subst hw ha
  have hb := hd.bytes
  unfold moveElement
  simp only [hp]
  rw [if_neg (by omega), if_neg (by omega)]

theorem moveElement_store (hd : DescriptorFor q (s.queue q).td) (hp : tdIsP2m (s.queue q).td = true)
    (hm : ∀ m, q = .qm m → s.sr.mbuf = true) {w a : Nat} (hw : w = 2 * tdWidth (s.queue q).td)
    (ha : a = elementAddr (s.queue q) w) (fits : a + w ≤ 2 ^ 32) :
    moveElement q v s = .next { s with mem := memWrite s.mem a w v.toNat } := by
  subst hw ha
  have hb := hd.bytes
  unfold moveElement
  cases q with
  | qo i => simp only [hp]; rw [if_neg (by omega), if_neg (by omega)]
  | qi j => simp only [hp]; rw [if_neg (by omega), if_neg (by omega)]
  | qm m => simp only [hp, hm m rfl]; rw [if_neg (by omega), if_neg (by omega)]

end

theorem moveElement_sample {m : Mic} {v : Word} {s : State} (hd : DescriptorFor (.qm m) (s.queue (.qm m)).td)
    (hm : s.sr.mbuf = false) :
    moveElement (.qm m) v s = .next { s with cb := writeSample s.cb m (s.queue (.qm m)).pos.toNat v } := by
  have hp := hd.direction.2 nofun
  have hb := hd.bytes
  unfold moveElement
  simp only [hp, hm]
  rw [if_neg (by omega)]

/-- The move of an element is a next state or a fault. -/
theorem moveElement_not_refused (q : QueueId) (v : Word) (s : State) (r : Refusal) :
    moveElement q v s ≠ .refused r := by
  unfold moveElement
  refine ite_ne_of nofun ?_
  split
  · exact nofun
  · exact ite_ne_of nofun nofun
  · exact ite_ne_of nofun nofun

/-! ### Enabled steps (R207, R212, R213) -/

/-- The enabled DMA step: the element moves, then the position of the queue advances. -/
theorem dmaStep_of_running {q : QueueId} {v : Word} {s s1 : State} (he : queueExists s.cfg q = true)
    (hr : (s.queue q).st = .running) (hm : moveElement q v s = .next s1) :
    dmaStep q v s = .next (s1.setQueue q (s.queue q).advance) := by
  rw [dmaStep, if_pos (by simp [he, hr]), hm, ← (moveElement_moved hm).queue]

theorem dmaStep_refused_iff (q : QueueId) (v : Word) (s : State) :
    dmaStep q v s = .refused .notEnabled ↔ ¬(queueExists s.cfg q = true ∧ (s.queue q).st = .running) := by
  have hcond : (queueExists s.cfg q && (s.queue q).st == .running) = true ↔
      queueExists s.cfg q = true ∧ (s.queue q).st = .running := by simp
  rw [← hcond]
  unfold dmaStep
  split
  next hen =>
    refine iff_of_false ?_ (not_not_intro hen)
    have hm := moveElement_not_refused q v s
    split
    · exact nofun
    · exact nofun
    next r h => exact absurd h (hm r)
  next hen => exact iff_of_true rfl hen

theorem errorStep_of_running {q : QueueId} {s : State} (he : queueExists s.cfg q = true)
    (hr : (s.queue q).st = .running) :
    errorStep q s = .next (s.setQueue q { s.queue q with errs := true, pendErr := true }) := by
  rw [errorStep, if_pos (by simp [he, hr])]

theorem errorStep_refused_iff (q : QueueId) (s : State) :
    errorStep q s = .refused .notEnabled ↔ ¬(queueExists s.cfg q = true ∧ (s.queue q).st = .running) := by
  refine ⟨fun h ⟨he, hr⟩ => ?_, fun h => if_neg (by simpa using h)⟩
  rw [errorStep_of_running he hr] at h
  cases h

/-- The enabled service step delivers from the state in which the completion is no longer pending. -/
theorem serviceStep_of_pending {q : QueueId} {x : Completion} {d : Dir} {i : Idx} {s : State}
    (ho : owner s.cfg q = some (d, i)) (he : queueExists s.cfg q = true) (hie : (s.queue q).ie = true)
    (hp : (s.queue q).pending x = true) :
    serviceStep q x s = deliver d i q x (s.setQueue q ((s.queue q).setPending x false)) := by
  simp only [serviceStep, ho, he, hie, hp, Bool.and_self, if_true]

/-- A queue that exists has an owner: a microphone's exists only beside an `SD` instance. -/
theorem owner_of_queueExists {p : Config.Params} {q : QueueId} (h : queueExists p q = true) :
    ∃ d i, owner p q = some (d, i) := by
  cases q with
  | qo i => exact ⟨.out, i, rfl⟩
  | qi j => exact ⟨.inp, j, rfl⟩
  | qm m =>
    simp only [queueExists, Bool.and_eq_true] at h
    obtain ⟨j, hj⟩ := Option.isSome_iff_exists.1 h.2
    exact ⟨.inp, j, by simp [owner, hj]⟩

/-- A delivery is a next state or a fault. -/
theorem deliver_not_refused (d : Dir) (i : Idx) (q : QueueId) (x : Completion) (s : State) (r : Refusal) :
    deliver d i q x s ≠ .refused r := by
  unfold deliver
  split
  · exact nofun
  · exact channelEvent_not_refused _ _ _ _ _
  · exact channelEvent_not_refused _ _ _ _ _
  · exact nofun
  · exact nofun

theorem serviceStep_refused_iff (q : QueueId) (x : Completion) (s : State) :
    serviceStep q x s = .refused .notEnabled ↔
      ¬(queueExists s.cfg q = true ∧ (s.queue q).ie = true ∧ (s.queue q).pending x = true) := by
  refine ⟨fun h ⟨he, hie, hp⟩ => ?_, fun h => ?_⟩
  · obtain ⟨d, i, ho⟩ := owner_of_queueExists he
    rw [serviceStep_of_pending ho he hie hp] at h
    exact deliver_not_refused _ _ _ _ _ _ h
  · unfold serviceStep
    cases owner s.cfg q with
    | none => rfl
    | some o => exact if_neg (by simpa [and_assoc] using h)

/-! ### Deliveries (R212, 60_exceptions.md R280) -/

/-- The kind of notification a completion gives where it is not an event of the reassembler. -/
def noticeOf : Completion → Notice
  | .ht => .half
  | .tc => .full
  | .err => .error

/-- Outside merge mode, on a serial queue, and for an error, a delivery is one notification. -/
theorem deliver_notifies {d : Dir} {i : Idx} {q : QueueId} {x : Completion} {s : State}
    (h : ∀ m, q = .qm m → x = .err ∨ s.sr.mbuf = true) :
    deliver d i q x s = .next (notify d i (noticeOf x) (chanOf q) s) := by
  unfold deliver
  split
  · rfl
  next m hm => simpa [hm] using h m rfl
  next m hm => simpa [hm] using h m rfl
  · rfl
  · rfl

theorem serviceStep_notifies {q : QueueId} {x : Completion} {d : Dir} {i : Idx} {s : State}
    (ho : owner s.cfg q = some (d, i)) (he : queueExists s.cfg q = true) (hie : (s.queue q).ie = true)
    (hp : (s.queue q).pending x = true) (h : ∀ m, q = .qm m → x = .err ∨ s.sr.mbuf = true) :
    serviceStep q x s = .next { s.setQueue q ((s.queue q).setPending x false) with
      evlog := if (s.inst d i).cben.getLsbD (noticeOf x).bit then s.evlog ++ [⟨d, i, noticeOf x, chanOf q⟩]
        else s.evlog } := by
  rw [serviceStep_of_pending ho he hie hp, deliver_notifies (by rwa [setQueue_sr]), notify_eq, inst_setQueue,
    setQueue_evlog]
  split <;> simp

/-- In merge mode a half of a microphone's ChannelBuffer is an event of the reassembler. -/
theorem deliver_ht_merge {d : Dir} {i : Idx} {m : Mic} {s : State} (h : s.sr.mbuf = false) :
    deliver d i (.qm m) .ht s = channelEvent i m .first s := by
  simp only [deliver, h]

theorem deliver_tc_merge {d : Dir} {i : Idx} {m : Mic} {s : State} (h : s.sr.mbuf = false) :
    deliver d i (.qm m) .tc s = channelEvent i m .second s := by
  simp only [deliver, h]

end Sys2Proof.Machine

namespace Sys2Proof.Proofs

open Sys2Proof.Machine

/-- Settles O43: `send` and `store` are the two moves of a queue with a buffer in memory. -/
theorem dmaMovesOneElement : Obligations.DmaMovesOneElement := by
  intro s q v w a he hr hd hw ha fits
  rw [← hd.elementAddr_eq] at ha
  refine ⟨fun hp => ⟨_, dmaStep_of_running he hr (moveElement_send hd hp hw ha fits),
      fun hn => sentElement_eq hn w a⟩,
    fun hp hm => ⟨_, dmaStep_of_running he hr (moveElement_store hd hp hm hw ha fits), ?_, fun b hb => ?_, ?_⟩⟩
  · rw [setQueue_mem, memRead_memWrite_same]
  · rw [setQueue_mem, byteAt_memWrite_outside _ _ hb]
  · rw [setQueue_mem]

/-- Settles O44: the move of a microphone in merge mode is a write of one sample. -/
theorem dmaFillsTheChannelBuffer : Obligations.DmaFillsTheChannelBuffer := by
  intro s m v he hr hd hm
  refine ⟨_, dmaStep_of_running he hr (moveElement_sample hd hm), ?_, fun m' k hk hne => ?_, fun a => ?_, ?_⟩
  · rw [setQueue_cb, sampleAt_writeSample_same]
  · rw [setQueue_cb, sampleAt_writeSample_ne _ _ (BitVec.isLt _) hk hne]
  · rw [setQueue_mem]
  · rw [setQueue_cb]

/-- Settles O42: no step that is enabled answers a refusal. -/
theorem enabledSteps : Obligations.EnabledSteps :=
  fun s q v x => ⟨dmaStep_refused_iff q v s, errorStep_refused_iff q s, serviceStep_refused_iff q x s⟩

/-- Settles O45: the three cases of the advance exclude each other; a circular queue runs on at its end. -/
theorem completionPoints : Obligations.CompletionPoints := by
  intro q hcirc _
  obtain ⟨hlast, e⟩ | ⟨hlast, hhalf, e⟩ | ⟨hlast, hhalf, e⟩ := advance_cases q
  · rw [hcirc, if_pos rfl] at e
    exact ⟨fun _ => e, fun h => absurd hlast h, fun h => absurd hlast h⟩
  · exact ⟨fun h => absurd h hlast, fun _ _ => e, fun _ h => absurd hhalf h⟩
  · exact ⟨fun h => absurd h hlast, fun _ h => absurd h hhalf, fun _ _ => e⟩

/-- Settles O46: the three completions by their notification, and in merge mode by the event of their half. -/
theorem serviceDeliversTheNotification : Obligations.ServiceDeliversTheNotification := by
  intro s q d i he ho
  refine ⟨errorStep_of_running he, ?_, ?_⟩
  · intro x kind bit pending v chan hmem hie hp hq hchan
    have hc : chan = chanOf q := by subst hchan; cases q <;> rfl
    subst hc
    simp only [List.mem_cons, List.not_mem_nil, or_false, Prod.mk.injEq] at hmem
    obtain ⟨rfl, rfl, rfl, rfl, rfl⟩ | ⟨rfl, rfl, rfl, rfl, rfl⟩ | ⟨rfl, rfl, rfl, rfl, rfl⟩ := hmem <;>
      exact serviceStep_notifies ho he hie hp hq
  · rintro m rfl hm hie
    refine ⟨fun hp => ?_, fun hp => ?_⟩
    · exact (serviceStep_of_pending (x := .ht) ho he hie hp).trans (deliver_ht_merge (by rwa [setQueue_sr]))
    · exact (serviceStep_of_pending (x := .tc) ho he hie hp).trans (deliver_tc_merge (by rwa [setQueue_sr]))

end Sys2Proof.Proofs
end

section
/-! PROOFS. The primitives of the Transfer Engine (42_transfer_engine.md R200 to R206). -/

namespace Sys2Proof.Machine

/-- The descriptor the engine builds for a width, field by field (R201). -/
theorem descriptor_fields (p : Config.Params) (q : QueueId) (flow : Flow) {w : Nat} (hw : w = 2 ∨ w = 4) :
    tdValid (descriptor p q flow w) = true ∧ tdIsP2m (descriptor p q flow w) = decide (flow = .p2m) ∧
    tdWidth (descriptor p q flow w) = w / 2 ∧ tdSinc (descriptor p q flow w) = decide (flow = .m2p) ∧
    tdDinc (descriptor p q flow w) = decide (flow = .p2m) ∧ tdCirc (descriptor p q flow w) = true ∧
    (descriptor p q flow w).extractLsb' 7 2 = (queueCfg p q).prio ∧
    (descriptor p q flow w).getLsbD 9 = (queueCfg p q).list ∧ (descriptor p q flow w).extractLsb' 10 22 = 0 := by
  have hwidth : (BitVec.ofNat 2 (w / 2)).toNat = w / 2 := by
    rw [BitVec.toNat_ofNat]; exact Nat.mod_eq_of_lt (by omega)
  have h := tdWord_fields true (flow == .p2m) (BitVec.ofNat 2 (w / 2)) (flow == .m2p) (flow == .p2m) true
    (queueCfg p q).prio (queueCfg p q).list
  rw [hwidth] at h
  exact h

/-- `TE.Stop` succeeds on an idle queue, and else as its link answers (R205). -/
theorem teStop_answer (q : QueueId) (s : State) :
    (teStop q s).1 = ((s.queue q).st == .idle || answerOk s.nextAnswer) := by
  obtain ⟨hi, e⟩ | ⟨hi, e⟩ := teStop_cases q s <;> simp [e, hi]

end Sys2Proof.Machine

namespace Sys2Proof.Proofs

open Sys2Proof.Machine

/-- Settles O40: the equation of `TE.Configure`, with the descriptor read field by field. -/
theorem configureBuildsTheDescriptor : Obligations.ConfigureBuildsTheDescriptor := by
  intro s q flow w
  rw [teConfigure_eq]
  refine ⟨fun hn => if_neg (by simp [hn]), fun ha hw => ⟨_, if_pos ha, ?_⟩⟩
  rw [queue_setQueue_same]
  exact ⟨rfl, descriptor_fields s.cfg q flow hw⟩

/-- Settles O41: each primitive by its cases, the run state telling which one applies. -/
theorem primitivesFollowTheRunStates : Obligations.PrimitivesFollowTheRunStates := by
  intro s q base count
  have hpause := tePause_cases q s
  have hresume := teResume_cases q s
  refine ⟨fun h => ?_, fun h1 h2 => teStart_ready h1 h2, fun h => ?_, fun h => ?_, fun h => ?_,
    teStop_queue q s, teStop_answer q s, ?_⟩
  · obtain ⟨-, e⟩ | ⟨h1, h2, hv, hi, -⟩ := teStart_cases q base count s
    · exact e
    · obtain h | h | h | h := h
      · omega
      · omega
      · simp [hv] at h
      · exact absurd hi h
  · simp only [h, reduceCtorEq, false_and, or_false, true_and] at hpause hresume
    exact ⟨hpause, hresume⟩
  · simp only [h, reduceCtorEq, false_and, or_false, false_or, true_and] at hpause hresume
    exact ⟨hpause, hresume⟩
  · simp only [h, reduceCtorEq, false_and, or_false, false_or, true_and] at hpause hresume
    exact ⟨hresume, hpause⟩
  · rw [teStop_calls]
    by_cases hi : (s.queue q).st = .idle <;> simp [armed, hi]

end Sys2Proof.Proofs
end

section
/-! PROOFS. The Sample Reassembler (43_sample_reassembler.md R242 to R250): one sample, one channel event, the frames of
a merge, and the end of a merge. -/

namespace Sys2Proof.Machine

/-! ### One sample (R245, R246) -/

theorem sat16_eq (n : Int) : sat16 n = max (-32768) (min 32767 n) := by
  unfold sat16
  split
  · omega
  · split <;> omega

/-- A number that 16 bits hold is read back as itself. -/
theorem toInt_u16 {n : Int} (hlow : -32768 ≤ n) (hhigh : n ≤ 32767) : (u16 n).toInt = n :=
  BitVec.toInt_ofInt_eq_self (by decide) hlow (by omega)

/-! ### One channel event (R242, R250 (a)) -/

theorem markReady_first (m : Mic) (s : State) :
    markReady m .first s = { s with sr := { s.sr with
      rdy0 := s.sr.rdy0 ||| (1#12 <<< m.val), ovr := s.sr.ovr || s.sr.rdy0.getLsbD m.val } } := rfl

theorem markReady_second (m : Mic) (s : State) :
    markReady m .second s = { s with sr := { s.sr with
      rdy1 := s.sr.rdy1 ||| (1#12 <<< m.val), ovr := s.sr.ovr || s.sr.rdy1.getLsbD m.val } } := rfl

/-- The enabled set is not touched, so the bank after the event is compared with the set before it (R243). -/
theorem channelEvent_eq (j : Idx) (m : Mic) (h : Half) (s : State) :
    channelEvent j m h s = if (markReady m h s).sr.rdy h &&& s.sr.en = s.sr.en
      then merge j h (markReady m h s) else .next (markReady m h s) := by
  have hen : (markReady m h s).sr.en = s.sr.en := setRdy_en ..
  rw [channelEvent, hen]

/-! ### The frames of a merge (R244, R247) -/

/-- A slot fills its two bytes, so reading them gives it back. -/
theorem memRead_memWrite_slot (m : Memory) (a : Nat) (x : BitVec 16) :
    memRead (memWrite m a 2 x.toNat) a 2 = x.toNat := by
  rw [memRead_memWrite_same]
  exact Nat.mod_eq_of_lt x.isLt

section Frames

variable {shift cap n k at_ : Nat} {cb : ChannelMemory} {h : Half} {c0 c1 : Mic}

theorem byteAt_framesMem_outside (m : Memory) {b : Nat} (hb : b < at_ ∨ at_ + 4 * n ≤ b) :
    byteAt (framesMem shift cap cb h c0 c1 n k at_ m) b = byteAt m b := by
  induction n generalizing k at_ m with
  | zero => rfl
  | succ n ih =>
    rw [framesMem, ih _ (by omega), byteAt_memWrite_outside _ _ (by omega), byteAt_memWrite_outside _ _ (by omega)]

/-- Later frames leave what lies below them. -/
theorem memRead_framesMem_below (m : Memory) {b w : Nat} (hb : b + w ≤ at_) :
    memRead (framesMem shift cap cb h c0 c1 n k at_ m) b w = memRead m b w :=
  memRead_congr w fun _ _ => byteAt_framesMem_outside m (.inl (by omega))

/-- Frame `i` of those written holds sample `k + i` of both channels, whatever frames follow it. -/
theorem memRead_framesMem (m : Memory) {i : Nat} (hi : i < n) :
    memRead (framesMem shift cap cb h c0 c1 n k at_ m) (at_ + 4 * i) 2
        = (slotOf shift (sampleAt cb c0 (halfIndex cap h (k + i)))).toNat ∧
      memRead (framesMem shift cap cb h c0 c1 n k at_ m) (at_ + 4 * i + 2) 2
        = (slotOf shift (sampleAt cb c1 (halfIndex cap h (k + i)))).toNat := by
  induction n generalizing k at_ m i with
  | zero => exact absurd hi (Nat.not_lt_zero i)
  | succ n ih =>
    rw [framesMem]
    cases i with
    | zero =>
      rw [memRead_framesMem_below _ (by omega), memRead_framesMem_below _ (by omega)]
      exact ⟨(memRead_memWrite_outside _ _ _ _ _ _ (.inl (by omega))).trans (memRead_memWrite_slot ..),
        memRead_memWrite_slot ..⟩
    | succ i =>
      have haddr : at_ + 4 * (i + 1) = at_ + 4 + 4 * i := by omega
      have hsample : k + (i + 1) = k + 1 + i := by omega
      rw [haddr, hsample]
      exact ih _ (Nat.lt_of_succ_lt_succ hi)

end Frames

/-! ### A merge whose cursor does not wrap -/

/-- The registers once the frames are written: the skew bit noted (R250 (b)) and the cursor behind them (R247). -/
def framesRegs (h : Half) (cap : Nat) (r : Reassembler) : Reassembler :=
  { r with
    ovr := r.ovr || (r.rdy h.other &&& r.en) != 0
    cur := r.cur + BitVec.ofNat 16 (2 * (cap / 2)) }

/-- The next state of a merge: the frames, the registers at its end, and its notifications. -/
theorem merge_eq (j : Idx) (h : Half) {s : State} {c0 c1 : Mic} (hchan : frameChannels s.sr = some (c0, c1))
    (hfits : s.sr.tgt.toNat + 2 * (s.sr.cur.toNat + 2 * (s.cfg.cap / 2)) ≤ 2 ^ 32)
    (hcur : s.sr.cur.toNat + 2 * (s.cfg.cap / 2) ≤ 65535) :
    merge j h s = .next { s with
      mem := framesMem s.cfg.shift s.cfg.cap s.cb h c0 c1 (s.cfg.cap / 2) 0
        (s.sr.tgt.toNat + 2 * s.sr.cur.toNat) s.mem
      sr := mergeEndRegs h (framesRegs h s.cfg.cap s.sr)
      evlog := s.evlog ++ mergeEndLog j { s with sr := framesRegs h s.cfg.cap s.sr } } := by
  have hframes := mergeFrames_eq h c0 c1 (s.cfg.cap / 2) 0 (noteSkew h s) (Nat.lt_of_le_of_lt hcur (by decide))
  simp only [merge, hchan]
  rw [if_neg (Nat.not_lt.mpr hfits), hframes, mergeEnd_eq]
  rfl

theorem framesRegs_rdy (h b : Half) (cap : Nat) (r : Reassembler) : (framesRegs h cap r).rdy b = r.rdy b := by
  cases b <;> rfl

theorem framesRegs_cur_toNat {cap : Nat} (h : Half) (r : Reassembler) (heven : cap % 2 = 0)
    (hcur : r.cur.toNat + cap ≤ 65535) : (framesRegs h cap r).cur.toNat = r.cur.toNat + cap := by
  rw [framesRegs, BitVec.toNat_add, mergeSlots_toNat heven (by omega), Nat.mod_eq_of_lt (by omega)]

/-! ### The end of a merge (R244, R247, R250) -/

theorem mergeEndRegs_rdy_same (h : Half) (r : Reassembler) :
    (mergeEndRegs h r).rdy h = if r.cur = r.size then 0 else r.rdy h &&& ~~~r.en := by
  unfold mergeEndRegs
  split
  · cases h <;> rfl
  · exact rdy_setRdy_same ..

theorem mergeEndRegs_rdy_other (h : Half) (r : Reassembler) :
    (mergeEndRegs h r).rdy h.other = if r.cur = r.size then 0 else r.rdy h.other := by
  unfold mergeEndRegs
  split
  · cases h <;> rfl
  · exact rdy_setRdy_other ..

/-- The end of a merge leaves the fields that hold the session, and `OVR`. -/
theorem mergeEndRegs_frame (h : Half) (r : Reassembler) :
    mergeEndRegs h r = { r with
      cur := (mergeEndRegs h r).cur, rdy0 := (mergeEndRegs h r).rdy0, rdy1 := (mergeEndRegs h r).rdy1 } := by
  unfold mergeEndRegs
  split
  · rfl
  · cases h <;> rfl

end Sys2Proof.Machine

namespace Sys2Proof.Proofs

open Sys2Proof.Machine

/-- Settles O49: a merge that ends has its frames below `2^32`, and its memory is that of the frames. -/
theorem mergeWritesTheFrames : Obligations.MergeWritesTheFrames := by
  intro s t j h c0 c1 hchan hcur hm
  obtain ⟨-, -, -, hfits, -⟩ := merge_cases hm
  obtain rfl := Host.Outcome.next.inj ((merge_eq j h hchan hfits hcur).symm.trans hm)
  refine ⟨fun k hk => ?_, fun a ha => byteAt_framesMem_outside s.mem ha⟩
  simpa only [Nat.zero_add] using memRead_framesMem (k := 0) s.mem hk

/-- Settles O50: `CAP` is even, so the frames move the cursor by `CAP`, and the room for them keeps it from wrapping. -/
theorem mergeAdvancesAndNotifies : Obligations.MergeAdvancesAndNotifies := by
  intro s j h c0 c1 cur hwf hchan hcur hsize htgt
  obtain ⟨⟨-, -, heven⟩, -, -⟩ := wf_capacity_mics_sdCodec hwf
  have hmax := s.sr.size.isLt
  have hnew : (framesRegs h s.cfg.cap s.sr).cur.toNat = cur :=
    (framesRegs_cur_toNat h s.sr heven (by omega)).trans hcur.symm
  have hend : (framesRegs h s.cfg.cap s.sr).cur = (framesRegs h s.cfg.cap s.sr).size ↔ cur = s.sr.size.toNat := by
    rw [← BitVec.toNat_inj, hnew]
    rfl
  refine ⟨_, merge_eq j h hchan (by omega) (by omega), ?_, ?_, ?_, ?_, ?_, rfl, ?_⟩
  · simp only [mergeEndRegs_cur, hend, apply_ite BitVec.toNat, hnew]
    rfl
  · simp only [mergeEndRegs_rdy_same, hend, framesRegs_rdy]
    rfl
  · simp only [mergeEndRegs_rdy_other, hend, framesRegs_rdy]
  · simp only [mergeEndRegs_ovr, framesRegs, bne, beq_eq_decide, decide_not, ne_eq]
  · simp only [mergeEndLog, hnew, hend, List.append_assoc]
    rfl
  · simp only [mergeEndRegs_ovr]
    exact mergeEndRegs_frame ..

/-- Settles O47: the clamped number fits 16 bits. -/
theorem slotIsScaledAndClamped : Obligations.SlotIsScaledAndClamped := by
  intro shift raw
  rw [slotOf, sat16_eq, asr]
  exact toInt_u16 (by omega) (by omega)

/-- Settles O48: the state the event leaves or merges from is that of `markReady`, for each half. -/
theorem mergeWaitsForTheLastChannel : Obligations.MergeWaitsForTheLastChannel := by
  intro s j m r
  refine ⟨?_, ?_⟩
  · rintro rfl
    rw [channelEvent_eq, markReady_first, Reassembler.rdy]
  · rintro rfl
    rw [channelEvent_eq, markReady_second, Reassembler.rdy]

end Sys2Proof.Proofs
end

section
/-! PROOFS. How every command ends (60_exceptions.md R270 to R274): its checks on the operands come first and are all
`WrongParam`, a failed check writes `STATUS` only, and the code written is one of the table. -/

namespace Sys2Proof.Machine

/-! ### The codes (R270, R271) -/

/-- The codes of the kinds that a check names. -/
theorem code_of_check {e : Status} :
    e.code = 0xFFFFFFFE ∨ e.code = 0xFFFFFFFD ∨ e.code = 0xFFFFFFF5 ↔
      e = .wrongParam ∨ e = .busy ∨ e = .featureNotSupported := by
  cases e <;> decide

/-- A kind that a collaborator's failure gives is none that a check names. -/
theorem not_check_of_late {e : Status} (h : e.late = true) :
    ¬(e = .wrongParam ∨ e = .busy ∨ e = .featureNotSupported) := by
  rintro (rfl | rfl | rfl) <;> cases h

theorem Fails.late {s u : State} {i : Instr} {e : Status} (h : Fails s i e u) : e.late = true := by
  cases h with
  | kept he _ _ _ _ _ => exact he
  | deinit he _ _ _ => exact he

/-- The word a command leaves in `STATUS` is the code of a kind. -/
theorem exec_status {i : Instr} {s t : State} (h : exec i s = .next t) : ∃ e : Status, t.status = e.code := by
  cases exec_cases h with
  | @refused e _ => exact ⟨e, rfl⟩
  | @failed e _ _ => exact ⟨e, rfl⟩
  | succeeded _ => exact ⟨.ok, rfl⟩

/-! ### The operands (R103 to R105, R130, R272) -/

/-- The checks of a command on its operands, before those on the state: `true` is a fault. A command that is not listed
checks its instance only. -/
def operandFaults (s : State) : Instr → List Bool
  | .init d n ch bits mbz vol =>
    [!valid s.cfg d n, badInit s.cfg d n s.arg0 s.arg1 ch bits mbz vol, tooFewMics s.cfg d n s.arg0 ch]
  | .play n => [!valid s.cfg .out n, badBuffer s.cfg (width (s.inst .out n).bits) s.arg0 s.arg1]
  | .record n =>
    [!valid s.cfg .inp n,
     if isSd s.cfg .inp n then
       badBuffer s.cfg 2 s.arg0 s.arg1 || decide (s.arg1.toNat / 2 % (2 * s.cfg.cap) ≠ 0)
     else badBuffer s.cfg (width (s.inst .inp n).bits) s.arg0 s.arg1]
  | .recordm n =>
    [!valid s.cfg .inp n || !isSd s.cfg .inp n, badTable s.cfg s.arg0 s.arg1,
     (bitList (mics s.cfg (s.inst .inp n).device)).any
       fun m => badEntry s.cfg s.arg1 (tableEntry s.mem s.arg0 m)]
  | .setdev d n =>
    [!valid s.cfg d n || !devOk s.cfg d n s.arg0, tooFewMics s.cfg d n s.arg0 (s.inst d n).chans]
  | .setrate d n => [!valid s.cfg d n || !rateOk s.cfg d n s.arg0]
  | .setbits d n mbz bits =>
    [!valid s.cfg d n || mbz != 0 || !comboOk s.cfg d n bits (chansOr1 (s.inst d n).chans)]
  | .setch d n mbz ch =>
    [!valid s.cfg d n || mbz != 0 || !chansLegal ch || !comboOk s.cfg d n (bitsOr16 (s.inst d n).bits) ch,
     (s.inst d n).life != .reset && tooFewMics s.cfg d n (s.inst d n).device ch]
  | .setvol d n mbz vol => [!valid s.cfg d n || (mbz != 0 || !volLegal vol)]
  | .regcb d n mbz _ => [!valid s.cfg d n || mbz != 0]
  | i => [!valid s.cfg i.target.1 i.target.2]

/-- Every command is its operand checks, each `WrongParam`, then its checks on the state, then its steps. -/
theorem exec_eq_command (i : Instr) (s : State) : ∃ (rest : List (Bool × Status)) (body : State → Res),
    exec i s = command ((operandFaults s i).map (·, Status.wrongParam) ++ rest) body s := by
  cases i
  case record n =>
    rw [exec, execRecord, operandFaults]
    split
    · exact ⟨_, _, rfl⟩
    · exact ⟨_, _, rfl⟩
  all_goals
    simp only [exec, execInit, execDeinit, execPlay, execRecordm, execPause, execResume, execStop, execMute, execUnmute,
      execIsmute, execSetvol, execGetvol, execSetdev, execGetdev, execSetrate, execGetrate, execSetbits, execGetbits,
      execSetch, execGetch, execGetstate, execRegcb, getter, forwardToCodec, Bool.or_false]
    exact ⟨_, _, rfl⟩

/-- A fault among the leading checks of one kind is the first failure. -/
theorem firstFailure_of_mem {faults : List Bool} (h : true ∈ faults) (e : Status) (rest : List (Bool × Status)) :
    firstFailure (faults.map (·, e) ++ rest) = some e := by
  induction faults with
  | nil => simp at h
  | cons b faults ih =>
    rw [List.map_cons, List.cons_append, firstFailure_cons]
    cases b with
    | true => rfl
    | false => exact ih (by simpa using h)

theorem exec_of_operandFault {i : Instr} {s : State} (h : true ∈ operandFaults s i) :
    exec i s = .next { s with status := 0xFFFFFFFE } := by
  obtain ⟨rest, body, he⟩ := exec_eq_command i s
  exact he.trans (command_fails (firstFailure_of_mem h .wrongParam rest) body s)

/-- Every command checks its instance, alone or with others of its operands. -/
theorem operandFaults_of_invalid {i : Instr} {s : State} (h : valid s.cfg i.target.1 i.target.2 = false) :
    true ∈ operandFaults s i := by
  cases i <;> rw [Instr.target] at h <;> simp [operandFaults, Instr.target, h]

theorem comboOk_of_illegal {p : Config.Params} {d : Dir} {n : Idx} {bits : BitVec 6} (h : bitsLegal bits = false)
    (ch : BitVec 2) : comboOk p d n bits ch = false := by
  by_contra hc
  have := (comboOk_legal (Bool.eq_true_of_not_eq_false hc)).1
  simp [h] at this

/-- The five commands with an immediate check its range among their operands; no other word is ill-formed. -/
theorem operandFaults_of_illFormed {i : Instr} (s : State) (h : i.wellFormed = false) : true ∈ operandFaults s i := by
  cases i with
  | init | setvol | setch | regcb => grind [operandFaults, Instr.wellFormed, badInit]
  | setbits => grind [operandFaults, Instr.wellFormed, comboOk_of_illegal]
  | _ => cases h

/-! ### The checks in the words of R272 -/

theorem tooFewMics_iff {p : Config.Params} {d : Dir} {n : Idx} {dev : Word} {ch : BitVec 2} :
    tooFewMics p d n dev ch = true ↔ TooFewMics p d n dev ch := by
  simp [tooFewMics, TooFewMics]

theorem badBuffer_iff {p : Config.Params} {w : Nat} {buf len : Word} :
    badBuffer p w buf len = true ↔ BadBuffer p w buf len := by
  simp [badBuffer, BadBuffer, or_assoc]

/-- An operand that INIT refuses fails its check on the ranges, or that on the microphones. -/
theorem badInit_or_tooFewMics {p : Config.Params} {d : Dir} {n : Idx} {dev rate : Word} {ch : BitVec 2}
    {bits : BitVec 6} (h : devOk p d n dev = false ∨ rateOk p d n rate = false ∨ comboOk p d n bits ch = false ∨
      TooFewMics p d n dev ch) (mbz : BitVec 1) (vol : BitVec 7) :
    badInit p d n dev rate ch bits mbz vol = true ∨ tooFewMics p d n dev ch = true := by
  rw [tooFewMics_iff]
  obtain h | h | h | h := h
  · simp [badInit, h]
  · simp [badInit, h]
  · simp [badInit, h]
  · exact .inr h

/-- A table that RECORDM refuses fails the check on the table and the length, or that on the entries. -/
theorem badTable_or_badEntry {s : State} {ms : BitVec 12} {tbl len : Word} (h : BadTable s ms tbl len) :
    badTable s.cfg tbl len = true ∨ (bitList ms).any (fun m => badEntry s.cfg len (tableEntry s.mem tbl m)) = true := by
  simp only [BadTable, ← or_assoc] at h
  obtain h | ⟨m, b, hm, rfl, hb⟩ := h
  · exact .inl (by simpa [badTable] using h)
  · refine .inr (List.any_eq_true.2 ⟨m, mem_bitList.2 hm, ?_⟩)
    simpa [badEntry, tableEntry] using hb

theorem chansOr1_eq (ch : BitVec 2) : chansOr1 ch = if ch = 1 ∨ ch = 2 then ch else 1 := by
  simp [chansOr1, chansLegal]

theorem bitsOr16_eq (bits : BitVec 6) :
    bitsOr16 bits = if bits = 16 ∨ bits = 24 ∨ bits = 32 then bits else 16 := by
  simp [bitsOr16, bitsLegal, or_assoc]

end Sys2Proof.Machine

namespace Sys2Proof.Proofs

open Sys2Proof.Machine

/-- Settles O11: the ten codes, one for each kind. -/
theorem statusIsAlwaysATableCode : Obligations.StatusIsAlwaysATableCode := by
  intro i s t h
  obtain ⟨e, he⟩ := exec_status h
  rw [he]
  cases e <;> decide

/-- Settles O13: of the ways a command ends, only a failed check gives one of the three codes. -/
theorem checkFailureWritesOnlyStatus : Obligations.CheckFailureWritesOnlyStatus := by
  intro i s t h hst
  cases exec_cases h with
  | refused _ => rfl
  | failed hf => exact absurd (code_of_check.1 hst) (not_check_of_late hf.late)
  | succeeded _ => exact absurd (code_of_check (e := .ok).1 hst) (by decide)

/-- Settles O10: a command is its checks and its steps, and both end in a next state. -/
theorem everyCommandCompletes : Obligations.EveryCommandCompletes := by
  intro i s
  obtain ⟨rest, body, he⟩ := exec_eq_command i s
  obtain ⟨e, -, hc⟩ | ⟨-, hc⟩ := command_cases ((operandFaults s i).map (·, .wrongParam) ++ rest) body s
  · exact ⟨_, he.trans hc⟩
  · exact ⟨_, he.trans hc⟩

/-- Settles O12: each clause is a fault among the operand checks of its command. -/
theorem badInstanceOrImmediateIsWrongParam : Obligations.BadInstanceOrImmediateIsWrongParam := by
  rintro s _ d n rfl
  refine ⟨fun i h => ?_, fun ch bits mbz vol h => ?_, fun h => ?_, fun h => ?_, fun mbz bits h => ?_, fun mbz ch h => ?_,
    fun h => ?_, fun hs h => ?_, fun hs h => ?_, fun h => ?_⟩ <;> apply exec_of_operandFault
  · exact h.elim operandFaults_of_invalid (operandFaults_of_illFormed s)
  · obtain h | h := badInit_or_tooFewMics h mbz vol <;> simp [operandFaults, h]
  · rw [← tooFewMics_iff] at h
    obtain h | h := h <;> simp [operandFaults, h]
  · simp [operandFaults, h]
  · rw [← chansOr1_eq] at h
    simp [operandFaults, h]
  · rw [← bitsOr16_eq, ← tooFewMics_iff] at h
    obtain h | ⟨hl, h⟩ := h
    · simp [operandFaults, h]
    · simp [operandFaults, hl, h]
  · have hb : badBuffer s.cfg (width (s.inst .out n).bits) s.arg0 s.arg1 = true := badBuffer_iff.2 h
    simp [operandFaults, hb]
  · have hb : badBuffer s.cfg (width (s.inst .inp n).bits) s.arg0 s.arg1 = true := badBuffer_iff.2 h
    simp [operandFaults, hs, hb]
  · rw [← badBuffer_iff] at h
    obtain h | h := h <;> simp [operandFaults, hs, h]
  · obtain hs | h := h
    · simp [operandFaults, hs]
    · obtain h | h := badTable_or_badEntry h <;> simp only [operandFaults, h, List.mem_cons, true_or, or_true]

end Sys2Proof.Proofs
end
